-- ==== Sys2Proof/Word.lean ====
section
/-!
DEFINITION. The word types of the Polpivo Z4 (R3, R4) and the names of its places: cores, seats, clusters,
engines, directions and the facts that the events of the outside carry.
-/

namespace Sys2Proof

/-- A byte, the smallest addressable unit. -/
abbrev Byte := BitVec 8

/-- A 64-bit register or address. -/
abbrev Word := BitVec 64

/-- A v register at the widest width a bench gives it, 512 * 16 bits (R168, R308). -/
abbrev VReg := BitVec 8192

/-- A predicate at that width, one bit per byte lane (R125, R168). -/
abbrev Pred := BitVec 1024

/-- The 512 bits of one core's vector (R1). -/
abbrev Vec512 := BitVec 512

/-- The name of a g register or of a v register, 5 bits (R125). -/
abbrev Reg := BitVec 5

/-- A core by its place in its die's logical grid (R7), or one of the seventeen Skoum cores (R78):
number 0 is the bureau, 1 to 16 the drawers. -/
inductive CoreId where
  | grid (die row col : Nat)
  | skoum (n : Nat)
deriving DecidableEq, Repr

/-- A seat of a core (R24). -/
structure SeatId where
  core : CoreId
  seat : Fin 4
deriving DecidableEq, Repr

/-- A cluster of 4 by 4 cores, by its place in its die's grid of clusters (R1). -/
structure ClusterId where
  die : Nat
  row : Nat
  col : Nat
deriving DecidableEq, Repr

/-- The engines of a core, in the order of epop's codes (R115). -/
inductive Engine where
  | mx | cp | sn
deriving DecidableEq, Repr

/-- The four neighbour directions, in the order of nsend's codes (R216). -/
inductive Dir where
  | north | east | south | west
deriving DecidableEq, Repr

/-- The candidates of one cycle of acceptance (R28): a seat's own spawn or a router input. -/
inductive InPort where
  | spawn (seat : Fin 4)
  | loc | north | east | south | west
deriving DecidableEq, Repr

/-- The virtual networks that messages take (R210). -/
inductive VNet where
  | req | am | rsp | mc
deriving DecidableEq, Repr

/-- The V form's fields (R104, R107). -/
structure VForm where
  ty : BitVec 2
  c : BitVec 1
  p : BitVec 3
  vb : BitVec 5
  va : BitVec 5
  vd : BitVec 5
deriving DecidableEq, Repr

/-- A clock region of the package: 100 times the die, plus the number that R368 gives. -/
abbrev RegionId := Nat

/-- An entry of a router's own table (R424): the output that a kind takes toward a core. -/
structure Route where
  at_ : CoreId
  kind : BitVec 2
  dst : CoreId
  out : Dir
deriving DecidableEq, Repr

/-- A router that fails, and the routes that the firmware programs around it (R430), which are its choice. -/
structure RouterLoss where
  at_ : CoreId
  routes : List Route
deriving DecidableEq, Repr

/-- Where the bureau puts a partition (R92): its id, its dies in virtual order, for a rectangle the cluster of its
top-left corner, and the routes of kinds 2 and 3 that it programs for it (R424). The spec leaves the choice to the bureau,
so an event carries it. -/
structure Place where
  part : BitVec 6
  dies : List Nat
  row : Nat
  col : Nat
  slot : Nat
  sram : List Nat
  routes : List Route
deriving DecidableEq, Repr

/-- A frame that lazy saving owns (R413): 4 KiB of a TCM, 16 KiB of a scratchpad or 1 MiB of a die's SRAM. -/
inductive FrameId where
  | tcm (c : CoreId) (f : Nat)
  | scratch (k : ClusterId) (f : Nat)
  | sram (die f : Nat)
deriving DecidableEq, Repr

/-- What a frame of the management channel asks (R376, R379, R442, R443), with the facts it carries. -/
inductive Mgmt where
  /-- The queue pair and rings of a virtual device: ring base, log2 of its entries, root, completion region,
  remote key, and its windows as half-open ranges of virtual addresses. -/
  | device (vd : Nat) (ring : Nat) (log2n : Nat) (root : Word) (compl : Word) (key : BitVec 32)
      (windows : List (Word × Word))
  /-- The remote key of a queue pair of a virtual device (R444): events name pair q of device d by the number d + 16 q. -/
  | queuePair (vd : Nat) (key : BitVec 32)
  /-- The job of a virtual device's contexts: its id, this package's index and the domain's size (R442). -/
  | job (vd : Nat) (job : BitVec 16) (index : Nat) (size : Nat)
  /-- The exit latency in ns that a virtual device accepts (R376). -/
  | tolerance (vd : Nat) (ns : BitVec 32)
  /-- A re-plan of every region is asked for (R379). -/
  | replan
deriving DecidableEq, Repr

/-- The facts of a boot (R385): the stage that fails, if one does, the clusters found retired, as die, physical row and
physical column, the routes that are programmed, and the Fiold and Ethernet links that fail. -/
structure BootFacts where
  fails : Option (BitVec 8)
  retired : List (Nat × Nat × Nat)
  routes : List Route
  fiold : List Nat
  ethernet : List Nat
deriving DecidableEq, Repr

/-- What a re-plan measures and sets in a region (R379). -/
structure PlanFacts where
  fmaxv : BitVec 16
  freq : BitVec 11
  volt : BitVec 12
deriving DecidableEq, Repr

/-- A frame that a Fiold port receives (R439): its control word's fields and whether its CRC is right. -/
structure FioldFrame where
  seq : BitVec 16
  ack : BitVec 16
  nak : Bool
  hb : Bool
  crcOk : Bool
deriving DecidableEq, Repr

/-- A packet that arrives over Fiold (R442): its Fiold word's fields and its contents. -/
inductive FioldPacket where
  /-- A message: the header of R425 as three words and its tag, and the payload. -/
  | message (job : BitVec 16) (spkg : BitVec 9) (vn : VNet) (routing : Word) (tag : BitVec 128)
      (acct : Word) (grp : BitVec 32) (payload : List Byte)
  /-- A copy unit: the command's count, the unit's index, its header and its data, and the privilege that it is translated
  with, for which R442 names no bits. -/
  | unit (job : BitVec 16) (spkg : BitVec 9) (cmd : BitVec 16) (idx : BitVec 32) (va : Word)
      (src : BitVec 20) (data : List Byte) (priv : BitVec 2)
  /-- An acknowledgement: a status byte for a unit. -/
  | ack (job : BitVec 16) (spkg : BitVec 9) (cmd : BitVec 16) (idx : BitVec 32) (dst : BitVec 20)
      (status : BitVec 8)
  /-- A read request. -/
  | read (job : BitVec 16) (spkg : BitVec 9) (cmd : BitVec 16) (idx : BitVec 32) (va : Word) (n : Nat)
      (src : BitVec 20) (priv : BitVec 2)
  /-- The response to a read request. -/
  | response (job : BitVec 16) (spkg : BitVec 9) (cmd : BitVec 16) (idx : BitVec 32) (dst : BitVec 20)
      (status : BitVec 8) (data : List Byte)
  /-- A SYS reply: the seat it goes to, its cause and value, and the work and group that it belongs to. -/
  | reply (job : BitVec 16) (spkg : BitVec 9) (dst : BitVec 20) (cause : BitVec 6) (value : BitVec 64)
      (work : BitVec 12) (grp : BitVec 32)
deriving DecidableEq, Repr

end Sys2Proof
end

