-- ==== Sys2Proof/Machine/Flags.lean ====
section
/-!
DEFINITION. The number formats (R234 to R237) and the floating-point arithmetic with its flags (R142 to R150,
R174, R175, R178 to R182). Every operation forms its exact value as an integer times a power of two and rounds
it once.
-/

namespace Sys2Proof.Machine

/-! ## Flags and rounding modes (R142, R143) -/

/-- The invalid-operation flag. -/
def flagNV : BitVec 5 := 16
/-- The division-by-zero flag. -/
def flagDZ : BitVec 5 := 8
/-- The overflow flag. -/
def flagOF : BitVec 5 := 4
/-- The underflow flag. -/
def flagUF : BitVec 5 := 2
/-- The inexact flag. -/
def flagNX : BitVec 5 := 1

/-- A flag if a condition holds. -/
def flagIf (b : Bool) (f : BitVec 5) : BitVec 5 := if b then f else 0

/-- The rounding directions of RM. -/
inductive Rm where
  | rne | rtz | rdn | rup | rmm
deriving DecidableEq, Repr

/-- RM from its field, which never holds 5 to 7 (R142). -/
def Rm.of (x : BitVec 3) : Rm :=
  if x = 1 then .rtz else if x = 2 then .rdn else if x = 3 then .rup else if x = 4 then .rmm else .rne

/-- The integer nearest to m / 2^d in a direction, for the magnitude m of a number of the given sign; d may be
negative, and the result is then exact. -/
def rint (rm : Rm) (neg : Bool) (m : Nat) (d : Int) : Nat :=
  if d ≤ 0 then m * 2 ^ (-d).toNat
  else
    let p := 2 ^ d.toNat
    let q := m / p
    let r := m % p
    let up : Bool :=
      match rm with
      | .rne => decide (p < 2 * r) || (decide (2 * r = p) && decide (q % 2 = 1))
      | .rtz => false
      | .rdn => neg && decide (r ≠ 0)
      | .rup => !neg && decide (r ≠ 0)
      | .rmm => decide (p ≤ 2 * r)
    if up then q + 1 else q

/-! ## Formats (R234, R235) -/

/-- A format: widths of exponent and fraction, bias, the largest finite magnitude's pattern, and whether an
infinity follows it and signalling NaNs exist. -/
structure Fmt where
  ebits : Nat
  fbits : Nat
  bias : Nat
  maxCode : Nat
  inf : Bool
  signals : Bool
deriving DecidableEq, Repr

/-- binary64. -/
def Fmt.f64 : Fmt := ⟨11, 52, 1023, 0x7FEFFFFFFFFFFFFF, true, true⟩
/-- binary32. -/
def Fmt.f32 : Fmt := ⟨8, 23, 127, 0x7F7FFFFF, true, true⟩
/-- binary16. -/
def Fmt.f16 : Fmt := ⟨5, 10, 15, 0x7BFF, true, true⟩
/-- bfloat16. -/
def Fmt.bf16 : Fmt := ⟨8, 7, 127, 0x7F7F, true, true⟩
/-- E5M2. -/
def Fmt.e5m2 : Fmt := ⟨5, 2, 15, 0x7B, true, false⟩
/-- E4M3. -/
def Fmt.e4m3 : Fmt := ⟨4, 3, 7, 0x7E, false, false⟩
/-- E2M1. -/
def Fmt.e2m1 : Fmt := ⟨2, 1, 1, 7, false, false⟩

/-- A datum: a NaN with its sign, whether it signals, and its fraction; an infinity; or a finite number
(-1)^neg * m * 2^e. -/
inductive Fl where
  | nan (neg signals : Bool) (frac : Nat)
  | inf (neg : Bool)
  | num (neg : Bool) (m : Nat) (e : Int)
deriving DecidableEq, Repr

/-- The sign of a datum. -/
def Fl.neg : Fl → Bool
  | .nan n _ _ => n
  | .inf n => n
  | .num n _ _ => n

/-- Whether a datum is a NaN. -/
def Fl.isNan : Fl → Bool
  | .nan _ _ _ => true
  | _ => false

/-- Whether a datum is a signalling NaN. -/
def Fl.isSnan : Fl → Bool
  | .nan _ s _ => s
  | _ => false

/-- Whether a datum is a zero. -/
def Fl.isZero : Fl → Bool
  | .num _ m _ => decide (m = 0)
  | _ => false

/-- Whether a datum is an infinity. -/
def Fl.isInf : Fl → Bool
  | .inf _ => true
  | _ => false

/-- A datum with the other sign. -/
def Fl.negate : Fl → Fl
  | .nan n s f => .nan n s f
  | .inf n => .inf (!n)
  | .num n m e => .num (!n) m e

/-- The width of a format in bits. -/
def Fmt.width (k : Fmt) : Nat := 1 + k.ebits + k.fbits

/-- The weight of the sign bit. -/
def Fmt.signBit (k : Fmt) : Nat := 2 ^ (k.ebits + k.fbits)

/-- The exponent of the last place of the subnormal numbers. -/
def Fmt.qmin (k : Fmt) : Int := 1 - (k.bias : Int) - (k.fbits : Int)

/-- Read a pattern (R235). -/
def Fmt.dec (k : Fmt) (x : Nat) : Fl :=
  let neg := x.testBit (k.ebits + k.fbits)
  let mag := x % k.signBit
  let f := mag % 2 ^ k.fbits
  let e := mag / 2 ^ k.fbits
  if k.maxCode < mag then
    if k.inf && decide (mag = k.maxCode + 1) then .inf neg
    else .nan neg (k.signals && !f.testBit (k.fbits - 1)) f
  else if e = 0 then .num neg f k.qmin
  else .num neg (2 ^ k.fbits + f) (k.qmin + (e - 1 : Nat))

/-- A pattern with its sign bit. -/
def Fmt.sign (k : Fmt) (neg : Bool) (mag : Nat) : Nat := if neg then k.signBit + mag else mag

/-- The pattern of an infinity; without one, of the largest finite number. -/
def Fmt.infCode (k : Fmt) : Nat := if k.inf then k.maxCode + 1 else k.maxCode

/-- The default NaN (R235). -/
def Fmt.defaultNan (k : Fmt) : Nat :=
  if k.inf then k.maxCode + 1 + 2 ^ (k.fbits - 1) else k.maxCode + 1

/-- A NaN of one format in another: sign kept, quiet, and the high payload bits that fit (R146, R150, R180). The
8-bit formats have one NaN each. -/
def Fmt.nanFrom (k src : Fmt) (neg : Bool) (frac : Nat) : Nat :=
  if k.signals then
    let f := if src.fbits ≤ k.fbits then frac * 2 ^ (k.fbits - src.fbits) else frac / 2 ^ (src.fbits - k.fbits)
    let f := if src.signals then f else 0
    k.sign neg (k.maxCode + 1 + (f ||| 2 ^ (k.fbits - 1)))
  else k.sign neg k.defaultNan

/-! ## Rounding (R145) -/

/-- The rounding of a positive magnitude m * 2^e: the magnitude's pattern at unbounded range, whether it exceeds
the largest finite one, whether it is inexact, and whether it is tiny after rounding. -/
structure Rounded where
  code : Nat
  huge : Bool
  inexact : Bool
  tiny : Bool
deriving DecidableEq, Repr

/-- Round a magnitude. -/
def Fmt.roundMag (k : Fmt) (rm : Rm) (neg : Bool) (m : Nat) (e : Int) : Rounded :=
  let q0 : Int := (m.log2 : Int) + e - k.fbits
  let q := if q0 < k.qmin then k.qmin else q0
  let n := rint rm neg m (q - e)
  let exact := if q ≤ e then true else decide (n * 2 ^ (q - e).toNat = m)
  let tiny := if q0 < k.qmin then
      decide (rint rm neg m (q0 - e) < 2 ^ (k.fbits + (k.qmin - q0).toNat)) else false
  let code := n + (q - k.qmin).toNat * 2 ^ k.fbits
  ⟨code, decide (k.maxCode < code), !exact, tiny⟩

/-- A result and the flags it raises. -/
structure FRes where
  bits : Nat
  flags : BitVec 5
deriving DecidableEq, Repr

/-- Round a finite number; an overflow gives infinity or the largest finite value as the direction decides. -/
def Fmt.round (k : Fmt) (rm : Rm) (neg : Bool) (m : Nat) (e : Int) : FRes :=
  if m = 0 then ⟨k.sign neg 0, 0⟩
  else
    let r := k.roundMag rm neg m e
    if r.huge then
      let toInf := match rm with
        | .rne => true
        | .rmm => true
        | .rtz => false
        | .rdn => neg
        | .rup => !neg
      ⟨k.sign neg (if toInf then k.infCode else k.maxCode), flagOF ||| flagNX⟩
    else ⟨k.sign neg r.code, flagIf r.inexact flagNX ||| flagIf (r.inexact && r.tiny) flagUF⟩

/-- A value known to lie strictly between m * 2^e and (m + 1) * 2^e, in a form that rounds as it does when m has
two bits more than the format's precision. -/
def between (m : Nat) (e : Int) : Nat × Int := (2 * m + 1, e - 1)

/-! ## Exact sums (R145 to R147, R174, R175) -/

/-- The product of two data; none for zero times infinity, and a NaN where one of them is a NaN. -/
def Fl.mul : Fl → Fl → Option Fl
  | .num n m e, .num n' m' e' => some (.num (n != n') (m * m') (e + e'))
  | .inf n, .num n' m _ => if m = 0 then none else some (.inf (n != n'))
  | .num n m _, .inf n' => if m = 0 then none else some (.inf (n != n'))
  | .inf n, .inf n' => some (.inf (n != n'))
  | .nan n s f, _ => some (.nan n s f)
  | _, .nan n s f => some (.nan n s f)

/-- The exact sum of finite data as an integer and the exponent of its last place. -/
def exactSum (ts : List (Bool × Nat × Int)) : Int × Int :=
  let e := ts.foldl (fun e t => if t.2.2 < e then t.2.2 else e) (ts.headD (false, 0, 0)).2.2
  (ts.foldl (fun i t => let x : Int := (t.2.1 * 2 ^ (t.2.2 - e).toNat : Nat); if t.1 then i - x else i + x) 0, e)

/-- Sign, magnitude and exponent of a finite datum. -/
def Fl.fin : Fl → Option (Bool × Nat × Int)
  | .num n m e => some (n, m, e)
  | _ => none

/-- The sign of an exact zero sum (R145). -/
def zeroSign (rm : Rm) (signs : List Bool) : Bool :=
  if signs.all id then true else if signs.any id then decide (rm = .rdn) else false

/-- The sum of terms that are no NaNs: ∞ - ∞ is none. -/
def Fmt.sumTerms (k : Fmt) (rm : Rm) (ts : List Fl) : Option FRes :=
  let infs := ts.filter Fl.isInf
  match infs with
  | i :: _ => if infs.all fun x => x.neg == i.neg then some ⟨k.sign i.neg k.infCode, 0⟩ else none
  | [] =>
    let x := exactSum (ts.filterMap Fl.fin)
    if x.1 = 0 then some ⟨k.sign (zeroSign rm (ts.map Fl.neg)) 0, 0⟩
    else some (k.round rm (decide (x.1 < 0)) x.1.natAbs x.2)

/-- The first NaN of the sources, quiet and in the result's format (R146). -/
def Fmt.nanOf (k : Fmt) : List (Fmt × Nat) → Option Nat
  | [] => none
  | (f, x) :: r =>
    match f.dec x with
    | .nan n _ fr => some (k.nanFrom f n fr)
    | _ => k.nanOf r

/-- An operation that sums terms: NaN sources in order, then the terms, a term being none for an invalid product.
A NaN source gives the result; NV is set for a signalling source, an invalid product or ∞ - ∞. -/
def Fmt.fused (k : Fmt) (rm : Rm) (srcs : List (Fmt × Nat)) (ts : List (Option Fl)) : FRes :=
  let sn := srcs.any fun x => (x.1.dec x.2).isSnan
  let bad := ts.any Option.isNone
  let good := (ts.filterMap id).filter fun t => !t.isNan
  let sum := k.sumTerms rm good
  let nv := flagIf (sn || bad || sum.isNone) flagNV
  match k.nanOf srcs with
  | some x => ⟨x, nv⟩
  | none =>
    match bad, sum with
    | false, some r => r
    | _, _ => ⟨k.defaultNan, nv⟩

/-! ## The operations of R147 -/

/-- gA + gB. -/
def Fmt.add (k : Fmt) (rm : Rm) (a b : Nat) : FRes :=
  k.fused rm [(k, a), (k, b)] [some (k.dec a), some (k.dec b)]

/-- gA - gB. -/
def Fmt.sub (k : Fmt) (rm : Rm) (a b : Nat) : FRes :=
  k.fused rm [(k, a), (k, b)] [some (k.dec a), some (k.dec b).negate]

/-- gA * gB. -/
def Fmt.mul (k : Fmt) (rm : Rm) (a b : Nat) : FRes :=
  k.fused rm [(k, a), (k, b)] [(k.dec a).mul (k.dec b)]

/-- gA * gB + c. -/
def Fmt.fma (k : Fmt) (rm : Rm) (a b c : Nat) : FRes :=
  k.fused rm [(k, a), (k, b), (k, c)] [(k.dec a).mul (k.dec b), some (k.dec c)]

/-- c - gA * gB (R174). -/
def Fmt.fmsub (k : Fmt) (rm : Rm) (a b c : Nat) : FRes :=
  k.fused rm [(k, a), (k, b), (k, c)] [((k.dec a).mul (k.dec b)).map Fl.negate, some (k.dec c)]

/-- The quotient of two positive magnitudes, with bits enough for any format. -/
def quotient (m m' : Nat) (e : Int) : Nat × Int :=
  let sh := 64 + m'.log2 - m.log2
  let q := m * 2 ^ sh / m'
  if m * 2 ^ sh % m' = 0 then (q, e - sh) else between q (e - sh)

/-- gA / gB. -/
def Fmt.div (k : Fmt) (rm : Rm) (a b : Nat) : FRes :=
  let x := k.dec a
  let y := k.dec b
  match k.nanOf [(k, a), (k, b)] with
  | some n => ⟨n, flagIf (x.isSnan || y.isSnan) flagNV⟩
  | none =>
    match x, y with
    | .num n m e, .num n' m' e' =>
      if m' = 0 then
        if m = 0 then ⟨k.defaultNan, flagNV⟩ else ⟨k.sign (n != n') k.infCode, flagDZ⟩
      else if m = 0 then ⟨k.sign (n != n') 0, 0⟩
      else let q := quotient m m' (e - e'); k.round rm (n != n') q.1 q.2
    | .inf n, .num n' _ _ => ⟨k.sign (n != n') k.infCode, 0⟩
    | .num n _ _, .inf n' => ⟨k.sign (n != n') 0, 0⟩
    | _, _ => ⟨k.defaultNan, flagNV⟩

/-- The integer square root of a number below 4^k. -/
def isqrt (n : Nat) : Nat → Nat → Nat
  | 0, r => r
  | i + 1, r => isqrt n i (if (r + 2 ^ i) * (r + 2 ^ i) ≤ n then r + 2 ^ i else r)

/-- The square root of a positive magnitude, with bits enough for any format. -/
def rootOf (m : Nat) (e : Int) : Nat × Int :=
  let sh := 128 + (if (e + m.log2) % 2 = 0 then 0 else 1) + (m.log2 % 2)
  let n := m * 2 ^ sh
  let r := isqrt n (n.log2 / 2 + 1) 0
  let e' := (e - sh) / 2
  if r * r = n then (r, e') else between r e'

/-- The square root of gA. -/
def Fmt.sqrt (k : Fmt) (rm : Rm) (a : Nat) : FRes :=
  match k.dec a with
  | .nan n s f => ⟨k.nanFrom k n f, flagIf s flagNV⟩
  | .inf false => ⟨k.sign false k.infCode, 0⟩
  | .inf true => ⟨k.defaultNan, flagNV⟩
  | .num n m e =>
    if m = 0 then ⟨k.sign n 0, 0⟩
    else if n then ⟨k.defaultNan, flagNV⟩
    else let r := rootOf m e; k.round rm false r.1 r.2

/-! ## Selection, comparison, classification and signs (R148, R149) -/

/-- Signed comparison of finite data: whether x < y. -/
def finLt (x y : Bool × Nat × Int) : Bool := decide ((exactSum [x, (!y.1, y.2.1, y.2.2)]).1 < 0)

/-- x < y for data that are no NaNs; zeros are equal. -/
def Fl.lt : Fl → Fl → Bool
  | .num n m e, .num n' m' e' => finLt (n, m, e) (n', m', e')
  | .inf n, .inf n' => n && !n'
  | .inf n, .num _ _ _ => n
  | .num _ _ _, .inf n => !n
  | _, _ => false

/-- x = y for data that are no NaNs. -/
def Fl.eq : Fl → Fl → Bool
  | .num n m e, .num n' m' e' => decide ((exactSum [(n, m, e), (!n', m', e')]).1 = 0)
  | .inf n, .inf n' => n == n'
  | _, _ => false

/-- minimumNumber and maximumNumber, with -0 below +0. -/
def Fmt.minmax (k : Fmt) (isMax : Bool) (a b : Nat) : FRes :=
  let x := k.dec a
  let y := k.dec b
  let fl := flagIf (x.isSnan || y.isSnan) flagNV
  if x.isNan && y.isNan then ⟨k.defaultNan, fl⟩
  else if x.isNan then ⟨b, fl⟩
  else if y.isNan then ⟨a, fl⟩
  else
    let less := x.lt y || (x.isZero && y.isZero && x.neg && !y.neg)
    ⟨if less != isMax then a else if x.eq y && (x.neg == y.neg) then a else b, fl⟩

/-- fcmp.eq: whether equal, with NV for a signalling NaN. -/
def Fmt.cmpEq (k : Fmt) (a b : Nat) : Bool × BitVec 5 :=
  let x := k.dec a
  let y := k.dec b
  if x.isNan || y.isNan then (false, flagIf (x.isSnan || y.isSnan) flagNV) else (x.eq y, 0)

/-- fcmp.lt, with NV for any NaN. -/
def Fmt.cmpLt (k : Fmt) (a b : Nat) : Bool × BitVec 5 :=
  let x := k.dec a
  let y := k.dec b
  if x.isNan || y.isNan then (false, flagNV) else (x.lt y, 0)

/-- fcmp.le, with NV for any NaN. -/
def Fmt.cmpLe (k : Fmt) (a b : Nat) : Bool × BitVec 5 :=
  let x := k.dec a
  let y := k.dec b
  if x.isNan || y.isNan then (false, flagNV) else (x.lt y || x.eq y, 0)

/-- The class bit of a pattern (R148). -/
def Fmt.classBit (k : Fmt) (a : Nat) : Nat :=
  match k.dec a with
  | .nan _ s _ => if s then 8 else 9
  | .inf n => if n then 0 else 7
  | .num n m _ =>
    if m = 0 then (if n then 3 else 4)
    else if m < 2 ^ k.fbits then (if n then 2 else 5)
    else (if n then 1 else 6)

/-- The magnitude of a with a sign bit. -/
def Fmt.withSign (k : Fmt) (a : Nat) (neg : Bool) : Nat := k.sign neg (a % k.signBit)

/-- The sign bit of a pattern. -/
def Fmt.neg? (k : Fmt) (a : Nat) : Bool := a.testBit (k.ebits + k.fbits)

/-! ## Conversions (R150, R178 to R180) -/

/-- To an integer range by RM: NaN and values above give the top, values below the bottom, with NV. -/
def Fmt.toInt (k : Fmt) (rm : Rm) (a : Nat) (lo hi : Int) : Int × BitVec 5 :=
  match k.dec a with
  | .nan _ _ _ => (hi, flagNV)
  | .inf n => (if n then lo else hi, flagNV)
  | .num n m e =>
    let x := rint rm n m (-e)
    let v : Int := if n then -(x : Int) else x
    if v < lo then (lo, flagNV)
    else if hi < v then (hi, flagNV)
    else (v, flagIf (decide (e < 0) && decide (x * 2 ^ (-e).toNat ≠ m)) flagNX)

/-- From an integer by RM. -/
def Fmt.ofInt (k : Fmt) (rm : Rm) (i : Int) : FRes := k.round rm (decide (i < 0)) i.natAbs 0

/-- Between scalar formats under R145 (fcvt code 4). -/
def Fmt.convert (k src : Fmt) (rm : Rm) (a : Nat) : FRes :=
  match src.dec a with
  | .nan n s f => ⟨k.nanFrom src n f, flagIf s flagNV⟩
  | .inf n => ⟨k.sign n k.infCode, 0⟩
  | .num n m e => k.round rm n m e

/-- Between vector formats (R180): a value above the range saturates, with OF and NX, and so does an infinity in
E4M3, with OF. -/
def Fmt.vconvert (k src : Fmt) (rm : Rm) (a : Nat) : FRes :=
  match src.dec a with
  | .nan n s f => ⟨k.nanFrom src n f, flagIf s flagNV⟩
  | .inf n => ⟨k.sign n k.infCode, flagIf (!k.inf) flagOF⟩
  | .num n m e =>
    if m = 0 then ⟨k.sign n 0, 0⟩
    else
      let r := k.roundMag rm n m e
      if r.huge then ⟨k.sign n k.maxCode, flagOF ||| flagNX⟩ else k.round rm n m e

/-! ## Special functions (R181, R182)

The exact value of a special function is formed in fixed point with 640 fraction bits, of which the last sixteen
are guard bits. An inexact value is then handed to the rounding as a number strictly inside the interval found.
No operand of f16, bf16 or f32 has an exact value nearer than 2^-500 to a rounding boundary without being on it
(log entry 7), so the interval never holds one. -/

/-- The fraction bits of the fixed-point values. -/
def fxBits : Nat := 640

/-- The sum of t^(2k+1)/(2k+1) over n terms, with alternating signs if asked: atan or atanh of num/den. -/
def atanSeries (alt : Bool) (num den : Nat) : Nat → Nat → Nat → Bool → Int → Int
  | 0, _, _, _, acc => acc
  | n + 1, pow, k, neg, acc =>
    let term : Int := (pow / k : Nat)
    atanSeries alt num den n (pow * num * num / (den * den)) (k + 2) (alt && !neg)
      (if neg then acc - term else acc + term)

/-- atanh(num/den), for a ratio of at most 1/3. -/
def fxAtanh (num den : Nat) : Nat :=
  (atanSeries false num den 210 (num * 2 ^ fxBits / den) 1 false 0).toNat

/-- atan(1/den), for den at least 5. -/
def fxAtanInv (den : Nat) : Int := atanSeries true 1 den 145 (2 ^ fxBits / den) 1 false 0

/-- The natural logarithm of 2. -/
def fxLn2 : Nat := 2 * fxAtanh 1 3

/-- π, by Machin's formula. -/
def fxPi : Nat := (16 * fxAtanInv 5 - 4 * fxAtanInv 239).toNat

/-- Terms of a power series: t is multiplied in and divided by (k+1)...(k+stride), with the sign given. -/
def powerSeries (t : Int) (stride : Nat) (alt : Bool) : Nat → Nat → Int → Int → Int
  | 0, _, _, acc => acc
  | n + 1, k, term, acc =>
    let d : Int := if stride = 1 then k + 1 else (k + 1) * (k + 2)
    let term' := term * t / 2 ^ fxBits / d
    let term'' := if alt then -term' else term'
    powerSeries t stride alt n (k + stride) term'' (acc + term'')

/-- e^t for a fixed-point t between -1 and 1. -/
def fxExp (t : Int) : Int := powerSeries t 1 false 150 0 (2 ^ fxBits) (2 ^ fxBits)

/-- sin t for 0 ≤ t ≤ π/2. -/
def fxSin (t : Int) : Int := powerSeries (t * t / 2 ^ fxBits) 2 true 80 1 t t

/-- cos t for 0 ≤ t ≤ π/2. -/
def fxCos (t : Int) : Int := powerSeries (t * t / 2 ^ fxBits) 2 true 80 0 (2 ^ fxBits) (2 ^ fxBits)

/-- e^-u for a fixed-point u ≥ 0. -/
def fxExpNeg (u : Nat) : Nat :=
  let k := u / fxLn2
  if fxBits < k then 0 else (fxExp (-((u % fxLn2 : Nat) : Int))).toNat / 2 ^ k

/-- A magnitude m * 2^e in fixed point; none when it is 2^2048 or more. -/
def fxOf (m : Nat) (e : Int) : Option Nat :=
  if 0 ≤ e then (if e ≤ 2048 then some (m * 2 ^ (e.toNat + fxBits)) else none)
  else some (m * 2 ^ fxBits / 2 ^ (-e).toNat)

/-- Round an inexact fixed-point value of positive magnitude. -/
def Fmt.roundFx (k : Fmt) (rm : Rm) (neg : Bool) (x : Nat) : FRes :=
  let y := between (x / 2 ^ 16) (16 - (fxBits : Int))
  k.round rm neg y.1 y.2

/-- 2^x for a finite x. -/
def Fmt.exp2 (k : Fmt) (rm : Rm) (neg : Bool) (m : Nat) (e : Int) : FRes :=
  if m = 0 then k.round rm false 1 0
  else if (12 : Int) < m.log2 + e then k.round rm false 1 (if neg then -4096 else 4096)
  else
    let fx := (fxOf m e).getD 0
    let i : Int := (fx / 2 ^ fxBits : Nat)
    let f := fx % 2 ^ fxBits
    if 0 ≤ e ∨ m % 2 ^ (-e).toNat = 0 then k.round rm false 1 (if neg then -i else i)
    else
      let t : Int := (f * fxLn2 / 2 ^ fxBits : Nat)
      let y := (fxExp (if neg then -t else t)).toNat
      let z := between (y / 2 ^ 16) (16 - (fxBits : Int) + (if neg then -i else i))
      k.round rm false z.1 z.2

/-- log2 x for a positive finite x. -/
def Fmt.log2 (k : Fmt) (rm : Rm) (m : Nat) (e : Int) : FRes :=
  let top : Int := m.log2 + e
  if m = 2 ^ m.log2 then k.ofInt rm top
  else
    let p := 2 ^ m.log2
    let f := 2 * fxAtanh (m - p) (m + p) * 2 ^ fxBits / fxLn2
    let v : Int := top * 2 ^ fxBits + f
    k.roundFx rm (decide (v < 0)) v.natAbs

/-- sin πx or cos πx for a finite x. -/
def Fmt.sincos (k : Fmt) (rm : Rm) (cosine neg : Bool) (m : Nat) (e : Int) : FRes :=
  let whole := decide (0 ≤ e) || decide (m % 2 ^ (-e).toNat = 0)
  let n := if 0 ≤ e then m * 2 ^ (Nat.min e.toNat 2) else m / 2 ^ (-e).toNat
  if m = 0 ∨ whole then
    if cosine then k.round rm (decide (n % 2 = 1)) 1 0 else ⟨k.sign neg 0, 0⟩
  else
    let frac := m % 2 ^ (-e).toNat
    let one := 2 ^ (-e).toNat
    let odd := decide (n % 2 = 1)
    if 2 * frac = one then
      if cosine then ⟨0, 0⟩ else k.round rm (neg != odd) 1 0
    else
      let below := decide (2 * frac < one)
      let t : Int := ((if below then frac else one - frac) * fxPi / one : Nat)
      let y := if cosine then fxCos t else fxSin t
      k.roundFx rm (if cosine then odd != !below else neg != odd) y.toNat

/-- tanh x for a finite nonzero x. -/
def Fmt.tanh (k : Fmt) (rm : Rm) (neg : Bool) (m : Nat) (e : Int) : FRes :=
  let x := match fxOf m (e + 1) with
    | some u => fxExpNeg u
    | none => 0
  let one := 2 ^ fxBits
  k.roundFx rm neg (if x = 0 then one - 1 else (one - x) * one / (one + x))

/-- 1 / (1 + e^-x) for a finite nonzero x. -/
def Fmt.sigm (k : Fmt) (rm : Rm) (neg : Bool) (m : Nat) (e : Int) : FRes :=
  let x := match fxOf m e with
    | some u => fxExpNeg u
    | none => 0
  let one := 2 ^ fxBits
  if neg then k.roundFx rm false (x * one / (one + x))
  else k.roundFx rm false (if x = 0 then one - 1 else one * one / (one + x))

/-- ln(e^x + e^y) for finite binary32 data, as a fixed-point sum: the larger plus ln(1 + e^-|x - y|) (R293). It is
never a binary32 number itself. -/
def Fmt.logAddExp (k : Fmt) (x y : Bool × Nat × Int) : FRes :=
  let fx (t : Bool × Nat × Int) : Int :=
    let v : Int := ((fxOf t.2.1 t.2.2).getD 0 : Nat)
    if t.1 then -v else v
  let hi := if fx x < fx y then fx y else fx x
  let d := (fx x - fx y).natAbs
  let t := fxExpNeg d
  let v := hi + (2 * fxAtanh t (2 * 2 ^ fxBits + t) : Nat)
  k.roundFx .rne (decide (v < 0)) v.natAbs

/-- The special functions by their codes: exp2, log2, rcp, rsq, sin, cos, tanh, sigm. -/
def Fmt.special (k : Fmt) (rm : Rm) (fn : BitVec 3) (a : Nat) : FRes :=
  let one := k.bias * 2 ^ k.fbits
  let inv : FRes := ⟨k.defaultNan, flagNV⟩
  match k.dec a with
  | .nan n s f => ⟨k.nanFrom k n f, flagIf s flagNV⟩
  | .inf n =>
    match fn with
    | 0 => if n then ⟨0, 0⟩ else ⟨k.infCode, 0⟩
    | 1 => if n then inv else ⟨k.infCode, 0⟩
    | 2 => ⟨k.sign n 0, 0⟩
    | 3 => if n then inv else ⟨0, 0⟩
    | 4 => inv
    | 5 => inv
    | 6 => ⟨k.sign n one, 0⟩
    | _ => if n then ⟨0, 0⟩ else ⟨one, 0⟩
  | .num n m e =>
    match fn with
    | 0 => k.exp2 rm n m e
    | 1 => if m = 0 then ⟨k.sign true k.infCode, flagDZ⟩ else if n then inv else k.log2 rm m e
    | 2 =>
      if m = 0 then ⟨k.sign n k.infCode, flagDZ⟩
      else let q := quotient 1 m (-e); k.round rm n q.1 q.2
    | 3 =>
      if m = 0 then ⟨k.sign n k.infCode, flagDZ⟩
      else if n then inv
      else
        -- 1/√(m * 2^e): the root of a quotient carried far beyond the format's precision
        let q := quotient (2 ^ 256) m (-e - 256)
        let r := rootOf q.1 q.2
        k.round rm false r.1 r.2
    | 4 => k.sincos rm false n m e
    | 5 => k.sincos rm true n m e
    | 6 => if m = 0 then ⟨k.sign n 0, 0⟩ else k.tanh rm n m e
    | _ => if m = 0 then k.round rm false 1 (-1) else k.sigm rm n m e

end Sys2Proof.Machine
end

