-- ==== Sys2Proof/Config.lean ====
section
/-!
DEFINITION. What the spec leaves to an implementation, and the free values. Every constant here is opaque: it
has no body, so nothing can prove a value of it (log entry 3).
-/

namespace Sys2Proof.Config

/-- The stack of a die that holds a 256-byte block of its HBM: the order is fixed at boot (R339). -/
opaque hbmStack : Nat → Nat

/-- A byte that an overlapping copy leaves unspecified (R433), by the state's counter of free values. -/
opaque freeByte : Nat → Byte

/-- The send rate after a congestion notification, which the RoCEv2 annex gives and the spec does not (R444). -/
opaque freeRate : Nat → Word

/-- The highest frequency of a region as its first measurement finds it (R379, R385). -/
opaque fmaxv : Nat → BitVec 16

/-- The slack of a region's path monitors, which is updated continuously (R379), by the state's counter of free
values. -/
opaque freeMargin : Nat → BitVec 16

/-- Whether a fetch is served by the copy that an instruction cache holds where memory has changed since (R204), by
the state's counter of free values. -/
opaque freeHit : Nat → Bool

/-- A DEFICIT whose exact value the field of cr.arbq does not hold (R93, R94), by the state's counter of free values. -/
opaque freeDeficit : Nat → BitVec 32

/-- The reference cycles that a message spends in the source router, a port or a switch on its way between packages (R426), by
the state's counter of free values. -/
opaque freeResidence : Nat → BitVec 24

/-- The sequence, class and destination word of a request that a router drops, which TENANT reports (R396, R428): the spec gives
them for messages; by the state's counter of free values. -/
opaque freeRequest : Nat → BitVec 32

/-- How many of the oldest unsent segments the trace drive is writing (R449), by the state's counter of free values. -/
opaque freeDrive : Nat → Nat

end Sys2Proof.Config
end

