-- ==== Sys2Proof/Syntax.lean ====
section
/-!
DEFINITION. The instructions, commands and events of the Polpivo Z4 as syntax: one constructor per row of
the opcode table (R102 to R123). The rows with operands come first and in the table's order, then the words
without operands, the engine commands and the events: Lean's runtime builds no constructor with operands
past the 244th, and the events are never built by the machine itself.
-/

namespace Sys2Proof

/-- One constructor per row of the opcode table, in its order: the words of 32 bits, the parcels of 16
bits, the engine commands and the events. A destination is written before its sources. -/
inductive Instr where
  -- The words of 32 bits: MAJ 0x00 to 0x3F (R108 to R116).
  /-- R137: Writes the 64-bit sum of gA and gB to gD. -/
  | add (d : Reg) (a : Reg) (b : Reg)
  /-- R137: Writes gA minus gB, modulo 2^64, to gD. -/
  | sub (d : Reg) (a : Reg) (b : Reg)
  /-- R137: Writes the bitwise AND of gA and gB to gD. -/
  | and (d : Reg) (a : Reg) (b : Reg)
  /-- R137: Writes the bitwise OR of gA and gB to gD. -/
  | or (d : Reg) (a : Reg) (b : Reg)
  /-- R137: Writes the bitwise XOR of gA and gB to gD. -/
  | xor (d : Reg) (a : Reg) (b : Reg)
  /-- R137: Writes gA AND NOT gB to gD. -/
  | andn (d : Reg) (a : Reg) (b : Reg)
  /-- R137: Writes gA OR NOT gB to gD. -/
  | orn (d : Reg) (a : Reg) (b : Reg)
  /-- R137: Writes the signed smaller of gA and gB to gD. -/
  | min (d : Reg) (a : Reg) (b : Reg)
  /-- R137: Writes the signed larger of gA and gB to gD. -/
  | max (d : Reg) (a : Reg) (b : Reg)
  /-- R137: Writes the unsigned smaller of gA and gB to gD. -/
  | minz (d : Reg) (a : Reg) (b : Reg)
  /-- R137: Writes the unsigned larger of gA and gB to gD. -/
  | maxz (d : Reg) (a : Reg) (b : Reg)
  /-- R137: Shifts gA left by gB modulo 64. -/
  | sll (d : Reg) (a : Reg) (b : Reg)
  /-- R137: Shifts gA logically right by gB modulo 64. -/
  | srl (d : Reg) (a : Reg) (b : Reg)
  /-- R137: Shifts gA arithmetically right by gB modulo 64. -/
  | sra (d : Reg) (a : Reg) (b : Reg)
  /-- R137: Rotates gA left by gB modulo 64. -/
  | rol (d : Reg) (a : Reg) (b : Reg)
  /-- R137: Rotates gA right by gB modulo 64. -/
  | ror (d : Reg) (a : Reg) (b : Reg)
  /-- R137: Writes 1 if gA is signed-less than gB, else 0. -/
  | slt (d : Reg) (a : Reg) (b : Reg)
  /-- R137: Writes 1 if gA is unsigned-less than gB, else 0. -/
  | sltz (d : Reg) (a : Reg) (b : Reg)
  /-- R138: Signed division truncating toward zero, with defined results for zero and overflow. -/
  | div (d : Reg) (a : Reg) (b : Reg)
  /-- R138: Unsigned division; divisor zero gives all ones. -/
  | divz (d : Reg) (a : Reg) (b : Reg)
  /-- R138: Signed remainder with the sign of the dividend. -/
  | rem (d : Reg) (a : Reg) (b : Reg)
  /-- R138: Unsigned remainder; divisor zero gives the dividend. -/
  | remz (d : Reg) (a : Reg) (b : Reg)
  /-- R137: Writes the low 64 bits of the product of gA and gB. -/
  | mul (d : Reg) (a : Reg) (b : Reg)
  /-- R137: Writes the high 64 bits of the signed product. -/
  | mulh (d : Reg) (a : Reg) (b : Reg)
  /-- R137: Writes the high 64 bits of the unsigned product. -/
  | mulhz (d : Reg) (a : Reg) (b : Reg)
  /-- R137: Counts leading zero bits of gA. -/
  | clz (d : Reg) (a : Reg)
  /-- R137: Counts trailing zero bits of gA. -/
  | ctz (d : Reg) (a : Reg)
  /-- R137: Counts one bits of gA. -/
  | popc (d : Reg) (a : Reg)
  /-- R137: Sign-extends the low 8, 16 or 32 bits of gA. -/
  | sext (d : Reg) (a : Reg) (w : BitVec 5)
  /-- R137: Zero-extends the low 8, 16 or 32 bits of gA. -/
  | zext (d : Reg) (a : Reg) (w : BitVec 5)
  /-- R139: Extracts the bit field of gA described by gB. -/
  | bext (d : Reg) (a : Reg) (b : Reg)
  /-- R139: Inserts low bits of gA into the field of gD described by gB. -/
  | bins (d : Reg) (a : Reg) (b : Reg)
  /-- R140: Adds the sign-extended immediate to gA. -/
  | addi (d : Reg) (a : Reg) (imm : BitVec 11)
  /-- R140: ANDs gA with the sign-extended immediate. -/
  | andi (d : Reg) (a : Reg) (imm : BitVec 11)
  /-- R140: ORs gA with the sign-extended immediate. -/
  | ori (d : Reg) (a : Reg) (imm : BitVec 11)
  /-- R140: XORs gA with the sign-extended immediate. -/
  | xori (d : Reg) (a : Reg) (imm : BitVec 11)
  /-- R140: Writes 1 if gA is signed-less than the immediate. -/
  | slti (d : Reg) (a : Reg) (imm : BitVec 11)
  /-- R140: Shifts gA left by a 6-bit immediate. -/
  | slli (d : Reg) (a : Reg) (sh : BitVec 6)
  /-- R140: Shifts gA logically right by a 6-bit immediate. -/
  | srli (d : Reg) (a : Reg) (sh : BitVec 6)
  /-- R140: Shifts gA arithmetically right by a 6-bit immediate. -/
  | srai (d : Reg) (a : Reg) (sh : BitVec 6)
  /-- R141: Writes the sign-extended imm16 shifted left by 16. -/
  | lui (d : Reg) (imm : BitVec 16)
  /-- R141: Writes the instruction's address plus twice the signed imm16. -/
  | addpc (d : Reg) (imm : BitVec 16)
  /-- R147: Floating-point add rounded by RM. -/
  | fadd (w : BitVec 1) (d : Reg) (a : Reg) (b : Reg)
  /-- R147: Floating-point subtract rounded by RM. -/
  | fsub (w : BitVec 1) (d : Reg) (a : Reg) (b : Reg)
  /-- R147: Floating-point multiply rounded by RM. -/
  | fmul (w : BitVec 1) (d : Reg) (a : Reg) (b : Reg)
  /-- R147: Floating-point divide rounded by RM. -/
  | fdiv (w : BitVec 1) (d : Reg) (a : Reg) (b : Reg)
  /-- R147: Floating-point square root rounded by RM. -/
  | fsqrt (w : BitVec 1) (d : Reg) (a : Reg)
  /-- R147: Fused multiply-add with old gD as addend. -/
  | fma (w : BitVec 1) (d : Reg) (a : Reg) (b : Reg)
  /-- R148: IEEE minimumNumber of gA and gB. -/
  | fmin (w : BitVec 1) (d : Reg) (a : Reg) (b : Reg)
  /-- R148: IEEE maximumNumber of gA and gB. -/
  | fmax (w : BitVec 1) (d : Reg) (a : Reg) (b : Reg)
  /-- R148: Writes 1 when gA equals gB. -/
  | fcmpEq (w : BitVec 1) (d : Reg) (a : Reg) (b : Reg)
  /-- R148: Writes 1 when gA is less than gB. -/
  | fcmpLt (w : BitVec 1) (d : Reg) (a : Reg) (b : Reg)
  /-- R148: Writes 1 when gA is less than or equal to gB. -/
  | fcmpLe (w : BitVec 1) (d : Reg) (a : Reg) (b : Reg)
  /-- R148: Writes one class bit for gA. -/
  | fclass (w : BitVec 1) (d : Reg) (a : Reg)
  /-- R149: Copies gA with the sign of gB. -/
  | fsgn (w : BitVec 1) (d : Reg) (a : Reg) (b : Reg)
  /-- R149: Copies gA with the inverted sign of gB. -/
  | fsgnN (w : BitVec 1) (d : Reg) (a : Reg) (b : Reg)
  /-- R149: Copies gA with sign gA XOR sign gB. -/
  | fsgnX (w : BitVec 1) (d : Reg) (a : Reg) (b : Reg)
  /-- R150: Converts between float widths and 64-bit integers by code. -/
  | fcvt (w : BitVec 1) (d : Reg) (a : Reg) (c : BitVec 5)
  /-- R151: Branches when gA equals gB. -/
  | bEq (a : Reg) (b : Reg) (off : BitVec 11)
  /-- R151: Branches when gA differs from gB. -/
  | bNe (a : Reg) (b : Reg) (off : BitVec 11)
  /-- R151: Branches when gA is signed-less than gB. -/
  | bLt (a : Reg) (b : Reg) (off : BitVec 11)
  /-- R151: Branches when gA is signed-greater-or-equal to gB. -/
  | bGe (a : Reg) (b : Reg) (off : BitVec 11)
  /-- R152: Jumps by a signed parcel offset. -/
  | j (off : BitVec 21)
  /-- R152: Jumps and links the return address into g1. -/
  | jal (off : BitVec 21)
  /-- R152: Jumps to gA and writes the return address to gD. -/
  | jalr (d : Reg) (a : Reg)
  /-- R100: Reads a loop register selected by sel. -/
  | loopRd (d : Reg) (sel : BitVec 5)
  /-- R153: Writes a loop register, possibly activating or deactivating its level. -/
  | loopWr (a : Reg) (sel : BitVec 5)
  /-- R154: Leaves a hardware-loop level at once. -/
  | loopLeave (n : BitVec 5)
  /-- R97: Arms a hardware-loop level with a count from gA. -/
  | loopArm (l : BitVec 1) (a : Reg) (imm : BitVec 11)
  /-- R97: Arms a hardware-loop level with an immediate count. -/
  | loopArmi (l : BitVec 1) (n : BitVec 5) (imm : BitVec 11)
  /-- R196: Loads a sign-extended byte from gA + gB. -/
  | ldBs (d : Reg) (a : Reg) (b : Reg)
  /-- R196: Loads a zero-extended byte from gA + gB. -/
  | ldBz (d : Reg) (a : Reg) (b : Reg)
  /-- R196: Loads a sign-extended halfword. -/
  | ldHs (d : Reg) (a : Reg) (b : Reg)
  /-- R196: Loads a zero-extended halfword. -/
  | ldHz (d : Reg) (a : Reg) (b : Reg)
  /-- R196: Loads a sign-extended word. -/
  | ldWs (d : Reg) (a : Reg) (b : Reg)
  /-- R196: Loads a zero-extended word. -/
  | ldWz (d : Reg) (a : Reg) (b : Reg)
  /-- R196: Loads a dword. -/
  | ldD (d : Reg) (a : Reg) (b : Reg)
  /-- R196: Appends a byte store to the store buffer. -/
  | stB (d : Reg) (a : Reg) (b : Reg)
  /-- R196: Appends a halfword store to the store buffer. -/
  | stH (d : Reg) (a : Reg) (b : Reg)
  /-- R196: Appends a word store to the store buffer. -/
  | stW (d : Reg) (a : Reg) (b : Reg)
  /-- R196: Appends a dword store to the store buffer. -/
  | stD (d : Reg) (a : Reg) (b : Reg)
  /-- R198: Loads a dword as an acquire at scope .sys. -/
  | ldAcq (d : Reg) (a : Reg) (b : Reg)
  /-- R198: Stores a dword as a release at scope .sys. -/
  | stRel (d : Reg) (a : Reg) (b : Reg)
  /-- R199: Prefetches a line without architectural effect. -/
  | pf (a : Reg) (b : Reg)
  /-- R194: Loads a sign-extended word from gA + imm. -/
  | ldWsImm (d : Reg) (a : Reg) (imm : BitVec 11)
  /-- R194: Loads a zero-extended word from gA + imm. -/
  | ldWzImm (d : Reg) (a : Reg) (imm : BitVec 11)
  /-- R194: Loads a dword from gA + imm. -/
  | ldDImm (d : Reg) (a : Reg) (imm : BitVec 11)
  /-- R194: Stores a word to gA + imm. -/
  | stWImm (d : Reg) (a : Reg) (imm : BitVec 11)
  /-- R194: Stores a dword to gA + imm. -/
  | stDImm (d : Reg) (a : Reg) (imm : BitVec 11)
  /-- R200: Loads one tensor-map element at coordinates gA, gB. -/
  | tld (n : BitVec 4) (d : Reg) (a : Reg) (b : Reg)
  /-- R200: Stores one tensor-map element at coordinates gA, gB. -/
  | tst (n : BitVec 4) (d : Reg) (a : Reg) (b : Reg)
  /-- R207: Atomic add at the home, returning the old value. -/
  | amoAdd (w : BitVec 1) (ord : BitVec 2) (d : Reg) (a : Reg) (b : Reg)
  /-- R207: Atomic AND at the home. -/
  | amoAnd (w : BitVec 1) (ord : BitVec 2) (d : Reg) (a : Reg) (b : Reg)
  /-- R207: Atomic OR at the home. -/
  | amoOr (w : BitVec 1) (ord : BitVec 2) (d : Reg) (a : Reg) (b : Reg)
  /-- R207: Atomic XOR at the home. -/
  | amoXor (w : BitVec 1) (ord : BitVec 2) (d : Reg) (a : Reg) (b : Reg)
  /-- R207: Atomic signed minimum at the home. -/
  | amoMin (w : BitVec 1) (ord : BitVec 2) (d : Reg) (a : Reg) (b : Reg)
  /-- R207: Atomic signed maximum at the home. -/
  | amoMax (w : BitVec 1) (ord : BitVec 2) (d : Reg) (a : Reg) (b : Reg)
  /-- R207: Atomic unsigned minimum at the home. -/
  | amoMinz (w : BitVec 1) (ord : BitVec 2) (d : Reg) (a : Reg) (b : Reg)
  /-- R207: Atomic unsigned maximum at the home. -/
  | amoMaxz (w : BitVec 1) (ord : BitVec 2) (d : Reg) (a : Reg) (b : Reg)
  /-- R207: Atomic swap at the home. -/
  | amoSwap (w : BitVec 1) (ord : BitVec 2) (d : Reg) (a : Reg) (b : Reg)
  /-- R207: Atomic floating-point add, always RNE. -/
  | amoFadd (w : BitVec 1) (ord : BitVec 2) (d : Reg) (a : Reg) (b : Reg)
  /-- R207: Atomic compare-and-swap against old gD. -/
  | cas (w : BitVec 1) (ord : BitVec 2) (d : Reg) (a : Reg) (b : Reg)
  /-- R202: Acquire fence of the named scope. -/
  | fenceAcq (s : BitVec 5)
  /-- R202: Release fence of the named scope. -/
  | fenceRel (s : BitVec 5)
  /-- R202: Sequentially consistent fence of the named scope. -/
  | fenceSc (s : BitVec 5)
  /-- R212: Sends an 8-byte message on REQ to one core. -/
  | send (d : Reg) (a : Reg) (c : BitVec 6)
  /-- R212: Sends one unicast copy per core of a rectangle on AM. -/
  | sendg (d : Reg) (a : Reg) (c : BitVec 6)
  /-- R212: Sends on RSP if room, returning status in gD. -/
  | sendc (d : Reg) (a : Reg) (c : BitVec 6)
  /-- R212: Sends a router-replicated multicast on MC. -/
  | msend (d : Reg) (a : Reg) (c : BitVec 6)
  /-- R209: Appends gA to queue register qN. -/
  | qput (q : BitVec 3) (a : Reg)
  /-- R209: Removes the oldest entry of qN into gD. -/
  | qget (d : Reg) (q : BitVec 3)
  /-- R209: Takes an entry of qN if any, with a status. -/
  | qtry (d : Reg) (a : Reg) (q : BitVec 3)
  /-- R209: Reads the number of entries of qN. -/
  | qcnt (d : Reg) (q : BitVec 3)
  /-- R216: Sends a vector to a neighbour's channel m4-m7. -/
  | nsend (a : Reg) (b : Reg)
  /-- R214: Sleeps a stream seat until an enabled wake condition holds. -/
  | wfm (d : Reg) (a : Reg)
  /-- R215: Enables the classes selected by gA. -/
  | clen (a : Reg)
  /-- R215: Disables the classes selected by gA. -/
  | cldis (a : Reg)
  /-- R215: Reads the PEND bits of all classes. -/
  | clpend (d : Reg)
  /-- R217: Creates a message of class c to the executing core. -/
  | spawn (d : Reg) (c : BitVec 6)
  /-- R218: Pushes a deque entry at the bottom, reporting success. -/
  | fork (d : Reg) (a : Reg) (imm : BitVec 11)
  /-- R219: Decrements a join record; the last arriver continues with the joined tag. -/
  | join (a : Reg) (imm : BitVec 11)
  /-- R220: Claims a guided range from a claim object at its home. -/
  | claim (d : Reg) (a : Reg) (b : Reg)
  /-- R221: Enqueues gB on a work queue, reporting full or stored. -/
  | enq (d : Reg) (a : Reg) (b : Reg)
  /-- R221: Dequeues from a work queue, waiting at the home. -/
  | deq (d : Reg) (a : Reg)
  /-- R221: Dequeues if nonempty, with a status. -/
  | deqTry (d : Reg) (a : Reg) (s : BitVec 5)
  /-- R18: Sets the priority of a class in the core's class table. -/
  | prio (a : Reg) (c : BitVec 6)
  /-- R224: Appends a 64-byte command to the MX queue. -/
  | mxpush (a : Reg)
  /-- R224: Appends a 64-byte command to the CP queue. -/
  | cppush (a : Reg)
  /-- R224: Appends a 64-byte command to the SN queue. -/
  | snpush (a : Reg)
  /-- R225: Removes the oldest element of an engine's output FIFO. -/
  | epop (d : Reg) (e : BitVec 5)
  /-- R226: Waits until done counter dN reaches n and joins its tag. -/
  | dwait (n : BitVec 3) (imm : BitVec 11)
  /-- R227: Reads and rebases done counter dN. -/
  | drd (d : Reg) (n : BitVec 3) (a : Reg)
  /-- R307: Composes a bench of the given shape around the executing core. -/
  | compose (d : Reg) (s : BitVec 2)
  /-- R310: Writes the bench width K, or 1. -/
  | benchq (d : Reg)
  /-- R76: Reads a selected part of the running chain tag. -/
  | chrd (d : Reg) (sel : BitVec 5)
  /-- R76: Merges an incoming tag's span and GAP into the running tag. -/
  | chmerge (a : Reg) (b : Reg)
  /-- R76: Joins an incoming tag as last-arriving with a software-merge origin. -/
  | chmergeLast (a : Reg) (b : Reg)
  /-- R76: Adds 1 plus gA to the running span. -/
  | chadd (a : Reg)
  /-- R76: Writes the running tag from gB and gA. -/
  | chwr (a : Reg) (b : Reg)
  /-- R421: Reads a field of an account-table entry. -/
  | acrd (d : Reg) (a : Reg) (s : BitVec 5)
  /-- R163: Raises the trap cause given in gA with value gB. -/
  | trap (a : Reg) (b : Reg)
  /-- R163: Completes and takes the BRK trap with value n. -/
  | brk (n : BitVec 5)
  /-- R389: Moves the seat's oldest store-fault record to memory at gA. -/
  | sfqPop (d : Reg) (a : Reg)
  /-- R345: Invalidates TLB entries by VA or context. -/
  | tlbinv (a : Reg) (k : BitVec 5)
  /-- R411: Writes the Vylvoxel image of a quiescent partition. -/
  | ctxsave (a : Reg)
  /-- R412: Loads an image onto a free partition and resumes it. -/
  | ctxload (a : Reg)
  /-- R156: Reads a control register. -/
  | crr (r : BitVec 12) (d : Reg)
  /-- R156: Writes a control register. -/
  | crw (r : BitVec 12) (d : Reg)
  /-- R156: Sets bits of a control register. -/
  | crset (r : BitVec 12) (d : Reg)
  /-- R156: Clears bits of a control register. -/
  | crclr (r : BitVec 12) (d : Reg)
  -- The V form (R107, R117, R169).
  /-- R171: Integer vector add. -/
  | vadd (f : VForm)
  /-- R171: Integer vector subtract. -/
  | vsub (f : VForm)
  /-- R171: Integer vector multiply, low bits. -/
  | vmul (f : VForm)
  /-- R171: Integer vector multiply-add into vD. -/
  | vmadd (f : VForm)
  /-- R171: Integer vD minus product. -/
  | vmsub (f : VForm)
  /-- R171: Integer vector signed minimum. -/
  | vmin (f : VForm)
  /-- R171: Integer vector signed maximum. -/
  | vmax (f : VForm)
  /-- R171: Integer vector absolute value. -/
  | vabs (f : VForm)
  /-- R171: Integer vector negate. -/
  | vneg (f : VForm)
  /-- R171: Integer dot-product accumulate per lane. -/
  | vdot (f : VForm)
  /-- R176: Integer vector compare into a predicate. -/
  | vcmp (f : VForm)
  /-- R177: Integer tree reduction by addition. -/
  | vredAdd (f : VForm)
  /-- R177: Integer tree reduction by maximum. -/
  | vredMax (f : VForm)
  /-- R177: Integer tree reduction by minimum. -/
  | vredMin (f : VForm)
  /-- R174: Floating-point vector add. -/
  | vaddFp (f : VForm)
  /-- R174: Floating-point vector subtract. -/
  | vsubFp (f : VForm)
  /-- R174: Floating-point vector multiply. -/
  | vmulFp (f : VForm)
  /-- R174: Floating-point vector fused multiply-add. -/
  | vmaddFp (f : VForm)
  /-- R174: Floating-point vD minus product, one rounding. -/
  | vmsubFp (f : VForm)
  /-- R174: Floating-point vector minimum. -/
  | vminFp (f : VForm)
  /-- R174: Floating-point vector maximum. -/
  | vmaxFp (f : VForm)
  /-- R174: Floating-point vector absolute value. -/
  | vabsFp (f : VForm)
  /-- R174: Floating-point vector negate. -/
  | vnegFp (f : VForm)
  /-- R175: Floating-point two-product dot accumulate per lane. -/
  | vdotFp (f : VForm)
  /-- R176: Floating-point vector compare into a predicate. -/
  | vcmpFp (f : VForm)
  /-- R177: Floating-point fixed-tree reduction by addition. -/
  | vredAddFp (f : VForm)
  /-- R177: Floating-point tree reduction by maximum. -/
  | vredMaxFp (f : VForm)
  /-- R177: Floating-point tree reduction by minimum. -/
  | vredMinFp (f : VForm)
  /-- R172: Bitwise vector AND. -/
  | vand (f : VForm)
  /-- R172: Bitwise vector OR. -/
  | vor (f : VForm)
  /-- R172: Bitwise vector XOR. -/
  | vxor (f : VForm)
  /-- R172: Per-element left shift. -/
  | vshl (f : VForm)
  /-- R172: Per-element logical right shift. -/
  | vshr (f : VForm)
  /-- R172: Per-element arithmetic right shift. -/
  | vsra (f : VForm)
  /-- R173: Selects elements of vA or vB by predicate. -/
  | vsel (f : VForm)
  /-- R173: Broadcasts gA into active elements. -/
  | vbcast (f : VForm)
  /-- R173: Permutes vA by index vector vB. -/
  | vperm (f : VForm)
  /-- R173: Shifts elements across the vector by gB. -/
  | vshift (f : VForm)
  /-- R178: Converts element formats by code and part q. -/
  | vcvt (f : VForm)
  /-- R181: Computes a correctly rounded special function per element. -/
  | vsf (f : VForm)
  /-- R183: Predicate AND. -/
  | pand (f : VForm)
  /-- R183: Predicate OR. -/
  | por (f : VForm)
  /-- R183: Predicate XOR. -/
  | pxor (f : VForm)
  /-- R183: Predicate NOT. -/
  | pnot (f : VForm)
  /-- R183: Counts active elements of a predicate. -/
  | pcount (f : VForm)
  /-- R183: Finds the first active element of a predicate. -/
  | pfirst (f : VForm)
  /-- R184: Builds a predicate of elements with gA + i below gB. -/
  | vbound (f : VForm)
  /-- R184: Writes the element count L. -/
  | vwidth (f : VForm)
  /-- R185: Loads active elements from consecutive addresses. -/
  | vld (f : VForm)
  /-- R185: Stores active elements to consecutive addresses. -/
  | vst (f : VForm)
  /-- R188: Loads a row of elements through a tensor map. -/
  | vldt (f : VForm)
  /-- R188: Stores a row of elements through a tensor map. -/
  | vstt (f : VForm)
  /-- R185: Gathers elements at gA plus scaled indices. -/
  | vgath (f : VForm)
  /-- R185: Scatters elements to gA plus scaled indices. -/
  | vscat (f : VForm)
  /-- R185: Loads one element and broadcasts it to active elements. -/
  | vldb (f : VForm)
  -- The parcels of 16 bits (R120, R121).
  /-- R121: 16-bit alias of sub gD, gD, gA. -/
  | sub16 (d : Reg) (a : Reg)
  /-- R121: 16-bit alias of addi gD, gD, #s5. -/
  | addi16 (d : Reg) (imm : BitVec 5)
  /-- R121: 16-bit alias of and gD, gD, gA. -/
  | and16 (d : Reg) (a : Reg)
  /-- R121: 16-bit alias of or gD, gD, gA. -/
  | or16 (d : Reg) (a : Reg)
  /-- R121: 16-bit alias of xor gD, gD, gA. -/
  | xor16 (d : Reg) (a : Reg)
  /-- R121: 16-bit alias of or gD, gA, g0. -/
  | mov16 (d : Reg) (a : Reg)
  /-- R121: 16-bit alias of andi gD, gD, #s5. -/
  | andi16 (d : Reg) (imm : BitVec 5)
  /-- R121: 16-bit alias of srli gD, gD, #u5. -/
  | srli16 (d : Reg) (imm : BitVec 5)
  /-- R121: 16-bit alias of ld.d gD, [gA + 0]. -/
  | ldD16 (d : Reg) (a : Reg)
  /-- R121: 16-bit alias of st.d [gA + 0], gD. -/
  | stD16 (d : Reg) (a : Reg)
  /-- R121: 16-bit alias of ld.wz gD, [gA + 0]. -/
  | ldWz16 (d : Reg) (a : Reg)
  /-- R121: 16-bit alias of ld.bz gD, [gA + g0]. -/
  | ldBz16 (d : Reg) (a : Reg)
  /-- R121: 16-bit alias of st.b [gA + g0], gD. -/
  | stB16 (d : Reg) (a : Reg)
  /-- R121: 16-bit alias of amo.add.d gD, [gA], gD. -/
  | amoAddD16 (d : Reg) (a : Reg)
  /-- R121: 16-bit alias of sendc g6, gD, #u5. -/
  | sendc16 (d : Reg) (imm : BitVec 5)
  /-- R121: 16-bit alias of slt gD, gD, gA. -/
  | slt16 (d : Reg) (a : Reg)
  /-- R121: 16-bit alias of sll gD, gD, gA. -/
  | sll16 (d : Reg) (a : Reg)
  /-- R121: 16-bit alias of srl gD, gD, gA. -/
  | srl16 (d : Reg) (a : Reg)
  /-- R121: 16-bit alias of sra gD, gD, gA. -/
  | sra16 (d : Reg) (a : Reg)
  /-- R121: 16-bit alias of srai gD, gD, #u5. -/
  | srai16 (d : Reg) (imm : BitVec 5)
  /-- R121: 16-bit alias of mul gD, gD, gA. -/
  | mul16 (d : Reg) (a : Reg)
  /-- R121: 16-bit alias of min gD, gD, gA. -/
  | min16 (d : Reg) (a : Reg)
  /-- R121: 16-bit alias of max gD, gD, gA. -/
  | max16 (d : Reg) (a : Reg)
  /-- R121: 16-bit alias of b.lt gD, g0 by s5 parcels. -/
  | bLt16 (d : Reg) (imm : BitVec 5)
  /-- R121: 16-bit alias of b.ge gD, g0 by s5 parcels. -/
  | bGe16 (d : Reg) (imm : BitVec 5)
  /-- R121: 16-bit alias of j with a signed 10-bit parcel offset. -/
  | j16 (off : BitVec 10)
  /-- R121: 16-bit alias of jalr gD, gA. -/
  | jalr16 (d : Reg) (a : Reg)
  /-- R121: 16-bit alias of ld.d gD, [g4 + 8*u5]. -/
  | ldDG416 (d : Reg) (imm : BitVec 5)
  /-- R121: 16-bit alias of st.d [g4 + 8*u5], gD. -/
  | stDG416 (d : Reg) (imm : BitVec 5)
  /-- R121: 16-bit alias of ld.d gD, [g3 + 8*u5]. -/
  | ldDG316 (d : Reg) (imm : BitVec 5)
  /-- R121: 16-bit alias of andn gD, gD, gA. -/
  | andn16 (d : Reg) (a : Reg)
  /-- R121: 16-bit alias of fadd.f32 gD, gD, gA. -/
  | faddF3216 (d : Reg) (a : Reg)
  /-- R121: 16-bit alias of fsub.f32 gD, gD, gA. -/
  | fsubF3216 (d : Reg) (a : Reg)
  /-- R121: 16-bit alias of fmul.f32 gD, gD, gA. -/
  | fmulF3216 (d : Reg) (a : Reg)
  /-- R121: 16-bit alias of fadd.f64 gD, gD, gA. -/
  | faddF6416 (d : Reg) (a : Reg)
  /-- R121: 16-bit alias of fsub.f64 gD, gD, gA. -/
  | fsubF6416 (d : Reg) (a : Reg)
  /-- R121: 16-bit alias of fmul.f64 gD, gD, gA. -/
  | fmulF6416 (d : Reg) (a : Reg)
  /-- R121: 16-bit alias of dwait dN, #u5. -/
  | dwait16 (n : BitVec 3) (imm : BitVec 5)
  /-- R121: 16-bit alias of epop gD, #u5. -/
  | epop16 (d : Reg) (e : BitVec 5)
  /-- R121: 16-bit alias of qput qN, gA. -/
  | qput16 (q : BitVec 3) (a : Reg)
  /-- R121: 16-bit alias of qget gD, qN. -/
  | qget16 (d : Reg) (q : BitVec 5)
  /-- R121: 16-bit alias of chrd gD, sel. -/
  | chrd16 (d : Reg) (sel : BitVec 5)
  -- Words and parcels without operands.
  /-- R203: Waits until earlier stores perform or move to the record queue. -/
  | sdrain
  /-- R204: Drains stores then invalidates instruction cache and loop buffer. -/
  | ifence
  /-- R223: Waits as a fence, then ends the task, carried code or stream program. -/
  | exit
  /-- R309: Releases the bench and hands state back to seat 0 of the lead. -/
  | release
  /-- R164: Leaves trap state and returns to cr.epc. -/
  | eret
  /-- R101: Completes and takes the SVC trap. -/
  | svc
  /-- R400: Replays the seat's store-fault records into the store buffer. -/
  | sfqReplay
  /-- R390: Cancels all work, messages and records of the seat's group across the partition. -/
  | grpcancel
  /-- R121: 16-bit alias of exit. -/
  | exit16
  -- The engine commands: one start, step or unit of the command an engine holds.
  /-- R269: MX command: loads the 512-byte ZQ2 base table. -/
  | ldcb (c : CoreId)
  /-- R269: MX command: loads a B block into B_next, decoding ZQ2. -/
  | ldb (c : CoreId)
  /-- R270: MX command: exchanges B_cur and B_next when B_next is full. -/
  | swpb (c : CoreId)
  /-- R270: MX command: copies B_cur into the ring successor's B_next. -/
  | rotb (c : CoreId)
  /-- R271: MX command: multiplies an A tile from TCM by B_cur into a bank. -/
  | mma (c : CoreId)
  /-- R271: MX command: multiplies an A tile copied from v registers by B_cur. -/
  | mmav (c : CoreId)
  /-- R272: MX command: sets a bank to +0. -/
  | zero (c : CoreId)
  /-- R272: MX command: loads a bank from a binary32 image. -/
  | ldc (c : CoreId)
  /-- R273: MX command: writes a bank back in cr.mxcfmt, listing outliers. -/
  | stc (c : CoreId)
  /-- R295: SN command: local scan of a tile, producing prefixes and an aggregate. -/
  | scanl (c : CoreId)
  /-- R287: SN command: contributes an aggregate and receives the group carry. -/
  | tjoin (c : CoreId)
  /-- R295: SN command: composes the carry into stored prefixes. -/
  | scanc (c : CoreId)
  /-- R296: SN command: Trestle barrier over a group. -/
  | tbar (c : CoreId)
  /-- R297: SN command: Trestle reduction of one step over a group. -/
  | tred (c : CoreId)
  /-- R433: CP command: copies N bytes from S to D. -/
  | copy (c : CoreId)
  /-- R433: CP command: copies a 2-D block between tensor maps. -/
  | copy2d (c : CoreId)
  /-- R433: CP command: gathers indexed elements into a dense range. -/
  | gather (c : CoreId)
  /-- R433: CP command: scatters dense elements to indexed places. -/
  | scatter (c : CoreId)
  /-- R433: CP command: writes N bytes to every core of a rectangle or to replicas. -/
  | mcast (c : CoreId)
  /-- R433: CP command: fills a range with an 8-byte pattern. -/
  | fill (c : CoreId)
  /-- R436: CP command: continues a held copy from its faulted unit. -/
  | resume (c : CoreId)
  -- The events: the machine's own moves and those of the outside.
  /-- R259: An engine command completes and retires in push order, posting its element and counter. -/
  | engineCommandRetire (c : CoreId) (e : Engine)
  /-- R300: A Trestle group instance closes when every position has contributed; members write results and complete. -/
  | groupClose (part : Nat) (i : Nat)
  /-- R275: Writing RETRY restarts the held MX command. -/
  | mxstatRetry (c : CoreId)
  /-- R275: Writing SKIP retires the held MX command without effect. -/
  | mxstatSkip (c : CoreId)
  /-- R275: Writing 1 to OVF clears it. -/
  | mxstatOvfClear (c : CoreId)
  /-- R304: Writing RETRY restarts the held SN command. -/
  | snstatRetry (c : CoreId)
  /-- R303: Writing SKIP contributes identity and retires the held SN command. -/
  | snstatSkip (c : CoreId)
  /-- R304: Writing 1 to MISM clears it. -/
  | snstatMismClear (c : CoreId)
  /-- R435: Writing SKIP retires the held CP command. -/
  | cpstatSkip (c : CoreId)
  /-- R266: A write to MX registers 0x200-0x208 waits for the interlock, then applies. -/
  | mxRegisterWrite (c : CoreId) (num : BitVec 12) (val : Word)
  /-- R284: A write to cr.snop waits until no SN command is unstarted. -/
  | snopWrite (c : CoreId) (val : Word)
  /-- R72: A write to cr.chlim arms the CHAIN check. -/
  | chlimWrite (t : SeatId) (val : Word)
  /-- R156: A write to a control register with no row of its own applies its field rules. -/
  | registerWrite (t : SeatId) (num : BitVec 12) (val : Word)
  /-- R25: A pending seat mode takes effect at the seat's next idle point. -/
  | modeChange (t : SeatId)
  /-- R28: The network interface accepts one arriving message into the run queue and message area. -/
  | acceptMessage (c : CoreId) (inp : InPort)
  /-- R34: A free handler seat selects the first eligible run-queue entry and starts it. -/
  | selectEntry (c : CoreId)
  /-- R45: A core with a free seat and empty deque requests a steal, granted by the cluster. -/
  | stealRequest (c : CoreId)
  /-- R38: A channel-kind message is bound to channel beats and wakes or creates a task. -/
  | channelDelivery (c : CoreId) (m : BitVec 2)
  /-- R40: A buffer-kind message is written into its class's ring and counted. -/
  | ringDelivery (c : CoreId) (cls : BitVec 6)
  /-- R39: A neighbour vector lands in the destination's channel m4-m7. -/
  | nsendArrival (c : CoreId) (dir : Dir)
  /-- R39: Consumption of a neighbour vector returns a send credit. -/
  | creditReturn (c : CoreId) (dir : Dir)
  /-- R43: A seat blocked on a queue register is woken as an entry or slot appears. -/
  | queueWake (c : CoreId) (q : BitVec 3)
  /-- R214: A seat asleep in wfm wakes when an enabled condition holds. -/
  | wfmWake (t : SeatId)
  /-- R27: A handler-mode send without room for 64 cycles traps without effect. -/
  | sendfull (t : SeatId)
  /-- R212: The network interface injects a message once the sender's earlier stores have performed. -/
  | messageInject (c : CoreId) (vn : VNet)
  /-- R212: The network interface emits the next unicast copy of a sendg. -/
  | sendgCopy (c : CoreId)
  /-- R428: A router checks a header's partition against its membership and forwards or drops it. -/
  | headerForward (i : Nat) (cycles : Nat)
  /-- R396: A SYS reply reaches the sender seat and becomes a pending trap or is dropped. -/
  | sysReply (i : Nat)
  /-- R396: A pending SYS-reply trap (ILLEGAL, WINDOW, TENANT) is taken at a boundary. -/
  | sysReplyTrap (t : SeatId)
  /-- R197: The head store-buffer entry translates and performs, enters a link buffer, or moves to the record queue. -/
  | storeDrain (c : CoreId)
  /-- R355: A packet in a die link buffer is delivered at its home. -/
  | linkDelivery (src : Nat) (dst : Nat) (i : Nat)
  /-- R355: A remote load or atomic value returns to its seat. -/
  | loadReturn (t : SeatId) (i : Nat)
  /-- R47: A deq waiting at its home is served as an entry arrives. -/
  | deqServe (i : Nat)
  /-- R344: A die walker completes a page walk for a pending page. -/
  | pageWalk (die : Nat)
  /-- R355: An update to a REPL page is appended to its sequencer's list. -/
  | sequenceUpdate (i : Nat)
  /-- R346: A replica applies the next update of its sequence. -/
  | applyUpdate (page : Nat) (die : Nat)
  /-- R348: A page reaching THRESH accesses from another die starts a move. -/
  | migrationStart (die : Nat) (i : Nat)
  /-- R348: The page copy completes and the leaf switches to the new frame. -/
  | migrationSwitch (die : Nat) (i : Nat)
  /-- R413: An access to a frame not owned by its context saves and loads the frame. -/
  | frameClaim (f : FrameId) (ctx : Nat)
  /-- R387: Records of the seat in the record queue cause STORE_FAULT at a boundary. -/
  | storeFault (t : SeatId)
  /-- R350: A store discarded at a bad granule raises imprecise ECC at the next boundary. -/
  | eccStoreAtHome (t : SeatId)
  /-- R277: A pending engine fault is taken by the pushing seat at a boundary. -/
  | engineFault (t : SeatId)
  /-- R274: An STC that lost outliers makes OUTLIER_FULL taken at the pusher's boundary. -/
  | outlierFull (t : SeatId)
  /-- R165: The watchdog COUNT reaches 0 and WATCHDOG becomes pending. -/
  | watchdogExpiry (t : SeatId)
  /-- R165: A pending WATCHDOG is taken at a boundary or abandons a stalled instruction. -/
  | watchdog (t : SeatId)
  /-- R72: An armed seat whose span exceeds LIMIT takes CHAIN at a boundary. -/
  | chain (t : SeatId)
  /-- R86: Drawer command: validates a launch record, allocates a partition and loads the context. -/
  | load (vd : Nat) (pl : Place)
  /-- R88: Drawer command: starts an active-message task in a loaded context. -/
  | launch (vd : Nat)
  /-- R91: Drawer command: cancels a group in every core of a context. -/
  | cancel (vd : Nat)
  /-- R91: Drawer command: ends all work of a context and frees its partition. -/
  | unload (vd : Nat)
  /-- R82: Drawer command: returns a context's partition and state. -/
  | query (vd : Nat)
  /-- R80: A host advances a command ring's tail by write-with-immediate. -/
  | rdmaWriteWithImmediate (vd : Nat) (imm : BitVec 32)
  /-- R80: A host submits whole command entries into the ring by SEND. -/
  | rdmaSend (vd : Nat) (payload : List Byte)
  /-- R444: A host writes into the partition's windows or paged memory. -/
  | rdmaWrite (vd : Nat) (key : BitVec 32) (va : Word) (data : List Byte)
  /-- R444: A host reads from the partition's windows. -/
  | rdmaRead (vd : Nat) (key : BitVec 32) (va : Word) (n : Nat)
  /-- R444: An ECN-marked packet or CNP adjusts the congestion response. -/
  | congestionNotification (port : Nat) (ecn : Bool)
  /-- R443: A management-VLAN frame reaches the Skoum complex. -/
  | managementFrame (m : Mgmt)
  /-- R94: The arbiter charges and selects the next queue of a partition, at the boundary where cr.ref reads ref. -/
  | sliceBoundary (part : Nat) (ref : Word)
  /-- R94: An idle partition's arbiter reruns when a queue becomes PENDING. -/
  | arbiterWake (part : Nat)
  /-- R95: The bureau re-partitions at a clearing point. -/
  | repartition (ctx : Nat) (pl : Place)
  /-- R79: A failed drawer is reset by the bureau. -/
  | drawerFailure (n : Nat)
  /-- R385: A module reset runs the boot stages. -/
  | moduleReset (f : BootFacts)
  /-- R370: A write of a new FREQ requests a region frequency step. -/
  | rctlFreqWrite (r : RegionId) (freq : BitVec 11)
  /-- R370: A write of VOLT moves the region supply. -/
  | rctlVoltWrite (r : RegionId) (volt : BitVec 12)
  /-- R331: A region stops, relocks, takes the new rate and charges the stop. -/
  | regionStep (r : RegionId)
  /-- R369: A supply droop stretches a clock period. -/
  | clockStretch (r : RegionId)
  /-- R384: A hot region is stepped down 85 MHz every 10 ms. -/
  | thermalThrottle (r : RegionId) (temp : Nat)
  /-- R384: A sensor above 115 °C resets the module without saving. -/
  | thermalReset (r : RegionId) (temp : Nat) (f : BootFacts)
  /-- R379: Firmware re-plans region voltage and frequency every 24 hours. -/
  | replan (r : RegionId) (p : PlanFacts)
  /-- R375: An idle cluster enters the next power state after its dwell. -/
  | powerStateEntry (cl : ClusterId) (idleNs : Nat)
  /-- R377: An idle cluster wakes on an arrival and returns to RUN. -/
  | clusterWake (cl : ClusterId)
  /-- R378: The package enters SLEEP when all clusters are idle. -/
  | packageSleep
  /-- R378: An arrival for a partition wakes the package. -/
  | packageWake
  /-- R403: Writing STOP 1 stops and drains the partition. -/
  | pstopStop (part : Nat)
  /-- R403: The partition's drain completes and QUIET becomes 1. -/
  | quiescence (part : Nat)
  /-- R402: Writing STOP 0 while quiet resumes the partition in place. -/
  | pstopResume (part : Nat)
  /-- R430: A failed router ends affected contexts and is routed around. -/
  | routerFailure (x : RouterLoss)
  /-- R440: A Fiold frame is received, checked and acknowledged. -/
  | fioldFrame (port : Nat) (f : FioldFrame)
  /-- R440: A sender replays unacknowledged frames on NAK or 2 µs timeout. -/
  | fioldReplay (port : Nat)
  /-- R440: An idle link sends a heartbeat frame every 1 µs. -/
  | fioldHeartbeat (port : Nat)
  /-- R440: A link is taken down after 5 ms silence or 16 failed replays. -/
  | fioldLinkDown (port : Nat)
  /-- R440: Each package sends a heartbeat every 10 ms to its job domain. -/
  | endToEndHeartbeat
  /-- R440: A peer silent for 40 ms on every plane is reported lost. -/
  | peerLost (pkg : Nat)
  /-- R442: A Fiold packet is delivered or dropped by its JOB. -/
  | fioldPacket (p : FioldPacket)
  /-- R447: Writing FLUSH seals the open trace segment. -/
  | trctlFlush
  /-- R447: Setting or clearing EN starts trace or seals the open segment. -/
  | trctlEnWrite (en : Bool)
  /-- R449: The drive completes a sealed segment's write. -/
  | segmentWriteComplete (seq : Nat)
  /-- R450: Each SAMPLE period a counter-sample record is written. -/
  | counterSample (c : CoreId)
  /-- R456: A new horizon arrives over the Trestle and releases inputs in key order. -/
  | horizonUpdate (part : Nat)
  /-- R330: In each local cycle of a region, CYC and REF advance, the energy governor adds RATE/256 to every seat's
  CREDIT up to CAP, and event counters add their events. -/
  | localCycle (r : RegionId)
  /-- R381: While REPLACE is set, firmware reports it over the management channel once every hour. -/
  | replaceReport
  /-- R443: An IEEE 802.1Qbb priority flow control frame for priority 3 or 7 arrives on an Ethernet port and pauses or
  resumes that priority. -/
  | priorityFlowControl (port : Nat) (prio : BitVec 3) (pause : Bool)
  /-- R350: Scrubbing reads a memory granule, corrects a correctable error or counts an uncorrectable one. -/
  | scrub (g : Nat)
  /-- R349: A migration counting window of WIN·65,536 reference cycles ends and the per-die access counts of its pages
  begin anew. -/
  | countingWindow (die : Nat)
deriving DecidableEq, Repr

end Sys2Proof
end

