-- ==== Sys2Proof/WellFormed.lean ====
section
/-!
DEFINITION. Well-formed instructions: the limits on operand fields that the maps and descriptions of the spec
give (R118, R122, R169), beyond the fields that the encodings fix.
-/

namespace Sys2Proof

/-- With c = 1, vb names a channel and vb[4:3] is zero (R107). -/
abbrev VForm.chanWf (f : VForm) : Prop := f.c = 0 ∨ f.vb.toNat ≤ 7

/-- No second source: c and vb are zero (R169). -/
abbrev VForm.noB (f : VForm) : Prop := f.c = 0 ∧ f.vb = 0

/-- The type lists of vdot: w and d, f32 and f64 (R169). -/
abbrev VForm.wideTy (f : VForm) : Prop := 2 ≤ f.ty.toNat

/-- Neither a channel nor a governing predicate (R169). -/
abbrev VForm.bare (f : VForm) : Prop := f.c = 0 ∧ f.p = 0

/-- A logical operation on predicates: no type, and pD and pA named in 3 bits (R169). -/
abbrev VForm.predForm (f : VForm) : Prop :=
  f.ty = 0 ∧ f.c = 0 ∧ f.p = 0 ∧ f.vd.toNat ≤ 7 ∧ f.va.toNat ≤ 7

/-- The ratio of the two element sizes of a conversion code (R178); 0 for the reserved codes 19 to 31. -/
def cvtRatio (code : Nat) : Nat :=
  if code ≤ 5 ∨ code = 17 ∨ code = 18 then 2
  else if code ≤ 9 ∨ (14 ≤ code ∧ code ≤ 16) then 4
  else if code ≤ 13 then 1
  else 0

/-- The part q, held in ty, is below the ratio of the conversion (R178). -/
abbrev VForm.cvtWf (f : VForm) : Prop := f.ty.toNat < cvtRatio f.vb.toNat


/-- The limits on the operands of an instruction. -/
def Instr.wf : Instr → Bool
  | .sext _ _ w => decide (w.toNat ≤ 2)
  | .zext _ _ w => decide (w.toNat ≤ 2)
  | .fcvt _ _ _ c => decide (c.toNat ≤ 4)
  | .loopRd _ sel => decide (sel.toNat ≤ 5)
  | .loopWr _ sel => decide (sel.toNat ≤ 5)
  | .loopLeave n => decide (n.toNat ≤ 1)
  | .loopArm _ _ imm => decide (2 ≤ imm.toNat)
  | .loopArmi _ _ imm => decide (2 ≤ imm.toNat)
  | .fenceAcq s => decide (s.toNat ≤ 5)
  | .fenceRel s => decide (s.toNat ≤ 5)
  | .fenceSc s => decide (s.toNat ≤ 5)
  | .qtry d a _ => decide ((d ≠ a ∨ d = 0))
  | .nsend _ b => decide (b.toNat ≤ 3)
  | .claim d _ b => decide ((d ≠ b ∨ b = 0))
  | .deqTry d _ s => decide ((d ≠ s ∨ s = 0))
  | .epop _ e => decide (e.toNat ≤ 2)
  | .chrd _ sel => decide (sel.toNat ≤ 6)
  | .acrd _ _ s => decide (s.toNat ≤ 3)
  | .tlbinv _ k => decide (k.toNat ≤ 2)
  | .vadd f => decide (f.chanWf)
  | .vsub f => decide (f.chanWf)
  | .vmul f => decide (f.chanWf)
  | .vmadd f => decide (f.chanWf)
  | .vmsub f => decide (f.chanWf)
  | .vmin f => decide (f.chanWf)
  | .vmax f => decide (f.chanWf)
  | .vabs f => decide (f.noB)
  | .vneg f => decide (f.noB)
  | .vdot f => decide (f.wideTy ∧ f.chanWf)
  | .vcmp f => decide (f.chanWf)
  | .vredAdd f => decide (f.noB)
  | .vredMax f => decide (f.noB)
  | .vredMin f => decide (f.noB)
  | .vaddFp f => decide (f.chanWf)
  | .vsubFp f => decide (f.chanWf)
  | .vmulFp f => decide (f.chanWf)
  | .vmaddFp f => decide (f.chanWf)
  | .vmsubFp f => decide (f.chanWf)
  | .vminFp f => decide (f.chanWf)
  | .vmaxFp f => decide (f.chanWf)
  | .vabsFp f => decide (f.noB)
  | .vnegFp f => decide (f.noB)
  | .vdotFp f => decide (f.wideTy ∧ f.chanWf)
  | .vcmpFp f => decide (f.chanWf)
  | .vredAddFp f => decide (f.noB)
  | .vredMaxFp f => decide (f.noB)
  | .vredMinFp f => decide (f.noB)
  | .vand f => decide (f.chanWf)
  | .vor f => decide (f.chanWf)
  | .vxor f => decide (f.chanWf)
  | .vshl f => decide (f.chanWf)
  | .vshr f => decide (f.chanWf)
  | .vsra f => decide (f.chanWf)
  | .vsel f => decide (f.chanWf)
  | .vbcast f => decide (f.noB)
  | .vperm f => decide (f.chanWf)
  | .vshift f => decide (f.c = 0)
  | .vcvt f => decide (f.c = 0 ∧ f.cvtWf)
  | .vsf f => decide (f.c = 0 ∧ f.vb.toNat ≤ 7 ∧ f.ty ≠ 3)
  | .pand f => decide (f.predForm ∧ f.vb.toNat ≤ 7)
  | .por f => decide (f.predForm ∧ f.vb.toNat ≤ 7)
  | .pxor f => decide (f.predForm ∧ f.vb.toNat ≤ 7)
  | .pnot f => decide (f.predForm ∧ f.vb = 0)
  | .pcount f => decide (f.bare ∧ f.va.toNat ≤ 7 ∧ f.vb = 0)
  | .pfirst f => decide (f.bare ∧ f.va.toNat ≤ 7 ∧ f.vb = 0)
  | .vbound f => decide (f.bare ∧ f.vd.toNat ≤ 7)
  | .vwidth f => decide (f.bare ∧ f.va = 0 ∧ f.vb = 0)
  | .vld f => decide (f.c = 0)
  | .vst f => decide (f.c = 0)
  | .vldt f => decide (f.ty = 0 ∧ f.c = 0 ∧ f.vb.toNat ≤ 15)
  | .vstt f => decide (f.ty = 0 ∧ f.c = 0 ∧ f.vb.toNat ≤ 15)
  | .vgath f => decide (f.chanWf)
  | .vscat f => decide (f.chanWf)
  | .vldb f => decide (f.c = 0)
  | .sub16 d _ => decide (d ≠ 0)
  | .addi16 d _ => decide (d ≠ 0)
  | .and16 d _ => decide (d ≠ 0)
  | .or16 d _ => decide (d ≠ 0)
  | .xor16 d _ => decide (d ≠ 0)
  | .mov16 d _ => decide (d ≠ 0)
  | .andi16 d _ => decide (d ≠ 0)
  | .srli16 d _ => decide (d ≠ 0)
  | .ldD16 d _ => decide (d ≠ 0)
  | .ldWz16 d _ => decide (d ≠ 0)
  | .ldBz16 d _ => decide (d ≠ 0)
  | .amoAddD16 d _ => decide (d ≠ 0)
  | .slt16 d _ => decide (d ≠ 0)
  | .sll16 d _ => decide (d ≠ 0)
  | .srl16 d _ => decide (d ≠ 0)
  | .sra16 d _ => decide (d ≠ 0)
  | .srai16 d _ => decide (d ≠ 0)
  | .mul16 d _ => decide (d ≠ 0)
  | .min16 d _ => decide (d ≠ 0)
  | .max16 d _ => decide (d ≠ 0)
  | .ldDG416 d _ => decide (d ≠ 0)
  | .ldDG316 d _ => decide (d ≠ 0)
  | .andn16 d _ => decide (d ≠ 0)
  | .faddF3216 d _ => decide (d ≠ 0)
  | .fsubF3216 d _ => decide (d ≠ 0)
  | .fmulF3216 d _ => decide (d ≠ 0)
  | .faddF6416 d _ => decide (d ≠ 0)
  | .fsubF6416 d _ => decide (d ≠ 0)
  | .fmulF6416 d _ => decide (d ≠ 0)
  | .epop16 d e => decide (d ≠ 0 ∧ e.toNat ≤ 2)
  | .qget16 d q => decide (d ≠ 0 ∧ q.toNat ≤ 7)
  | .chrd16 d sel => decide (d ≠ 0 ∧ sel.toNat ≤ 6)
  | .add .. | .sub .. | .and .. | .or .. | .xor .. | .andn .. | .orn .. | .min .. | .max .. |
    .minz .. | .maxz .. | .sll .. | .srl .. | .sra .. | .rol .. | .ror .. | .slt .. | .sltz .. |
    .div .. | .divz .. | .rem .. | .remz .. | .mul .. | .mulh .. | .mulhz .. | .clz .. | .ctz .. |
    .popc .. | .bext .. | .bins .. | .addi .. | .andi .. | .ori .. | .xori .. | .slti .. | .slli
    .. | .srli .. | .srai .. | .lui .. | .addpc .. | .fadd .. | .fsub .. | .fmul .. | .fdiv .. |
    .fsqrt .. | .fma .. | .fmin .. | .fmax .. | .fcmpEq .. | .fcmpLt .. | .fcmpLe .. | .fclass ..
    | .fsgn .. | .fsgnN .. | .fsgnX .. | .bEq .. | .bNe .. | .bLt .. | .bGe .. | .j .. | .jal .. |
    .jalr .. | .ldBs .. | .ldBz .. | .ldHs .. | .ldHz .. | .ldWs .. | .ldWz .. | .ldD .. | .stB ..
    | .stH .. | .stW .. | .stD .. | .ldAcq .. | .stRel .. | .pf .. | .ldWsImm .. | .ldWzImm .. |
    .ldDImm .. | .stWImm .. | .stDImm .. | .tld .. | .tst .. | .amoAdd .. | .amoAnd .. | .amoOr ..
    | .amoXor .. | .amoMin .. | .amoMax .. | .amoMinz .. | .amoMaxz .. | .amoSwap .. | .amoFadd ..
    | .cas .. | .sdrain | .ifence | .send .. | .sendg .. | .sendc .. | .msend .. | .qput .. |
    .qget .. | .qcnt .. | .wfm .. | .clen .. | .cldis .. | .clpend .. | .exit | .spawn .. | .fork
    .. | .join .. | .enq .. | .deq .. | .prio .. | .mxpush .. | .cppush .. | .snpush .. | .dwait
    .. | .drd .. | .compose .. | .release | .benchq .. | .chmerge .. | .chmergeLast .. | .chadd ..
    | .chwr .. | .trap .. | .eret | .brk .. | .svc | .sfqPop .. | .sfqReplay | .grpcancel |
    .ctxsave .. | .ctxload .. | .crr .. | .crw .. | .crset .. | .crclr .. | .stD16 .. | .stB16 ..
    | .sendc16 .. | .exit16 | .bLt16 .. | .bGe16 .. | .j16 .. | .jalr16 .. | .stDG416 .. |
    .dwait16 .. | .qput16 .. | .ldcb .. | .ldb .. | .swpb .. | .rotb .. | .mma .. | .mmav .. |
    .zero .. | .ldc .. | .stc .. | .scanl .. | .tjoin .. | .scanc .. | .tbar .. | .tred .. | .copy
    .. | .copy2d .. | .gather .. | .scatter .. | .mcast .. | .fill .. | .resume .. |
    .engineCommandRetire .. | .groupClose .. | .mxstatRetry .. | .mxstatSkip .. | .mxstatOvfClear
    .. | .snstatRetry .. | .snstatSkip .. | .snstatMismClear .. | .cpstatSkip .. |
    .mxRegisterWrite .. | .snopWrite .. | .chlimWrite .. | .registerWrite .. | .modeChange .. |
    .acceptMessage .. | .selectEntry .. | .stealRequest .. | .channelDelivery .. | .ringDelivery
    .. | .nsendArrival .. | .creditReturn .. | .queueWake .. | .wfmWake .. | .sendfull .. |
    .messageInject .. | .sendgCopy .. | .headerForward .. | .sysReply .. | .sysReplyTrap .. |
    .storeDrain .. | .linkDelivery .. | .loadReturn .. | .deqServe .. | .pageWalk .. |
    .sequenceUpdate .. | .applyUpdate .. | .migrationStart .. | .migrationSwitch .. | .frameClaim
    .. | .storeFault .. | .eccStoreAtHome .. | .engineFault .. | .outlierFull .. | .watchdogExpiry
    .. | .watchdog .. | .chain .. | .load .. | .launch .. | .cancel .. | .unload .. | .query .. |
    .rdmaWriteWithImmediate .. | .rdmaSend .. | .rdmaWrite .. | .rdmaRead .. |
    .congestionNotification .. | .managementFrame .. | .sliceBoundary .. | .arbiterWake .. |
    .repartition .. | .drawerFailure .. | .moduleReset .. | .rctlFreqWrite .. | .rctlVoltWrite ..
    | .regionStep .. | .clockStretch .. | .thermalThrottle .. | .thermalReset .. | .replan .. |
    .powerStateEntry .. | .clusterWake .. | .packageSleep | .packageWake | .pstopStop .. |
    .quiescence .. | .pstopResume .. | .routerFailure .. | .fioldFrame .. | .fioldReplay .. |
    .fioldHeartbeat .. | .fioldLinkDown .. | .endToEndHeartbeat | .peerLost .. | .fioldPacket .. |
    .trctlFlush | .trctlEnWrite .. | .segmentWriteComplete .. | .counterSample .. | .horizonUpdate
    .. | .localCycle .. | .replaceReport | .priorityFlowControl .. | .scrub .. | .countingWindow
    .. => true

end Sys2Proof
end

