-- ==== Sys2Proof/Decode.lean ====
section
/-!
DEFINITION. Decoding, total on any parcels and rejecting by name (R102 to R122), and the encoder from the
same maps. A word is split by the form of its major opcode, its major and minor codes pick the instruction,
its energy class and its zero fields are checked, and the limits of WellFormed come last: R118 gives every
failure one trap, so their order is not observable.
-/

namespace Sys2Proof

/-- Why a word or parcel names no instruction (R118, R122). -/
inductive DecodeError where
  /-- A MAJ that R108 reserves. -/
  | reservedMajor
  /-- A minor code that R109 to R116 reserve. -/
  | reservedMinor
  /-- A selector that R116 reserves. -/
  | reservedSelector
  /-- A parcel in quadrant 10 with op 11 to 15 (R122). -/
  | reservedParcel
  /-- An energy class that differs from the form's (R106). -/
  | energyClass
  /-- A field that its description fixes at zero is nonzero. -/
  | nonzeroField
  /-- A field outside the limits of WellFormed. -/
  | operandRange
  /-- The lowest two bits call for the other length (R102). -/
  | wrongLength
deriving DecidableEq, Repr

/-- The words of an instruction: a 32-bit word or one parcel (R102). -/
inductive Code where
  | w32 (w : BitVec 32)
  | w16 (p : BitVec 16)
deriving DecidableEq, Repr

/-- What the decoder reads: an instruction, or one of the three parcels whose constructors Lean's runtime cannot
build (their place among the constructors is past its limit); the kernel sees no difference. -/
inductive Decoded where
  | instr (i : Instr)
  | qput16 (q : BitVec 3) (a : Reg)
  | qget16 (d : Reg) (q : BitVec 5)
  | chrd16 (d : Reg) (sel : BitVec 5)
deriving DecidableEq, Repr

/-- The instruction that was read. -/
noncomputable def Decoded.toInstr : Decoded → Instr
  | .instr i => i
  | .qput16 q a => .qput16 q a
  | .qget16 d q => .qget16 d q
  | .chrd16 d sel => .chrd16 d sel

/-- The limits on what was read: those of the instruction (R118, R122). -/
def Decoded.wf : Decoded → Bool
  | .instr i => i.wf
  | .qput16 _ _ => true
  | .qget16 d q => decide (d ≠ 0 ∧ q.toNat ≤ 7)
  | .chrd16 d sel => decide (d ≠ 0 ∧ sel.toNat ≤ 6)

/-- The fields above [10:4] of the RR form (R104). -/
def joinRR (maj : BitVec 7) (e : BitVec 2) (fn : BitVec 6) (b a d : Reg) : BitVec 32 :=
  fn ++ b ++ a ++ d ++ maj ++ e ++ 3#2

/-- The RI form (R104). -/
def joinRI (maj : BitVec 7) (e : BitVec 2) (imm : BitVec 11) (a d : Reg) : BitVec 32 :=
  imm ++ a ++ d ++ maj ++ e ++ 3#2

/-- The RU form (R104). -/
def joinRU (maj : BitVec 7) (e : BitVec 2) (imm : BitVec 16) (d : Reg) : BitVec 32 :=
  imm ++ d ++ maj ++ e ++ 3#2

/-- The B form (R104). -/
def joinB (maj : BitVec 7) (e : BitVec 2) (off : BitVec 11) (b a : Reg) : BitVec 32 :=
  off ++ b ++ a ++ maj ++ e ++ 3#2

/-- The J form (R104). -/
def joinJ (maj : BitVec 7) (e : BitVec 2) (off : BitVec 21) : BitVec 32 :=
  off ++ maj ++ e ++ 3#2

/-- The V form (R104). -/
def joinV (maj : BitVec 7) (e : BitVec 2) (f : VForm) : BitVec 32 :=
  f.ty ++ f.c ++ f.p ++ f.vb ++ f.va ++ f.vd ++ maj ++ e ++ 3#2

/-- A parcel (R120). -/
def join16 (x d : BitVec 5) (op : BitVec 4) (q : BitVec 2) : BitVec 16 :=
  x ++ d ++ op ++ q

/-- The energy class must be the form's (R106). -/
def cls (e : BitVec 2) (k : Nat) (i : Instr) : Except DecodeError Instr :=
  if e.toNat = k then .ok i else .error .energyClass

/-- A field fixed at zero (R118). -/
def zero {n : Nat} {α : Type} (f : BitVec n) (r : Except DecodeError α) : Except DecodeError α :=
  if f = 0 then r else .error .nonzeroField

/-- MAJ 0x00: integer register operations (R109). -/
def major00 (e : BitVec 2) (fn : BitVec 6) (b a d : Reg) : Except DecodeError Instr :=
  match fn.toNat with
  | 0x00 => cls e 0 (.add d a b)
  | 0x01 => cls e 0 (.sub d a b)
  | 0x02 => cls e 0 (.and d a b)
  | 0x03 => cls e 0 (.or d a b)
  | 0x04 => cls e 0 (.xor d a b)
  | 0x05 => cls e 0 (.andn d a b)
  | 0x06 => cls e 0 (.orn d a b)
  | 0x07 => cls e 0 (.min d a b)
  | 0x08 => cls e 0 (.max d a b)
  | 0x09 => cls e 0 (.minz d a b)
  | 0x0A => cls e 0 (.maxz d a b)
  | 0x0B => cls e 0 (.sll d a b)
  | 0x0C => cls e 0 (.srl d a b)
  | 0x0D => cls e 0 (.sra d a b)
  | 0x0E => cls e 0 (.rol d a b)
  | 0x0F => cls e 0 (.ror d a b)
  | 0x10 => cls e 0 (.slt d a b)
  | 0x11 => cls e 0 (.sltz d a b)
  | 0x12 => cls e 1 (.div d a b)
  | 0x13 => cls e 1 (.divz d a b)
  | 0x14 => cls e 1 (.rem d a b)
  | 0x15 => cls e 1 (.remz d a b)
  | 0x16 => cls e 1 (.mul d a b)
  | 0x17 => cls e 1 (.mulh d a b)
  | 0x18 => cls e 1 (.mulhz d a b)
  | 0x19 => zero b (cls e 0 (.clz d a))
  | 0x1A => zero b (cls e 0 (.ctz d a))
  | 0x1B => zero b (cls e 0 (.popc d a))
  | 0x1C => cls e 0 (.sext d a b)
  | 0x1D => cls e 0 (.zext d a b)
  | 0x1E => cls e 0 (.bext d a b)
  | 0x1F => cls e 0 (.bins d a b)
  | _ => .error .reservedMinor

/-- MAJ 0x0E: scalar floating point, the width in fn[5] and the operation in fn[4:0] (R110). -/
def major0E (e : BitVec 2) (fn : BitVec 6) (b a d : Reg) : Except DecodeError Instr :=
  match (fn.extractLsb' 0 5).toNat with
  | 0x00 => cls e 1 (.fadd (fn.extractLsb' 5 1) d a b)
  | 0x01 => cls e 1 (.fsub (fn.extractLsb' 5 1) d a b)
  | 0x02 => cls e 1 (.fmul (fn.extractLsb' 5 1) d a b)
  | 0x03 => cls e 1 (.fdiv (fn.extractLsb' 5 1) d a b)
  | 0x04 => zero b (cls e 1 (.fsqrt (fn.extractLsb' 5 1) d a))
  | 0x05 => cls e 1 (.fma (fn.extractLsb' 5 1) d a b)
  | 0x06 => cls e 1 (.fmin (fn.extractLsb' 5 1) d a b)
  | 0x07 => cls e 1 (.fmax (fn.extractLsb' 5 1) d a b)
  | 0x08 => cls e 1 (.fcmpEq (fn.extractLsb' 5 1) d a b)
  | 0x09 => cls e 1 (.fcmpLt (fn.extractLsb' 5 1) d a b)
  | 0x0A => cls e 1 (.fcmpLe (fn.extractLsb' 5 1) d a b)
  | 0x0B => zero b (cls e 1 (.fclass (fn.extractLsb' 5 1) d a))
  | 0x0C => cls e 1 (.fsgn (fn.extractLsb' 5 1) d a b)
  | 0x0D => cls e 1 (.fsgnN (fn.extractLsb' 5 1) d a b)
  | 0x0E => cls e 1 (.fsgnX (fn.extractLsb' 5 1) d a b)
  | 0x0F => cls e 1 (.fcvt (fn.extractLsb' 5 1) d a b)
  | _ => .error .reservedMinor

/-- MAJ 0x16: loop registers and jalr (R111). -/
def major16 (e : BitVec 2) (fn : BitVec 6) (b a d : Reg) : Except DecodeError Instr :=
  match fn.toNat with
  | 0x03 => zero b (cls e 0 (.jalr d a))
  | 0x00 => zero a (cls e 0 (.loopRd d b))
  | 0x01 => zero d (cls e 0 (.loopWr a b))
  | 0x02 => zero a (zero d (cls e 0 (.loopLeave b)))
  | _ => .error .reservedMinor

/-- MAJ 0x1F: loads and stores with [gA + gB] (R112). -/
def major1F (e : BitVec 2) (fn : BitVec 6) (b a d : Reg) : Except DecodeError Instr :=
  match fn.toNat with
  | 0x00 => cls e 1 (.ldBs d a b)
  | 0x01 => cls e 1 (.ldBz d a b)
  | 0x02 => cls e 1 (.ldHs d a b)
  | 0x03 => cls e 1 (.ldHz d a b)
  | 0x04 => cls e 1 (.ldWs d a b)
  | 0x05 => cls e 1 (.ldWz d a b)
  | 0x06 => cls e 1 (.ldD d a b)
  | 0x08 => cls e 1 (.stB d a b)
  | 0x09 => cls e 1 (.stH d a b)
  | 0x0A => cls e 1 (.stW d a b)
  | 0x0B => cls e 1 (.stD d a b)
  | 0x0C => cls e 1 (.ldAcq d a b)
  | 0x0D => cls e 1 (.stRel d a b)
  | 0x0E => zero d (cls e 1 (.pf a b))
  | _ => .error .reservedMinor

/-- MAJ 0x1E: tld and tst, the direction in fn[5], fn[4] zero, the map in fn[3:0] (R112). -/
def major1E (e : BitVec 2) (fn : BitVec 6) (b a d : Reg) : Except DecodeError Instr :=
  match (fn.extractLsb' 4 2).toNat with
  | 0 => cls e 1 (.tld (fn.extractLsb' 0 4) d a b)
  | 2 => cls e 1 (.tst (fn.extractLsb' 0 4) d a b)
  | _ => .error .reservedMinor

/-- MAJ 0x20 and 0x21: atomics on dwords and on words, the operation in fn[3:0] and the ordering in fn[5:4] (R113). -/
def major20 (e : BitVec 2) (w : BitVec 1) (fn : BitVec 6) (b a d : Reg) : Except DecodeError Instr :=
  match (fn.extractLsb' 0 4).toNat with
  | 0x0 => cls e 1 (.amoAdd w (fn.extractLsb' 4 2) d a b)
  | 0x1 => cls e 1 (.amoAnd w (fn.extractLsb' 4 2) d a b)
  | 0x2 => cls e 1 (.amoOr w (fn.extractLsb' 4 2) d a b)
  | 0x3 => cls e 1 (.amoXor w (fn.extractLsb' 4 2) d a b)
  | 0x4 => cls e 1 (.amoMin w (fn.extractLsb' 4 2) d a b)
  | 0x5 => cls e 1 (.amoMax w (fn.extractLsb' 4 2) d a b)
  | 0x6 => cls e 1 (.amoMinz w (fn.extractLsb' 4 2) d a b)
  | 0x7 => cls e 1 (.amoMaxz w (fn.extractLsb' 4 2) d a b)
  | 0x8 => cls e 1 (.amoSwap w (fn.extractLsb' 4 2) d a b)
  | 0x9 => cls e 1 (.amoFadd w (fn.extractLsb' 4 2) d a b)
  | 0xA => cls e 1 (.cas w (fn.extractLsb' 4 2) d a b)
  | _ => .error .reservedMinor

/-- MAJ 0x22: fences, sdrain, ifence (R113). -/
def major22 (e : BitVec 2) (fn : BitVec 6) (b a d : Reg) : Except DecodeError Instr :=
  match fn.toNat with
  | 0x00 => zero a (zero d (cls e 0 (.fenceAcq b)))
  | 0x01 => zero a (zero d (cls e 0 (.fenceRel b)))
  | 0x02 => zero a (zero d (cls e 0 (.fenceSc b)))
  | 0x03 => zero b (zero a (zero d (cls e 0 (.sdrain))))
  | 0x04 => zero b (zero a (zero d (cls e 0 (.ifence))))
  | _ => .error .reservedMinor

/-- MAJ 0x2C: queue registers (R114). -/
def major2C (e : BitVec 2) (fn : BitVec 6) (b a d : Reg) : Except DecodeError Instr :=
  match fn.toNat with
  | 0x00 => zero (b.extractLsb' 3 2) (zero d (cls e 0 (.qput (b.extractLsb' 0 3) a)))
  | 0x01 => zero (b.extractLsb' 3 2) (zero a (cls e 0 (.qget d (b.extractLsb' 0 3))))
  | 0x02 => zero (b.extractLsb' 3 2) (cls e 0 (.qtry d a (b.extractLsb' 0 3)))
  | 0x03 => zero (b.extractLsb' 3 2) (zero a (cls e 0 (.qcnt d (b.extractLsb' 0 3))))
  | _ => .error .reservedMinor

/-- MAJ 0x2D: nsend, wfm, class masking, exit (R114). -/
def major2D (e : BitVec 2) (fn : BitVec 6) (b a d : Reg) : Except DecodeError Instr :=
  match fn.toNat with
  | 0x00 => zero d (cls e 1 (.nsend a b))
  | 0x01 => zero b (cls e 0 (.wfm d a))
  | 0x02 => zero b (zero d (cls e 0 (.clen a)))
  | 0x03 => zero b (zero d (cls e 0 (.cldis a)))
  | 0x04 => zero b (zero a (cls e 0 (.clpend d)))
  | 0x05 => zero b (zero a (zero d (cls e 0 (.exit))))
  | _ => .error .reservedMinor

/-- MAJ 0x33: claim (R114). -/
def major33 (e : BitVec 2) (fn : BitVec 6) (b a d : Reg) : Except DecodeError Instr :=
  match fn.toNat with
  | 0x00 => cls e 1 (.claim d a b)
  | _ => .error .reservedMinor

/-- MAJ 0x34: work queues (R114). -/
def major34 (e : BitVec 2) (fn : BitVec 6) (b a d : Reg) : Except DecodeError Instr :=
  match fn.toNat with
  | 0x00 => cls e 1 (.enq d a b)
  | 0x01 => zero b (cls e 1 (.deq d a))
  | 0x02 => cls e 1 (.deqTry d a b)
  | _ => .error .reservedMinor

/-- MAJ 0x38: engine pushes (R115). -/
def major38 (e : BitVec 2) (fn : BitVec 6) (b a d : Reg) : Except DecodeError Instr :=
  match fn.toNat with
  | 0x00 => zero b (zero d (cls e 1 (.mxpush a)))
  | 0x01 => zero b (zero d (cls e 1 (.cppush a)))
  | 0x02 => zero b (zero d (cls e 1 (.snpush a)))
  | _ => .error .reservedMinor

/-- MAJ 0x39: epop (R115). -/
def major39 (e : BitVec 2) (fn : BitVec 6) (b a d : Reg) : Except DecodeError Instr :=
  match fn.toNat with
  | 0x00 => zero a (cls e 0 (.epop d b))
  | _ => .error .reservedMinor

/-- MAJ 0x3B: drd (R115). -/
def major3B (e : BitVec 2) (fn : BitVec 6) (b a d : Reg) : Except DecodeError Instr :=
  match fn.toNat with
  | 0x00 => zero (b.extractLsb' 3 2) (cls e 0 (.drd d (b.extractLsb' 0 3) a))
  | _ => .error .reservedMinor

/-- MAJ 0x3D: release and benchq (R115). -/
def major3D (e : BitVec 2) (fn : BitVec 6) (b a d : Reg) : Except DecodeError Instr :=
  match fn.toNat with
  | 0x00 => zero b (zero a (zero d (cls e 1 (.release))))
  | 0x01 => zero b (zero a (cls e 1 (.benchq d)))
  | _ => .error .reservedMinor

/-- MAJ 0x3E: chain, trap and system instructions; chmerge.last is chmerge with d = 1 (R116, R75). -/
def major3E (e : BitVec 2) (fn : BitVec 6) (b a d : Reg) : Except DecodeError Instr :=
  match fn.toNat with
  | 0x00 => zero a (cls e 0 (.chrd d b))
  | 0x01 => if d = 0 then cls e 0 (.chmerge a b) else if d = 1 then cls e 0 (.chmergeLast a b) else .error .operandRange
  | 0x02 => zero b (zero d (cls e 0 (.chadd a)))
  | 0x03 => zero d (cls e 0 (.chwr a b))
  | 0x04 => cls e 0 (.acrd d a b)
  | 0x10 => zero d (cls e 0 (.trap a b))
  | 0x11 => zero b (zero a (zero d (cls e 0 (.eret))))
  | 0x12 => zero a (zero d (cls e 0 (.brk b)))
  | 0x13 => zero b (zero a (zero d (cls e 0 (.svc))))
  | 0x14 => zero b (cls e 0 (.sfqPop d a))
  | 0x15 => zero b (zero a (zero d (cls e 0 (.sfqReplay))))
  | 0x16 => zero b (zero a (zero d (cls e 0 (.grpcancel))))
  | 0x17 => zero d (cls e 0 (.tlbinv a b))
  | 0x18 => zero b (zero d (cls e 0 (.ctxsave a)))
  | 0x19 => zero b (zero d (cls e 0 (.ctxload a)))
  | _ => .error .reservedMinor

/-- The RR form by its major opcode (R108). -/
def decodeRR (maj : BitVec 7) (e : BitVec 2) (fn : BitVec 6) (b a d : Reg) : Except DecodeError Instr :=
  match maj.toNat with
  | 0x00 => major00 e fn b a d
  | 0x0E => major0E e fn b a d
  | 0x16 => major16 e fn b a d
  | 0x1E => major1E e fn b a d
  | 0x1F => major1F e fn b a d
  | 0x20 => major20 e 0 fn b a d
  | 0x21 => major20 e 1 fn b a d
  | 0x22 => major22 e fn b a d
  | 0x2C => major2C e fn b a d
  | 0x2D => major2D e fn b a d
  | 0x33 => major33 e fn b a d
  | 0x34 => major34 e fn b a d
  | 0x38 => major38 e fn b a d
  | 0x39 => major39 e fn b a d
  | 0x3B => major3B e fn b a d
  | 0x3D => major3D e fn b a d
  | 0x3E => major3E e fn b a d
  | _ => .error .reservedMajor

/-- The RI form by its major opcode (R108); MAJ 0x17 is split by d[1] (R97). -/
def decodeRI (maj : BitVec 7) (e : BitVec 2) (imm : BitVec 11) (a d : Reg) : Except DecodeError Instr :=
  match maj.toNat with
  | 0x01 => cls e 0 (.addi d a imm)
  | 0x02 => cls e 0 (.andi d a imm)
  | 0x03 => cls e 0 (.ori d a imm)
  | 0x04 => cls e 0 (.xori d a imm)
  | 0x05 => cls e 0 (.slti d a imm)
  | 0x06 => zero (imm.extractLsb' 6 5) (cls e 0 (.slli d a (imm.extractLsb' 0 6)))
  | 0x07 => zero (imm.extractLsb' 6 5) (cls e 0 (.srli d a (imm.extractLsb' 0 6)))
  | 0x08 => zero (imm.extractLsb' 6 5) (cls e 0 (.srai d a (imm.extractLsb' 0 6)))
  | 0x17 => zero (d.extractLsb' 2 3) (if d.extractLsb' 1 1 = 0 then cls e 0 (.loopArm (d.extractLsb' 0 1) a imm)
      else cls e 0 (.loopArmi (d.extractLsb' 0 1) a imm))
  | 0x18 => cls e 1 (.ldWsImm d a imm)
  | 0x19 => cls e 1 (.ldWzImm d a imm)
  | 0x1A => cls e 1 (.ldDImm d a imm)
  | 0x1B => cls e 1 (.stWImm d a imm)
  | 0x1C => cls e 1 (.stDImm d a imm)
  | 0x28 => zero (imm.extractLsb' 6 5) (cls e 1 (.send d a (imm.extractLsb' 0 6)))
  | 0x29 => zero (imm.extractLsb' 6 5) (cls e 1 (.sendg d a (imm.extractLsb' 0 6)))
  | 0x2A => zero (imm.extractLsb' 6 5) (cls e 1 (.sendc d a (imm.extractLsb' 0 6)))
  | 0x2B => zero (imm.extractLsb' 6 5) (cls e 1 (.msend d a (imm.extractLsb' 0 6)))
  | 0x30 => zero (imm.extractLsb' 6 5) (zero a (cls e 1 (.spawn d (imm.extractLsb' 0 6))))
  | 0x31 => cls e 1 (.fork d a imm)
  | 0x32 => zero d (cls e 1 (.join a imm))
  | 0x35 => zero (imm.extractLsb' 6 5) (zero d (cls e 0 (.prio a (imm.extractLsb' 0 6))))
  | 0x3A => zero a (zero (d.extractLsb' 3 2) (cls e 0 (.dwait (d.extractLsb' 0 3) imm)))
  | _ => .error .reservedMajor

/-- MAJ 0x3F: control-register access, the selector in imm16[15:12] and the number below it (R116). -/
def major3F (e : BitVec 2) (imm : BitVec 16) (d : Reg) : Except DecodeError Instr :=
  match (imm.extractLsb' 12 4).toNat with
  | 0 => cls e 0 (.crr (imm.extractLsb' 0 12) d)
  | 1 => cls e 0 (.crw (imm.extractLsb' 0 12) d)
  | 2 => cls e 0 (.crset (imm.extractLsb' 0 12) d)
  | 3 => cls e 0 (.crclr (imm.extractLsb' 0 12) d)
  | _ => .error .reservedSelector

/-- The RU form by its major opcode (R108). -/
def decodeRU (maj : BitVec 7) (e : BitVec 2) (imm : BitVec 16) (d : Reg) : Except DecodeError Instr :=
  match maj.toNat with
  | 0x0C => cls e 0 (.lui d imm)
  | 0x0D => cls e 0 (.addpc d imm)
  | 0x3C => zero (imm.extractLsb' 2 14) (cls e 1 (.compose d (imm.extractLsb' 0 2)))
  | 0x3F => major3F e imm d
  | _ => .error .reservedMajor

/-- The B form: the register compared first stands in [15:11] (R104). -/
def decodeB (maj : BitVec 7) (e : BitVec 2) (off : BitVec 11) (b a : Reg) : Except DecodeError Instr :=
  match maj.toNat with
  | 0x10 => cls e 0 (.bEq a b off)
  | 0x11 => cls e 0 (.bNe a b off)
  | 0x12 => cls e 0 (.bLt a b off)
  | 0x13 => cls e 0 (.bGe a b off)
  | _ => .error .reservedMajor

/-- The J form (R104). -/
def decodeJ (maj : BitVec 7) (e : BitVec 2) (off : BitVec 21) : Except DecodeError Instr :=
  match maj.toNat with
  | 0x14 => cls e 0 (.j off)
  | 0x15 => cls e 0 (.jal off)
  | _ => .error .reservedMajor

/-- The V form, MAJ = 0x40 + op (R117). -/
def decodeV (maj : BitVec 7) (e : BitVec 2) (f : VForm) : Except DecodeError Instr :=
  match maj.toNat with
  | 0x40 => cls e 1 (.vadd f)
  | 0x41 => cls e 1 (.vsub f)
  | 0x42 => cls e 1 (.vmul f)
  | 0x43 => cls e 1 (.vmadd f)
  | 0x44 => cls e 1 (.vmsub f)
  | 0x45 => cls e 1 (.vmin f)
  | 0x46 => cls e 1 (.vmax f)
  | 0x47 => cls e 1 (.vabs f)
  | 0x48 => cls e 1 (.vneg f)
  | 0x49 => cls e 2 (.vdot f)
  | 0x4A => cls e 1 (.vcmp f)
  | 0x4B => cls e 2 (.vredAdd f)
  | 0x4C => cls e 2 (.vredMax f)
  | 0x4D => cls e 2 (.vredMin f)
  | 0x50 => cls e 2 (.vaddFp f)
  | 0x51 => cls e 2 (.vsubFp f)
  | 0x52 => cls e 2 (.vmulFp f)
  | 0x53 => cls e 2 (.vmaddFp f)
  | 0x54 => cls e 2 (.vmsubFp f)
  | 0x55 => cls e 2 (.vminFp f)
  | 0x56 => cls e 2 (.vmaxFp f)
  | 0x57 => cls e 2 (.vabsFp f)
  | 0x58 => cls e 2 (.vnegFp f)
  | 0x59 => cls e 3 (.vdotFp f)
  | 0x5A => cls e 2 (.vcmpFp f)
  | 0x5B => cls e 2 (.vredAddFp f)
  | 0x5C => cls e 2 (.vredMaxFp f)
  | 0x5D => cls e 2 (.vredMinFp f)
  | 0x60 => cls e 1 (.vand f)
  | 0x61 => cls e 1 (.vor f)
  | 0x62 => cls e 1 (.vxor f)
  | 0x63 => cls e 1 (.vshl f)
  | 0x64 => cls e 1 (.vshr f)
  | 0x65 => cls e 1 (.vsra f)
  | 0x66 => cls e 1 (.vsel f)
  | 0x67 => cls e 1 (.vbcast f)
  | 0x68 => cls e 1 (.vperm f)
  | 0x69 => cls e 1 (.vshift f)
  | 0x6A => cls e 1 (.vcvt f)
  | 0x6B => cls e 3 (.vsf f)
  | 0x6C => cls e 0 (.pand f)
  | 0x6D => cls e 0 (.por f)
  | 0x6E => cls e 0 (.pxor f)
  | 0x6F => cls e 0 (.pnot f)
  | 0x70 => cls e 0 (.pcount f)
  | 0x71 => cls e 0 (.pfirst f)
  | 0x72 => cls e 0 (.vbound f)
  | 0x73 => cls e 0 (.vwidth f)
  | 0x78 => cls e 1 (.vld f)
  | 0x79 => cls e 1 (.vst f)
  | 0x7A => cls e 1 (.vldt f)
  | 0x7B => cls e 1 (.vstt f)
  | 0x7C => cls e 2 (.vgath f)
  | 0x7D => cls e 2 (.vscat f)
  | 0x7E => cls e 1 (.vldb f)
  | _ => .error .reservedMajor

/-- Quadrant 00 of the parcels (R121). -/
def decodeQ0 (x d : BitVec 5) (op : BitVec 4) : Except DecodeError Decoded :=
  match op.toNat with
  | 0 => .ok (.instr (.sub16 d x))
  | 1 => .ok (.instr (.addi16 d x))
  | 2 => .ok (.instr (.and16 d x))
  | 3 => .ok (.instr (.or16 d x))
  | 4 => .ok (.instr (.xor16 d x))
  | 5 => .ok (.instr (.mov16 d x))
  | 6 => .ok (.instr (.andi16 d x))
  | 7 => .ok (.instr (.srli16 d x))
  | 8 => .ok (.instr (.ldD16 d x))
  | 9 => .ok (.instr (.stD16 d x))
  | 10 => .ok (.instr (.ldWz16 d x))
  | 11 => .ok (.instr (.ldBz16 d x))
  | 12 => .ok (.instr (.stB16 d x))
  | 13 => .ok (.instr (.amoAddD16 d x))
  | 14 => .ok (.instr (.sendc16 d x))
  | 15 => zero x (zero d (.ok (.instr (.exit16))))
  | _ => .error .reservedParcel

/-- Quadrant 01 of the parcels (R121). -/
def decodeQ1 (x d : BitVec 5) (op : BitVec 4) : Except DecodeError Decoded :=
  match op.toNat with
  | 0 => .ok (.instr (.slt16 d x))
  | 1 => .ok (.instr (.sll16 d x))
  | 2 => .ok (.instr (.srl16 d x))
  | 3 => .ok (.instr (.sra16 d x))
  | 4 => .ok (.instr (.srai16 d x))
  | 5 => .ok (.instr (.mul16 d x))
  | 6 => .ok (.instr (.min16 d x))
  | 7 => .ok (.instr (.max16 d x))
  | 8 => .ok (.instr (.bLt16 d x))
  | 9 => .ok (.instr (.bGe16 d x))
  | 10 => .ok (.instr (.j16 (x ++ d)))
  | 11 => .ok (.instr (.jalr16 d x))
  | 12 => .ok (.instr (.ldDG416 d x))
  | 13 => .ok (.instr (.stDG416 d x))
  | 14 => .ok (.instr (.ldDG316 d x))
  | 15 => .ok (.instr (.andn16 d x))
  | _ => .error .reservedParcel

/-- Quadrant 10 of the parcels (R121). -/
def decodeQ2 (x d : BitVec 5) (op : BitVec 4) : Except DecodeError Decoded :=
  match op.toNat with
  | 0 => .ok (.instr (.faddF3216 d x))
  | 1 => .ok (.instr (.fsubF3216 d x))
  | 2 => .ok (.instr (.fmulF3216 d x))
  | 3 => .ok (.instr (.faddF6416 d x))
  | 4 => .ok (.instr (.fsubF6416 d x))
  | 5 => .ok (.instr (.fmulF6416 d x))
  | 6 => zero (d.extractLsb' 3 2) (.ok (.instr (.dwait16 (d.extractLsb' 0 3) x)))
  | 7 => .ok (.instr (.epop16 d x))
  | 8 => zero (d.extractLsb' 3 2) (.ok (.qput16 (d.extractLsb' 0 3) x))
  | 9 => .ok (.qget16 d x)
  | 10 => .ok (.chrd16 d x)
  | _ => .error .reservedParcel

/-- The forms that R108 gives the major opcodes. -/
inductive Form where
  | rr | ri | ru | b | j | v
deriving DecidableEq, Repr

/-- The form of a major opcode (R108); a reserved one is split as RR and then rejected. -/
def formOf (maj : BitVec 7) : Form :=
  let m := maj.toNat
  if 0x40 ≤ m then .v
  else if (1 ≤ m ∧ m ≤ 8) ∨ (0x17 ≤ m ∧ m ≤ 0x1C) ∨ (0x28 ≤ m ∧ m ≤ 0x2B) ∨ (0x30 ≤ m ∧ m ≤ 0x32) ∨
    m = 0x35 ∨ m = 0x3A then .ri
  else if m = 0x0C ∨ m = 0x0D ∨ m = 0x3C ∨ m = 0x3F then .ru
  else if 0x10 ≤ m ∧ m ≤ 0x13 then .b
  else if m = 0x14 ∨ m = 0x15 then .j
  else .rr

/-- The V form's fields of a word (R104). -/
def splitV (w : BitVec 32) : VForm :=
  ⟨w.extractLsb' 30 2, w.extractLsb' 29 1, w.extractLsb' 26 3, w.extractLsb' 21 5, w.extractLsb' 16 5,
    w.extractLsb' 11 5⟩

/-- The instruction a 32-bit word picks, before the limits of its operands (R104, R108). -/
def pick32 (w : BitVec 32) : Except DecodeError Instr :=
  let maj := w.extractLsb' 4 7
  let e := w.extractLsb' 2 2
  let x := w.extractLsb' 21 5
  let y := w.extractLsb' 16 5
  let z := w.extractLsb' 11 5
  match formOf maj with
  | .rr => decodeRR maj e (w.extractLsb' 26 6) x y z
  | .ri => decodeRI maj e (w.extractLsb' 21 11) y z
  | .ru => decodeRU maj e (w.extractLsb' 16 16) z
  | .b => decodeB maj e (w.extractLsb' 21 11) y z
  | .j => decodeJ maj e (w.extractLsb' 11 21)
  | .v => decodeV maj e (splitV w)

/-- The instruction a parcel picks (R120, R121). -/
def pick16 (p : BitVec 16) : Except DecodeError Decoded :=
  let x := p.extractLsb' 11 5
  let d := p.extractLsb' 6 5
  let op := p.extractLsb' 2 4
  match (p.extractLsb' 0 2).toNat with
  | 0 => decodeQ0 x d op
  | 1 => decodeQ1 x d op
  | 2 => decodeQ2 x d op
  | _ => .error .wrongLength

/-- Read a 32-bit word: the form, the class, the zero fields and the limits (R102, R118). -/
def read32 (w : BitVec 32) : Except DecodeError Decoded :=
  if w.extractLsb' 0 2 = 3 then
    match pick32 w with
    | .ok i => if i.wf then .ok (.instr i) else .error .operandRange
    | .error e => .error e
  else .error .wrongLength

/-- Read a parcel (R120, R122). -/
def read16 (p : BitVec 16) : Except DecodeError Decoded :=
  match pick16 p with
  | .ok r => if r.wf then .ok r else .error .operandRange
  | .error e => .error e

/-- The length that a first parcel gives its instruction, in bytes (R102). -/
def parcelLen (p : BitVec 16) : Nat := if p.extractLsb' 0 2 = 3 then 4 else 2

/-- Read the words of an instruction. -/
def readCode : Code → Except DecodeError Decoded
  | .w32 w => read32 w
  | .w16 p => read16 p

/-- Decode the words of an instruction. -/
noncomputable def decode (c : Code) : Except DecodeError Instr :=
  match readCode c with
  | .ok r => .ok r.toInstr
  | .error e => .error e

/-- The words at the head of a list of bytes, little-endian (R4), and the bytes after them. -/
def wordsOf : List Byte → Option (Code × List Byte)
  | b0 :: b1 :: rest =>
    if parcelLen (b1 ++ b0) = 2 then some (.w16 (b1 ++ b0), rest)
    else match rest with
      | b2 :: b3 :: rest' => some (.w32 (b3 ++ b2 ++ b1 ++ b0), rest')
      | _ => none
  | _ => none

/-- The words of an instruction, from the same maps (R104 to R121); engine commands and events have none. -/
def encode : Instr → Option Code
  | .add d a b => some (.w32 (joinRR 0x00 0 0#6 b a d))
  | .sub d a b => some (.w32 (joinRR 0x00 0 1#6 b a d))
  | .and d a b => some (.w32 (joinRR 0x00 0 2#6 b a d))
  | .or d a b => some (.w32 (joinRR 0x00 0 3#6 b a d))
  | .xor d a b => some (.w32 (joinRR 0x00 0 4#6 b a d))
  | .andn d a b => some (.w32 (joinRR 0x00 0 5#6 b a d))
  | .orn d a b => some (.w32 (joinRR 0x00 0 6#6 b a d))
  | .min d a b => some (.w32 (joinRR 0x00 0 7#6 b a d))
  | .max d a b => some (.w32 (joinRR 0x00 0 8#6 b a d))
  | .minz d a b => some (.w32 (joinRR 0x00 0 9#6 b a d))
  | .maxz d a b => some (.w32 (joinRR 0x00 0 0xA#6 b a d))
  | .sll d a b => some (.w32 (joinRR 0x00 0 0xB#6 b a d))
  | .srl d a b => some (.w32 (joinRR 0x00 0 0xC#6 b a d))
  | .sra d a b => some (.w32 (joinRR 0x00 0 0xD#6 b a d))
  | .rol d a b => some (.w32 (joinRR 0x00 0 0xE#6 b a d))
  | .ror d a b => some (.w32 (joinRR 0x00 0 0xF#6 b a d))
  | .slt d a b => some (.w32 (joinRR 0x00 0 0x10#6 b a d))
  | .sltz d a b => some (.w32 (joinRR 0x00 0 0x11#6 b a d))
  | .div d a b => some (.w32 (joinRR 0x00 1 0x12#6 b a d))
  | .divz d a b => some (.w32 (joinRR 0x00 1 0x13#6 b a d))
  | .rem d a b => some (.w32 (joinRR 0x00 1 0x14#6 b a d))
  | .remz d a b => some (.w32 (joinRR 0x00 1 0x15#6 b a d))
  | .mul d a b => some (.w32 (joinRR 0x00 1 0x16#6 b a d))
  | .mulh d a b => some (.w32 (joinRR 0x00 1 0x17#6 b a d))
  | .mulhz d a b => some (.w32 (joinRR 0x00 1 0x18#6 b a d))
  | .clz d a => some (.w32 (joinRR 0x00 0 0x19#6 0#5 a d))
  | .ctz d a => some (.w32 (joinRR 0x00 0 0x1A#6 0#5 a d))
  | .popc d a => some (.w32 (joinRR 0x00 0 0x1B#6 0#5 a d))
  | .sext d a w => some (.w32 (joinRR 0x00 0 0x1C#6 w a d))
  | .zext d a w => some (.w32 (joinRR 0x00 0 0x1D#6 w a d))
  | .bext d a b => some (.w32 (joinRR 0x00 0 0x1E#6 b a d))
  | .bins d a b => some (.w32 (joinRR 0x00 0 0x1F#6 b a d))
  | .addi d a imm => some (.w32 (joinRI 0x01 0 imm a d))
  | .andi d a imm => some (.w32 (joinRI 0x02 0 imm a d))
  | .ori d a imm => some (.w32 (joinRI 0x03 0 imm a d))
  | .xori d a imm => some (.w32 (joinRI 0x04 0 imm a d))
  | .slti d a imm => some (.w32 (joinRI 0x05 0 imm a d))
  | .slli d a sh => some (.w32 (joinRI 0x06 0 (0#5 ++ sh) a d))
  | .srli d a sh => some (.w32 (joinRI 0x07 0 (0#5 ++ sh) a d))
  | .srai d a sh => some (.w32 (joinRI 0x08 0 (0#5 ++ sh) a d))
  | .lui d imm => some (.w32 (joinRU 0x0C 0 imm d))
  | .addpc d imm => some (.w32 (joinRU 0x0D 0 imm d))
  | .fadd w d a b => some (.w32 (joinRR 0x0E 1 (w ++ 0#5) b a d))
  | .fsub w d a b => some (.w32 (joinRR 0x0E 1 (w ++ 1#5) b a d))
  | .fmul w d a b => some (.w32 (joinRR 0x0E 1 (w ++ 2#5) b a d))
  | .fdiv w d a b => some (.w32 (joinRR 0x0E 1 (w ++ 3#5) b a d))
  | .fsqrt w d a => some (.w32 (joinRR 0x0E 1 (w ++ 4#5) 0#5 a d))
  | .fma w d a b => some (.w32 (joinRR 0x0E 1 (w ++ 5#5) b a d))
  | .fmin w d a b => some (.w32 (joinRR 0x0E 1 (w ++ 6#5) b a d))
  | .fmax w d a b => some (.w32 (joinRR 0x0E 1 (w ++ 7#5) b a d))
  | .fcmpEq w d a b => some (.w32 (joinRR 0x0E 1 (w ++ 8#5) b a d))
  | .fcmpLt w d a b => some (.w32 (joinRR 0x0E 1 (w ++ 9#5) b a d))
  | .fcmpLe w d a b => some (.w32 (joinRR 0x0E 1 (w ++ 0xA#5) b a d))
  | .fclass w d a => some (.w32 (joinRR 0x0E 1 (w ++ 0xB#5) 0#5 a d))
  | .fsgn w d a b => some (.w32 (joinRR 0x0E 1 (w ++ 0xC#5) b a d))
  | .fsgnN w d a b => some (.w32 (joinRR 0x0E 1 (w ++ 0xD#5) b a d))
  | .fsgnX w d a b => some (.w32 (joinRR 0x0E 1 (w ++ 0xE#5) b a d))
  | .fcvt w d a c => some (.w32 (joinRR 0x0E 1 (w ++ 0xF#5) c a d))
  | .bEq a b off => some (.w32 (joinB 0x10 0 off b a))
  | .bNe a b off => some (.w32 (joinB 0x11 0 off b a))
  | .bLt a b off => some (.w32 (joinB 0x12 0 off b a))
  | .bGe a b off => some (.w32 (joinB 0x13 0 off b a))
  | .j off => some (.w32 (joinJ 0x14 0 off))
  | .jal off => some (.w32 (joinJ 0x15 0 off))
  | .jalr d a => some (.w32 (joinRR 0x16 0 3#6 0#5 a d))
  | .loopRd d sel => some (.w32 (joinRR 0x16 0 0#6 sel 0#5 d))
  | .loopWr a sel => some (.w32 (joinRR 0x16 0 1#6 sel a 0#5))
  | .loopLeave n => some (.w32 (joinRR 0x16 0 2#6 n 0#5 0#5))
  | .loopArm l a imm => some (.w32 (joinRI 0x17 0 imm a (0#4 ++ l)))
  | .loopArmi l n imm => some (.w32 (joinRI 0x17 0 imm n (1#4 ++ l)))
  | .ldBs d a b => some (.w32 (joinRR 0x1F 1 0#6 b a d))
  | .ldBz d a b => some (.w32 (joinRR 0x1F 1 1#6 b a d))
  | .ldHs d a b => some (.w32 (joinRR 0x1F 1 2#6 b a d))
  | .ldHz d a b => some (.w32 (joinRR 0x1F 1 3#6 b a d))
  | .ldWs d a b => some (.w32 (joinRR 0x1F 1 4#6 b a d))
  | .ldWz d a b => some (.w32 (joinRR 0x1F 1 5#6 b a d))
  | .ldD d a b => some (.w32 (joinRR 0x1F 1 6#6 b a d))
  | .stB d a b => some (.w32 (joinRR 0x1F 1 8#6 b a d))
  | .stH d a b => some (.w32 (joinRR 0x1F 1 9#6 b a d))
  | .stW d a b => some (.w32 (joinRR 0x1F 1 0xA#6 b a d))
  | .stD d a b => some (.w32 (joinRR 0x1F 1 0xB#6 b a d))
  | .ldAcq d a b => some (.w32 (joinRR 0x1F 1 0xC#6 b a d))
  | .stRel d a b => some (.w32 (joinRR 0x1F 1 0xD#6 b a d))
  | .pf a b => some (.w32 (joinRR 0x1F 1 0xE#6 b a 0#5))
  | .ldWsImm d a imm => some (.w32 (joinRI 0x18 1 imm a d))
  | .ldWzImm d a imm => some (.w32 (joinRI 0x19 1 imm a d))
  | .ldDImm d a imm => some (.w32 (joinRI 0x1A 1 imm a d))
  | .stWImm d a imm => some (.w32 (joinRI 0x1B 1 imm a d))
  | .stDImm d a imm => some (.w32 (joinRI 0x1C 1 imm a d))
  | .tld n d a b => some (.w32 (joinRR 0x1E 1 (0#2 ++ n) b a d))
  | .tst n d a b => some (.w32 (joinRR 0x1E 1 (2#2 ++ n) b a d))
  | .amoAdd w ord d a b => some (.w32 (joinRR (0x10#6 ++ w) 1 (ord ++ 0#4) b a d))
  | .amoAnd w ord d a b => some (.w32 (joinRR (0x10#6 ++ w) 1 (ord ++ 1#4) b a d))
  | .amoOr w ord d a b => some (.w32 (joinRR (0x10#6 ++ w) 1 (ord ++ 2#4) b a d))
  | .amoXor w ord d a b => some (.w32 (joinRR (0x10#6 ++ w) 1 (ord ++ 3#4) b a d))
  | .amoMin w ord d a b => some (.w32 (joinRR (0x10#6 ++ w) 1 (ord ++ 4#4) b a d))
  | .amoMax w ord d a b => some (.w32 (joinRR (0x10#6 ++ w) 1 (ord ++ 5#4) b a d))
  | .amoMinz w ord d a b => some (.w32 (joinRR (0x10#6 ++ w) 1 (ord ++ 6#4) b a d))
  | .amoMaxz w ord d a b => some (.w32 (joinRR (0x10#6 ++ w) 1 (ord ++ 7#4) b a d))
  | .amoSwap w ord d a b => some (.w32 (joinRR (0x10#6 ++ w) 1 (ord ++ 8#4) b a d))
  | .amoFadd w ord d a b => some (.w32 (joinRR (0x10#6 ++ w) 1 (ord ++ 9#4) b a d))
  | .cas w ord d a b => some (.w32 (joinRR (0x10#6 ++ w) 1 (ord ++ 0xA#4) b a d))
  | .fenceAcq s => some (.w32 (joinRR 0x22 0 0#6 s 0#5 0#5))
  | .fenceRel s => some (.w32 (joinRR 0x22 0 1#6 s 0#5 0#5))
  | .fenceSc s => some (.w32 (joinRR 0x22 0 2#6 s 0#5 0#5))
  | .sdrain => some (.w32 (joinRR 0x22 0 3#6 0#5 0#5 0#5))
  | .ifence => some (.w32 (joinRR 0x22 0 4#6 0#5 0#5 0#5))
  | .send d a c => some (.w32 (joinRI 0x28 1 (0#5 ++ c) a d))
  | .sendg d a c => some (.w32 (joinRI 0x29 1 (0#5 ++ c) a d))
  | .sendc d a c => some (.w32 (joinRI 0x2A 1 (0#5 ++ c) a d))
  | .msend d a c => some (.w32 (joinRI 0x2B 1 (0#5 ++ c) a d))
  | .qput q a => some (.w32 (joinRR 0x2C 0 0#6 (0#2 ++ q) a 0#5))
  | .qget d q => some (.w32 (joinRR 0x2C 0 1#6 (0#2 ++ q) 0#5 d))
  | .qtry d a q => some (.w32 (joinRR 0x2C 0 2#6 (0#2 ++ q) a d))
  | .qcnt d q => some (.w32 (joinRR 0x2C 0 3#6 (0#2 ++ q) 0#5 d))
  | .nsend a b => some (.w32 (joinRR 0x2D 1 0#6 b a 0#5))
  | .wfm d a => some (.w32 (joinRR 0x2D 0 1#6 0#5 a d))
  | .clen a => some (.w32 (joinRR 0x2D 0 2#6 0#5 a 0#5))
  | .cldis a => some (.w32 (joinRR 0x2D 0 3#6 0#5 a 0#5))
  | .clpend d => some (.w32 (joinRR 0x2D 0 4#6 0#5 0#5 d))
  | .exit => some (.w32 (joinRR 0x2D 0 5#6 0#5 0#5 0#5))
  | .spawn d c => some (.w32 (joinRI 0x30 1 (0#5 ++ c) 0#5 d))
  | .fork d a imm => some (.w32 (joinRI 0x31 1 imm a d))
  | .join a imm => some (.w32 (joinRI 0x32 1 imm a 0#5))
  | .claim d a b => some (.w32 (joinRR 0x33 1 0#6 b a d))
  | .enq d a b => some (.w32 (joinRR 0x34 1 0#6 b a d))
  | .deq d a => some (.w32 (joinRR 0x34 1 1#6 0#5 a d))
  | .deqTry d a s => some (.w32 (joinRR 0x34 1 2#6 s a d))
  | .prio a c => some (.w32 (joinRI 0x35 0 (0#5 ++ c) a 0#5))
  | .mxpush a => some (.w32 (joinRR 0x38 1 0#6 0#5 a 0#5))
  | .cppush a => some (.w32 (joinRR 0x38 1 1#6 0#5 a 0#5))
  | .snpush a => some (.w32 (joinRR 0x38 1 2#6 0#5 a 0#5))
  | .epop d e => some (.w32 (joinRR 0x39 0 0#6 e 0#5 d))
  | .dwait n imm => some (.w32 (joinRI 0x3A 0 imm 0#5 (0#2 ++ n)))
  | .drd d n a => some (.w32 (joinRR 0x3B 0 0#6 (0#2 ++ n) a d))
  | .compose d s => some (.w32 (joinRU 0x3C 1 (0#14 ++ s) d))
  | .release => some (.w32 (joinRR 0x3D 1 0#6 0#5 0#5 0#5))
  | .benchq d => some (.w32 (joinRR 0x3D 1 1#6 0#5 0#5 d))
  | .chrd d sel => some (.w32 (joinRR 0x3E 0 0#6 sel 0#5 d))
  | .chmerge a b => some (.w32 (joinRR 0x3E 0 1#6 b a 0#5))
  | .chmergeLast a b => some (.w32 (joinRR 0x3E 0 1#6 b a 1#5))
  | .chadd a => some (.w32 (joinRR 0x3E 0 2#6 0#5 a 0#5))
  | .chwr a b => some (.w32 (joinRR 0x3E 0 3#6 b a 0#5))
  | .acrd d a s => some (.w32 (joinRR 0x3E 0 4#6 s a d))
  | .trap a b => some (.w32 (joinRR 0x3E 0 0x10#6 b a 0#5))
  | .eret => some (.w32 (joinRR 0x3E 0 0x11#6 0#5 0#5 0#5))
  | .brk n => some (.w32 (joinRR 0x3E 0 0x12#6 n 0#5 0#5))
  | .svc => some (.w32 (joinRR 0x3E 0 0x13#6 0#5 0#5 0#5))
  | .sfqPop d a => some (.w32 (joinRR 0x3E 0 0x14#6 0#5 a d))
  | .sfqReplay => some (.w32 (joinRR 0x3E 0 0x15#6 0#5 0#5 0#5))
  | .grpcancel => some (.w32 (joinRR 0x3E 0 0x16#6 0#5 0#5 0#5))
  | .tlbinv a k => some (.w32 (joinRR 0x3E 0 0x17#6 k a 0#5))
  | .ctxsave a => some (.w32 (joinRR 0x3E 0 0x18#6 0#5 a 0#5))
  | .ctxload a => some (.w32 (joinRR 0x3E 0 0x19#6 0#5 a 0#5))
  | .crr r d => some (.w32 (joinRU 0x3F 0 (0#4 ++ r) d))
  | .crw r d => some (.w32 (joinRU 0x3F 0 (1#4 ++ r) d))
  | .crset r d => some (.w32 (joinRU 0x3F 0 (2#4 ++ r) d))
  | .crclr r d => some (.w32 (joinRU 0x3F 0 (3#4 ++ r) d))
  | .vadd f => some (.w32 (joinV 0x40 1 f))
  | .vsub f => some (.w32 (joinV 0x41 1 f))
  | .vmul f => some (.w32 (joinV 0x42 1 f))
  | .vmadd f => some (.w32 (joinV 0x43 1 f))
  | .vmsub f => some (.w32 (joinV 0x44 1 f))
  | .vmin f => some (.w32 (joinV 0x45 1 f))
  | .vmax f => some (.w32 (joinV 0x46 1 f))
  | .vabs f => some (.w32 (joinV 0x47 1 f))
  | .vneg f => some (.w32 (joinV 0x48 1 f))
  | .vdot f => some (.w32 (joinV 0x49 2 f))
  | .vcmp f => some (.w32 (joinV 0x4A 1 f))
  | .vredAdd f => some (.w32 (joinV 0x4B 2 f))
  | .vredMax f => some (.w32 (joinV 0x4C 2 f))
  | .vredMin f => some (.w32 (joinV 0x4D 2 f))
  | .vaddFp f => some (.w32 (joinV 0x50 2 f))
  | .vsubFp f => some (.w32 (joinV 0x51 2 f))
  | .vmulFp f => some (.w32 (joinV 0x52 2 f))
  | .vmaddFp f => some (.w32 (joinV 0x53 2 f))
  | .vmsubFp f => some (.w32 (joinV 0x54 2 f))
  | .vminFp f => some (.w32 (joinV 0x55 2 f))
  | .vmaxFp f => some (.w32 (joinV 0x56 2 f))
  | .vabsFp f => some (.w32 (joinV 0x57 2 f))
  | .vnegFp f => some (.w32 (joinV 0x58 2 f))
  | .vdotFp f => some (.w32 (joinV 0x59 3 f))
  | .vcmpFp f => some (.w32 (joinV 0x5A 2 f))
  | .vredAddFp f => some (.w32 (joinV 0x5B 2 f))
  | .vredMaxFp f => some (.w32 (joinV 0x5C 2 f))
  | .vredMinFp f => some (.w32 (joinV 0x5D 2 f))
  | .vand f => some (.w32 (joinV 0x60 1 f))
  | .vor f => some (.w32 (joinV 0x61 1 f))
  | .vxor f => some (.w32 (joinV 0x62 1 f))
  | .vshl f => some (.w32 (joinV 0x63 1 f))
  | .vshr f => some (.w32 (joinV 0x64 1 f))
  | .vsra f => some (.w32 (joinV 0x65 1 f))
  | .vsel f => some (.w32 (joinV 0x66 1 f))
  | .vbcast f => some (.w32 (joinV 0x67 1 f))
  | .vperm f => some (.w32 (joinV 0x68 1 f))
  | .vshift f => some (.w32 (joinV 0x69 1 f))
  | .vcvt f => some (.w32 (joinV 0x6A 1 f))
  | .vsf f => some (.w32 (joinV 0x6B 3 f))
  | .pand f => some (.w32 (joinV 0x6C 0 f))
  | .por f => some (.w32 (joinV 0x6D 0 f))
  | .pxor f => some (.w32 (joinV 0x6E 0 f))
  | .pnot f => some (.w32 (joinV 0x6F 0 f))
  | .pcount f => some (.w32 (joinV 0x70 0 f))
  | .pfirst f => some (.w32 (joinV 0x71 0 f))
  | .vbound f => some (.w32 (joinV 0x72 0 f))
  | .vwidth f => some (.w32 (joinV 0x73 0 f))
  | .vld f => some (.w32 (joinV 0x78 1 f))
  | .vst f => some (.w32 (joinV 0x79 1 f))
  | .vldt f => some (.w32 (joinV 0x7A 1 f))
  | .vstt f => some (.w32 (joinV 0x7B 1 f))
  | .vgath f => some (.w32 (joinV 0x7C 2 f))
  | .vscat f => some (.w32 (joinV 0x7D 2 f))
  | .vldb f => some (.w32 (joinV 0x7E 1 f))
  | .sub16 d a => some (.w16 (join16 a d 0 0))
  | .addi16 d imm => some (.w16 (join16 imm d 1 0))
  | .and16 d a => some (.w16 (join16 a d 2 0))
  | .or16 d a => some (.w16 (join16 a d 3 0))
  | .xor16 d a => some (.w16 (join16 a d 4 0))
  | .mov16 d a => some (.w16 (join16 a d 5 0))
  | .andi16 d imm => some (.w16 (join16 imm d 6 0))
  | .srli16 d imm => some (.w16 (join16 imm d 7 0))
  | .ldD16 d a => some (.w16 (join16 a d 8 0))
  | .stD16 d a => some (.w16 (join16 a d 9 0))
  | .ldWz16 d a => some (.w16 (join16 a d 10 0))
  | .ldBz16 d a => some (.w16 (join16 a d 11 0))
  | .stB16 d a => some (.w16 (join16 a d 12 0))
  | .amoAddD16 d a => some (.w16 (join16 a d 13 0))
  | .sendc16 d imm => some (.w16 (join16 imm d 14 0))
  | .exit16 => some (.w16 (join16 0#5 0#5 15 0))
  | .slt16 d a => some (.w16 (join16 a d 0 1))
  | .sll16 d a => some (.w16 (join16 a d 1 1))
  | .srl16 d a => some (.w16 (join16 a d 2 1))
  | .sra16 d a => some (.w16 (join16 a d 3 1))
  | .srai16 d imm => some (.w16 (join16 imm d 4 1))
  | .mul16 d a => some (.w16 (join16 a d 5 1))
  | .min16 d a => some (.w16 (join16 a d 6 1))
  | .max16 d a => some (.w16 (join16 a d 7 1))
  | .bLt16 d imm => some (.w16 (join16 imm d 8 1))
  | .bGe16 d imm => some (.w16 (join16 imm d 9 1))
  | .j16 off => some (.w16 (join16 (off.extractLsb' 5 5) (off.extractLsb' 0 5) 10 1))
  | .jalr16 d a => some (.w16 (join16 a d 11 1))
  | .ldDG416 d imm => some (.w16 (join16 imm d 12 1))
  | .stDG416 d imm => some (.w16 (join16 imm d 13 1))
  | .ldDG316 d imm => some (.w16 (join16 imm d 14 1))
  | .andn16 d a => some (.w16 (join16 a d 15 1))
  | .faddF3216 d a => some (.w16 (join16 a d 0 2))
  | .fsubF3216 d a => some (.w16 (join16 a d 1 2))
  | .fmulF3216 d a => some (.w16 (join16 a d 2 2))
  | .faddF6416 d a => some (.w16 (join16 a d 3 2))
  | .fsubF6416 d a => some (.w16 (join16 a d 4 2))
  | .fmulF6416 d a => some (.w16 (join16 a d 5 2))
  | .dwait16 n imm => some (.w16 (join16 imm (0#2 ++ n) 6 2))
  | .epop16 d e => some (.w16 (join16 e d 7 2))
  | .qput16 q a => some (.w16 (join16 a (0#2 ++ q) 8 2))
  | .qget16 d q => some (.w16 (join16 q d 9 2))
  | .chrd16 d sel => some (.w16 (join16 sel d 10 2))
  | .ldcb .. | .ldb .. | .swpb .. | .rotb .. | .mma .. | .mmav .. | .zero .. | .ldc .. | .stc ..
    | .scanl .. | .tjoin .. | .scanc .. | .tbar .. | .tred .. | .copy .. | .copy2d .. | .gather
    .. | .scatter .. | .mcast .. | .fill .. | .resume .. | .engineCommandRetire .. | .groupClose
    .. | .mxstatRetry .. | .mxstatSkip .. | .mxstatOvfClear .. | .snstatRetry .. | .snstatSkip
    .. | .snstatMismClear .. | .cpstatSkip .. | .mxRegisterWrite .. | .snopWrite .. |
    .chlimWrite .. | .registerWrite .. | .modeChange .. | .acceptMessage .. | .selectEntry .. |
    .stealRequest .. | .channelDelivery .. | .ringDelivery .. | .nsendArrival .. | .creditReturn
    .. | .queueWake .. | .wfmWake .. | .sendfull .. | .messageInject .. | .sendgCopy .. |
    .headerForward .. | .sysReply .. | .sysReplyTrap .. | .storeDrain .. | .linkDelivery .. |
    .loadReturn .. | .deqServe .. | .pageWalk .. | .sequenceUpdate .. | .applyUpdate .. |
    .migrationStart .. | .migrationSwitch .. | .frameClaim .. | .storeFault .. | .eccStoreAtHome
    .. | .engineFault .. | .outlierFull .. | .watchdogExpiry .. | .watchdog .. | .chain .. |
    .load .. | .launch .. | .cancel .. | .unload .. | .query .. | .rdmaWriteWithImmediate .. |
    .rdmaSend .. | .rdmaWrite .. | .rdmaRead .. | .congestionNotification .. | .managementFrame
    .. | .sliceBoundary .. | .arbiterWake .. | .repartition .. | .drawerFailure .. |
    .moduleReset .. | .rctlFreqWrite .. | .rctlVoltWrite .. | .regionStep .. | .clockStretch ..
    | .thermalThrottle .. | .thermalReset .. | .replan .. | .powerStateEntry .. | .clusterWake
    .. | .packageSleep | .packageWake | .pstopStop .. | .quiescence .. | .pstopResume .. |
    .routerFailure .. | .fioldFrame .. | .fioldReplay .. | .fioldHeartbeat .. | .fioldLinkDown
    .. | .endToEndHeartbeat | .peerLost .. | .fioldPacket .. | .trctlFlush | .trctlEnWrite .. |
    .segmentWriteComplete .. | .counterSample .. | .horizonUpdate .. | .localCycle .. |
    .replaceReport | .priorityFlowControl .. | .scrub .. | .countingWindow .. => none

/-- The bytes of an instruction's words, lowest address first (R4). -/
def Code.bytes : Code → List Byte
  | .w32 w => [w.extractLsb' 0 8, w.extractLsb' 8 8, w.extractLsb' 16 8, w.extractLsb' 24 8]
  | .w16 p => [p.extractLsb' 0 8, p.extractLsb' 8 8]

/-- The length of an instruction's words in bytes (R102). -/
def Code.len : Code → Nat
  | .w32 _ => 4
  | .w16 _ => 2

/-- The encoding as cr.tval takes it: zero-extended (R118). -/
def Code.word : Code → Word
  | .w32 w => w.setWidth 64
  | .w16 p => p.setWidth 64

/-- The encoding of an instruction as cr.tval takes it; zero for a row without words. -/
def Instr.tval (i : Instr) : Word :=
  match encode i with
  | some c => c.word
  | none => 0

/-- The length of an instruction in bytes; zero for a row without words. -/
def Instr.len (i : Instr) : Nat :=
  match encode i with
  | some c => c.len
  | none => 0

/-- The bytes of an encoding of n bytes, lowest address first, bits numbered from the first parcel's bit 0. -/
def bytesOf : Nat → Nat → List Byte
  | 0, _ => []
  | n + 1, w => BitVec.ofNat 8 (w % 256) :: bytesOf n (w / 256)

/-- The instruction the decoder reads from bits w, numbered as the opcode table numbers them. The bits above
nbits are zero up to the longest instruction, four bytes. -/
noncomputable def decodeTableWord (nbits w : Nat) : Option Instr :=
  match wordsOf (bytesOf 4 (w % 2 ^ nbits)) with
  | some (c, _) =>
    match readCode c with
    | .ok r => some r.toInstr
    | .error _ => none
  | none => none

end Sys2Proof
end

