-- ==== Sys2Proof/Machine/State.lean ====
section
/-!
DEFINITION. The state of a Polpivo Z4 package as plain data: everything the spec names, for every seat, core,
cluster, die, region, partition, context and virtual device, with the buffers between them (R353). Tables with
one entry per core, cluster, region and so on are lists of keyed entries; a key without an entry holds the
reset value. `State.reset` is the machine after boot stage 8 with no partition (R385).
-/

namespace Sys2Proof.Machine

/-- Why a step stops with a fault: no rule of the spec stops the machine, and nothing raises one. -/
inductive Fault where
deriving DecidableEq, Repr

/-- Why an instruction has no meaning here. -/
inductive Refusal where
  /-- Raised by a row of the opcode table that the model does not give a meaning yet. Safe. -/
  | notModelled (mnemonic : String)
deriving DecidableEq, Repr

/-- The outcome of one step. -/
abbrev Out (State : Type) := Host.Outcome State Fault Refusal

/-! ## Keyed tables -/

/-- A table with a default: the entries that differ from it or were written. -/
abbrev Tab (κ α : Type) := List (κ × α)

/-- The entry of a key, or the default. -/
def Tab.get {κ α : Type} [DecidableEq κ] (t : Tab κ α) (k : κ) (d : α) : α :=
  match t with
  | [] => d
  | (k', a) :: r => if k' = k then a else Tab.get r k d

/-- Set the entry of a key. -/
def Tab.set {κ α : Type} [DecidableEq κ] (t : Tab κ α) (k : κ) (a : α) : Tab κ α :=
  match t with
  | [] => [(k, a)]
  | (k', a') :: r => if k' = k then (k, a) :: r else (k', a') :: Tab.set r k a

/-- Whether a key has an entry. -/
def Tab.has {κ α : Type} [DecidableEq κ] (t : Tab κ α) (k : κ) : Bool :=
  match t with
  | [] => false
  | (k', _) :: r => if k' = k then true else Tab.has r k

/-- Remove the entry of a key. -/
def Tab.drop {κ α : Type} [DecidableEq κ] (t : Tab κ α) (k : κ) : Tab κ α :=
  t.filter fun e => e.1 ≠ k

/-! ## Chains (R51, R17) -/

/-- A chain tag (R51). -/
structure Tag where
  span : BitVec 48
  wait : BitVec 32
  last : BitVec 32
  flags : BitVec 16
deriving DecidableEq, Repr

/-- The tag of zeros. -/
def Tag.zero : Tag := ⟨0, 0, 0, 0⟩

/-- The key of an input in deterministic mode (R453): span, coordinates as R17 gives them, count. -/
structure Key where
  span : Nat
  coord : BitVec 32
  n : BitVec 32
deriving DecidableEq, Repr

/-! ## Messages (R210 to R212, R425) -/

/-- What a message starts besides its class's kind. -/
inductive MsgKind where
  /-- An ordinary message: its class's KIND decides (R33). -/
  | plain
  /-- A task entry of a launch record: the seat it names and its routine (R86). -/
  | launchTask (seat : Fin 4) (routine : Word)
  /-- An active message of the dispatcher (R88). -/
  | launch
  /-- A stolen deque entry on its way to the thief: routine, argument, victim, and its class's PRIO when it was
  popped (R45, R160). -/
  | stolen (routine : Word) (arg : Word) (victim : CoreId) (prio : BitVec 3)
deriving DecidableEq, Repr

/-- A message with its header (R425). The destination is held as a core's place; `rest` holds the places still
to be served by a sendg or an msend (R212). `after` names the stores that must perform before it is injected
(R212). `held` is the open hold at its input in local cycles where R28 refuses it, `heldDet` the one before its
release in deterministic mode, of which at most one is open, and `qwait` what it has been charged of kind 2. `came` tells
the order in which messages reached their destination cores (R403), and `rect` gives the first and the last core of the
rectangle of an msend or a sendg. -/
structure Msg where
  dst : CoreId
  cls : BitVec 6
  grp : BitVec 32
  part : BitVec 6
  tag : Tag
  data : List Byte
  src : BitVec 20
  seq : BitVec 8
  work : BitVec 12
  age : Nat
  vn : VNet
  key : Key
  kind : MsgKind
  rest : List CoreId
  pkg : Option (BitVec 9)
  after : List Nat
  held : Nat
  heldDet : Nat
  qwait : Nat
  came : Nat
  rect : Option (CoreId × CoreId)
deriving DecidableEq, Repr

/-- What a run-queue entry will become. -/
inductive EntryKind where
  /-- Its class's KIND decides at selection. -/
  | byClass
  /-- A task of a launch record, for one seat (R86). -/
  | launchTask (seat : Fin 4) (routine : Word)
  /-- A stolen task: routine, argument, victim, and its class's PRIO when it was popped (R45, R160). -/
  | stolen (routine : Word) (arg : Word) (victim : CoreId) (prio : BitVec 3)
  /-- A task that a delivery to channel m created (R38). -/
  | channelTask (m : Fin 4)
deriving DecidableEq, Repr

/-- An entry of the run queue, in arrival order (R28, R30): its message, the granules of its payload, the steer
priority if it was steered, and the open hold of kind 2 in local cycles. -/
structure Entry where
  msg : Msg
  kind : EntryKind
  granules : List Nat
  steered : Option (BitVec 3)
  held : Nat
  acct : Nat
deriving DecidableEq, Repr

/-- One beat of m0 to m3 (R38): the granule that holds it, and for the first beat of a message its tag and
origin. `taken` is the seat whose held instruction has it reserved (R170). -/
structure Beat where
  granule : Nat
  grp : BitVec 32
  key : Key
  first : Option (Tag × BitVec 32)
  taken : Option (Fin 4)
deriving DecidableEq, Repr

/-! ## Seats -/

/-- The kinds of work a seat holds (R23). -/
inductive WorkKind where
  | task | active | carried | stream
deriving DecidableEq, Repr

/-- The live work of a seat: its kind and class, the granules of its payload (R37), the channel it is bound to
(R38), the end of its carried code (R41), and its entry in the account table with the reference cycles it has
run, whole intervals and the open one in local cycles (R420). -/
structure Work where
  kind : WorkKind
  cls : BitVec 6
  granules : List Nat
  channel : Option (Fin 4)
  codeEnd : Word
  acct : Option Nat
  ran : Word
  running : Nat
deriving DecidableEq, Repr

/-- An instruction held at issue (R26, R59): the wait kind being charged, 0 for waiting on a party or an input, 10 for
an operand and 11 in dwait, which are not wait; the local cycles of the open interval; whether the seat is blocked or
asleep; whether it has waited for the input that it takes (R69); whether an attempt has found no room, and the cycles
since the first that did, or since the hold began (R27); for wfm the count of accepted messages when it issued (R214),
and for a send without room what it waits for, 0 to 3 an injection queue and 4 acceptance, with cr.tval of its SENDFULL;
and in deterministic mode the key and the point that it waits at (R454). -/
structure Hold where
  kind : Nat
  cycles : Nat
  blocked : Bool
  asleep : Bool
  waited : Bool
  tried : Bool
  since : Nat
  mark : Nat
  tval : Word
  det : Option (Key × Nat)
deriving DecidableEq, Repr

/-- The trap registers of a seat (R392, R396). -/
structure TrapRegs where
  imp : Bool
  ppriv : BitVec 2
  cause : BitVec 6
  epc : Word
  tval : Word
  tvec : Word
  trlost : BitVec 16
deriving DecidableEq, Repr

/-- The pending boundary causes of a seat (R395); STORE_FAULT follows from the record queue. -/
structure Pending where
  ecc : Option Word
  engine : Option Word
  outlier : Option Word
  replies : List (BitVec 6 × Word)
  watchdog : Bool
  chain : Bool
deriving DecidableEq, Repr

/-- No pending cause. -/
def Pending.none : Pending := ⟨.none, .none, .none, [], false, false⟩

/-- The operations that a home performs in its single order (R46, R47, R207, R16). -/
inductive AmoFun where
  | add | and | or | xor | min | max | minz | maxz | swap | fadd | cas
deriving DecidableEq, Repr

/-- An operation at a home, with the operands it carries. -/
inductive HomeOp where
  | load
  | amo (f : AmoFun) (n : Nat) (v e : Word)
  | claim
  | enq (v : Word)
  | deqTry
  | deq
  | join (arrival : Tag) (origin : BitVec 32)
deriving DecidableEq, Repr

/-- What a home answers: two values, and for a join the merged tag, or the address of a bad granule. -/
structure Reply where
  r0 : Word
  r1 : Word
  tag : Tag
  bytes : List Byte
  bad : Bool
deriving DecidableEq, Repr

/-- Where the value of a request goes when it returns. -/
inductive Dest where
  /-- A load: the register, the size, whether it is sign-extended, and the bytes forwarded at issue. -/
  | load (d : Reg) (n : Nat) (signed : Bool) (have_ : List (Option Byte))
  /-- An atomic: the register and the size. -/
  | amo (d : Reg) (n : Nat)
  /-- A claim, enq, deq or deq.try: the two registers. -/
  | pair (d b : Reg) (op : HomeOp)
  /-- A join: the seat waits for the answer, which ends the instruction. -/
  | join (origin : BitVec 32)
  /-- Some elements of a vector load under way, which lie in one line: their size, the elements with their
  addresses, and the bytes of the line forwarded at issue. -/
  | lanes (n : Nat) (els : List (Nat × Word)) (have_ : List (Option Byte))
deriving DecidableEq, Repr

/-- A request that has left its seat and not returned (R353): its packet, the instruction's address, where the
value goes, the span cost of its instruction, and the answer once the home has fixed it. -/
structure Outst where
  id : Nat
  pc : Word
  va : Word
  dest : Dest
  cost : Nat
  reply : Option Reply
  /-- Whether its instruction waits for the answer at issue. -/
  whole : Bool
  /-- Whether the answer has reached the seat, for such an instruction. -/
  back : Bool
deriving DecidableEq, Repr

/-- A vector memory instruction under way (R190): whether it is a store, which has then placed some of its entries, the
elements still to access with their addresses, the data read or to be stored, and its span cost; `n` is the size of an
element. `placed` names the entries that a store has placed, and the seat's counts of stores and inputs before it, which it
takes back if it is abandoned (R189, R404). -/
structure VProg where
  store : Bool
  n : Nat
  todo : List (Nat × Word)
  data : VReg
  cost : Nat
  placed : List Nat
  seq0 : BitVec 16
  inputs0 : BitVec 32
deriving DecidableEq, Repr

/-- A seat (R24) with everything the spec calls seat state. -/
structure Seat where
  g : Vector Word 32
  v : Vector VReg 32
  p : Vector Pred 8
  /-- lc0, ls0, le0, lc1, ls1, le1, by the codes of R100. -/
  loops : Vector Word 6
  pc : Word
  tag : Tag
  chlim : BitVec 48
  armed : Bool
  gap : Word
  frm : BitVec 3
  fflags : BitVec 5
  grp : BitVec 32
  prioCls : BitVec 6
  prioVal : BitVec 3
  credit : BitVec 32
  fraction : BitVec 8
  wdReload : BitVec 32
  wdCount : BitVec 32
  tr : TrapRegs
  sentry : Word
  priv : BitVec 2
  inTrap : Bool
  pend : Pending
  work : Option Work
  starts : BitVec 12
  /-- The origin sequences by the kinds of R17. -/
  seqs : Vector (BitVec 8) 9
  storeSeq : BitVec 16
  inputs : BitVec 32
  hold : Option Hold
  outs : List Outst
  vprog : Option VProg
  /-- What a queue wake handed to a blocked qget, the queue's number, or to a blocked qput, 8 more (R43). -/
  handed : Option Nat
  /-- The queue entries that an sfq.replay under way still puts back (R400). -/
  replaying : Option (List Nat)
  modePend : Option (BitVec 2)
  /-- The span a pending stream entry carries in deterministic mode (R458). -/
  modeSpan : BitVec 48
  /-- Requests and stores that must be over before a later load issues (R198, R202, R208). -/
  gateLoad : List Nat
  /-- The same for a later store, atomic or send. -/
  gateStore : List Nat
  /-- The channel bound by the launch record's stream list (R83). -/
  boundChan : Option (Fin 4)
deriving DecidableEq, Repr

/-- A seat at reset: the values of the spec, and zero where it gives none (log entry 2). -/
def Seat.reset : Seat where
  g := Vector.replicate 32 0
  v := Vector.replicate 32 0
  p := Vector.replicate 8 0
  loops := Vector.replicate 6 0
  pc := 0
  tag := Tag.zero
  chlim := 0xFFFFFFFFFFFF
  armed := false
  gap := 0
  frm := 0
  fflags := 0
  grp := 0
  prioCls := 0
  prioVal := 0
  credit := 0
  fraction := 0
  wdReload := 0
  wdCount := 0
  tr := ⟨false, 0, 0, 0, 0, 0, 0⟩
  sentry := 0
  priv := 0
  inTrap := false
  pend := Pending.none
  work := none
  starts := 0
  seqs := Vector.replicate 9 0
  storeSeq := 0
  inputs := 0
  hold := none
  outs := []
  vprog := none
  handed := none
  replaying := none
  modePend := none
  modeSpan := 0
  gateLoad := []
  gateStore := []
  boundChan := none

/-! ## Cores -/

/-- A bench, as its lead holds it (R307, R308): the shape's code, the mode to hand back to seat 0, the modes of
the lead's seats 1 to 3, and whether LOAD composed it. -/
structure Bench where
  shape : BitVec 2
  mode0 : BitVec 2
  modes : List (BitVec 2)
  wide : Bool
deriving DecidableEq, Repr

/-- An entry of the store buffer (R196, R197): its identity, virtual address, the bytes it writes (none for a byte
outside a vector store's mask), and what its record would hold (R388, R398); `starts` tells the work that stored it.
`after` names the accesses that must be over before it leaves (R198). `extra` marks the entry that took the slot beyond
the sixteen, and `held` is the open wait interval in local cycles of kind `why`: 8 for a page that is moving, 4 behind a
store that a full ring holds (R348, R452), or 0. `bench` is the bench whose window the store was made in (R317, R325).
-/
structure SbEntry where
  id : Nat
  va : Word
  bytes : List (Option Byte)
  seat : Fin 4
  grp : BitVec 32
  seq : BitVec 16
  priv : BitVec 2
  vec : Bool
  after : List Nat
  extra : Bool
  key : Key
  doomed : Bool
  starts : BitVec 12
  why : Nat
  held : Nat
  bench : Option Bench
deriving DecidableEq, Repr

/-- An entry of the record queue: the store that moved there, its reason, and the records already removed. -/
structure RqEntry where
  st : SbEntry
  reason : BitVec 2
  popped : Nat
deriving DecidableEq, Repr

/-- A done counter (R226): completed and issued counts, and the cumulative tags of its newest increments with
their origins, newest first (R69), each with the key of the input that counts as its last (R454). -/
structure DoneCounter where
  c : BitVec 32
  i : BitVec 32
  hist : List (Tag × Key)
deriving DecidableEq, Repr

/-- What a deque entry holds beside its bytes in TCM (R218). -/
structure DequeInfo where
  grp : BitVec 32
  key : Key
  after : List Nat
deriving DecidableEq, Repr

/-- In deterministic mode, an engine command or ring record that has completed and that no seat has observed yet
(R455): its key, the increment that a dwait or drd observes it by, and the FIFO that an epop observes it by. -/
structure Unseen where
  key : Key
  ctr : Option (BitVec 3 × BitVec 32)
  fifo : Option Engine
deriving DecidableEq, Repr

/-- An entry of the account table (R420). -/
structure Acct where
  valid : Bool
  key : BitVec 18
  count : BitVec 32
  transit : Word
  qwait : Word
  run : Word
deriving DecidableEq, Repr

/-- A TLB entry (R344): the context it was walked for (R345), the root it was walked from, the page's address and size
in bits, and its leaf. -/
structure TlbEntry where
  ctx : Option Nat
  root : Word
  page : Word
  bits : Nat
  pte : Word
deriving DecidableEq, Repr

/-- A pushed engine command (R224, R257): its 64 bytes, the registers an MMAV copied or, for the copy engine, the
number of the push (R441), its pusher, and its tag.
`held` is the open hold of kind 1 in local cycles; `after` the stores that must perform before it starts. -/
structure Cmd where
  img : BitVec 512
  regs : BitVec 4096
  seat : Fin 4
  starts : BitVec 12
  grp : BitVec 32
  priv : BitVec 2
  ctr : Option (BitVec 3)
  origin : BitVec 32
  tag : Tag
  key : Key
  after : List Nat
  held : Nat
  gap : Bool
  /-- Whether a cancel has already retired it, but for its place in the order (R277). -/
  dropped : Bool
deriving DecidableEq, Repr

/-- A lane state of the scan engine: the identity, or the pairs (a, b) of its lanes; a kind other than AFFINE
uses a alone (R293, R294). -/
abbrev ScanVal := Option (List (Word × Word))

/-- What a running command has done so far. The fields that a command does not use stay at zero. -/
structure Run where
  cmd : Cmd
  /-- The next k-step, row, step or unit. -/
  step : Nat
  /-- The registers sampled at the start (R266, R284). -/
  s0 : BitVec 16
  s1 : BitVec 16
  /-- The partial values P of an MMA (R248). -/
  acc : List Word
  /-- The running state of a scan, and whether a segment began (R295); of a COPY, whether it reads its source before it
  writes. -/
  scan : ScanVal
  seg : Bool
  found : Nat
  /-- Outliers lost (R262); of a copy command, 1 once another package has answered a read of its unit, and 2 before. -/
  lost : Nat
  /-- The members of an instance it contributed to (R296). -/
  inst : Option Nat
  /-- Units written to another die or package and not yet acknowledged (R438). -/
  waits : List Nat
  /-- The maps that a COPY2D sampled (R187), or the bytes that another package has answered with. -/
  bytes : List Byte
  /-- The lines of the source: each line's request and address, and its bytes once they are known, none where it cannot be
  read (R355). An overlapping COPY keeps those of its whole source (R364). -/
  reads : List (Nat × Word × Option (List Byte))
  /-- What held its next unit at the last try: a page that is moving, or a walk, a sleeping cluster or a bank; and the open
  interval in local cycles, with its wait kind, 8 or 4, or 0 (R60, R348). -/
  heldBy : Option TlbEntry
  walks : Bool
  why : Nat
  held : Nat
  /-- Status and COUNT once it has completed or faulted; its tag then. -/
  fin : Option (BitVec 8 × BitVec 16)
  tag : Tag
deriving DecidableEq, Repr

/-- The part that the engines share (R258 to R260, R277): the queue of two, the started commands in push order,
the output FIFO of eight, and the fault that holds the engine. -/
structure EngineQ where
  queue : List Cmd
  run : List Run
  fifo : List (Word × Tag)
  held : Bool
  heldRun : Option Run
  fstat : BitVec 8
  fcode : BitVec 8
deriving DecidableEq, Repr

/-- An engine with nothing in it. -/
def EngineQ.reset : EngineQ := ⟨[], [], [], false, none, 0, 0⟩

/-- A latch of the MX (R232, R270): 512 bytes of elements, their format and the sixteen scale bytes. -/
structure Latch where
  data : BitVec 4096
  fmt : BitVec 8
  scale : BitVec 128
deriving DecidableEq, Repr

/-- The states of B_next (R232). -/
inductive Credit where
  | free | credit | full
deriving DecidableEq, Repr

/-- The matrix engine (R258 to R277). -/
structure Mx where
  q : EngineQ
  cur : Latch
  next : Latch
  credit : Credit
  banks : Vector (List Word) 4
  table : BitVec 4096
  afmt : BitVec 8
  bfmt : BitVec 8
  cfmt : BitVec 8
  aconst : BitVec 8
  amode : BitVec 2
  bconst : BitVec 8
  bmode : BitVec 2
  tsel : BitVec 1
  olist : BitVec 32
  olim : BitVec 16
  ocnt : BitVec 16
  ovf : Bool
deriving DecidableEq, Repr

/-- The launch state of a latch (R270). -/
def Latch.reset : Latch := ⟨0, 0, 0x7F7F7F7F7F7F7F7F7F7F7F7F7F7F7F7F⟩

/-- The scan engine (R284, R295, R304): its operator, its aggregate and carry with their segment bits, and how
often it has started a group command of each CODE, FIRST and COUNT (R296). -/
structure Sn where
  q : EngineQ
  snop : BitVec 16
  agg : ScanVal
  aggSeg : Bool
  carry : ScanVal
  carrySeg : Bool
  started : List ((Nat × Nat × Nat) × Nat)
  mism : Bool
deriving DecidableEq, Repr

/-- The copy engine (R431, R435, R441). -/
structure Cp where
  q : EngineQ
  foff : Word
  fva : Word
  count : Nat
deriving DecidableEq, Repr

/-- A core with everything the spec calls core state. -/
structure Core where
  seats : Vector Seat 4
  lastSeat : Fin 4
  modes : Vector (BitVec 2) 4
  nwin : BitVec 16
  msz : BitVec 4
  dqb : BitVec 4
  dqen : Bool
  ev : Vector Word 4
  evsel : Vector (BitVec 12) 4
  win : Word
  ptb : Word
  cwlo : Word
  cwhi : Word
  pid : BitVec 6
  memb : Word
  /-- The router's own table for kinds 2 and 3: the next output by kind and destination (R424). -/
  route : Tab (BitVec 2 × CoreId) Dir
  classes : Vector (BitVec 128) 64
  runq : List Entry
  granules : List Nat
  chans : Vector (List Beat) 4
  /-- m4 to m7, from the north, east, south and west (R39). -/
  nchans : Vector (List (Vec512 × Option (Fin 4))) 4
  /-- Vectors sent toward each direction and not landed yet (R39). -/
  flying : Vector (List Vec512) 4
  /-- Vectors sent toward each direction and not consumed there. -/
  sent : Vector Nat 4
  queues : Vector (List Word) 8
  getters : Vector (List (Fin 4)) 8
  putters : Vector (List (Fin 4)) 8
  /-- The seats blocked on a read of m0 to m7, in the order they blocked (R49). -/
  readers : Vector (List (Fin 4)) 8
  dqTop : Nat
  dqHeld : List DequeInfo
  stealOut : Bool
  /-- The local cycles before it may request a steal again, after one that returned nothing (R45). -/
  stealWait : Nat
  done : Vector DoneCounter 8
  unseen : List Unseen
  tmaps : Vector (BitVec 256) 16
  acct : Vector Acct 16
  sb : List SbEntry
  rq : List RqEntry
  /-- The injection queues of REQ, RSP, AM and MC (R27). -/
  inj : Vector (List Msg) 4
  /-- How many messages at the head of AM were recorded at a stop, and leave ahead of new traffic (R404). -/
  copiesDue : Nat
  /-- The router inputs local, north, east, south and west (R28). -/
  inputs : Vector (List Msg) 5
  /-- Spawns of each seat that wait for room are retried at issue; this counts the messages accepted. -/
  accepted : Nat
  taskStarts : Nat
  mx : Mx
  sn : Sn
  cp : Cp
  bench : Option Bench
  /-- The lead whose bench this core is a member of, the lead itself included. -/
  benchLead : Option CoreId
  /-- On a lead, whether its bench's work has been cancelled and its store queue drains before it dissolves (R325). -/
  benchEnds : Bool
  /-- The modes the seats held when the bench formed (R327). -/
  benchModes : Vector (BitVec 2) 4
  /-- The groups whose messages a grpcancel in progress cancels here, each with the seat that executes it (R390). -/
  cancelling : List (BitVec 32 × SeatId)
  /-- The modes that the launch record gave the seats (R309). -/
  launchModes : Vector (BitVec 2) 4
  utlb : List TlbEntry
  /-- The instruction cache (R1, R204): fetch blocks of 32 bytes by home address, newest first. -/
  icache : List (Nat × List Byte)
  /-- The loop buffer (R1, R97, R153, R204): parcels of loop bodies by home address, newest first, each with whether it is
  the first one of its instruction. -/
  loopBuf : List (Nat × BitVec 16 × Bool)
deriving DecidableEq, Repr

/-- An empty account entry. -/
def Acct.reset : Acct := ⟨false, 0, 0, 0, 0, 0⟩

/-- The default base table of R244, entry b in bits [16b + 15 : 16b], as the sort of that rule gives it; each
line holds sixteen entries, the last entries first. -/
def defaultTable : BitVec 4096 :=
  (0x8005006101210421102140210091155145515151545102115511081120118011#256 ++
    0x0181048110814081024155410841204180410601120142010901210181011801#256 ++
    0x4801240184016001900100580118041810184018014804481048404805081108#256 ++
    0x4108140844085008006401240424102440240094155445545154545402145514#256 ++
    0x0814201480140184048410844084024455440844204480440604120442040904#256 ++
    0x2104810418044804240484046004900401600460106040600520112041201420#256 ++
    0x4420502001900490109040900250555008502050805006101210421009102110#256 ++
    0x8110181048102410841060109010058011804180148044805080064012404240#256 ++
    0x0940214081401840484024408440604090401600460052001900490025008500#256 ++
    0x6100910058006400940000020055011504151015401501450445104540450505#256 ++
    0x1105410514054405500501510451105140510511111141111411441150110541#256 ++
    0x1141414114414441504115014501510154010008015404541054405405141114#256 ++
    0x4114141444145014054411444144144444445044150445045104540400200550#256 ++
    0x1150415014504450505015104510511054100080154045405140544002005500#256 ++
    0x0800200080000005001100410101040110014001001400440104040410044004#256 ++
    0x0050011004101010401001400440104040400500110041001400440050000000#256 : BitVec (256 * 16))

/-- A core at reset (R23, R29, R39, R270); every seat is parked. -/
def Core.reset : Core where
  seats := Vector.replicate 4 Seat.reset
  lastSeat := 3
  modes := Vector.replicate 4 0b10
  nwin := 0x8888
  msz := 2
  dqb := 0
  dqen := false
  ev := Vector.replicate 4 0
  evsel := Vector.replicate 4 0
  win := 0
  ptb := 0
  cwlo := 0
  cwhi := 0
  pid := 0
  memb := 0
  route := []
  classes := Vector.replicate 64 0
  runq := []
  granules := []
  chans := Vector.replicate 4 []
  nchans := Vector.replicate 4 []
  flying := Vector.replicate 4 []
  sent := Vector.replicate 4 0
  queues := Vector.replicate 8 []
  getters := Vector.replicate 8 []
  putters := Vector.replicate 8 []
  readers := Vector.replicate 8 []
  dqTop := 0
  dqHeld := []
  stealOut := false
  stealWait := 0
  done := Vector.replicate 8 ⟨0, 0, []⟩
  unseen := []
  tmaps := Vector.replicate 16 0
  acct := Vector.replicate 16 Acct.reset
  sb := []
  rq := []
  inj := Vector.replicate 4 []
  copiesDue := 0
  inputs := Vector.replicate 5 []
  accepted := 0
  taskStarts := 0
  mx :=
    { q := EngineQ.reset, cur := Latch.reset, next := Latch.reset, credit := .free,
      banks := Vector.replicate 4 (List.replicate 256 0), table := defaultTable, afmt := 0, bfmt := 0,
      cfmt := 0, aconst := 0, amode := 0, bconst := 0, bmode := 0, tsel := 0, olist := 0, olim := 0,
      ocnt := 0, ovf := false }
  sn :=
    { q := EngineQ.reset, snop := 0, agg := none, aggSeg := false, carry := none, carrySeg := false,
      started := [], mism := false }
  cp := { q := EngineQ.reset, foff := 0, fva := 0, count := 0 }
  bench := none
  benchLead := none
  benchEnds := false
  benchModes := Vector.replicate 4 0b10
  cancelling := []
  launchModes := Vector.replicate 4 0b10
  utlb := []
  icache := []
  loopBuf := []

/-- A Skoum core at reset: as any core, with every seat at firmware privilege (R394). -/
def Core.skoumReset : Core :=
  { Core.reset with seats := Vector.replicate 4 { Seat.reset with priv := 2 } }

/-! ## Clusters, dies and regions -/

/-- The power states of a cluster (R375). -/
inductive Power where
  | run | gated | retain | off
deriving DecidableEq, Repr

/-- A cluster: its counters and selectors (R373), its TLB (R344), its power state (R375), and whether an access met
another requester's in one of its scratchpad's banks in this local cycle (R339, R374). `called` tells that an access
has reached it while it does not run (R377). -/
structure Cluster where
  cxev : Vector Word 8
  cxsel : Vector (BitVec 12) 8
  tlb : List TlbEntry
  power : Power
  clash : Bool
  called : Bool
deriving DecidableEq, Repr

/-- A cluster at reset. -/
def Cluster.reset : Cluster := ⟨Vector.replicate 8 0, Vector.replicate 8 0, [], .run, false, false⟩

/-- A page that waits for a walk (R344): its root, an address in it, and the requesters whose misses wait for it: a core,
with 0 to 3 for its seats, 4 for its store buffer, 5 for its copy engine, and 6 for an operation on a work queue at its
home. -/
structure Walk where
  root : Word
  va : Word
  waits : List (CoreId × Nat)
deriving DecidableEq, Repr

/-- A page being moved (R348): its root, address and size in bits, its leaf's place and value when the move
began, the frame on the new die, and how far it has come. -/
structure Migration where
  root : Word
  page : Word
  bits : Nat
  pteAt : Nat
  pte : Word
  frame : Word
deriving DecidableEq, Repr

/-- A die: its counters (R373), last-level TLB and pending walks (R344), migration and its pools (R348, R349,
R382), and the count of dropped messages (R428). -/
structure Die where
  dxev : Vector Word 32
  dxsel : Vector (BitVec 12) 32
  tlb : List TlbEntry
  walks : List Walk
  /-- Pages whose walk has failed, by root, address and the requester that waited and has not tried again. -/
  walked : List (Word × Word × CoreId × Nat)
  thresh : BitVec 16
  window : BitVec 16
  migEn : Bool
  pool64 : Word
  pool2m : Word
  /-- Accesses in this window by page, root and accessing die (R348), and the number of the window (R349). -/
  counts : List ((Word × Word × Nat) × Nat)
  windowNo : Nat
  moves : List Migration
  lpart : BitVec 6
  tviol : BitVec 32
deriving DecidableEq, Repr

/-- A die at reset (R349, R382, R428). -/
def Die.reset : Die where
  dxev := Vector.replicate 32 0
  dxsel := Vector.replicate 32 0
  tlb := []
  walks := []
  walked := []
  thresh := 0x0400
  window := 0x0100
  migEn := false
  pool64 := 0
  pool2m := 0
  counts := []
  windowNo := 0
  moves := []
  lpart := 0
  tviol := 0

/-- A clock region (R279, R329, R370, R371, R379): the target of the step in progress, the target kept for a
further step, the stop charge that the step in progress uses (R386), and whether it is being throttled (R384). -/
structure Region where
  cyc : Word
  ref : Word
  fraction : BitVec 24
  rate : BitVec 32
  chg : BitVec 32
  cap : BitVec 24
  erate : BitVec 16
  freq : BitVec 11
  volt : BitVec 12
  busy : Bool
  going : BitVec 11
  target : Option (BitVec 11)
  stopChg : BitVec 32
  hot : Bool
  fmaxv : BitVec 16
  retire : Bool
  valid : Bool
deriving DecidableEq, Repr

/-- A region at reset, measured once (R385). -/
def Region.reset (r : RegionId) : Region where
  cyc := 0
  ref := 0
  fraction := 0
  rate := 0x01000000
  chg := 1275
  cap := 0x004000
  erate := 0x1000
  freq := 850
  volt := 750
  busy := false
  going := 850
  target := none
  stopChg := 1275
  hot := false
  fmaxv := Config.fmaxv r
  retire := false
  valid := true

/-! ## Buffers between agents (R353) -/

/-- What a packet does when it is delivered. -/
inductive PacketKind where
  | store (bytes : List (Nat × Byte))
  | request (op : HomeOp) (seat : SeatId) (addrs : List Nat)
  | copy (bytes : List (Nat × Byte))
  /-- A line of a copy command's source, with the bytes that are forwarded and the addresses of the others (R355). -/
  | fetch (have_ : List (Option Byte)) (addrs : List Nat)
  /-- An update toward the sequencer of a replicated page, with the leaf that maps it and the seat whose store it
  is (R346). -/
  | update (pte : TlbEntry) (who : Option SeatId) (bytes : List (Nat × Byte))
deriving DecidableEq, Repr

/-- A packet of a link buffer (a load's `addrs` are the bytes that it needs): its identity, the core it came from, the
home's identity, the address to report, its size, group, sequence and key, and what it does. -/
structure Packet where
  id : Nat
  core : CoreId
  seat : Fin 4
  home : Nat
  va : Word
  size : Nat
  grp : BitVec 32
  seq : BitVec 16
  key : Key
  /-- The first byte's home address; for a load of a replicated page, that of the replica it reads. -/
  base : Nat
  /-- The leaf that translated the request's address, if it is paged. -/
  pte : Option TlbEntry
  /-- Whether its entry held the slot beyond the sixteen, which is free since it left the buffer (R197). -/
  extra : Bool := false
  kind : PacketKind
deriving DecidableEq, Repr

/-- A message in the network (R355): the router where its header stands now or that it enters next, the input, and
whether its flits are still in the crossing FIFO before that input (R332). -/
structure Flight where
  msg : Msg
  at_ : CoreId
  from_ : Fin 5
  fifo : Bool
deriving DecidableEq, Repr

/-- A SYS reply on its way (R396, R425): cause, value, WORK, group and the seat it goes to. -/
structure SysReply where
  seat : SeatId
  cause : BitVec 6
  value : Word
  work : BitVec 12
  grp : BitVec 32
deriving DecidableEq, Repr

/-- A deq that waits at its home (R47, R221), with the leaf that translated its object's address, if that is paged, and its
key (R454). -/
structure DeqWait where
  seat : SeatId
  home : Nat
  id : Nat
  pte : Option TlbEntry
  key : Key
deriving DecidableEq, Repr

/-- A contribution to a group instance (R297): rank, the sampled operator, the value with its segment bit, the tag and
origin of the chain join, and the cycle of the combining point that it arrived in (R64); a skipped or automatic one has
no tag (R290, R303). -/
structure Contrib where
  pos : Nat
  op : BitVec 16
  val : ScanVal
  seg : Bool
  tag : Option (Tag × BitVec 32)
  time : Word
  key : Key
  auto : Bool
deriving DecidableEq, Repr

/-- An open group instance (R296), its contributions in the order they arrived. -/
structure Instance where
  id : Nat
  part : Nat
  code : Nat
  first : Nat
  count : Nat
  m : Nat
  got : List Contrib
deriving DecidableEq, Repr

/-- An update of a replicated page (R346), with the leaf that maps it and the seat whose store or atomic it is. `plain` tells
a store, and `slot` one that holds one of its core's sixteen slots until it has performed (R197). -/
structure Update where
  id : Nat
  leaf : TlbEntry
  seat : Option SeatId
  plain : Bool
  slot : Bool
  bytes : List (Nat × Byte)
deriving DecidableEq, Repr

/-- The sequencer of a replicated page (R346, R353): the page's offset and size, its home and replicas, the
updates on their way to it, its list of updates, and how many of them each replica has applied. -/
structure Sequencer where
  page : Nat
  size : Nat
  home : Nat
  rset : List Nat
  arriving : List Update
  list : List Update
  applied : List (Nat × Nat)
deriving DecidableEq, Repr

/-! ## Partitions, contexts, images -/

/-- A partition (R92): its dies in virtual order, the place of its top-left core on them, its size in cores, the
levels of its record (R20), its modes, its shared-SRAM frames (R337), its class of routes, its job, and its
stop (R402, R403), with what cr.ref of each of its regions read then (R71). -/
structure Part where
  dies : List Nat
  row : Nat
  col : Nat
  rows : Nat
  cols : Nat
  whole : Bool
  levels : List (BitVec 4 × Nat)
  sramMb : Nat
  sram : List Nat
  det : Bool
  horizon : Nat
  top : Nat
  ctx : Option Nat
  job : BitVec 16
  index : Nat
  domain : Nat
  stop : Bool
  quiet : Bool
  stopRefs : Tab Nat Word
  arrivals : List Msg
  /-- The cluster-cycles in which the running queue held live work since the last slice boundary, and the bureau's cr.ref
  at that boundary (R94). -/
  consumed : Nat
  sliceRef : Word
  /-- Whether the arbiter's last procedure ended with no selection (R94). -/
  idle : Bool
  /-- The queue that the arbiter has selected and switches to once the partition is quiescent (R94). -/
  next : Option Nat
deriving DecidableEq, Repr

/-- A partition of nothing. -/
def Part.reset : Part where
  dies := []
  row := 0
  col := 0
  rows := 0
  cols := 0
  whole := false
  levels := []
  sramMb := 0
  sram := []
  det := false
  horizon := 0
  top := 0
  ctx := none
  job := 0
  index := 0
  domain := 1
  stop := false
  quiet := false
  stopRefs := []
  arrivals := []
  consumed := 0
  sliceRef := 0
  idle := false
  next := none

/-- The states that QUERY names (R82). -/
inductive CtxState where
  | running | waiting | moved
deriving DecidableEq, Repr

/-- A core image (R408) as a record: the core's state but for its TCM, its banks and the partial values of its stopped
commands, which it holds as bytes in the shortened form of R246, bank by bank and command by command. The elements of a
bank that it does not list are zero. -/
structure CoreImage where
  core : Core
  banks : Vector (List Byte) 4
  partials : List (List Byte)
deriving DecidableEq, Repr

/-- A Vylvoxel image (R406 to R409) as records: the shape, the levels and the mode of the partition part, each
core's image with its place in the partition, the arrival list, the open instances, and the frames it holds. Every part
names cores, clusters, dies and SRAM frames by their virtual places (R406). Its bytes in the image area are those that
Image.lean lays out (log entry 5). -/
structure Image where
  rows : Nat
  cols : Nat
  ndies : Nat
  levels : List (BitVec 4 × Nat)
  det : Bool
  horizon : Nat
  cores : List ((Nat × Nat × Nat) × CoreImage)
  arrivals : List Msg
  instances : List Instance
  frames : List (FrameId × List (Nat × Byte))
  bad : List (FrameId × Nat)
  /-- The virtual partition (R7), which what it holds is named by. -/
  place : Part
deriving DecidableEq, Repr

/-- A context (R92): its virtual device, its partition, its state, its image while it is out, and the launches
that wait in its drawer (R88, R95, R458). -/
structure Ctx where
  vd : Nat
  part : Nat
  state : CtxState
  image : Option Image
  /-- The image base that its last save named, and the bureau's cr.ref then. -/
  base : Nat
  savedRef : Word
deriving DecidableEq, Repr

/-- A context that does not exist; no area has been named for its image. -/
def Ctx.reset : Ctx := ⟨0, 0, .moved, none, 2 ^ 64, 0⟩

/-- The negative answers to a host's operations (R80, R444). -/
inductive Nak where
  | invalidRequest | accessError
deriving DecidableEq, Repr

/-- What a device sends to its host at priority 3 (R82, R443, R444): a completion entry, the response to a READ, or a
negative answer. -/
inductive RdmaOut where
  | completion (c : BitVec 32 × BitVec 32 × Word)
  | response (bs : List Byte)
  | nak (n : Nak)
deriving DecidableEq, Repr

/-- A virtual device and its drawer (R78 to R82, R444): the command ring, the tables' root, the windows, the
completions written, the responses to READs and the negative answers sent, and the errors counted. `key` and `qpError` are
those of its first queue pair, `pairs` holds them for the others, and `unsent` what waits while its port's priority is
paused. -/
structure VDev where
  ring : Nat
  log2n : Nat
  root : Word
  compl : Word
  key : BitVec 32
  windows : List (Word × Word)
  head : BitVec 32
  tail : BitVec 32
  errors : Nat
  completions : List (BitVec 32 × BitVec 32 × Word)
  failed : Bool
  qpError : Bool
  responses : List (List Byte)
  naks : List Nak
  job : BitVec 16
  index : Nat
  domain : Nat
  tol : BitVec 32
  /-- The context of the LOAD in progress, until every core has accepted its tasks (R86). -/
  load : Option Nat
  pairs : Tab Nat (BitVec 32 × Bool)
  unsent : List RdmaOut
deriving DecidableEq, Repr

/-- A virtual device before the management channel sets it up. -/
def VDev.reset : VDev :=
  ⟨0, 6, 0, 0, 0, [], 0, 0, 0, [], false, false, [], [], 0, 0, 1, 0, none, [], []⟩

/-! ## Trace and links -/

/-- A trace record (R450): its 16 common bytes as fields, and its body. `stamp` is the place of its event among all events
that have been recorded, which orders the records of one source. -/
structure TraceRec where
  type : BitVec 8
  part : BitVec 6
  source : BitVec 32
  ref : Word
  body : List Byte
  stamp : Nat := 0
deriving DecidableEq, Repr

/-- A sealed segment (R448): its sequence, its records, LOST and the time at sealing, whether the drive is writing it, and
its slot of the ring. -/
structure Segment where
  seq : Nat
  recs : List TraceRec
  lost : BitVec 32
  ref : Word
  writing : Bool
  slot : Nat := 0
deriving DecidableEq, Repr

/-- The trace hardware (R447, R449): `slot` is the ring slot of the open segment, none while no slot may be written; then
records wait in the buffers of their sources. `samples` holds, for each core, one more than the period of its region's cr.ref
in which its counters were last sampled (R450), and `events` counts the records' events. -/
structure Trace where
  base : Word
  log2n : BitVec 5
  sample : BitVec 16
  en : Bool
  lost : BitVec 32
  nextSeq : Nat
  open_ : List TraceRec
  sealed : List Segment
  written : Nat
  samples : Tab CoreId Nat
  slot : Option Nat := some 0
  waiting : List (Nat × TraceRec) := []
  events : Nat := 0
deriving DecidableEq, Repr

/-- A home port's log of plain stores (R452). -/
structure Port where
  count : BitVec 32
  ring : List TraceRec
deriving DecidableEq, Repr

/-- A Fiold port (R439, R440): the next sequence to send, the last good one received, the frames kept for
replay, those that wait to be sent, the replays in a row, and whether the link is up. -/
structure FioldPort where
  seq : BitVec 16
  ack : BitVec 16
  kept : List (BitVec 16)
  queued : Nat
  replays : Nat
  up : Bool
  nak : Bool
  heartbeats : Nat
deriving DecidableEq, Repr

/-- A port as boot stage 7 leaves it. -/
def FioldPort.reset : FioldPort := ⟨0, 0xFFFF, [], 0, 0, true, false, 0⟩

/-- What arrives from outside for a partition or a drawer: a packet of another package, or an RDMA request of the host. -/
inductive Arriving where
  | packet (p : FioldPacket)
  | write (vd : Nat) (key : BitVec 32) (va : Word) (data : List Byte)
  | read (vd : Nat) (key : BitVec 32) (va : Word) (n : Nat)
  | notify (vd : Nat) (imm : BitVec 32)
  | send (vd : Nat) (payload : List Byte)
  /-- Updates of a replicated page that what follows on the queue pair waits for (R366), or that a unit's acknowledgement to
  a package waits for (R438). -/
  | settle (vd : Option Nat) (ids : List Nat) (ack : Option (BitVec 9 × FioldPacket))
deriving DecidableEq, Repr

/-- The package's registers (R93, R94, R376, R381, R402, R424, R451) and what the Skoum complex remembers. -/
structure Pkg where
  slice : BitVec 32
  holes : BitVec 8
  spared : BitVec 8
  stage : BitVec 8
  bootFail : Bool
  replace : Bool
  /-- DEFICIT, WEIGHT, PART, EN of cr.arbq (R93). -/
  arbq : Tab Nat (BitVec 32 × BitVec 8 × BitVec 6 × Bool)
  lattol : Tab Nat (BitVec 32)
  /-- The ids without a partition whose cr.pstop reads STOP 1 (R402). -/
  stops : List Nat
  rkmap : Tab Nat Word
  trsel : Tab Nat (BitVec 4)
  asleep : Bool
  /-- Arrivals that wait, in order: for the package to wake (R378), for a cluster's wake, a walk or a moving page. -/
  arrivals : List Arriving
  lostPeers : List Nat
  reports : Nat
  resetCause : Nat
  /-- Retired clusters by die, physical row and column (R380). -/
  retired : List (Nat × Nat × Nat)
  /-- Clusters marked for retirement alone, which a partition still covers (R380, R430). -/
  marked : List (Nat × Nat × Nat)
  /-- Ethernet ports that boot left down (R385). -/
  ethDown : List Nat
  paused : List (Nat × BitVec 3)
  /-- By Ethernet port: the congestion notification packets sent, and the send rate after one was received (R444). -/
  cnps : Tab Nat Nat
  sendRate : Tab Nat Word
  /-- A re-plan that the management channel has asked for (R379). -/
  replanAsked : Bool
deriving DecidableEq, Repr

/-- What the schedule may name next: an event of the table, an issue at a core, or a memory upset, which has no
row of its own (R350); `limit` says that it reaches its cluster's threshold of uncorrectable errors, whose value the spec
does not give (R380). -/
inductive Move where
  | event (i : Instr)
  | issue (c : CoreId)
  | upset (granule : Nat) (correctable limit : Bool)
deriving DecidableEq, Repr

/-- Byte memory: (address, byte) in strictly rising order, no entry equal to 0, which is what an unlisted
address reads as (log entry 4). Addresses are home addresses (Ops.lean). -/
abbrev Memory := List Host.Cell

/-- The whole package. The last three fields are the model's own, not the spec's (log entries 1 and 3). -/
structure State where
  cores : Tab CoreId Core
  clusters : Tab ClusterId Cluster
  dies : Tab Nat Die
  regions : Tab Nat Region
  mem : Memory
  /-- The banks of TCMs and scratchpads that were accessed in this local cycle (R261, R339). -/
  banks : List Nat
  /-- Granules with an uncorrectable and with a correctable error, by their first address (R350). -/
  bad : List Nat
  weak : List Nat
  parts : Tab Nat Part
  ctxs : Tab Nat Ctx
  vds : Tab Nat VDev
  /-- The private memory of each drawer (R78): 2 MiB that no address of a program or of another core names. -/
  drawers : Tab Nat Memory
  owners : Tab FrameId Nat
  links : Tab (Nat × Nat) (List Packet)
  net : List Flight
  replies : List SysReply
  deqs : List DeqWait
  instances : List Instance
  seqrs : List Sequencer
  fiold : Tab Nat FioldPort
  /-- Packets given to Fiold, each with its switch plane and the target package (R441, R442). -/
  sentOut : List (Nat × Nat × FioldPacket)
  /-- The key span of work-queue entries in deterministic mode, by their context and the entry's virtual place (R457,
  R458). -/
  wqSpans : Tab (Nat × Nat) Nat
  trace : Trace
  ports : Tab Nat Port
  pkg : Pkg
  ids : Nat
  agenda : List Move
  cur : SeatId
  frees : Nat
deriving DecidableEq, Repr

/-- The machine right after reset: boot has reached stage 8, no partition exists and nothing runs. -/
def State.reset : State where
  cores := []
  clusters := []
  dies := []
  regions := []
  mem := []
  banks := []
  bad := []
  weak := []
  parts := []
  ctxs := []
  vds := []
  drawers := []
  owners := []
  links := []
  net := []
  replies := []
  deqs := []
  instances := []
  seqrs := []
  fiold := []
  sentOut := []
  wqSpans := []
  trace := ⟨0, 0, 0, false, 0, 0, [], [], 0, [], some 0, [], 0⟩
  ports := []
  pkg :=
    { slice := 850000, holes := 0, spared := 0, stage := 8, bootFail := false, replace := false, arbq := [],
      lattol := [], stops := [], rkmap := [], trsel := [], asleep := false, arrivals := [], lostPeers := [], reports := 0,
      resetCause := 0, retired := [], marked := [], ethDown := [], paused := [], cnps := [], sendRate := [], replanAsked := false }
  ids := 0
  agenda := []
  cur := ⟨.grid 0 0 0, 0⟩
  frees := 0

end Sys2Proof.Machine
end

