-- ==== Sys2Proof/Machine/Ops.lean ====
section
/-!
DEFINITION. The named operations on the state: tables and accessors, byte memory, chain tags, wait intervals,
completion of an instruction, taking a trap and returning from one, and the end of a seat's work. Every meaning
is written over them.
-/

namespace Sys2Proof.Machine

/-! ## Accessors -/

/-- What a core without an entry holds. -/
def Core.default : CoreId → Core
  | .grid _ _ _ => Core.reset
  | .skoum _ => Core.skoumReset

/-- A core. -/
def State.core (s : State) (c : CoreId) : Core := s.cores.get c (Core.default c)

/-- Replace a core. -/
def State.setCore (s : State) (c : CoreId) (k : Core) : State := { s with cores := s.cores.set c k }

/-- Change a core. -/
def State.modCore (s : State) (c : CoreId) (f : Core → Core) : State := s.setCore c (f (s.core c))

/-- A seat. -/
def State.seat (s : State) (t : SeatId) : Seat := (s.core t.core).seats[t.seat]

/-- Replace a seat within its core. -/
def Core.setSeat (k : Core) (i : Fin 4) (t : Seat) : Core := { k with seats := k.seats.set i t }

/-- Change a seat within its core. -/
def Core.modSeat (k : Core) (i : Fin 4) (f : Seat → Seat) : Core := k.setSeat i (f k.seats[i])

/-- Replace a seat. -/
def State.setSeat (s : State) (t : SeatId) (x : Seat) : State := s.modCore t.core fun k => k.setSeat t.seat x

/-- Change a seat. -/
def State.modSeat (s : State) (t : SeatId) (f : Seat → Seat) : State :=
  s.modCore t.core fun k => k.modSeat t.seat f

/-- The executing core. -/
def State.here (s : State) : Core := s.core s.cur.core

/-- Change the executing core. -/
def State.modHere (s : State) (f : Core → Core) : State := s.modCore s.cur.core f

/-- The executing seat. -/
def State.me (s : State) : Seat := s.seat s.cur

/-- Change the executing seat. -/
def State.modMe (s : State) (f : Seat → Seat) : State := s.modSeat s.cur f

/-- A cluster. -/
def State.cluster (s : State) (k : ClusterId) : Cluster := s.clusters.get k Cluster.reset

/-- Change a cluster. -/
def State.modCluster (s : State) (k : ClusterId) (f : Cluster → Cluster) : State :=
  { s with clusters := s.clusters.set k (f (s.cluster k)) }

/-- A die. -/
def State.die (s : State) (d : Nat) : Die := s.dies.get d Die.reset

/-- Change a die. -/
def State.modDie (s : State) (d : Nat) (f : Die → Die) : State := { s with dies := s.dies.set d (f (s.die d)) }

/-- A region. -/
def State.region (s : State) (r : RegionId) : Region := s.regions.get r (Region.reset r)

/-- Change a region. -/
def State.modRegion (s : State) (r : RegionId) (f : Region → Region) : State :=
  { s with regions := s.regions.set r (f (s.region r)) }

/-- A fresh identity for a store, request, packet or instance. -/
def State.fresh (s : State) : Nat × State := (s.ids, { s with ids := s.ids + 1 })

/-! ## Registers -/

/-- Read a g register; g0 reads zero (R125). -/
def Seat.rd (t : Seat) (r : Reg) : Word := if r = 0 then 0 else t.g[r.toNat]'r.isLt

/-- Write a g register; a write to g0 is discarded (R125). -/
def Seat.wr (t : Seat) (r : Reg) (x : Word) : Seat :=
  if r = 0 then t else { t with g := t.g.set r.toNat x r.isLt }

/-- Read a g register of the executing seat. -/
def State.g (s : State) (r : Reg) : Word := s.me.rd r

/-- Write a g register of the executing seat. -/
def State.setG (s : State) (r : Reg) (x : Word) : State := s.modMe fun t => t.wr r x

/-! ## Byte memory -/

/-- Read a byte; an unlisted address reads 0. -/
def Memory.read : Memory → Nat → Byte
  | [], _ => 0
  | (k, b) :: r, a => if a < k then 0 else if a = k then b else Memory.read r a

/-- Write a byte and keep the canonical form. -/
def Memory.write : Memory → Nat → Byte → Memory
  | [], a, b => if b = 0 then [] else [(a, b)]
  | (k, c) :: r, a, b =>
    if a < k then (if b = 0 then (k, c) :: r else (a, b) :: (k, c) :: r)
    else if a = k then (if b = 0 then r else (a, b) :: r)
    else (k, c) :: Memory.write r a b

/-- The canonical form above an address: keys rise strictly and no byte is 0. -/
def Memory.above : Nat → Memory → Bool
  | _, [] => true
  | n, (k, b) :: r => decide (n ≤ k) && decide (b ≠ 0) && Memory.above (k + 1) r

/-- The canonical form: strictly rising addresses, no entry equal to what an unlisted address reads as. -/
def Memory.wf (m : Memory) : Bool := Memory.above 0 m

/-- Read n bytes from an address upward. -/
def Memory.bytes (m : Memory) (a : Nat) : Nat → List Byte
  | 0 => []
  | n + 1 => m.read a :: Memory.bytes m (a + 1) n

/-- Write (address, byte) pairs, first to last. -/
def Memory.writeAll (m : Memory) : List (Nat × Byte) → Memory
  | [] => m
  | (a, b) :: r => Memory.writeAll (m.write a b) r

/-- Bytes as a little-endian number (R4). -/
def leNat : List Byte → Nat
  | [] => 0
  | b :: r => b.toNat + 256 * leNat r

/-- The n low bytes of a number, little-endian (R4). -/
def natLe : Nat → Nat → List Byte
  | 0, _ => []
  | n + 1, x => BitVec.ofNat 8 x :: natLe n (x / 256)

/-- Pair bytes with addresses from a on. -/
def cellsFrom (a : Nat) : List Byte → List (Nat × Byte)
  | [] => []
  | b :: r => (a, b) :: cellsFrom (a + 1) r

/-- Remove every listed byte of a range. -/
def Memory.clear (m : Memory) (a n : Nat) : Memory := m.filter fun e => decide (e.1 < a) || decide (a + n ≤ e.1)

/-- An 8-byte little-endian value at an address. -/
def Memory.dword (m : Memory) (a : Nat) : Word := BitVec.ofNat 64 (leNat (m.bytes a 8))

/-! ## Places: dies, clusters, regions, partitions -/

/-- The number of a core among all TCMs. -/
def coreIndex : CoreId → Nat
  | .grid d r c => (d * 160 + r) * 160 + c
  | .skoum n => 102400 + n

/-- The die of a core; the Skoum complex is on base die 0 (R78). -/
def dieOf : CoreId → Nat
  | .grid d _ _ => d
  | .skoum _ => 0

/-- The cluster of a core of the grid (R1). -/
def clusterOf : CoreId → ClusterId
  | .grid d r c => ⟨d, r / 4, c / 4⟩
  | .skoum n => ⟨4, 0, n⟩

/-- The physical row that a column's spare stands in for: its first retired cluster, unless that is the spare. -/
def spareRow (retired : List (Nat × Nat × Nat)) (die col : Nat) : Option Nat :=
  match (retired.filter fun x => x.1 = die ∧ x.2.2 = col).map fun x => x.2.1 with
  | r :: _ => if r = 40 then none else some r
  | [] => none

/-- The physical row of a logical cluster: rows from the one that the spare stands in for on are shifted (R380). -/
def physRow (retired : List (Nat × Nat × Nat)) (k : ClusterId) : Nat :=
  match spareRow retired k.die k.col with
  | none => k.row
  | some r => if r ≤ k.row then k.row + 1 else k.row

/-- The region of a cluster (R368); the Skoum complex counts as region 400. -/
def regionOfCluster (retired : List (Nat × Nat × Nat)) (k : ClusterId) : RegionId :=
  if k.die ≥ 4 then 400
  else k.die * 100 + 10 * Nat.min (physRow retired k / 4) 9 + k.col / 4

/-- The region of a core. -/
def State.regionOf (s : State) (c : CoreId) : RegionId := regionOfCluster s.pkg.retired (clusterOf c)

/-- The place of a core in a partition: virtual die, row and column (R7). -/
def Part.virt (p : Part) : CoreId → Option (Nat × Nat × Nat)
  | .skoum _ => none
  | .grid d r c =>
    match p.dies.findIdx? (· = d) with
    | none => none
    | some v =>
      if p.row ≤ r ∧ r < p.row + p.rows ∧ p.col ≤ c ∧ c < p.col + p.cols then some (v, r - p.row, c - p.col)
      else none

/-- The core at a place of a partition, if the shape holds it. -/
def Part.coreAt (p : Part) (v r c : Nat) : Option CoreId :=
  match p.dies[v]? with
  | none => none
  | some d => if r < p.rows ∧ c < p.cols then some (.grid d (p.row + r) (p.col + c)) else none

/-- The partition with an id. -/
def State.part? (s : State) (i : Nat) : Option Part :=
  if s.parts.has i then some (s.parts.get i Part.reset) else none

/-- The partition a core belongs to: the one its cr.pid names, if its shape holds the core (R427). -/
def State.partOf (s : State) (c : CoreId) : Option Part :=
  match s.part? (s.core c).pid.toNat with
  | some p => if (p.virt c).isSome then some p else none
  | none => none

/-- Change a partition that exists. -/
def State.modPart (s : State) (i : Nat) (f : Part → Part) : State :=
  match s.part? i with
  | some p => { s with parts := s.parts.set i (f p) }
  | none => s

/-- The partition of a core, when it runs in deterministic mode. -/
def State.det? (s : State) (c : CoreId) : Option Part :=
  match s.partOf c with
  | some p => if p.det then some p else none
  | none => none

/-- The virtual coordinates of a core; (0, 0, 0) outside every partition. -/
def State.virt (s : State) (c : CoreId) : Nat × Nat × Nat :=
  match s.partOf c with
  | some p => (p.virt c).getD (0, 0, 0)
  | none => (0, 0, 0)

/-- Coordinates as R15 gives them: vcol, vrow, vdie. -/
def coordWord (v r c : Nat) : BitVec 18 := BitVec.ofNat 2 v ++ BitVec.ofNat 8 r ++ BitVec.ofNat 8 c

/-- The source of a seat as the accounting word gives it (R425). -/
def State.srcWord (s : State) (t : SeatId) : BitVec 20 :=
  let (v, r, c) := s.virt t.core
  BitVec.ofNat 2 t.seat.val ++ coordWord v r c

/-- Coordinates in an origin's place, bits [31:12] (R17, R453). -/
def State.coordKey (s : State) (t : SeatId) : BitVec 32 :=
  let (v, r, c) := s.virt t.core
  BitVec.ofNat 2 v ++ BitVec.ofNat 8 r ++ BitVec.ofNat 8 c ++ BitVec.ofNat 2 t.seat.val ++ 0#12

/-- All the cores of a partition, row-major over each die, then by virtual die (R89). -/
def Part.cores (p : Part) : List CoreId :=
  p.dies.flatMap fun d => (List.range p.rows).flatMap fun r =>
    (List.range p.cols).map fun c => CoreId.grid d (p.row + r) (p.col + c)

/-! ## Chain tags (R51, R52, R61, R63, R64) -/

/-- Keys in order: span, coordinates, count. -/
def Key.lt (x y : Key) : Bool :=
  decide (x.span < y.span) || (decide (x.span = y.span) && (decide (x.coord < y.coord) ||
    (decide (x.coord = y.coord) && decide (x.n < y.n))))

/-- Saturating addition of 48 bits. -/
def sat48 (n : Nat) : BitVec 48 := if 2 ^ 48 - 1 ≤ n then BitVec.allOnes 48 else BitVec.ofNat 48 n

/-- Saturating addition of 32 bits. -/
def sat32 (n : Nat) : BitVec 32 := if 2 ^ 32 - 1 ≤ n then BitVec.allOnes 32 else BitVec.ofNat 32 n

/-- SPSAT and WTSAT recomputed from span and wait (R52). -/
def Tag.fix (t : Tag) : Tag :=
  { t with flags := t.flags.extractLsb' 2 14 ++ BitVec.ofBool (t.wait = BitVec.allOnes 32) ++
      BitVec.ofBool (t.span = BitVec.allOnes 48) }

/-- Add to the span, saturating (R52). -/
def Tag.add (t : Tag) (n : Nat) : Tag := { t with span := sat48 (t.span.toNat + n) }.fix

/-- The GAP flag, bit 2. -/
def Tag.gap (t : Tag) : Bool := t.flags.getLsbD 2

/-- Set a flag bit. -/
def Tag.setFlag (t : Tag) (i : Nat) (b : Bool) : Tag :=
  { t with flags := if b then t.flags ||| (1#16 <<< i) else t.flags &&& ~~~(1#16 <<< i) }

/-- Charge `ref` reference cycles of a wait kind (R63). -/
def Tag.charge (t : Tag) (kind ref : Nat) : Tag :=
  if ref = 0 then t
  else
    let fl := if t.wait.toNat ≤ ref then t.flags.extractLsb' 7 9 ++ BitVec.ofNat 4 kind ++ t.flags.extractLsb' 0 3
      else t.flags
    { t with wait := sat32 (t.wait.toNat + ref), flags := fl }.fix

/-- Round a quotient to the nearest integer, ties to even. -/
def roundDiv (n d : Nat) : Nat :=
  let q := n / d
  let r := n % d
  if 2 * r < d then q else if d < 2 * r then q + 1 else if q % 2 = 0 then q else q + 1

/-- An interval of local cycles in reference cycles (R61). -/
def toRef (cycles : Nat) (rate : BitVec 32) : Nat := roundDiv (cycles * rate.toNat) (2 ^ 24)

/-- The join of inputs, each with the origin of its arrival; the head arrived last (R64). -/
def chainJoin (last : Tag × BitVec 32) (others : List Tag) (cost : Nat) : Tag :=
  let span := others.foldl (fun m t => Nat.max m t.span.toNat) last.1.span.toNat
  let gap := others.any Tag.gap || last.1.gap
  (({ last.1 with span := sat48 (span + cost), last := last.2 } : Tag).setFlag 2 gap).fix

/-- Take in a tag without a cost of its own (R69): the incoming one counts as last if it was waited for. -/
def Tag.take (running incoming : Tag) (waited : Bool) : Tag :=
  if waited then chainJoin (incoming, incoming.last) [running] 0
  else chainJoin (running, running.last) [incoming] 0

/-- A tag as its 128 bits (R51). -/
def Tag.bits (t : Tag) : BitVec 128 := t.span ++ t.wait ++ t.last ++ t.flags

/-- A tag from 128 bits as found. -/
def Tag.ofBits (x : BitVec 128) : Tag :=
  ⟨x.extractLsb' 80 48, x.extractLsb' 48 32, x.extractLsb' 16 32, x.extractLsb' 0 16⟩

/-- An origin (R17). -/
def State.originWord (s : State) (t : SeatId) (kind : Nat) (seq : BitVec 8) : BitVec 32 :=
  (s.coordKey t).extractLsb' 12 20 ++ BitVec.ofNat 4 kind ++ seq

/-- Take the next origin of a seat and kind (R53). -/
def State.nextOrigin (s : State) (t : SeatId) (kind : Fin 9) : BitVec 32 × State :=
  let q := (s.seat t).seqs[kind]
  (s.originWord t kind.val q, s.modSeat t fun x => { x with seqs := x.seqs.set kind (q + 1) })

/-! ## Event counters (R373, R374) -/

/-- Whether a selector counts a code; `seat` is given for the codes that R374 marks as seat events. -/
def selects (sel : BitVec 12) (code : Nat) (seat : Option (Fin 4)) : Bool :=
  sel.getLsbD 8 && decide ((sel.extractLsb' 0 8).toNat = code) &&
    match seat with
    | some i => !sel.getLsbD 11 || decide ((sel.extractLsb' 9 2).toNat = i.val)
    | none => true

/-- Add to the counters of a unit whose selectors pick a code. -/
def addCounts {n : Nat} (ev : Vector Word n) (sel : Vector (BitVec 12) n) (code : Nat) (seat : Option (Fin 4))
    (k : Nat) : Vector Word n :=
  Vector.ofFn fun i => if selects sel[i] code seat then ev[i] + BitVec.ofNat 64 k else ev[i]

/-- Count events of a cluster alone. -/
def State.countCluster (s : State) (q : ClusterId) (code k : Nat) : State :=
  if s.clusters.has q then s.modCluster q fun x => { x with cxev := addCounts x.cxev x.cxsel code none k } else s

/-- Count events of a die alone. -/
def State.countDie (s : State) (d code k : Nat) : State :=
  if s.dies.has d then s.modDie d fun x => { x with dxev := addCounts x.dxev x.dxsel code none k } else s

/-- Count events of a core in its own counters. -/
def Core.addEvents (x : Core) (seat : Option (Fin 4)) (code k : Nat) : Core :=
  { x with ev := addCounts x.ev x.evsel code seat k }

/-- Count events of a core: in the core, its cluster and its die (R373). -/
def State.count (s : State) (c : CoreId) (seat : Option (Fin 4)) (code k : Nat) : State :=
  ((s.modCore c fun x => x.addEvents seat code k).countCluster (clusterOf c) code k).countDie (dieOf c) code k

/-! ## Trace records (R447 to R451) -/

/-- A record's 64 bytes (R450). -/
def TraceRec.bytes (r : TraceRec) : List Byte :=
  r.type :: r.part.setWidth 8 :: natLe 2 0 ++ natLe 4 r.source.toNat ++ natLe 8 r.ref.toNat ++
    (r.body ++ List.replicate (48 - r.body.length) 0)

/-- One bit of CRC-32C, the lowest first. -/
def crcBit (x : BitVec 32) : BitVec 32 := if x.getLsbD 0 then (x >>> 1) ^^^ 0x82F63B78 else x >>> 1

/-- CRC-32C over bytes, from a register's value. -/
def crcOver (x : BitVec 32) (bs : List Byte) : BitVec 32 :=
  bs.foldl (fun x b => (List.range 8).foldl (fun x _ => crcBit x) (x ^^^ b.setWidth 32)) x

/-- CRC-32C of bytes. -/
def crc32c (bs : List Byte) : BitVec 32 := ~~~(crcOver 0xFFFFFFFF bs)

/-- The header of a segment with a CRC: magic, version, records held, sequence, the package's index in its Fiold domain,
LOST, and cr.ref of the bureau's region (R448). -/
def Segment.header (g : Segment) (index : Nat) (crc : BitVec 32) : List Byte :=
  natLe 4 0x56545253 ++ natLe 2 1 ++ natLe 2 g.recs.length ++ natLe 8 g.seq ++ natLe 2 index ++ List.replicate 6 0 ++
    natLe 8 g.lost.toNat ++ natLe 8 g.ref.toNat ++ List.replicate 20 0 ++ natLe 4 crc.toNat

/-- The records of a segment in their slots; a slot without a record is zero. -/
def Segment.body (g : Segment) : List Byte :=
  g.recs.flatMap TraceRec.bytes ++ List.replicate (64 * (16383 - g.recs.length)) 0

/-- The 1 MiB that the drive is given of a sealed segment (R448): its CRC is taken with its own field as zero. -/
def Segment.bytes (g : Segment) (index : Nat) : List Byte :=
  g.header index (crc32c (g.header index 0 ++ g.body)) ++ g.body

/-- The package's index in its Fiold domain: that of its first device in a domain of several packages (DESIGN CHOICE, log
entry 55). -/
def State.fioldIndex (s : State) : Nat :=
  match s.vds.find? fun v => decide (1 < v.2.domain) with
  | some v => v.2.index
  | none => 0

/-- Write a sealed segment's bytes to its slot of the ring, at BASE on die 0: whole granules, which are good after it (R350,
R448). A record's bytes are written with its segment's (DESIGN CHOICE, log entry 55). -/
def State.writeSegment (s : State) (g : Segment) : State :=
  let a := s.trace.base.toNat + g.slot * 2 ^ 20
  let out (x : Nat) : Bool := decide (x < a) || decide (a + 2 ^ 20 ≤ x)
  let index := s.fioldIndex
  { s with
    mem := (s.mem.clear a (2 ^ 20)).writeAll
      (cellsFrom a (g.header index (crc32c (g.header index 0 ++ g.body)) ++ g.recs.flatMap TraceRec.bytes))
    bad := s.bad.filter out, weak := s.weak.filter out }

/-- The ring slot that the open segment takes after slot i is sealed, and the unsent segment that it overwrites: the
next free slot, or else that of the oldest segment which the drive is not writing; none while every other slot is being
written (R449). -/
def Trace.nextSlot (t : Trace) (i : Nat) : Option Nat × Option Segment :=
  let n := 2 ^ t.log2n.toNat
  let order := (List.range n).map fun j => (i + 1 + j) % n
  match order.find? fun j => decide (j ≠ i) && t.sealed.all fun g => decide (g.slot ≠ j) with
  | some j => (some j, none)
  | none =>
    match t.sealed.find? fun g => !g.writing with
    | some g => (some g.slot, some g)
    | none => (none, none)

/-- The drive is writing the oldest unsent segments, in sequence order: how many is a free value. -/
def State.driveWrites (s : State) : State :=
  let k := Config.freeDrive s.frees
  let mark (g : Segment × Nat) : Segment := { g.1 with writing := g.1.writing || decide (g.2 < k) }
  { s with frees := s.frees + 1, trace := { s.trace with sealed := s.trace.sealed.zipIdx.map mark } }

/-- Seal the open segment if it holds a record: it joins the unsent segments, and the next open segment takes a slot,
with the oldest unsent segment counted as lost where that has to give its own (R449). -/
def State.sealSegment (s : State) : State :=
  match s.trace.slot with
  | none => s
  | some i =>
    if s.trace.open_ = [] then s
    else
      let s := s.driveWrites
      let t := s.trace
      let next := t.nextSlot i
      let lost := if next.2.isSome then sat32 (t.lost.toNat + 1) else t.lost
      let seg : Segment := ⟨t.nextSeq, t.open_, lost, (s.region 400).ref, false, i⟩
      let kept := t.sealed.filter fun g => !next.2.any fun x => decide (x.slot = g.slot)
      let s := s.writeSegment seg
      { s with
        trace := { t with
          nextSeq := t.nextSeq + 1, open_ := [], sealed := kept ++ [seg], lost := lost, slot := next.1 } }

/-- Trace is on, with a ring of a size that lets it start (R447). -/
def Trace.on (t : Trace) : Bool := t.en && decide (2 ≤ t.log2n.toNat) && decide (t.log2n.toNat ≤ 10)

/-- Put a record into the open segment, which is sealed when it is full (R449). -/
def State.putRecord (s : State) (r : TraceRec) : State :=
  let s : State := { s with trace := { s.trace with open_ := s.trace.open_ ++ [r] } }
  if s.trace.open_.length = 16383 then s.sealSegment else s

/-- The records of a source that wait in its buffer. -/
def Trace.waits (t : Trace) (src : Nat) : Nat := (t.waiting.filter fun x => x.1 = src).length

/-- Whether a source can record an event now: its buffer holds 16 records that no segment takes yet (R449). -/
def State.recordRoom (s : State) (src : Nat) : Bool :=
  !s.trace.on || s.trace.slot.isSome || decide (s.trace.waits src < 16)

/-- Insert a record by its event, before those of the same one. -/
def insertRec (x : Nat × TraceRec) : List (Nat × TraceRec) → List (Nat × TraceRec)
  | [] => [x]
  | y :: r => if y.2.stamp < x.2.stamp then y :: insertRec x r else x :: y :: r

/-- The source that a home port is to the trace hardware. -/
def portSource (id : Nat) : Nat := 2 ^ 20 + id

/-- The oldest record of a port leaves its ring for the open segment or, while there is none, for the port's buffer, if that
has room. -/
def State.emptyRing (s : State) (x : Nat × TraceRec) : State :=
  let p := s.ports.get x.1 ⟨0, []⟩
  let left : State := { s with ports := s.ports.set x.1 { p with ring := p.ring.drop 1 } }
  if s.trace.slot.isSome then left.putRecord x.2
  else if s.trace.waits (portSource x.1) < 16 ∧ p.ring.head? = some x.2 then
    { left with trace := { s.trace with waiting := s.trace.waiting ++ [(portSource x.1, x.2)] } }
  else s

/-- The rings of every port empty into the record buffers, in the order of their events: the records of a core keep it. -/
def State.drainPorts (s : State) : State :=
  ((s.ports.flatMap fun p => p.2.ring.map fun r => (p.1, r)).foldr insertRec []).foldl State.emptyRing s

/-- Records that waited enter the open segment in the order of their events, while it has a slot; those of the ports' rings
follow. With trace off the segment is sealed. -/
def State.pourTrace (s : State) : State :=
  let t := s.trace
  let put (s : State) (x : Nat × TraceRec) : State :=
    if s.trace.slot.isSome then s.putRecord x.2 else { s with trace := { s.trace with waiting := s.trace.waiting ++ [x] } }
  let s := (t.waiting.foldl put { s with trace := { t with waiting := [] } }).drainPorts
  if s.trace.on then s else s.sealSegment

/-- Record an event of a source while trace is on: what the ports hold goes before it. A source whose buffer is full, and
that cannot hold its event, drops it, which counts in LOST (R449). -/
def State.record (s : State) (src : Nat) (r : TraceRec) : State :=
  if s.trace.on then
    let s := s.drainPorts
    let s : State := { s with trace := { s.trace with events := s.trace.events + 1 } }
    if s.trace.slot.isSome then s.putRecord r
    else if s.trace.waits src < 16 then { s with trace := { s.trace with waiting := s.trace.waiting ++ [(src, r)] } }
    else { s with trace := { s.trace with lost := sat32 (s.trace.lost.toNat + 1) } }
  else s

/-- The common bytes of a record of a core (R450): the source names it and a seat. -/
def State.traceRec (s : State) (type : BitVec 8) (t : SeatId) (body : List Byte) : TraceRec :=
  let (v, r, c) := s.virt t.core
  { type := type, part := (s.core t.core).pid,
    source := 0#10 ++ BitVec.ofNat 2 v ++ BitVec.ofNat 8 r ++ BitVec.ofNat 8 c ++ 0#2 ++ BitVec.ofNat 2 t.seat.val,
    ref := (s.region (s.regionOf t.core)).ref, body := body, stamp := s.trace.events }

/-- The selector of a partition's trace sources, by bit (R451). -/
def State.traces (s : State) (c : CoreId) (bit : Nat) : Bool :=
  (s.pkg.trsel.get (s.core c).pid.toNat 0).getLsbD bit

/-! ## Waiting at issue (R26, R59 to R63) -/

/-- Close the open interval of a seat and charge it (R61, R63). -/
def State.closeHold (s : State) (t : SeatId) : State :=
  match (s.seat t).hold with
  | none => s
  | some h =>
    let ref := toRef h.cycles (s.region (s.regionOf t.core)).rate
    s.modSeat t fun x =>
      { x with hold := none, tag := if 1 ≤ h.kind ∧ h.kind ≤ 9 then x.tag.charge h.kind ref else x.tag }

/-- Hold the executing seat's instruction at issue. An interval of the same reason goes on; another reason closes
the old one and opens a new one (R59). The cycles since an attempt that found no room run on (R27), and the seat that
issued last stays so (R24). -/
def State.holdMe (s : State) (kind : Nat) (blocked asleep : Bool) : State :=
  let open_ (s : State) (waited tried : Bool) (since : Nat) : State := s.modHere fun k => k.modSeat s.cur.seat fun x =>
    { x with
      hold := some ⟨kind, 0, blocked, asleep, waited || decide (kind = 0 ∨ kind = 11), tried, since, k.accepted, 0, none⟩ }
  match s.me.hold with
  | some h =>
    if h.kind = kind ∧ h.blocked = blocked ∧ h.asleep = asleep then s
    else open_ (s.closeHold s.cur) h.waited h.tried (if h.tried then h.since else 0)
  | none => open_ s false false 0

/-- Stall with a wait kind. -/
def State.stall (s : State) (kind : Nat) : State := s.holdMe kind false false

/-- Block a stream seat: not a wait (R60). -/
def State.block (s : State) : State := s.holdMe 0 true false

/-- Whether the executing seat has waited for the input that its instruction takes (R69). -/
def State.waited (s : State) : Bool :=
  match s.me.hold with
  | some h => h.waited
  | none => false

/-- Close the open interval of a store-buffer entry: it is charged to its seat, if that still runs the work that stored
it. -/
def Core.closeStore (k : Core) (rate : BitVec 32) (e : SbEntry) : Core :=
  if e.held = 0 then k
  else k.modSeat e.seat fun t =>
    if t.work.isSome ∧ t.starts = e.starts then { t with tag := t.tag.charge e.why (toRef e.held rate) } else t

/-- Close the open intervals of a store buffer. -/
def Core.closeStores (k : Core) (rate : BitVec 32) : Core :=
  { k.sb.foldl (fun (k : Core) e => k.closeStore rate e) k with sb := k.sb.map fun e => { e with why := 0, held := 0 } }

/-! ## Hardware loops and the end of an instruction (R55, R98, R99) -/

/-- The loop buffer is emptied (R97, R153, R204). -/
def Core.dropLoops (k : Core) : Core := { k with loopBuf := [] }

/-- Loop register N of R100 by kind: 0 lc, 1 ls, 2 le. -/
def Seat.loop (t : Seat) (level : Bool) (k : Fin 3) : Word :=
  if level then t.loops[k.val + 3]'(by omega) else t.loops[k.val]'(by omega)

/-- Write a loop register. -/
def Seat.setLoop (t : Seat) (level : Bool) (k : Fin 3) (x : Word) : Seat :=
  if level then { t with loops := t.loops.set (k.val + 3) x (by omega) }
  else { t with loops := t.loops.set k.val x (by omega) }

/-- The end test of one level at address a: the seat after it, and where it loops back to, if it does. -/
def Seat.endTest (t : Seat) (level : Bool) (a : Word) : Seat × Option Word :=
  if t.loop level 0 ≠ 0 ∧ t.loop level 2 = a then
    let t := t.setLoop level 0 (t.loop level 0 - 1)
    (t, if t.loop level 0 ≠ 0 then some (t.loop level 1) else none)
  else (t, none)

/-- The end tests after an instruction at address a that takes no branch (R98): the level with the larger start
first, level 1 first when the starts are equal. -/
def Seat.endTests (t : Seat) (a next : Word) : Seat × Word :=
  if t.inTrap then (t, next)
  else
    let first := decide ((t.loop false 1).toNat ≤ (t.loop true 1).toNat)
    match t.endTest first a with
    | (t, some x) => (t, x)
    | (t, none) =>
      match t.endTest (!first) a with
      | (t, some x) => (t, x)
      | (t, none) => (t, next)

/-- Whether an address lies in the range of a level. -/
def Seat.inLoop (t : Seat) (level : Bool) (a : Word) : Bool :=
  decide ((t.loop level 1).toNat ≤ a.toNat) && decide (a.toNat ≤ (t.loop level 2).toNat)

/-- Whether the range of a level lies within that of another. -/
def Seat.nested (t : Seat) (inner outer : Bool) : Bool :=
  decide ((t.loop outer 1).toNat ≤ (t.loop inner 1).toNat) &&
    decide ((t.loop inner 2).toNat ≤ (t.loop outer 2).toNat)

/-- A transfer to a target deactivates every active level whose range does not hold it, and the levels nested in
such a level (R98); nothing in trap state (R99). -/
def Seat.transfer (t : Seat) (target : Word) : Seat :=
  if t.inTrap then t
  else
    let out (l : Bool) : Bool := decide (t.loop l 0 ≠ 0) && !t.inLoop l target
    let t0 := if out false || (out true && t.nested false true) then t.setLoop false 0 0 else t
    if out true || (out false && t.nested true false) then t0.setLoop true 0 0 else t0

/-- What every form of an instruction has (R102, R106, R118): its length, its energy class and its encoding as
cr.tval takes it. -/
structure Form where
  len : Nat
  energy : Nat
  tval : Word
deriving DecidableEq, Repr

/-- The form of an instruction with words (R120: a parcel is E0). -/
def Form.of (i : Instr) (energy : Nat) : Form := ⟨i.len, energy, i.tval⟩

/-- The energy units of a class (R106, R280). -/
def debit (e : Nat) : Nat := if e = 0 then 0 else if e = 1 then 1 else if e = 2 then 4 else 16

/-- How an instruction goes on. -/
inductive Next where
  /-- The following instruction, after the end tests. -/
  | seq
  /-- An address in its place, after the end tests (R97). -/
  | to (a : Word)
  /-- A transfer (R98). -/
  | jump (a : Word)
  /-- An address that is no transfer and no end test precedes (R164). -/
  | goto (a : Word)
deriving DecidableEq, Repr

/-- The check of cr.chlim at an instruction boundary (R72): CHAIN is pending once the span of an armed seat exceeds the
limit. -/
def Seat.checkChain (t : Seat) : Seat :=
  if t.armed ∧ t.chlim.toNat < t.tag.span.toNat then { t with pend := { t.pend with chain := true } } else t

/-- The seat after an instruction completes: the interval closed, the debit, the span, the flow, the check of
cr.chlim. The count of seat inputs is unchanged. -/
def Seat.finish (t : Seat) (f : Form) (cost : Nat) (nx : Next) : Seat :=
  let t := { t with credit := t.credit - BitVec.ofNat 32 (debit f.energy), tag := t.tag.add cost }
  Seat.checkChain <|
    match nx with
    | .seq => { (t.endTests t.pc (t.pc + BitVec.ofNat 64 f.len)).1 with
        pc := (t.endTests t.pc (t.pc + BitVec.ofNat 64 f.len)).2 }
    | .to a => { (t.endTests t.pc a).1 with pc := (t.endTests t.pc a).2 }
    | .jump a => { t.transfer a with pc := a }
    | .goto a => { t with pc := a }

/-- The executing seat's instruction completes (R55): its open interval is charged first, then its cost is added
and it goes on. -/
def State.complete (s : State) (f : Form) (cost : Nat) (nx : Next) : State :=
  let s := s.closeHold s.cur
  let s := s.modMe fun t => t.finish f cost nx
  let s := s.modHere fun k => { k with lastSeat := s.cur.seat }
  let s := s.count s.cur.core (some s.cur.seat) 0x02 1
  s.count s.cur.core (some s.cur.seat) 0x03 (debit f.energy)

/-! ## The end of a seat's work (R37, R223, R396, R401) -/

/-- Free granules of a core's message area. -/
def Core.free (k : Core) (gs : List Nat) : Core := { k with granules := k.granules.filter fun x => !gs.contains x }

/-- Drop the reservations of a seat and its places among the blocked: its instruction was abandoned or trapped. -/
def Core.unreserve (k : Core) (i : Fin 4) : Core :=
  let free (b : Beat) : Beat := if b.taken = some i then { b with taken := none } else b
  let free' (x : Vec512 × Option (Fin 4)) : Vec512 × Option (Fin 4) := if x.2 = some i then (x.1, none) else x
  let off (l : List (Fin 4)) : List (Fin 4) := l.filter fun x => x ≠ i
  { k with
    chans := k.chans.map fun l => l.map free, nchans := k.nchans.map fun l => l.map free'
    getters := k.getters.map off, putters := k.putters.map off, readers := k.readers.map off }

/-- Add to an account's RUN (R420). -/
def Core.addRun (k : Core) (i : Nat) (x : Word) : Core :=
  if h : i < 16 then
    let a := k.acct[i]
    { k with acct := k.acct.set i { a with run := if a.run.toNat + x.toNat < 2 ^ 64 then a.run + x else BitVec.allOnes 64 } }
  else k

/-- The privilege that work starts at: user in a partition, firmware on the Skoum cores (R394). -/
def basePriv : CoreId → BitVec 2
  | .grid _ _ _ => 0
  | .skoum _ => 2

/-- The seat after its work ends: its granules and account are the core's; pending replies count as lost, the
events of its engine commands and its chain and watchdog causes go with the work, and the privilege is that which the
seat's work starts at. -/
def Seat.ended (t : Seat) (base : BitVec 2) : Seat :=
  let lost := Nat.min (t.tr.trlost.toNat + t.pend.replies.length) 0xFFFF
  { t with
    work := none, hold := none, vprog := none, handed := none, replaying := none, inTrap := false, priv := base,
    gateLoad := [], gateStore := [], outs := [],
    pend := { t.pend with engine := none, outlier := none, replies := [], watchdog := false, chain := false },
    tr := { t.tr with trlost := BitVec.ofNat 16 lost } }

/-- A record of type 0x06 for each pending reply of work that ends (R396, R450). -/
def State.recordLost (s : State) (t : SeatId) : State :=
  let x := s.seat t
  x.pend.replies.foldl (fun s r => s.record (coreIndex t.core) (s.traceRec 0x06 t
    (natLe 8 r.1.toNat ++ natLe 8 r.2.toNat ++ natLe 4 x.grp.toNat ++ natLe 4 x.starts.toNat))) s

/-- The grpcancel that a seat has in progress is over at every core (R390). -/
def State.dropCancels (s : State) (t : SeatId) : State :=
  let drop (k : Core) : Core := { k with cancelling := k.cancelling.filter fun x => x.2 ≠ t }
  if (s.core t.core).cancelling.any fun x => x.2 = t then
    (((s.partOf t.core).map Part.cores).getD [t.core]).foldl (fun (s : State) c => s.modCore c drop) s
  else s

/-- The run time of work, whole intervals and the open one; it saturates (R420). -/
def Work.run (w : Work) (rate : BitVec 32) : Word := BitVec.ofNat 64 (Nat.min (w.ran.toNat + toRef w.running rate) (2 ^ 64 - 1))

/-- End the work of a seat as `exit` ends it (R223): granules freed, RUN closed, a grpcancel of its own over, and a stream
seat parks unless a MODE value is pending (R25). -/
def State.endWork (s : State) (t : SeatId) : State :=
  let s := (s.recordLost t).dropCancels t
  match (s.seat t).work with
  | none => s.modSeat t fun x => x.ended (basePriv t.core)
  | some w =>
    let run := w.run (s.region (s.regionOf t.core)).rate
    s.modCore t.core fun k =>
      let k := k.free w.granules
      let k := match w.acct with
        | some i => k.addRun i run
        | none => k
      let k := if w.kind = .stream then { k with modes := k.modes.set t.seat 0b10 } else k
      (k.unreserve t.seat).modSeat t.seat fun x => x.ended (basePriv t.core)

/-! ## The start of work (R25, R36, R66) -/

/-- What a start of work sets. -/
structure Start where
  kind : WorkKind
  cls : BitVec 6
  granules : List Nat
  channel : Option (Fin 4)
  pc : Word
  codeEnd : Word
  acct : Option Nat
  prio : BitVec 3
  g2 : Word
  g3 : Word
  g4 : Word
  g5 : Word
  grp : BitVec 32
  tag : Tag
deriving DecidableEq, Repr

/-- A seat that starts work: registers, loops and chain registers as R36 and R66 give them, the watchdog reloaded but for
carried code, which is no task start (R33, R165), the privilege that work starts at (R394), outside trap state; every other
register keeps its value. -/
def Seat.begin (t : Seat) (base : BitVec 2) (x : Start) : Seat :=
  { t with
    g := (((Vector.replicate 32 (0 : Word)).set 2 x.g2).set 3 x.g3 |>.set 4 x.g4).set 5 x.g5
    v := Vector.replicate 32 0, p := Vector.replicate 8 0, loops := Vector.replicate 6 0
    pc := x.pc, tag := x.tag, chlim := 0xFFFFFFFFFFFF, armed := true, gap := 0
    grp := x.grp, prioCls := x.cls, prioVal := x.prio
    wdCount := if x.kind = .carried then t.wdCount else t.wdReload
    priv := base, inTrap := false
    work := some ⟨x.kind, x.cls, x.granules, x.channel, x.codeEnd, x.acct, 0, 0⟩
    starts := t.starts + 1, storeSeq := 0, inputs := 0, hold := none }

/-- What entering stream mode sets; in deterministic mode the span of the pending entry. The group is 0: no input brings
one, and the spec is silent (DESIGN CHOICE, log entry 77). -/
def streamStart (t : Seat) : Start where
  kind := .stream
  cls := 0
  granules := []
  channel := none
  pc := t.sentry
  codeEnd := 0
  acct := none
  prio := 0
  g2 := 0
  g3 := 0
  g4 := 0
  g5 := 0
  grp := 0
  tag := Tag.zero.add t.modeSpan.toNat

/-- Keep the largest running span that a seat of a deterministic partition has reached (R455). -/
def State.noteSpan (s : State) (t : SeatId) : State :=
  match s.det? t.core with
  | some _ =>
    s.modPart (s.core t.core).pid.toNat fun p => { p with top := Nat.max p.top (s.seat t).tag.span.toNat }
  | none => s

/-- Give a seat a mode; entering stream mode starts its program. -/
def State.setMode (s : State) (t : SeatId) (m : BitVec 2) : State :=
  (s.noteSpan t).modCore t.core fun k =>
    let k := { k with modes := k.modes.set t.seat m }
    if m = 0b01 then k.modSeat t.seat fun x => { x.begin (basePriv t.core) (streamStart x) with modeSpan := 0 } else k

/-! ## The engines of a core, and the cancel of their commands (R226, R257, R277, R287, R290, R296, R303) -/

/-- Byte i of a command. -/
def Cmd.byte (c : Cmd) (i : Nat) : Nat := (c.img.extractLsb' (8 * i) 8).toNat

/-- The little-endian field of n bytes at byte i. -/
def Cmd.field (c : Cmd) (i n : Nat) : Nat := c.img.toNat / 256 ^ i % 256 ^ n

/-- CODE. -/
def Cmd.code (c : Cmd) : Nat := c.byte 0

/-- The shared part of an engine. -/
def Core.q (k : Core) : Engine → EngineQ
  | .mx => k.mx.q
  | .cp => k.cp.q
  | .sn => k.sn.q

/-- Change the shared part of an engine. -/
def Core.modQ (k : Core) (e : Engine) (f : EngineQ → EngineQ) : Core :=
  match e with
  | .mx => { k with mx := { k.mx with q := f k.mx.q } }
  | .cp => { k with cp := { k.cp with q := f k.cp.q } }
  | .sn => { k with sn := { k.sn with q := f k.sn.q } }

/-- The cumulative tag of a counter after a completion: the completion counts as last, and in deterministic mode the one of
the larger key (R69, R454). -/
def joinDone (det : Bool) (t : Tag × Key) : List (Tag × Key) → Tag × Key
  | [] => t
  | p :: _ => if det && t.2.lt p.2 then (chainJoin (p.1, p.1.last) [t.1] 0, p.2) else (chainJoin (t.1, t.1.last) [p.1] 0, t.2)

/-- Count a completion of a counter, with its tag and key: the newest sixteen cumulative tags are kept (R69). -/
def DoneCounter.inc (x : DoneCounter) (det : Bool) (t : Tag × Key) : DoneCounter :=
  { x with c := x.c + 1, hist := (joinDone det t x.hist :: x.hist).take 16 }

/-- Increment a counter of a core. -/
def Core.doneInc (k : Core) (n : BitVec 3) (det : Bool) (t : Tag × Key) : Core :=
  { k with done := k.done.set n.toNat ((k.done[n.toNat]'n.isLt).inc det t) n.isLt }

/-- SKIP (R275, R303, R435): the held command retires without effect, and its counter is incremented. -/
def State.skipHeld (s : State) (c : CoreId) (e : Engine) : State :=
  match ((s.core c).q e).heldRun with
  | none => s
  | some r =>
    let det := (s.det? c).isSome
    s.modCore c fun k =>
      let k := k.modQ e fun q => { q with held := false, heldRun := none }
      match r.cmd.ctr with
      | some n => k.doneInc n det (r.tag, r.cmd.key)
      | none => k

/-- Change the scan engine of a core. -/
def State.modSn (s : State) (c : CoreId) (f : Sn → Sn) : State := s.modCore c fun k => { k with sn := f k.sn }

/-- A non-lead member of a bench (R290). -/
def Core.follows (k : Core) (c : CoreId) : Bool :=
  match k.benchLead with
  | some l => decide (l ≠ c)
  | none => false

/-- The Trestle position of a core in its partition. -/
def Part.position (p : Part) (c : CoreId) : Option Nat :=
  (p.virt c).map fun x =>
    x.1 * (p.rows * p.cols) + x.2.1 * p.cols + if x.2.1 % 2 = 0 then x.2.2 else p.cols - 1 - x.2.2

/-- The core at a position. -/
def Part.atPosition (p : Part) (i : Nat) : Option CoreId :=
  let per := p.rows * p.cols
  let r := i % per / p.cols
  let c := i % per % p.cols
  p.coreAt (i / per) r (if r % 2 = 0 then c else p.cols - 1 - c)

/-- FIRST. -/
def Cmd.first (x : Cmd) : Nat := x.field 8 4

/-- COUNT. -/
def Cmd.members (x : Cmd) : Nat := x.field 12 4

/-- Whether a position belongs to a command's group, and the group to the partition. -/
def Part.groupOk (p : Part) (c : CoreId) (x : Cmd) : Bool :=
  decide (x.members ≠ 0) && decide (x.first + x.members ≤ p.dies.length * (p.rows * p.cols)) &&
    match p.position c with
    | some i => decide (x.first ≤ i) && decide (i < x.first + x.members)
    | none => false

/-- An automatic contribution. -/
def autoContrib (pos : Nat) (time : Word) : Contrib := ⟨pos, 0, none, false, none, time, ⟨0, 0, 0⟩, true⟩

/-- The cycle in which a contribution to a group reaches its combining point: that of the region of the core at FIRST (DESIGN
CHOICE, log entry 88). -/
def State.combineCycle (s : State) (p : Part) (first : Nat) : Word :=
  match p.atPosition first with
  | some c => (s.region (s.regionOf c)).cyc
  | none => 0

/-- Add a contribution to an instance, if its position has not contributed. -/
def Instance.add (i : Instance) (x : Contrib) : Instance :=
  if i.got.any fun y => y.pos = x.pos then i else { i with got := i.got ++ [x] }

/-- The positions of a partition in a range whose core is a non-lead member of a bench. -/
def State.vacantPositions (s : State) (p : Part) (first count : Nat) : List Nat :=
  (List.range count).filterMap fun j =>
    match p.atPosition (first + j) with
    | some c => if (s.core c).follows c then some (first + j) else none
    | none => none

/-- How often a core has contributed under a CODE, FIRST and COUNT. -/
def Sn.times (n : Sn) (key : Nat × Nat × Nat) : Nat := Tab.get n.started key 0

/-- Contribute to the instance that the next command of its kind forms (R296); it is opened, with the automatic
contributions of R290, if no member has contributed yet. Answers the instance's identity. An automatic contribution does not
count in its position's m (DESIGN CHOICE, log entry 78). -/
def State.contribute (s : State) (c : CoreId) (x : Cmd) (y : Contrib) : Nat × State :=
  let part := (s.core c).pid.toNat
  match s.part? part with
  | none => (0, s)
  | some p =>
    let key := (x.code, x.first, x.members)
    let now := s.combineCycle p x.first
    let y : Contrib := { y with time := now }
    let m := (s.core c).sn.times key
    let s := s.modSn c fun n => { n with started := Tab.set n.started key (m + 1) }
    let is (i : Instance) : Bool :=
      decide (i.part = part) && decide ((i.code, i.first, i.count) = key) && decide (i.m = m)
    match s.instances.find? is with
    | some i => (i.id, { s with instances := s.instances.map fun j => if is j then j.add y else j })
    | none =>
      let (id, s) := s.fresh
      let i : Instance := ⟨id, part, x.code, x.first, x.members, m, [y]⟩
      let i := (s.vacantPositions p x.first x.members).foldl (fun (i : Instance) q => i.add (autoContrib q now)) i
      (id, { s with instances := s.instances ++ [i] })

/-- A skipped or cancelled group command contributes the identity, or an arrival, with no tag (R303). -/
def State.contributeSkipped (s : State) (c : CoreId) (x : Cmd) : State :=
  match s.part? (s.core c).pid.toNat with
  | none => s
  | some p =>
    if (x.code = 2 ∨ x.code = 4 ∨ x.code = 5) ∧ p.groupOk c x then
      (s.contribute c x (autoContrib ((p.position c).getD 0) 0)).2
    else s

/-- SKIP of the scan engine: a group command contributes the identity first. -/
def State.skipSn (s : State) (c : CoreId) : State :=
  match (s.core c).sn.q.heldRun with
  | none => s
  | some r => (s.contributeSkipped c r.cmd).skipHeld c .sn

/-- Cancel the held and the queued commands of an engine that meet a test, as SKIP treats the held one (R277, R303,
R436); a queued one keeps its place in the order of retirement. -/
def State.cancelQueue (s : State) (c : CoreId) (e : Engine) (p : Cmd → Bool) : State :=
  let s := match ((s.core c).q e).heldRun with
    | some r => if p r.cmd then (if e = Engine.sn then s.skipSn c else s.skipHeld c e) else s
    | none => s
  let hit := ((s.core c).q e).queue.filter fun x => p x && !x.dropped
  let s := if e = Engine.sn then hit.foldl (fun (s : State) x => s.contributeSkipped c x) s else s
  let drop (x : Cmd) : Cmd := if p x then { x with dropped := true } else x
  s.modCore c fun k => k.modQ e fun q => { q with queue := q.queue.map drop }

/-- The same for the three engines of a core. -/
def State.cancelEngines (s : State) (c : CoreId) (p : Cmd → Bool) : State :=
  ((s.cancelQueue c .mx p).cancelQueue c .cp p).cancelQueue c .sn p

/-- A pending value, if none is pending yet. -/
def pendFirst (old : Option Word) (new : Word) : Option Word :=
  match old with
  | some x => some x
  | none => some new

/-! ## Taking a trap and returning from one (R162, R164, R391 to R397) -/

/-- Whether a request carries elements of a vector load under way, which goes with its instruction. -/
def Outst.isLanes (o : Outst) : Bool :=
  match o.dest with
  | .lanes _ _ _ => true
  | _ => false

/-- Trap entry (R162, R393): cause, value and return address saved, of which cr.epc holds bits [47:1] (R392), IMP and
PPRIV set, trap state entered, at least supervisor privilege, and the handler's vector next. -/
def Seat.enterTrap (t : Seat) (cause : BitVec 6) (epc tval : Word) (imp : Bool) : Seat :=
  { t with
    tr := { t.tr with imp := imp, ppriv := t.priv, cause := cause, epc := epc &&& 0xFFFFFFFFFFFE, tval := tval },
    priv := if t.priv = 0 then 1 else t.priv,
    inTrap := true,
    pc := t.tr.tvec + 64 * cause.setWidth 64,
    hold := none,
    vprog := none,
    outs := t.outs.filter fun o => !o.isLanes,
    handed := none }

/-- The trace record of a double trap (R397, R450). -/
def State.recordDouble (s : State) (t : SeatId) (cause : BitVec 6) (epc tval : Word) : State :=
  let r := (s.seat t).tr
  s.record (coreIndex t.core) (s.traceRec 0x05 t (natLe 1 r.cause.toNat ++ natLe 7 cause.toNat ++ natLe 8 r.epc.toNat ++
    natLe 8 epc.toNat ++ natLe 8 r.tval.toNat ++ natLe 8 tval.toNat))

/-- Discard a seat's records and, at drain, its entries that fail: what a double trap does to its stores. -/
def Core.dropRecords (k : Core) (i : Fin 4) : Core :=
  let doom (e : SbEntry) : SbEntry := if e.seat = i then { e with doomed := true } else e
  { k with rq := k.rq.filter fun e => e.st.seat ≠ i, sb := k.sb.map doom }

/-- Give every seat of a core but its seat 0 the mode that a list names for it; stream mode starts a program. -/
def State.setModes (s : State) (c : CoreId) (modes : Vector (BitVec 2) 4) : State :=
  ([1, 2, 3] : List (Fin 4)).foldl (fun (s : State) i => s.setMode ⟨c, i⟩ modes[i]) s

/-- The members of a bench but for its lead become vacant, and their seats take back the modes they had (R325, R327). -/
def State.freeMembers (s : State) (lead : CoreId) : State :=
  let mine := (s.cores.filter fun e => decide (e.2.benchLead = some lead ∧ e.1 ≠ lead)).map (·.1)
  let free (s : State) (c : CoreId) : State :=
    let modes := (s.core c).benchModes
    ((s.modCore c fun k => { k with benchLead := none }).setMode ⟨c, 0⟩ modes[(0 : Fin 4)]).setModes c modes
  mine.foldl free s

/-- A bench whose work is cancelled dissolves once its store queue is empty (R325): its records are discarded, its members'
modes return and they become vacant. -/
def State.endBench (s : State) (lead : CoreId) : State :=
  match (s.core lead).bench, (s.core lead).benchEnds && (s.core lead).sb.all fun e => decide (e.seat ≠ 0) with
  | some b, true =>
    let s := s.modCore lead fun k => k.dropRecords 0
    let modes : Vector (BitVec 2) 4 := Vector.ofFn fun i => b.modes.getD (i.val - 1) 0b10
    let mode0 := if b.mode0 = 0b01 then 0b10 else b.mode0
    let s := (s.freeMembers lead).modCore lead fun k =>
      { k with bench := none, benchEnds := false, benchLead := none, modes := k.modes.set 0 mode0 }
    s.setModes lead modes
  | _, _ => s

/-- Dissolve the bench that a core leads (R325): the engine commands of the ended work's group are cancelled, and the store
queue drains or moves to records before the bench is gone. -/
def State.dissolve (s : State) (lead : CoreId) : State :=
  match (s.core lead).bench with
  | none => s
  | some _ =>
    let grp := (s.core lead).seats[(0 : Fin 4)].grp
    ((s.cancelEngines lead fun x => decide (x.grp = grp)).modCore lead fun k => { k with benchEnds := true }).endBench lead

/-- A trap raised in trap state ends the seat's work (R397). -/
def State.doubleTrap (s : State) (t : SeatId) (cause : BitVec 6) (epc tval : Word) : State :=
  let s := s.recordDouble t cause epc tval
  let s := (s.modCore t.core fun k => k.dropRecords t.seat).endWork t
  if t.seat = 0 then s.dissolve t.core else s

/-- A precise ECC of a core is counted as it is found, as an imprecise one is (R350, R374). -/
def State.countEcc (s : State) (c : CoreId) (cause : BitVec 6) : State := if cause = 12 then s.count c none 0x26 1 else s

/-- A trap of a seat: entry, or a double trap in trap state. -/
def State.trap (s : State) (t : SeatId) (cause : BitVec 6) (epc tval : Word) (imp : Bool) : State :=
  if (s.seat t).inTrap then s.doubleTrap t cause epc tval
  else s.modCore t.core fun k => (k.unreserve t.seat).modSeat t.seat fun x => x.enterTrap cause epc tval imp

/-- Whether a trap of a seat may happen now: a double trap waits while its core's trace buffer is full (R449). -/
def State.trapRoom (s : State) (t : SeatId) : Bool := !(s.seat t).inTrap || s.recordRoom (coreIndex t.core)

/-- A precise trap of the executing seat's instruction (R391): the open interval is charged (R60), nothing else
has happened, and cr.epc names the instruction. -/
def State.raise (s : State) (cause : BitVec 6) (tval : Word) : State :=
  if !s.trapRoom s.cur then s.stall 4
  else
    let s := s.closeHold s.cur
    let s := s.modHere fun k => { k with lastSeat := s.cur.seat }
    (s.countEcc s.cur.core cause).trap s.cur cause s.me.pc tval false

/-- One local cycle of a seat's watchdog, which runs while the seat holds live work outside trap state. -/
def Seat.watch (t : Seat) : Seat :=
  if t.work.isNone ∨ t.inTrap ∨ t.wdCount = 0 then t
  else if t.wdCount = 1 then { t with wdCount := 0, pend := { t.pend with watchdog := true } }
  else { t with wdCount := t.wdCount - 1 }

/-- A trap after completion (R163): cr.epc is where execution would have gone on. The cycle that completes counts for the
watchdog, which is taken after eret if that ends its count (R167). -/
def State.completeTrap (s : State) (f : Form) (cost : Nat) (cause : BitVec 6) (tval : Word) : State :=
  if !s.trapRoom s.cur then s.stall 4
  else
    let s := (s.complete f cost .seq).modMe Seat.watch
    s.trap s.cur cause s.me.pc tval false

/-- The seat after eret (R164, R393). -/
def Seat.leaveTrap (t : Seat) : Seat := { t with inTrap := false, priv := t.tr.ppriv }

/-! ## The codes of the hardware causes (R391) -/

/-- ILLEGAL. -/
def cIllegal : BitVec 6 := 0
/-- PRIV. -/
def cPriv : BitVec 6 := 1
/-- ALIGN. -/
def cAlign : BitVec 6 := 2
/-- LOAD_FAULT. -/
def cLoadFault : BitVec 6 := 3
/-- STORE_FAULT. -/
def cStoreFault : BitVec 6 := 4
/-- WINDOW. -/
def cWindow : BitVec 6 := 5
/-- TENANT. -/
def cTenant : BitVec 6 := 6
/-- SENDFULL. -/
def cSendfull : BitVec 6 := 7
/-- CHAIN. -/
def cChain : BitVec 6 := 8
/-- OUTLIER_FULL. -/
def cOutlier : BitVec 6 := 9
/-- ENGINE_FAULT. -/
def cEngine : BitVec 6 := 10
/-- BENCH. -/
def cBench : BitVec 6 := 11
/-- ECC. -/
def cEcc : BitVec 6 := 12
/-- BRK. -/
def cBrk : BitVec 6 := 13
/-- SVC. -/
def cSvc : BitVec 6 := 14
/-- WATCHDOG. -/
def cWatchdog : BitVec 6 := 15

/-! ## Modes of the executing seat -/

/-- The core whose bench the executing seat runs as, if it does. -/
def State.bench (s : State) : Option Bench := if s.cur.seat = 0 then s.here.bench else none

/-- The number of cores of a bench shape (R307). -/
def shapeK (c : BitVec 2) : Nat := 2 ^ (c.toNat + 1)

/-- The number of cores the executing seat spans (R310). -/
def State.k (s : State) : Nat :=
  match s.bench with
  | some b => shapeK b.shape
  | none => 1

/-- Whether a seat runs as a stream seat: its mode, or a bench (R308). -/
def State.streaming (s : State) : Bool :=
  s.bench.isSome || decide (s.here.modes[s.cur.seat] = 0b01)

end Sys2Proof.Machine
end

