-- ==== Sys2Proof/Machine/Codec.lean ====
section
/-!
DEFINITION. The packed form of what an image holds beyond the places that R408 gives (R406 to R408; log entry 5): every
value in a fixed order, each number with its length before it.
-/

namespace Sys2Proof.Machine

/-! ## Numbers, options, lists -/

/-- A reader of packed bytes: a value and the bytes after it, or none where the bytes do not hold one. -/
abbrev Get (α : Type) := List Byte → Option (α × List Byte)

/-- How many bytes a number takes: none for zero. -/
def numBytes (n : Nat) : Nat := if n = 0 then 0 else Nat.log2 n / 8 + 1

/-- Pack a number: how many bytes it takes, in two bytes, and those, little-endian. -/
def putNat (n : Nat) : List Byte := natLe 2 (numBytes n) ++ natLe (numBytes n) n

/-- Read back what `putNat` packs. -/
def getNat : Get Nat := fun b =>
  let k := leNat (b.take 2)
  if b.length < 2 + k then none else some (leNat ((b.drop 2).take k), b.drop (2 + k))

/-- Pack the bits of a register. -/
def putBits {w : Nat} (x : BitVec w) : List Byte := putNat x.toNat

/-- Read back a register of w bits. -/
def getBits (w : Nat) : Get (BitVec w) := fun b => (getNat b).map fun x => (BitVec.ofNat w x.1, x.2)

/-- Pack a number below a bound. -/
def putFin {n : Nat} (x : Fin n) : List Byte := putNat x.val

/-- Read back a number below n. -/
def getFin (n : Nat) : Get (Fin n) := fun b => do
  let (k, b) ← getNat b
  if h : k < n then some (⟨k, h⟩, b) else none

/-- Pack a truth value. -/
def putBool (x : Bool) : List Byte := putNat x.toNat

/-- Read back a truth value. -/
def getBool : Get Bool := fun b => (getNat b).map fun x => (decide (x.1 ≠ 0), x.2)

/-- Pack a pair. -/
def putPair {α β : Type} (p : α → List Byte) (q : β → List Byte) (x : α × β) : List Byte := p x.1 ++ q x.2

/-- Read back a pair. -/
def getPair {α β : Type} (p : Get α) (q : Get β) : Get (α × β) := fun b => do
  let (x, b) ← p b
  let (y, b) ← q b
  some ((x, y), b)

/-- Pack what may be absent. -/
def putOption {α : Type} (p : α → List Byte) : Option α → List Byte
  | none => putNat 0
  | some x => putNat 1 ++ p x

/-- Read back what may be absent. -/
def getOption {α : Type} (p : Get α) : Get (Option α) := fun b => do
  let (k, b) ← getNat b
  if k = 0 then some (none, b) else (p b).map fun x => (some x.1, x.2)

/-- Pack a list: its length and its elements. -/
def putList {α : Type} (p : α → List Byte) (l : List α) : List Byte := putNat l.length ++ l.flatMap p

/-- Read n elements. -/
def getMany {α : Type} (p : Get α) : Nat → Get (List α)
  | 0 => fun b => some ([], b)
  | n + 1 => fun b => do
    let (x, b) ← p b
    let (l, b) ← getMany p n b
    some (x :: l, b)

/-- Read back a list; one that claims more elements than bytes are left holds none. -/
def getList {α : Type} (p : Get α) : Get (List α) := fun b => do
  let (n, b) ← getNat b
  if b.length < n then none else getMany p n b

/-- Pack bytes: their count and themselves. -/
def putBytes (l : List Byte) : List Byte := putNat l.length ++ l

/-- Read back bytes. -/
def getBytes : Get (List Byte) := fun b => do
  let (n, b) ← getNat b
  if b.length < n then none else some (b.take n, b.drop n)

/-- Pack the elements of a vector. -/
def putVec {α : Type} {n : Nat} (p : α → List Byte) (v : Vector α n) : List Byte := v.toList.flatMap p

/-- Read back a vector of n elements. -/
def getVec {α : Type} (p : Get α) (n : Nat) : Get (Vector α n) := fun b => do
  let (l, b) ← getMany p n b
  if h : l.length = n then some (⟨l.toArray, by simp [h]⟩, b) else none

/-! ## Names -/

/-- Pack a virtual network. -/
def putVNet : VNet → List Byte
  | .req => putNat 0
  | .am => putNat 1
  | .rsp => putNat 2
  | .mc => putNat 3

/-- Read back what `putVNet` packs. -/
def getVNet : Get VNet := fun b => do
  let (k, b) ← getNat b
  match k with
  | 0 => some (.req, b)
  | 1 => some (.am, b)
  | 2 => some (.rsp, b)
  | 3 => some (.mc, b)
  | _ => none

/-- Pack the name of an engine. -/
def putEngine : Engine → List Byte
  | .mx => putNat 0
  | .cp => putNat 1
  | .sn => putNat 2

/-- Read back what `putEngine` packs. -/
def getEngine : Get Engine := fun b => do
  let (k, b) ← getNat b
  match k with
  | 0 => some (.mx, b)
  | 1 => some (.cp, b)
  | 2 => some (.sn, b)
  | _ => none

/-- Pack the name of a core. -/
def putCoreId : CoreId → List Byte
  | .grid x0 x1 x2 => putNat 0 ++ putNat x0 ++ putNat x1 ++ putNat x2
  | .skoum x0 => putNat 1 ++ putNat x0

/-- Read back what `putCoreId` packs. -/
def getCoreId : Get CoreId := fun b => do
  let (k, b) ← getNat b
  match k with
  | 0 =>
    let (x0, b) ← getNat b
    let (x1, b) ← getNat b
    let (x2, b) ← getNat b
    some (.grid x0 x1 x2, b)
  | 1 =>
    let (x0, b) ← getNat b
    some (.skoum x0, b)
  | _ => none

/-- Pack the name of a seat. -/
def putSeatId (x : SeatId) : List Byte :=
  putCoreId x.core ++ putFin x.seat

/-- Read back what `putSeatId` packs. -/
def getSeatId : Get SeatId := fun b => do
  let (core_, b) ← getCoreId b
  let (seat_, b) ← (getFin 4) b
  some ({
    core := core_, seat := seat_ }, b)

/-- Pack the name of a cluster. -/
def putClusterId (x : ClusterId) : List Byte :=
  putNat x.die ++ putNat x.row ++ putNat x.col

/-- Read back what `putClusterId` packs. -/
def getClusterId : Get ClusterId := fun b => do
  let (die_, b) ← getNat b
  let (row_, b) ← getNat b
  let (col_, b) ← getNat b
  some ({
    die := die_, row := row_, col := col_ }, b)

/-- Pack the name of a frame. -/
def putFrameId : FrameId → List Byte
  | .tcm x0 x1 => putNat 0 ++ putCoreId x0 ++ putNat x1
  | .scratch x0 x1 => putNat 1 ++ putClusterId x0 ++ putNat x1
  | .sram x0 x1 => putNat 2 ++ putNat x0 ++ putNat x1

/-- Read back what `putFrameId` packs. -/
def getFrameId : Get FrameId := fun b => do
  let (k, b) ← getNat b
  match k with
  | 0 =>
    let (x0, b) ← getCoreId b
    let (x1, b) ← getNat b
    some (.tcm x0 x1, b)
  | 1 =>
    let (x0, b) ← getClusterId b
    let (x1, b) ← getNat b
    some (.scratch x0 x1, b)
  | 2 =>
    let (x0, b) ← getNat b
    let (x1, b) ← getNat b
    some (.sram x0 x1, b)
  | _ => none

/-! ## Messages and entries -/

/-- Pack a chain tag. -/
def putTag (x : Tag) : List Byte :=
  putBits x.span ++ putBits x.wait ++ putBits x.last ++ putBits x.flags

/-- Read back what `putTag` packs. -/
def getTag : Get Tag := fun b => do
  let (span_, b) ← (getBits 48) b
  let (wait_, b) ← (getBits 32) b
  let (last_, b) ← (getBits 32) b
  let (flags_, b) ← (getBits 16) b
  some ({
    span := span_, wait := wait_, last := last_, flags := flags_ }, b)

/-- Pack a key. -/
def putKey (x : Key) : List Byte :=
  putNat x.span ++ putBits x.coord ++ putBits x.n

/-- Read back what `putKey` packs. -/
def getKey : Get Key := fun b => do
  let (span_, b) ← getNat b
  let (coord_, b) ← (getBits 32) b
  let (n_, b) ← (getBits 32) b
  some ({
    span := span_, coord := coord_, n := n_ }, b)

/-- Pack what a message starts. -/
def putMsgKind : MsgKind → List Byte
  | .plain => putNat 0
  | .launchTask x0 x1 => putNat 1 ++ putFin x0 ++ putBits x1
  | .launch => putNat 2
  | .stolen x0 x1 x2 x3 => putNat 3 ++ putBits x0 ++ putBits x1 ++ putCoreId x2 ++ putBits x3

/-- Read back what `putMsgKind` packs. -/
def getMsgKind : Get MsgKind := fun b => do
  let (k, b) ← getNat b
  match k with
  | 0 => some (.plain, b)
  | 1 =>
    let (x0, b) ← (getFin 4) b
    let (x1, b) ← (getBits 64) b
    some (.launchTask x0 x1, b)
  | 2 => some (.launch, b)
  | 3 =>
    let (x0, b) ← (getBits 64) b
    let (x1, b) ← (getBits 64) b
    let (x2, b) ← getCoreId b
    let (x3, b) ← (getBits 3) b
    some (.stolen x0 x1 x2 x3, b)
  | _ => none

/-- Pack a message: its header and its payload, with what the sender and the inputs keep of it. -/
def putMsg (x : Msg) : List Byte :=
  putCoreId x.dst ++ putBits x.cls ++ putBits x.grp ++ putBits x.part ++ putTag x.tag ++ putBytes x.data ++
    putBits x.src ++ putBits x.seq ++ putBits x.work ++ putNat x.age ++ putVNet x.vn ++ putKey x.key ++
    putMsgKind x.kind ++ (putList putCoreId) x.rest ++ (putOption putBits) x.pkg ++ (putList putNat) x.after ++
    putNat x.held ++ putNat x.heldDet ++ putNat x.qwait ++ putNat x.came ++
    (putOption (putPair putCoreId putCoreId)) x.rect

/-- Read back what `putMsg` packs. -/
def getMsg : Get Msg := fun b => do
  let (dst_, b) ← getCoreId b
  let (cls_, b) ← (getBits 6) b
  let (grp_, b) ← (getBits 32) b
  let (part_, b) ← (getBits 6) b
  let (tag_, b) ← getTag b
  let (data_, b) ← getBytes b
  let (src_, b) ← (getBits 20) b
  let (seq_, b) ← (getBits 8) b
  let (work_, b) ← (getBits 12) b
  let (age_, b) ← getNat b
  let (vn_, b) ← getVNet b
  let (key_, b) ← getKey b
  let (kind_, b) ← getMsgKind b
  let (rest_, b) ← (getList getCoreId) b
  let (pkg_, b) ← (getOption (getBits 9)) b
  let (after_, b) ← (getList getNat) b
  let (held_, b) ← getNat b
  let (heldDet_, b) ← getNat b
  let (qwait_, b) ← getNat b
  let (came_, b) ← getNat b
  let (rect_, b) ← (getOption (getPair getCoreId getCoreId)) b
  some ({
    dst := dst_, cls := cls_, grp := grp_, part := part_, tag := tag_, data := data_, src := src_, seq := seq_
    work := work_, age := age_, vn := vn_, key := key_, kind := kind_, rest := rest_, pkg := pkg_, after := after_
    held := held_, heldDet := heldDet_, qwait := qwait_, came := came_, rect := rect_ }, b)

/-- Pack what an entry becomes. -/
def putEntryKind : EntryKind → List Byte
  | .byClass => putNat 0
  | .launchTask x0 x1 => putNat 1 ++ putFin x0 ++ putBits x1
  | .stolen x0 x1 x2 x3 => putNat 2 ++ putBits x0 ++ putBits x1 ++ putCoreId x2 ++ putBits x3
  | .channelTask x0 => putNat 3 ++ putFin x0

/-- Read back what `putEntryKind` packs. -/
def getEntryKind : Get EntryKind := fun b => do
  let (k, b) ← getNat b
  match k with
  | 0 => some (.byClass, b)
  | 1 =>
    let (x0, b) ← (getFin 4) b
    let (x1, b) ← (getBits 64) b
    some (.launchTask x0 x1, b)
  | 2 =>
    let (x0, b) ← (getBits 64) b
    let (x1, b) ← (getBits 64) b
    let (x2, b) ← getCoreId b
    let (x3, b) ← (getBits 3) b
    some (.stolen x0 x1 x2 x3, b)
  | 3 =>
    let (x0, b) ← (getFin 4) b
    some (.channelTask x0, b)
  | _ => none

/-- Pack a run-queue entry. -/
def putEntry (x : Entry) : List Byte :=
  putMsg x.msg ++ putEntryKind x.kind ++ (putList putNat) x.granules ++ (putOption putBits) x.steered ++
    putNat x.held ++ putNat x.acct

/-- Read back what `putEntry` packs. -/
def getEntry : Get Entry := fun b => do
  let (msg_, b) ← getMsg b
  let (kind_, b) ← getEntryKind b
  let (granules_, b) ← (getList getNat) b
  let (steered_, b) ← (getOption (getBits 3)) b
  let (held_, b) ← getNat b
  let (acct_, b) ← getNat b
  some ({
    msg := msg_, kind := kind_, granules := granules_, steered := steered_, held := held_, acct := acct_ }, b)

/-- Pack the binding of a beat. -/
def putBeat (x : Beat) : List Byte :=
  putNat x.granule ++ putBits x.grp ++ putKey x.key ++ (putOption (putPair putTag putBits)) x.first ++
    (putOption putFin) x.taken

/-- Read back what `putBeat` packs. -/
def getBeat : Get Beat := fun b => do
  let (granule_, b) ← getNat b
  let (grp_, b) ← (getBits 32) b
  let (key_, b) ← getKey b
  let (first_, b) ← (getOption (getPair getTag (getBits 32))) b
  let (taken_, b) ← (getOption (getFin 4)) b
  some ({
    granule := granule_, grp := grp_, key := key_, first := first_, taken := taken_ }, b)

/-! ## Seats -/

/-- Pack a kind of work. -/
def putWorkKind : WorkKind → List Byte
  | .task => putNat 0
  | .active => putNat 1
  | .carried => putNat 2
  | .stream => putNat 3

/-- Read back what `putWorkKind` packs. -/
def getWorkKind : Get WorkKind := fun b => do
  let (k, b) ← getNat b
  match k with
  | 0 => some (.task, b)
  | 1 => some (.active, b)
  | 2 => some (.carried, b)
  | 3 => some (.stream, b)
  | _ => none

/-- Pack the work of a seat. -/
def putWork (x : Work) : List Byte :=
  putWorkKind x.kind ++ putBits x.cls ++ (putList putNat) x.granules ++ (putOption putFin) x.channel ++
    putBits x.codeEnd ++ (putOption putNat) x.acct ++ putBits x.ran ++ putNat x.running

/-- Read back what `putWork` packs. -/
def getWork : Get Work := fun b => do
  let (kind_, b) ← getWorkKind b
  let (cls_, b) ← (getBits 6) b
  let (granules_, b) ← (getList getNat) b
  let (channel_, b) ← (getOption (getFin 4)) b
  let (codeEnd_, b) ← (getBits 64) b
  let (acct_, b) ← (getOption getNat) b
  let (ran_, b) ← (getBits 64) b
  let (running_, b) ← getNat b
  some ({
    kind := kind_, cls := cls_, granules := granules_, channel := channel_, codeEnd := codeEnd_, acct := acct_
    ran := ran_, running := running_ }, b)

/-- Pack what holds an instruction at issue. -/
def putHold (x : Hold) : List Byte :=
  putNat x.kind ++ putNat x.cycles ++ putBool x.blocked ++ putBool x.asleep ++ putBool x.waited ++ putBool x.tried ++
    putNat x.since ++ putNat x.mark ++ putBits x.tval ++ (putOption (putPair putKey putNat)) x.det

/-- Read back what `putHold` packs. -/
def getHold : Get Hold := fun b => do
  let (kind_, b) ← getNat b
  let (cycles_, b) ← getNat b
  let (blocked_, b) ← getBool b
  let (asleep_, b) ← getBool b
  let (waited_, b) ← getBool b
  let (tried_, b) ← getBool b
  let (since_, b) ← getNat b
  let (mark_, b) ← getNat b
  let (tval_, b) ← (getBits 64) b
  let (det_, b) ← (getOption (getPair getKey getNat)) b
  some ({
    kind := kind_, cycles := cycles_, blocked := blocked_, asleep := asleep_, waited := waited_, tried := tried_
    since := since_, mark := mark_, tval := tval_, det := det_ }, b)

/-- Pack the trap registers. -/
def putTrapRegs (x : TrapRegs) : List Byte :=
  putBool x.imp ++ putBits x.ppriv ++ putBits x.cause ++ putBits x.epc ++ putBits x.tval ++ putBits x.tvec ++
    putBits x.trlost

/-- Read back what `putTrapRegs` packs. -/
def getTrapRegs : Get TrapRegs := fun b => do
  let (imp_, b) ← getBool b
  let (ppriv_, b) ← (getBits 2) b
  let (cause_, b) ← (getBits 6) b
  let (epc_, b) ← (getBits 64) b
  let (tval_, b) ← (getBits 64) b
  let (tvec_, b) ← (getBits 64) b
  let (trlost_, b) ← (getBits 16) b
  some ({
    imp := imp_, ppriv := ppriv_, cause := cause_, epc := epc_, tval := tval_, tvec := tvec_, trlost := trlost_ }, b)

/-- Pack the pending causes. -/
def putPending (x : Pending) : List Byte :=
  (putOption putBits) x.ecc ++ (putOption putBits) x.engine ++ (putOption putBits) x.outlier ++
    (putList (putPair putBits putBits)) x.replies ++ putBool x.watchdog ++ putBool x.chain

/-- Read back what `putPending` packs. -/
def getPending : Get Pending := fun b => do
  let (ecc_, b) ← (getOption (getBits 64)) b
  let (engine_, b) ← (getOption (getBits 64)) b
  let (outlier_, b) ← (getOption (getBits 64)) b
  let (replies_, b) ← (getList (getPair (getBits 6) (getBits 64))) b
  let (watchdog_, b) ← getBool b
  let (chain_, b) ← getBool b
  some ({
    ecc := ecc_, engine := engine_, outlier := outlier_, replies := replies_, watchdog := watchdog_
    chain := chain_ }, b)

/-- Pack a seat: no request and no vector access of it is under way in an image. -/
def putSeat (x : Seat) : List Byte :=
  (putVec putBits) x.g ++ (putVec putBits) x.v ++ (putVec putBits) x.p ++ (putVec putBits) x.loops ++ putBits x.pc ++
    putTag x.tag ++ putBits x.chlim ++ putBool x.armed ++ putBits x.gap ++ putBits x.frm ++ putBits x.fflags ++
    putBits x.grp ++ putBits x.prioCls ++ putBits x.prioVal ++ putBits x.credit ++ putBits x.fraction ++
    putBits x.wdReload ++ putBits x.wdCount ++ putTrapRegs x.tr ++ putBits x.sentry ++ putBits x.priv ++
    putBool x.inTrap ++ putPending x.pend ++ (putOption putWork) x.work ++ putBits x.starts ++
    (putVec putBits) x.seqs ++ putBits x.storeSeq ++ putBits x.inputs ++ (putOption putHold) x.hold ++
    (putOption putNat) x.handed ++ (putOption putBits) x.modePend ++ putBits x.modeSpan ++
    (putList putNat) x.gateLoad ++ (putList putNat) x.gateStore ++ (putOption putFin) x.boundChan

/-- Read back what `putSeat` packs. -/
def getSeat : Get Seat := fun b => do
  let (g_, b) ← (getVec (getBits 64) 32) b
  let (v_, b) ← (getVec (getBits 8192) 32) b
  let (p_, b) ← (getVec (getBits 1024) 8) b
  let (loops_, b) ← (getVec (getBits 64) 6) b
  let (pc_, b) ← (getBits 64) b
  let (tag_, b) ← getTag b
  let (chlim_, b) ← (getBits 48) b
  let (armed_, b) ← getBool b
  let (gap_, b) ← (getBits 64) b
  let (frm_, b) ← (getBits 3) b
  let (fflags_, b) ← (getBits 5) b
  let (grp_, b) ← (getBits 32) b
  let (prioCls_, b) ← (getBits 6) b
  let (prioVal_, b) ← (getBits 3) b
  let (credit_, b) ← (getBits 32) b
  let (fraction_, b) ← (getBits 8) b
  let (wdReload_, b) ← (getBits 32) b
  let (wdCount_, b) ← (getBits 32) b
  let (tr_, b) ← getTrapRegs b
  let (sentry_, b) ← (getBits 64) b
  let (priv_, b) ← (getBits 2) b
  let (inTrap_, b) ← getBool b
  let (pend_, b) ← getPending b
  let (work_, b) ← (getOption getWork) b
  let (starts_, b) ← (getBits 12) b
  let (seqs_, b) ← (getVec (getBits 8) 9) b
  let (storeSeq_, b) ← (getBits 16) b
  let (inputs_, b) ← (getBits 32) b
  let (hold_, b) ← (getOption getHold) b
  let (handed_, b) ← (getOption getNat) b
  let (modePend_, b) ← (getOption (getBits 2)) b
  let (modeSpan_, b) ← (getBits 48) b
  let (gateLoad_, b) ← (getList getNat) b
  let (gateStore_, b) ← (getList getNat) b
  let (boundChan_, b) ← (getOption (getFin 4)) b
  some ({
    g := g_, v := v_, p := p_, loops := loops_, pc := pc_, tag := tag_, chlim := chlim_, armed := armed_
    gap := gap_, frm := frm_, fflags := fflags_, grp := grp_, prioCls := prioCls_, prioVal := prioVal_
    credit := credit_, fraction := fraction_, wdReload := wdReload_, wdCount := wdCount_, tr := tr_
    sentry := sentry_, priv := priv_, inTrap := inTrap_, pend := pend_, work := work_, starts := starts_
    seqs := seqs_, storeSeq := storeSeq_, inputs := inputs_, hold := hold_, outs := [], vprog := none
    handed := handed_, replaying := none, modePend := modePend_, modeSpan := modeSpan_, gateLoad := gateLoad_
    gateStore := gateStore_, boundChan := boundChan_ }, b)

/-! ## Engines -/

/-- Pack a translation. -/
def putTlbEntry (x : TlbEntry) : List Byte :=
  (putOption putNat) x.ctx ++ putBits x.root ++ putBits x.page ++ putNat x.bits ++ putBits x.pte

/-- Read back what `putTlbEntry` packs. -/
def getTlbEntry : Get TlbEntry := fun b => do
  let (ctx_, b) ← (getOption getNat) b
  let (root_, b) ← (getBits 64) b
  let (page_, b) ← (getBits 64) b
  let (bits_, b) ← getNat b
  let (pte_, b) ← (getBits 64) b
  some ({
    ctx := ctx_, root := root_, page := page_, bits := bits_, pte := pte_ }, b)

/-- Pack a pushed command. -/
def putCmd (x : Cmd) : List Byte :=
  putBits x.img ++ putBits x.regs ++ putFin x.seat ++ putBits x.starts ++ putBits x.grp ++ putBits x.priv ++
    (putOption putBits) x.ctr ++ putBits x.origin ++ putTag x.tag ++ putKey x.key ++ (putList putNat) x.after ++
    putNat x.held ++ putBool x.gap ++ putBool x.dropped

/-- Read back what `putCmd` packs. -/
def getCmd : Get Cmd := fun b => do
  let (img_, b) ← (getBits 512) b
  let (regs_, b) ← (getBits 4096) b
  let (seat_, b) ← (getFin 4) b
  let (starts_, b) ← (getBits 12) b
  let (grp_, b) ← (getBits 32) b
  let (priv_, b) ← (getBits 2) b
  let (ctr_, b) ← (getOption (getBits 3)) b
  let (origin_, b) ← (getBits 32) b
  let (tag_, b) ← getTag b
  let (key_, b) ← getKey b
  let (after_, b) ← (getList getNat) b
  let (held_, b) ← getNat b
  let (gap_, b) ← getBool b
  let (dropped_, b) ← getBool b
  some ({
    img := img_, regs := regs_, seat := seat_, starts := starts_, grp := grp_, priv := priv_, ctr := ctr_
    origin := origin_, tag := tag_, key := key_, after := after_, held := held_, gap := gap_
    dropped := dropped_ }, b)

/-- Pack a command under way; its partial values stand in shortened form elsewhere. -/
def putRun (x : Run) : List Byte :=
  putCmd x.cmd ++ putNat x.step ++ putBits x.s0 ++ putBits x.s1 ++
    (putOption (putList (putPair putBits putBits))) x.scan ++ putBool x.seg ++ putNat x.found ++ putNat x.lost ++
    (putOption putNat) x.inst ++ (putList putNat) x.waits ++ putBytes x.bytes ++
    (putList (putPair putNat (putPair putBits (putOption putBytes)))) x.reads ++ (putOption putTlbEntry) x.heldBy ++
    putBool x.walks ++ putNat x.why ++ putNat x.held ++ (putOption (putPair putBits putBits)) x.fin ++ putTag x.tag

/-- Read back what `putRun` packs. -/
def getRun : Get Run := fun b => do
  let (cmd_, b) ← getCmd b
  let (step_, b) ← getNat b
  let (s0_, b) ← (getBits 16) b
  let (s1_, b) ← (getBits 16) b
  let (scan_, b) ← (getOption (getList (getPair (getBits 64) (getBits 64)))) b
  let (seg_, b) ← getBool b
  let (found_, b) ← getNat b
  let (lost_, b) ← getNat b
  let (inst_, b) ← (getOption getNat) b
  let (waits_, b) ← (getList getNat) b
  let (bytes_, b) ← getBytes b
  let (reads_, b) ← (getList (getPair getNat (getPair (getBits 64) (getOption getBytes)))) b
  let (heldBy_, b) ← (getOption getTlbEntry) b
  let (walks_, b) ← getBool b
  let (why_, b) ← getNat b
  let (held_, b) ← getNat b
  let (fin_, b) ← (getOption (getPair (getBits 8) (getBits 16))) b
  let (tag_, b) ← getTag b
  some ({
    cmd := cmd_, step := step_, s0 := s0_, s1 := s1_, acc := [], scan := scan_, seg := seg_, found := found_
    lost := lost_, inst := inst_, waits := waits_, bytes := bytes_, reads := reads_, heldBy := heldBy_
    walks := walks_, why := why_, held := held_, fin := fin_, tag := tag_ }, b)

/-- Pack what the engines share. -/
def putEngineQ (x : EngineQ) : List Byte :=
  (putList putCmd) x.queue ++ (putList putRun) x.run ++ (putList (putPair putBits putTag)) x.fifo ++
    putBool x.held ++ (putOption putRun) x.heldRun ++ putBits x.fstat ++ putBits x.fcode

/-- Read back what `putEngineQ` packs. -/
def getEngineQ : Get EngineQ := fun b => do
  let (queue_, b) ← (getList getCmd) b
  let (run_, b) ← (getList getRun) b
  let (fifo_, b) ← (getList (getPair (getBits 64) getTag)) b
  let (held_, b) ← getBool b
  let (heldRun_, b) ← (getOption getRun) b
  let (fstat_, b) ← (getBits 8) b
  let (fcode_, b) ← (getBits 8) b
  some ({
    queue := queue_, run := run_, fifo := fifo_, held := held_, heldRun := heldRun_, fstat := fstat_
    fcode := fcode_ }, b)

/-- Pack a latch. -/
def putLatch (x : Latch) : List Byte :=
  putBits x.data ++ putBits x.fmt ++ putBits x.scale

/-- Read back what `putLatch` packs. -/
def getLatch : Get Latch := fun b => do
  let (data_, b) ← (getBits 4096) b
  let (fmt_, b) ← (getBits 8) b
  let (scale_, b) ← (getBits 128) b
  some ({
    data := data_, fmt := fmt_, scale := scale_ }, b)

/-- Pack the state of a latch. -/
def putCredit : Credit → List Byte
  | .free => putNat 0
  | .credit => putNat 1
  | .full => putNat 2

/-- Read back what `putCredit` packs. -/
def getCredit : Get Credit := fun b => do
  let (k, b) ← getNat b
  match k with
  | 0 => some (.free, b)
  | 1 => some (.credit, b)
  | 2 => some (.full, b)
  | _ => none

/-- Pack the matrix engine; its banks stand in shortened form elsewhere. -/
def putMx (x : Mx) : List Byte :=
  putEngineQ x.q ++ putLatch x.cur ++ putLatch x.next ++ putCredit x.credit ++ putBits x.table ++ putBits x.afmt ++
    putBits x.bfmt ++ putBits x.cfmt ++ putBits x.aconst ++ putBits x.amode ++ putBits x.bconst ++ putBits x.bmode ++
    putBits x.tsel ++ putBits x.olist ++ putBits x.olim ++ putBits x.ocnt ++ putBool x.ovf

/-- Read back what `putMx` packs. -/
def getMx : Get Mx := fun b => do
  let (q_, b) ← getEngineQ b
  let (cur_, b) ← getLatch b
  let (next_, b) ← getLatch b
  let (credit_, b) ← getCredit b
  let (table_, b) ← (getBits 4096) b
  let (afmt_, b) ← (getBits 8) b
  let (bfmt_, b) ← (getBits 8) b
  let (cfmt_, b) ← (getBits 8) b
  let (aconst_, b) ← (getBits 8) b
  let (amode_, b) ← (getBits 2) b
  let (bconst_, b) ← (getBits 8) b
  let (bmode_, b) ← (getBits 2) b
  let (tsel_, b) ← (getBits 1) b
  let (olist_, b) ← (getBits 32) b
  let (olim_, b) ← (getBits 16) b
  let (ocnt_, b) ← (getBits 16) b
  let (ovf_, b) ← getBool b
  some ({
    q := q_, cur := cur_, next := next_, credit := credit_, banks := Vector.replicate 4 [], table := table_
    afmt := afmt_, bfmt := bfmt_, cfmt := cfmt_, aconst := aconst_, amode := amode_, bconst := bconst_
    bmode := bmode_, tsel := tsel_, olist := olist_, olim := olim_, ocnt := ocnt_, ovf := ovf_ }, b)

/-- Pack the scan engine. -/
def putSn (x : Sn) : List Byte :=
  putEngineQ x.q ++ putBits x.snop ++ (putOption (putList (putPair putBits putBits))) x.agg ++ putBool x.aggSeg ++
    (putOption (putList (putPair putBits putBits))) x.carry ++ putBool x.carrySeg ++
    (putList (putPair (putPair putNat (putPair putNat putNat)) putNat)) x.started ++ putBool x.mism

/-- Read back what `putSn` packs. -/
def getSn : Get Sn := fun b => do
  let (q_, b) ← getEngineQ b
  let (snop_, b) ← (getBits 16) b
  let (agg_, b) ← (getOption (getList (getPair (getBits 64) (getBits 64)))) b
  let (aggSeg_, b) ← getBool b
  let (carry_, b) ← (getOption (getList (getPair (getBits 64) (getBits 64)))) b
  let (carrySeg_, b) ← getBool b
  let (started_, b) ← (getList (getPair (getPair getNat (getPair getNat getNat)) getNat)) b
  let (mism_, b) ← getBool b
  some ({
    q := q_, snop := snop_, agg := agg_, aggSeg := aggSeg_, carry := carry_, carrySeg := carrySeg_
    started := started_, mism := mism_ }, b)

/-- Pack the copy engine. -/
def putCp (x : Cp) : List Byte :=
  putEngineQ x.q ++ putBits x.foff ++ putBits x.fva ++ putNat x.count

/-- Read back what `putCp` packs. -/
def getCp : Get Cp := fun b => do
  let (q_, b) ← getEngineQ b
  let (foff_, b) ← (getBits 64) b
  let (fva_, b) ← (getBits 64) b
  let (count_, b) ← getNat b
  some ({
    q := q_, foff := foff_, fva := fva_, count := count_ }, b)

/-! ## Cores -/

/-- Pack a bench. -/
def putBench (x : Bench) : List Byte :=
  putBits x.shape ++ putBits x.mode0 ++ (putList putBits) x.modes ++ putBool x.wide

/-- Read back what `putBench` packs. -/
def getBench : Get Bench := fun b => do
  let (shape_, b) ← (getBits 2) b
  let (mode0_, b) ← (getBits 2) b
  let (modes_, b) ← (getList (getBits 2)) b
  let (wide_, b) ← getBool b
  some ({
    shape := shape_, mode0 := mode0_, modes := modes_, wide := wide_ }, b)

/-- Pack a store. -/
def putSbEntry (x : SbEntry) : List Byte :=
  putNat x.id ++ putBits x.va ++ (putList (putOption putBits)) x.bytes ++ putFin x.seat ++ putBits x.grp ++
    putBits x.seq ++ putBits x.priv ++ putBool x.vec ++ (putList putNat) x.after ++ putBool x.extra ++
    putKey x.key ++ putBool x.doomed ++ putBits x.starts ++ putNat x.why ++ putNat x.held ++
    (putOption putBench) x.bench

/-- Read back what `putSbEntry` packs. -/
def getSbEntry : Get SbEntry := fun b => do
  let (id_, b) ← getNat b
  let (va_, b) ← (getBits 64) b
  let (bytes_, b) ← (getList (getOption (getBits 8))) b
  let (seat_, b) ← (getFin 4) b
  let (grp_, b) ← (getBits 32) b
  let (seq_, b) ← (getBits 16) b
  let (priv_, b) ← (getBits 2) b
  let (vec_, b) ← getBool b
  let (after_, b) ← (getList getNat) b
  let (extra_, b) ← getBool b
  let (key_, b) ← getKey b
  let (doomed_, b) ← getBool b
  let (starts_, b) ← (getBits 12) b
  let (why_, b) ← getNat b
  let (held_, b) ← getNat b
  let (bench_, b) ← (getOption getBench) b
  some ({
    id := id_, va := va_, bytes := bytes_, seat := seat_, grp := grp_, seq := seq_, priv := priv_, vec := vec_
    after := after_, extra := extra_, key := key_, doomed := doomed_, starts := starts_, why := why_, held := held_
    bench := bench_ }, b)

/-- Pack an entry of the record queue. -/
def putRqEntry (x : RqEntry) : List Byte :=
  putSbEntry x.st ++ putBits x.reason ++ putNat x.popped

/-- Read back what `putRqEntry` packs. -/
def getRqEntry : Get RqEntry := fun b => do
  let (st_, b) ← getSbEntry b
  let (reason_, b) ← (getBits 2) b
  let (popped_, b) ← getNat b
  some ({
    st := st_, reason := reason_, popped := popped_ }, b)

/-- Pack a done counter. -/
def putDoneCounter (x : DoneCounter) : List Byte :=
  putBits x.c ++ putBits x.i ++ (putList (putPair putTag putKey)) x.hist

/-- Read back what `putDoneCounter` packs. -/
def getDoneCounter : Get DoneCounter := fun b => do
  let (c_, b) ← (getBits 32) b
  let (i_, b) ← (getBits 32) b
  let (hist_, b) ← (getList (getPair getTag getKey)) b
  some ({
    c := c_, i := i_, hist := hist_ }, b)

/-- Pack what a deque entry holds beside its bytes. -/
def putDequeInfo (x : DequeInfo) : List Byte :=
  putBits x.grp ++ putKey x.key ++ (putList putNat) x.after

/-- Read back what `putDequeInfo` packs. -/
def getDequeInfo : Get DequeInfo := fun b => do
  let (grp_, b) ← (getBits 32) b
  let (key_, b) ← getKey b
  let (after_, b) ← (getList getNat) b
  some ({
    grp := grp_, key := key_, after := after_ }, b)

/-- Pack what no seat has observed yet. -/
def putUnseen (x : Unseen) : List Byte :=
  putKey x.key ++ (putOption (putPair putBits putBits)) x.ctr ++ (putOption putEngine) x.fifo

/-- Read back what `putUnseen` packs. -/
def getUnseen : Get Unseen := fun b => do
  let (key_, b) ← getKey b
  let (ctr_, b) ← (getOption (getPair (getBits 3) (getBits 32))) b
  let (fifo_, b) ← (getOption getEngine) b
  some ({
    key := key_, ctr := ctr_, fifo := fifo_ }, b)

/-- Pack a core: its store buffer is empty in an image, its caches and its account table are no part of one, and its
partition and its router stay with its place. -/
def putCore (x : Core) : List Byte :=
  (putVec putSeat) x.seats ++ putFin x.lastSeat ++ (putVec putBits) x.modes ++ putBits x.nwin ++ putBits x.msz ++
    putBits x.dqb ++ putBool x.dqen ++ (putVec putBits) x.ev ++ (putVec putBits) x.evsel ++ putBits x.win ++
    putBits x.ptb ++ putBits x.cwlo ++ putBits x.cwhi ++ (putVec putBits) x.classes ++ (putList putEntry) x.runq ++
    (putList putNat) x.granules ++ (putVec (putList putBeat)) x.chans ++
    (putVec (putList (putPair putBits (putOption putFin)))) x.nchans ++ (putVec putNat) x.sent ++
    (putVec (putList putBits)) x.queues ++ (putVec (putList putFin)) x.getters ++
    (putVec (putList putFin)) x.putters ++ (putVec (putList putFin)) x.readers ++ putNat x.dqTop ++
    (putList putDequeInfo) x.dqHeld ++ putBool x.stealOut ++ putNat x.stealWait ++ (putVec putDoneCounter) x.done ++
    (putList putUnseen) x.unseen ++ (putVec putBits) x.tmaps ++ (putList putRqEntry) x.rq ++
    (putVec (putList putMsg)) x.inj ++ putNat x.copiesDue ++ (putVec (putList putMsg)) x.inputs ++
    putNat x.accepted ++ putNat x.taskStarts ++ putMx x.mx ++ putSn x.sn ++ putCp x.cp ++
    (putOption putBench) x.bench ++ (putOption putCoreId) x.benchLead ++ putBool x.benchEnds ++
    (putVec putBits) x.benchModes ++ (putList (putPair putBits putSeatId)) x.cancelling ++
    (putVec putBits) x.launchModes

/-- Read back what `putCore` packs. -/
def getCore : Get Core := fun b => do
  let (seats_, b) ← (getVec getSeat 4) b
  let (lastSeat_, b) ← (getFin 4) b
  let (modes_, b) ← (getVec (getBits 2) 4) b
  let (nwin_, b) ← (getBits 16) b
  let (msz_, b) ← (getBits 4) b
  let (dqb_, b) ← (getBits 4) b
  let (dqen_, b) ← getBool b
  let (ev_, b) ← (getVec (getBits 64) 4) b
  let (evsel_, b) ← (getVec (getBits 12) 4) b
  let (win_, b) ← (getBits 64) b
  let (ptb_, b) ← (getBits 64) b
  let (cwlo_, b) ← (getBits 64) b
  let (cwhi_, b) ← (getBits 64) b
  let (classes_, b) ← (getVec (getBits 128) 64) b
  let (runq_, b) ← (getList getEntry) b
  let (granules_, b) ← (getList getNat) b
  let (chans_, b) ← (getVec (getList getBeat) 4) b
  let (nchans_, b) ← (getVec (getList (getPair (getBits 512) (getOption (getFin 4)))) 4) b
  let (sent_, b) ← (getVec getNat 4) b
  let (queues_, b) ← (getVec (getList (getBits 64)) 8) b
  let (getters_, b) ← (getVec (getList (getFin 4)) 8) b
  let (putters_, b) ← (getVec (getList (getFin 4)) 8) b
  let (readers_, b) ← (getVec (getList (getFin 4)) 8) b
  let (dqTop_, b) ← getNat b
  let (dqHeld_, b) ← (getList getDequeInfo) b
  let (stealOut_, b) ← getBool b
  let (stealWait_, b) ← getNat b
  let (done_, b) ← (getVec getDoneCounter 8) b
  let (unseen_, b) ← (getList getUnseen) b
  let (tmaps_, b) ← (getVec (getBits 256) 16) b
  let (rq_, b) ← (getList getRqEntry) b
  let (inj_, b) ← (getVec (getList getMsg) 4) b
  let (copiesDue_, b) ← getNat b
  let (inputs_, b) ← (getVec (getList getMsg) 5) b
  let (accepted_, b) ← getNat b
  let (taskStarts_, b) ← getNat b
  let (mx_, b) ← getMx b
  let (sn_, b) ← getSn b
  let (cp_, b) ← getCp b
  let (bench_, b) ← (getOption getBench) b
  let (benchLead_, b) ← (getOption getCoreId) b
  let (benchEnds_, b) ← getBool b
  let (benchModes_, b) ← (getVec (getBits 2) 4) b
  let (cancelling_, b) ← (getList (getPair (getBits 32) getSeatId)) b
  let (launchModes_, b) ← (getVec (getBits 2) 4) b
  some ({
    seats := seats_, lastSeat := lastSeat_, modes := modes_, nwin := nwin_, msz := msz_, dqb := dqb_, dqen := dqen_
    ev := ev_, evsel := evsel_, win := win_, ptb := ptb_, cwlo := cwlo_, cwhi := cwhi_, pid := 0, memb := 0
    route := [], classes := classes_, runq := runq_, granules := granules_, chans := chans_, nchans := nchans_
    flying := Vector.replicate 4 [], sent := sent_, queues := queues_, getters := getters_, putters := putters_
    readers := readers_, dqTop := dqTop_, dqHeld := dqHeld_, stealOut := stealOut_, stealWait := stealWait_
    done := done_, unseen := unseen_, tmaps := tmaps_, acct := Vector.replicate 16 Acct.reset, sb := [], rq := rq_
    inj := inj_, copiesDue := copiesDue_, inputs := inputs_, accepted := accepted_, taskStarts := taskStarts_
    mx := mx_, sn := sn_, cp := cp_, bench := bench_, benchLead := benchLead_, benchEnds := benchEnds_
    benchModes := benchModes_, cancelling := cancelling_, launchModes := launchModes_, utlb := [], icache := []
    loopBuf := [] }, b)

/-- Pack a core image but for its banks, which have places of their own. -/
def putCoreImage (x : CoreImage) : List Byte :=
  putCore x.core ++ (putList putBytes) x.partials

/-- Read back what `putCoreImage` packs. -/
def getCoreImage : Get CoreImage := fun b => do
  let (core_, b) ← getCore b
  let (partials_, b) ← (getList getBytes) b
  some ({
    core := core_, banks := Vector.replicate 4 [], partials := partials_ }, b)

/-! ## The partition part -/

/-- Pack a contribution. -/
def putContrib (x : Contrib) : List Byte :=
  putNat x.pos ++ putBits x.op ++ (putOption (putList (putPair putBits putBits))) x.val ++ putBool x.seg ++
    (putOption (putPair putTag putBits)) x.tag ++ putBits x.time ++ putKey x.key ++ putBool x.auto

/-- Read back what `putContrib` packs. -/
def getContrib : Get Contrib := fun b => do
  let (pos_, b) ← getNat b
  let (op_, b) ← (getBits 16) b
  let (val_, b) ← (getOption (getList (getPair (getBits 64) (getBits 64)))) b
  let (seg_, b) ← getBool b
  let (tag_, b) ← (getOption (getPair getTag (getBits 32))) b
  let (time_, b) ← (getBits 64) b
  let (key_, b) ← getKey b
  let (auto_, b) ← getBool b
  some ({
    pos := pos_, op := op_, val := val_, seg := seg_, tag := tag_, time := time_, key := key_, auto := auto_ }, b)

/-- Pack an open instance. -/
def putInstance (x : Instance) : List Byte :=
  putNat x.id ++ putNat x.part ++ putNat x.code ++ putNat x.first ++ putNat x.count ++ putNat x.m ++
    (putList putContrib) x.got

/-- Read back what `putInstance` packs. -/
def getInstance : Get Instance := fun b => do
  let (id_, b) ← getNat b
  let (part_, b) ← getNat b
  let (code_, b) ← getNat b
  let (first_, b) ← getNat b
  let (count_, b) ← getNat b
  let (m_, b) ← getNat b
  let (got_, b) ← (getList getContrib) b
  some ({
    id := id_, part := part_, code := code_, first := first_, count := count_, m := m_, got := got_ }, b)

/-- Pack a partition. -/
def putPart (x : Part) : List Byte :=
  (putList putNat) x.dies ++ putNat x.row ++ putNat x.col ++ putNat x.rows ++ putNat x.cols ++ putBool x.whole ++
    (putList (putPair putBits putNat)) x.levels ++ putNat x.sramMb ++ (putList putNat) x.sram ++ putBool x.det ++
    putNat x.horizon ++ putNat x.top ++ (putOption putNat) x.ctx ++ putBits x.job ++ putNat x.index ++
    putNat x.domain ++ putBool x.stop ++ putBool x.quiet ++ (putList (putPair putNat putBits)) x.stopRefs ++
    (putList putMsg) x.arrivals ++ putNat x.consumed ++ putBits x.sliceRef ++ putBool x.idle ++
    (putOption putNat) x.next

/-- Read back what `putPart` packs. -/
def getPart : Get Part := fun b => do
  let (dies_, b) ← (getList getNat) b
  let (row_, b) ← getNat b
  let (col_, b) ← getNat b
  let (rows_, b) ← getNat b
  let (cols_, b) ← getNat b
  let (whole_, b) ← getBool b
  let (levels_, b) ← (getList (getPair (getBits 4) getNat)) b
  let (sramMb_, b) ← getNat b
  let (sram_, b) ← (getList getNat) b
  let (det_, b) ← getBool b
  let (horizon_, b) ← getNat b
  let (top_, b) ← getNat b
  let (ctx_, b) ← (getOption getNat) b
  let (job_, b) ← (getBits 16) b
  let (index_, b) ← getNat b
  let (domain_, b) ← getNat b
  let (stop_, b) ← getBool b
  let (quiet_, b) ← getBool b
  let (stopRefs_, b) ← (getList (getPair getNat (getBits 64))) b
  let (arrivals_, b) ← (getList getMsg) b
  let (consumed_, b) ← getNat b
  let (sliceRef_, b) ← (getBits 64) b
  let (idle_, b) ← getBool b
  let (next_, b) ← (getOption getNat) b
  some ({
    dies := dies_, row := row_, col := col_, rows := rows_, cols := cols_, whole := whole_, levels := levels_
    sramMb := sramMb_, sram := sram_, det := det_, horizon := horizon_, top := top_, ctx := ctx_, job := job_
    index := index_, domain := domain_, stop := stop_, quiet := quiet_, stopRefs := stopRefs_, arrivals := arrivals_
    consumed := consumed_, sliceRef := sliceRef_, idle := idle_, next := next_ }, b)

/-- Pack an image but for the bytes of its frames, of which it says which it holds. -/
def putImage (x : Image) : List Byte :=
  putNat x.rows ++ putNat x.cols ++ putNat x.ndies ++ (putList (putPair putBits putNat)) x.levels ++ putBool x.det ++
    putNat x.horizon ++ (putList (putPair (putPair putNat (putPair putNat putNat)) putCoreImage)) x.cores ++
    (putList putMsg) x.arrivals ++ (putList putInstance) x.instances ++
    (putList (putPair putFrameId putNat)) x.bad ++ putPart x.place

/-- Read back what `putImage` packs. -/
def getImage : Get Image := fun b => do
  let (rows_, b) ← getNat b
  let (cols_, b) ← getNat b
  let (ndies_, b) ← getNat b
  let (levels_, b) ← (getList (getPair (getBits 4) getNat)) b
  let (det_, b) ← getBool b
  let (horizon_, b) ← getNat b
  let (cores_, b) ← (getList (getPair (getPair getNat (getPair getNat getNat)) getCoreImage)) b
  let (arrivals_, b) ← (getList getMsg) b
  let (instances_, b) ← (getList getInstance) b
  let (bad_, b) ← (getList (getPair getFrameId getNat)) b
  let (place_, b) ← getPart b
  some ({
    rows := rows_, cols := cols_, ndies := ndies_, levels := levels_, det := det_, horizon := horizon_
    cores := cores_, arrivals := arrivals_, instances := instances_, frames := [], bad := bad_, place := place_ }, b)

end Sys2Proof.Machine
end

