-- ==== Sys2Proof/Machine/Registers.lean ====
section
/-!
DEFINITION. What the control registers of seats, cores and engines read as.
-/

namespace Sys2Proof.Machine

/-- The injection queue of a virtual network. -/
def vnIndex : VNet → Fin 4
  | .req => 0
  | .rsp => 1
  | .am => 2
  | .mc => 3

/-- The registers of a seat, 0x000 to 0x028 and 0x300 to 0x305 (R54, R159 to R161, R165, R278, R392, R396). -/
def Seat.readCr (t : Seat) (num : BitVec 12) : Option Word :=
  if num = 0x000 then some (t.frm.setWidth 64)
  else if num = 0x001 then some (t.fflags.setWidth 64)
  else if num = 0x002 then some (t.grp.setWidth 64)
  else if num = 0x003 then some ((t.prioCls ++ t.prioVal).setWidth 64)
  else if num = 0x004 then some (t.credit.setWidth 64)
  else if num = 0x005 then some (t.wdReload ++ t.wdCount)
  else if num = 0x008 then some ((BitVec.ofBool t.tr.imp ++ 0#6 ++ t.tr.ppriv ++ 0#2 ++ t.tr.cause).setWidth 64)
  else if num = 0x009 then some t.tr.epc
  else if num = 0x00A then some t.tr.tval
  else if num = 0x00B then some t.tr.tvec
  else if num = 0x00C then some (t.tr.trlost.setWidth 64)
  else if num = 0x028 then some t.sentry
  else if num = 0x300 then some (t.tag.span.setWidth 64)
  else if num = 0x301 then some (t.tag.wait.setWidth 64)
  else if num = 0x302 then some (t.tag.last.setWidth 64)
  else if num = 0x303 then some (t.tag.flags.setWidth 64)
  else if num = 0x304 then some (t.chlim.setWidth 64)
  else if num = 0x305 then some t.gap
  else none

/-- The mode that cr.seats shows for a seat: a written one, even while it is pending; while a bench lives, its lead's seats
1 to 3 and every seat of its other members as parked (R23, R314). -/
def Core.modeShown (k : Core) (i : Fin 4) : BitVec 2 :=
  if k.benchLead.isSome && (k.bench.isNone || decide (i ≠ 0)) then k.modes[i]
  else ((k.seats[i]).modePend).getD k.modes[i]

/-- cr.seats (R23). -/
def Core.seatsReg (k : Core) : Word :=
  let live (i : Fin 4) : BitVec 1 := BitVec.ofBool (k.seats[i]).work.isSome
  ((live 3 ++ live 2 ++ live 1 ++ live 0) ++
    (k.modeShown 3 ++ k.modeShown 2 ++ k.modeShown 1 ++ k.modeShown 0)).setWidth 64

/-- An entry of a vector of registers numbered from a base. -/
def Vector.reg {n w : Nat} (v : Vector (BitVec w) n) (i : Nat) : Word := ((v[i]?).getD 0).setWidth 64

/-- The registers of a core, 0x100 to 0x120 and 0x820 to 0x822 (R23, R29, R39, R44, R334, R338, R343, R373). -/
def Core.readCr (k : Core) (num : BitVec 12) : Option Word :=
  let n := num.toNat
  if num = 0x100 then some k.seatsReg
  else if num = 0x101 then some (k.nwin.setWidth 64)
  else if num = 0x102 then some (k.msz.setWidth 64)
  else if num = 0x103 then some ((k.dqb ++ 0#10 ++ BitVec.ofBool k.dqen).setWidth 64)
  else if 0x110 ≤ n ∧ n ≤ 0x113 then some (Vector.reg k.ev (n - 0x110))
  else if 0x118 ≤ n ∧ n ≤ 0x11B then some (Vector.reg k.evsel (n - 0x118))
  else if num = 0x120 then some k.win
  else if num = 0x820 then some k.ptb
  else if num = 0x821 then some k.cwlo
  else if num = 0x822 then some k.cwhi
  else none

/-- Status registers of an engine: FSTAT, FCODE, the bit at 3 and HELD (R275, R304, R435). -/
def EngineQ.statReg (q : EngineQ) (bit3 : Bool) : Word :=
  (q.fstat ++ q.fcode ++ 0#4 ++ BitVec.ofBool bit3 ++ 0#2 ++ BitVec.ofBool q.held).setWidth 64

/-- The registers of the engines, 0x200 to 0x21A (R263 to R265, R275, R284, R304, R435). -/
def Core.readEngine (k : Core) (num : BitVec 12) : Option Word :=
  if num = 0x200 then some (k.mx.afmt.setWidth 64)
  else if num = 0x201 then some (k.mx.bfmt.setWidth 64)
  else if num = 0x202 then some (k.mx.cfmt.setWidth 64)
  else if num = 0x203 then some ((k.mx.aconst ++ 0#6 ++ k.mx.amode).setWidth 64)
  else if num = 0x204 then some ((k.mx.bconst ++ 0#6 ++ k.mx.bmode).setWidth 64)
  else if num = 0x205 then some (k.mx.tsel.setWidth 64)
  else if num = 0x206 then some (k.mx.olist.setWidth 64)
  else if num = 0x207 then some (k.mx.olim.setWidth 64)
  else if num = 0x208 then some (k.mx.ocnt.setWidth 64)
  else if num = 0x209 then some (k.mx.q.statReg k.mx.ovf)
  else if num = 0x210 then some (k.sn.snop.setWidth 64)
  else if num = 0x211 then some (k.sn.q.statReg k.sn.mism)
  else if num = 0x218 then some (k.cp.q.statReg false)
  else if num = 0x219 then some k.cp.foff
  else if num = 0x21A then some k.cp.fva
  else none

end Sys2Proof.Machine
end

