-- ==== Sys2Proof/Machine/Image.lean ====
section
/-!
DEFINITION. The bytes of a Vylvoxel image (R406 to R412): the parts with their headers and seals, the core image as R408 and
R409 lay it out, and the area that holds the parts. The spec leaves the layout of the area to the firmware and gives no place
to what it lists beyond its tables: this file chooses one (DESIGN CHOICE, log entry 5).
-/

namespace Sys2Proof.Machine

/-! ## Sealing (R406) -/

/-- The product of two polynomials modulo that of CRC-32C, in the order of bits of its register. -/
def crcMul (a b : BitVec 32) : BitVec 32 :=
  let bit (x : BitVec 32 × BitVec 32) (i : Nat) : BitVec 32 × BitVec 32 :=
    (if a.getLsbD (31 - i) then x.1 ^^^ x.2 else x.1, crcBit x.2)
  ((List.range 32).foldl bit (0, b)).1

/-- A CRC register after n runs of zero bytes; p is the power of x that one run multiplies it by. -/
def crcSkip : Nat → Nat → BitVec 32 → BitVec 32 → BitVec 32
  | 0, _, _, x => x
  | fuel + 1, n, p, x =>
    if n = 0 then x else crcSkip fuel (n / 2) (crcMul p p) (if n % 2 = 1 then crcMul x p else x)

/-- A CRC register after n zero bytes: each multiplies it by x to the eighth. -/
def crcZeros (n : Nat) (x : BitVec 32) : BitVec 32 := crcSkip 64 n 0x00800000 x

/-- A CRC register after the bytes of a part from an offset to its end, of which the listed ones are not zero. -/
def crcCells (len : Nat) : Memory → Nat → BitVec 32 → BitVec 32
  | [], pos, x => crcZeros (len - pos) x
  | (a, b) :: r, pos, x => crcCells len r (a + 1) (crcOver (crcZeros (a - pos) x) [b])

/-- CRC-32C over the bytes of a part. -/
def partCrc (len : Nat) (m : Memory) : BitVec 32 := ~~~(crcCells len m 0 0xFFFFFFFF)

/-- Seal a part whose CRC stands at a place: it is taken with that field as zero. -/
def sealPart (at_ len : Nat) (m : Memory) : Memory :=
  let m := m.clear at_ 4
  m.writeAll (cellsFrom at_ (natLe 4 (partCrc len m).toNat))

/-- Whether the seal of a part holds. -/
def sealHolds (at_ len : Nat) (m : Memory) : Bool :=
  decide (leNat (m.bytes at_ 4) = (partCrc len (m.clear at_ 4)).toNat)

/-- The bytes of some fields of a part, each at its place, in rising order. -/
def laidOut (l : List (Nat × List Byte)) : Memory := l.flatMap fun x => (cellsFrom x.1 x.2).filter fun b => b.2 ≠ 0

/-- The numbers of a list, in n bytes each. -/
def packEach (n : Nat) (l : List Nat) : List Byte := l.flatMap (natLe n)

/-- The bits of a place of a part. -/
def Memory.bits (m : Memory) (w a n : Nat) : BitVec w := BitVec.ofNat w (leNat (m.bytes a n))

/-- The listed bytes of a range, by their offsets in it. -/
def Memory.extract (m : Memory) (a n : Nat) : Memory :=
  (m.filter fun e => decide (a ≤ e.1) && decide (e.1 < a + n)).map fun e => (e.1 - a, e.2)

/-- Put the bytes of a range back at its place. -/
def Memory.restore (m : Memory) (a n : Nat) (bs : List (Nat × Byte)) : Memory :=
  (m.clear a n).writeAll (bs.map fun e => (a + e.1, e.2))

/-- The bytes from an offset on of which some are listed. -/
def denseBytes : Memory → Nat → Nat → List Byte
  | [], pos, len => List.replicate (len - pos) 0
  | (a, b) :: r, pos, len => List.replicate (a - pos) 0 ++ b :: denseBytes r (a + 1) len

/-! ## The seats section (R408) -/

/-- The control registers of a seat's record, from +0x988 on, 8 bytes each. -/
def recordRegs : List (BitVec 12) := [0x000, 0x001, 0x002, 0x003, 0x004, 0x005, 0x008, 0x009, 0x00A, 0x00B, 0x028, 0x00C]

/-- The pending states of a seat's record: the causes, and the count of replies. -/
def Seat.pendingByte (t : Seat) : Nat :=
  t.pend.ecc.isSome.toNat + 2 * t.pend.engine.isSome.toNat + 4 * t.pend.outlier.isSome.toNat + 8 * t.pend.watchdog.toNat +
    16 * t.pend.chain.toNat

/-- Whether a seat is blocked. -/
def Seat.blocked (t : Seat) : Bool :=
  match t.hold with
  | some h => h.blocked || h.asleep
  | none => false

/-- A seat's record of 0xA00 bytes at a place: the number of the seat stands above its privilege. -/
def Seat.record (t : Seat) (i : Fin 4) (o : Nat) : List (Nat × List Byte) :=
  [(o, packEach 8 ((t.g.toList.drop 1).map BitVec.toNat)), (o + 0x100, packEach 64 (t.v.toList.map BitVec.toNat)),
    (o + 0x900, packEach 8 ((t.p.toList.drop 1).map BitVec.toNat)), (o + 0x938, packEach 8 (t.loops.toList.map BitVec.toNat)),
    (o + 0x968, natLe 16 t.tag.bits.toNat), (o + 0x978, natLe 8 (t.armed.toNat * 2 ^ 63 + t.chlim.toNat)),
    (o + 0x980, natLe 8 t.gap.toNat), (o + 0x988, packEach 8 (recordRegs.map fun n => ((t.readCr n).getD 0).toNat)),
    (o + 0x9E8, packEach 1 [t.priv.toNat + 64 * i.val, t.inTrap.toNat, t.blocked.toNat, t.pendingByte, t.pend.replies.length, 0, 0]),
    (o + 0x9EF, natLe 8 t.pc.toNat), (o + 0x9F7, packEach 1 (t.seqs.toList.map BitVec.toNat))]

/-- A seat with what its record holds. -/
def Seat.fromRecord (t : Seat) (m : Memory) (o : Nat) : Seat :=
  let cr (j w : Nat) : BitVec w := m.bits w (o + 0x988 + 8 * j) 8
  let wd : BitVec 64 := cr 5 64
  let cause : BitVec 64 := cr 6 64
  { t with
    g := Vector.ofFn fun i => if i.val = 0 then t.g[i] else m.bits 64 (o + 8 * (i.val - 1)) 8
    v := Vector.ofFn fun i => m.bits 8192 (o + 0x100 + 64 * i.val) 64
    p := Vector.ofFn fun i => if i.val = 0 then t.p[i] else m.bits 1024 (o + 0x900 + 8 * (i.val - 1)) 8
    loops := Vector.ofFn fun i => m.bits 64 (o + 0x938 + 8 * i.val) 8
    tag := Tag.ofBits (m.bits 128 (o + 0x968) 16), chlim := m.bits 48 (o + 0x978) 8
    armed := (m.bits 64 (o + 0x978) 8).getLsbD 63, gap := m.bits 64 (o + 0x980) 8
    frm := cr 0 3, fflags := cr 1 5, grp := cr 2 32, prioVal := cr 3 3, prioCls := (cr 3 9).extractLsb' 3 6, credit := cr 4 32
    wdCount := wd.extractLsb' 0 32, wdReload := wd.extractLsb' 32 32
    tr :=
      { imp := cause.getLsbD 16, ppriv := cause.extractLsb' 8 2, cause := cause.extractLsb' 0 6, epc := cr 7 64
        tval := cr 8 64, tvec := cr 9 64, trlost := cr 11 16 }
    sentry := cr 10 64, priv := m.bits 2 (o + 0x9E8) 1, inTrap := m.bits 1 (o + 0x9E9) 1 = 1, pc := m.bits 64 (o + 0x9EF) 8
    seqs := Vector.ofFn fun i => m.bits 8 (o + 0x9F7 + i.val) 1 }

/-- The seats that have a record: those with live work, in stream mode or in trap state. -/
def Core.recorded (k : Core) : List (Fin 4) :=
  (List.finRange 4).filter fun i => (k.seats[i]).work.isSome || decide (k.modes[i] = 0b01) || (k.seats[i]).inTrap

/-- The seats section: the records, or for a bench's member the lanes and predicate bits that it holds (R326, R409). -/
def Core.seatsSection (k : Core) (isMember : Bool) (o : Nat) : Nat × List (Nat × List Byte) :=
  if isMember then
    let t := k.seats[(0 : Fin 4)]
    (2104, [(o, packEach 64 (t.v.toList.map BitVec.toNat)), (o + 2048, packEach 8 ((t.p.toList.drop 1).map BitVec.toNat))])
  else
    let l := k.recorded
    (0xA00 * l.length, l.zipIdx.flatMap fun x => (k.seats[x.1]).record x.1 (o + 0xA00 * x.2))

/-- A core with what its seats section holds. -/
def Core.fromSeats (k : Core) (isMember : Bool) (m : Memory) (o len : Nat) : Core :=
  if isMember then
    k.modSeat 0 fun t =>
      { t with
        v := Vector.ofFn fun i => m.bits 8192 (o + 64 * i.val) 64
        p := Vector.ofFn fun i => if i.val = 0 then t.p[i] else m.bits 1024 (o + 2048 + 8 * (i.val - 1)) 8 }
  else
    (List.range (len / 0xA00)).foldl (fun (k : Core) j =>
      let at_ := o + 0xA00 * j
      k.modSeat ((m.bits 8 (at_ + 0x9E8) 1).extractLsb' 6 2).toFin fun t => t.fromRecord m at_) k

/-! ## The core section (R408) -/

/-- The control registers of the core section, 8 bytes each. -/
def coreRegs : List (BitVec 12) := [0x100, 0x101, 0x102, 0x103, 0x110, 0x111, 0x112, 0x113, 0x118, 0x119, 0x11A, 0x11B, 0x120,
  0x820, 0x821, 0x822]

/-- Tags of beats, at most the 16 of the part that binds granules: the granule and what its message carried. -/
def beatBytes (l : List Beat) : List Byte := l.flatMap fun b =>
  BitVec.ofNat 8 b.granule :: natLe 15 (b.first.elim 0 fun x => (x.1.bits.toNat / 256))

/-- The core section, its parts at their largest sizes. -/
def Core.coreSection (k : Core) (o : Nat) : List (Nat × List Byte) :=
  let each {α : Type} (at_ size : Nat) (l : List α) (f : α → List Byte) : List (Nat × List Byte) :=
    l.zipIdx.map fun x => (at_ + size * x.2, (f x.1).take size)
  [(o, packEach 8 (coreRegs.map fun n => ((k.readCr n).getD 0).toNat))] ++
    each (o + 256) 128 k.queues.toList (fun q => packEach 8 (q.map BitVec.toNat)) ++
    each (o + 1280) 128 k.chans.toList beatBytes ++
    each (o + 1792) 512 k.nchans.toList (fun l => packEach 64 (l.map fun x => x.1.toNat)) ++
    each (o + 3840) 16 k.classes.toList (fun c => natLe 16 c.toNat) ++
    each (o + 4864) 16 (k.runq.take 64) (fun e => natLe 16 e.msg.tag.bits.toNat) ++
    each (o + 5888) 4 (k.dqHeld.take 64) (fun d => natLe 4 d.grp.toNat) ++
    each (o + 6144) 264 k.done.toList (fun d => natLe 4 d.c.toNat ++ natLe 4 d.i.toNat ++
      packEach 16 (d.hist.map fun x => x.1.bits.toNat)) ++
    each (o + 8256) 32 k.tmaps.toList (fun t => natLe 32 t.toNat)

/-- A core with what its core section holds of its registers, queue registers, vectors, class table, counts and maps. -/
def Core.fromCore (k : Core) (m : Memory) (o : Nat) : Core :=
  let cr (j w : Nat) : BitVec w := m.bits w (o + 8 * j) 8
  let fill {α : Type} (f : Nat → α → α) (l : List α) : List α := l.zipIdx.map fun x => f x.2 x.1
  { k with
    nwin := cr 1 16, msz := cr 2 4, dqb := (cr 3 16).extractLsb' 11 4, dqen := (cr 3 16).getLsbD 0
    ev := Vector.ofFn fun i => cr (4 + i.val) 64
    evsel := Vector.ofFn fun i => cr (8 + i.val) 12
    win := cr 12 64, ptb := cr 13 64, cwlo := cr 14 64, cwhi := cr 15 64
    queues := Vector.ofFn fun i => fill (fun j _ => m.bits 64 (o + 256 + 128 * i.val + 8 * j) 8) k.queues[i]
    nchans := Vector.ofFn fun i => fill (fun j x => (m.bits 512 (o + 1792 + 512 * i.val + 64 * j) 64, x.2)) k.nchans[i]
    classes := Vector.ofFn fun i => m.bits 128 (o + 3840 + 16 * i.val) 16
    done := Vector.ofFn fun i =>
      { k.done[i] with c := m.bits 32 (o + 6144 + 264 * i.val) 4, i := m.bits 32 (o + 6148 + 264 * i.val) 4 }
    tmaps := Vector.ofFn fun i => m.bits 256 (o + 8256 + 32 * i.val) 32 }

/-! ## The engines' sections (R408) -/

/-- A queued command with its tag: 64 bytes of command, and 24. -/
def cmdBytes (x : Cmd) : List Byte := natLe 64 x.img.toNat ++ natLe 16 x.tag.bits.toNat ++ natLe 8 x.seat.val

/-- The MX section, its parts at their largest sizes. -/
def CoreImage.mxSection (i : CoreImage) (o : Nat) : List (Nat × List Byte) :=
  let x := i.core.mx
  let state := match x.credit with
    | .free => 0
    | .credit => 1
    | .full => 2
  let latch (l : Latch) (c : Nat) : List Byte := natLe 512 l.data.toNat ++ natLe 1 l.fmt.toNat ++ natLe 16 l.scale.toNat ++ natLe 1 c
  [(o, latch x.cur 0), (o + 544, latch x.next state), (o + 1088, natLe 512 x.table.toNat),
    (o + 1600, packEach 8 ((List.range 10).map fun n => ((i.core.readEngine (BitVec.ofNat 12 (0x200 + n))).getD 0).toNat))] ++
    (x.q.queue.take 2).zipIdx.map (fun c => (o + 1680 + 88 * c.2, cmdBytes c.1)) ++
    (x.q.queue.take 2).zipIdx.map (fun c => (o + 1856 + 512 * c.2, natLe 512 c.1.regs.toNat)) ++
    (match x.q.run, i.partials with
      | r :: _, p :: _ => [(o + 2880, natLe 8 r.step), (o + 2912, p)]
      | _, _ => []) ++
    [(o + 4192, packEach 8 (x.q.fifo.map fun e => e.1.toNat))]

/-- A core image with what its MX section holds of the latches, the table, the registers, the partial values of the stopped
command and the output FIFO. -/
def CoreImage.fromMx (i : CoreImage) (m : Memory) (o : Nat) : CoreImage :=
  let cr (j w : Nat) : BitVec w := m.bits w (o + 1600 + 8 * j) 8
  let x := i.core.mx
  let latch (a : Nat) : Latch := ⟨m.bits 4096 a 512, m.bits 8 (a + 512) 1, m.bits 128 (a + 513) 16⟩
  let state : Credit := match (m.bits 8 (o + 544 + 529) 1).toNat with
    | 1 => .credit
    | 2 => .full
    | _ => .free
  let partials := match i.partials with
    | p :: r => m.bytes (o + 2912) p.length :: r
    | [] => []
  { i with partials := partials, core := { i.core with mx :=
      { x with
        cur := latch o, next := latch (o + 544), credit := state, table := m.bits 4096 (o + 1088) 512
        afmt := cr 0 8, bfmt := cr 1 8, cfmt := cr 2 8, aconst := (cr 3 16).extractLsb' 8 8, amode := cr 3 2
        bconst := (cr 4 16).extractLsb' 8 8, bmode := cr 4 2, tsel := cr 5 1, olist := cr 6 32, olim := cr 7 16, ocnt := cr 8 16
        q := { x.q with fifo := x.q.fifo.zipIdx.map fun e => (m.bits 64 (o + 4192 + 8 * e.2) 8, e.1.2) } } } }

/-- The lanes of a scan value. -/
def scanBytes (v : ScanVal) : List Byte := v.elim [] fun l => packEach 8 (l.flatMap fun x => [x.1.toNat, x.2.toNat])

/-- The section of the scan engine and the copy engine. -/
def Core.snCpSection (k : Core) (o : Nat) : List (Nat × List Byte) :=
  let queue (a : Nat) (q : EngineQ) : List (Nat × List Byte) :=
    ((q.queue.take 2).zipIdx.map fun c => (a + 88 * c.2, cmdBytes c.1)) ++ [(a + 176, packEach 8 (q.fifo.map fun e => e.1.toNat))]
  queue o k.sn.q ++
    [(o + 240, packEach 8 ([0x210, 0x211].map fun n => ((k.readEngine n).getD 0).toNat)), (o + 256, (scanBytes k.sn.agg).take 256),
      (o + 512, (scanBytes k.sn.carry).take 256), (o + 768, packEach 1 [k.sn.aggSeg.toNat, k.sn.carrySeg.toNat])] ++
    queue (o + 784) k.cp.q ++
    [(o + 1024, packEach 8 ([0x218, 0x219, 0x21A].map fun n => ((k.readEngine n).getD 0).toNat))] ++
    match k.cp.q.run with
    | r :: _ => [(o + 1048, cmdBytes r.cmd ++ natLe 8 r.step)]
    | [] => []

/-! ## The records and the sendg (R408) -/

/-- The record queue, 96 bytes an entry. -/
def Core.recordsSection (k : Core) (o : Nat) : List (Nat × List Byte) :=
  let bytes (e : RqEntry) : List Byte :=
    let data := e.st.bytes.map fun b => b.getD 0
    let mask := (e.st.bytes.map Option.isSome).zipIdx.foldl (fun n b => if b.1 then n + 2 ^ b.2 else n) 0
    natLe 8 e.st.va.toNat ++ data.take 64 ++ List.replicate (64 - data.length) 0 ++ natLe 8 mask ++ natLe 1 e.st.bytes.length ++
      natLe 4 e.st.grp.toNat ++ natLe 2 e.st.seq.toNat ++
      packEach 1 [e.st.seat.val, (decide (e.st.priv ≠ 0)).toNat, e.reason.toNat, e.popped, e.st.vec.toNat]
  k.rq.zipIdx.map fun e => (o + 96 * e.2, bytes e.1)

/-- The sendg that a stop left with copies to emit: its header, rectangle, payload and the index of its next copy. -/
def Core.sendgSection (k : Core) (o : Nat) : Nat × List (Nat × List Byte) :=
  match k.inj[vnIndex .am] with
  | [] => (0, [])
  | m :: _ =>
    let at_ (c : CoreId) : Nat × Nat × Nat := match c with
      | .grid d r x => (d, r, x)
      | .skoum n => (0, 0, n)
    let (v, r, c) := at_ m.dst
    let dest := (m.cls ++ coordWord v r c).toNat + 2 ^ 24 * (m.part.toNat + 64 * m.data.length)
    let acct := m.work ++ BitVec.ofNat 24 m.age ++ m.seq ++ m.src
    let (rows, cols) := match m.rect with
      | some (x, y) => ((at_ y).2.1 + 1 - (at_ x).2.1, (at_ y).2.2 + 1 - (at_ x).2.2)
      | none => (1, 1)
    (320, [(o, natLe 8 dest ++ natLe 16 m.tag.bits.toNat ++ natLe 8 acct.toNat),
      (o + 32, natLe 8 ((rows - 1) * 2 ^ 56 + (cols - 1) * 2 ^ 48)), (o + 40, m.data.take 256),
      (o + 296, natLe 8 (rows * cols - 1 - m.rest.length))])

/-! ## The core image (R408, R409) -/

/-- What a core is in its image: 0 a core, 1 a bench's lead with the shape, 2 a member with its index. -/
def Image.kindOf (i : Image) (k : Core) (x : Nat × Nat × Nat) : Nat × Nat :=
  match k.bench, k.benchLead with
  | some b, _ => (1, b.shape.toNat)
  | none, some (.grid d r c) =>
    let shape := ((i.cores.find? fun e => e.1 = (d, r, c)).bind fun e => e.2.core.bench).elim 0 fun b => b.shape
    let wide := if shape = 0 then 2 else if shape = 1 then 2 else 4
    (2, (x.2.1 - r) * wide + (x.2.2 - c))
  | none, _ => (0, 0)

/-- The frames of a unit that an image holds, as bits. -/
def Image.heldBits (i : Image) (n : Nat) (f : Nat → FrameId) : Nat :=
  (List.range n).foldl (fun b j => if Tab.has i.frames (f j) then b + 2 ^ j else b) 0

/-- The bytes of the frames of a unit that an image holds, each at its place. -/
def Image.heldCells (i : Image) (n : Nat) (f : Nat → FrameId) (at_ size : Nat) : Memory :=
  (List.range n).flatMap fun j => (Tab.get i.frames (f j) []).map fun b => (at_ + size * j + b.1, b.2)

/-- The core image of a core: its length and its sealed bytes. -/
def Image.corePart (i : Image) (e : (Nat × Nat × Nat) × CoreImage) : Nat × Memory :=
  let k := e.2.core
  let (kind, sub) := i.kindOf k e.1
  let tcm (f : Nat) : FrameId := .tcm (.grid e.1.1 e.1.2.1 e.1.2.2) f
  let o1 := 0x9500
  let (n1, seats) := k.seatsSection (decide (kind = 2)) o1
  let o2 := o1 + n1
  let o3 := o2 + 8768
  let o4 := o3 + 4256
  let o5 := o4 + 1536
  let o6 := o5 + 96 * k.rq.length
  let (n6, sendg) := k.sendgSection o6
  let header : List Byte :=
    natLe 4 0x56594C43 ++ natLe 2 1 ++ packEach 1 [kind, sub] ++ natLe 4 (e.1.1 * 2 ^ 20 + e.1.2.1 * 2 ^ 12 + e.1.2.2 * 2 ^ 4) ++
      natLe 4 (i.heldBits 8 tcm) ++ packEach 8 [n1, 8768, 4256, 1536, 96 * k.rq.length, n6]
  let banks := e.2.banks.toList.zipIdx.map fun b => (0x8100 + 0x500 * b.2, b.1)
  let cells := laidOut [(0, header)] ++ i.heldCells 8 tcm 0x100 4096 ++ laidOut (banks ++ seats ++ k.coreSection o2 ++
    e.2.mxSection o3 ++ k.snCpSection o4 ++ k.recordsSection o5 ++ sendg)
  (o6 + n6, sealPart 64 (o6 + n6) cells)

/-- The length of the core image at the head of some bytes: its fixed part and its packed sections. -/
def coreLength (m : Memory) (a : Nat) : Nat := 0x9500 + ((List.range 6).map fun j => leNat (m.bytes (a + 16 + 8 * j) 8)).sum

/-- A core image with what the places of R408 hold, if its magic, version and seal are right: and the TCM frames in it. -/
def CoreImage.fromPart (i : CoreImage) (x : Nat × Nat × Nat) (len : Nat) (m : Memory) :
    Option (CoreImage × List (FrameId × List (Nat × Byte))) :=
  if leNat (m.bytes 0 4) ≠ 0x56594C43 ∨ leNat (m.bytes 4 2) ≠ 1 ∨ 0x10000 < len ∨ !sealHolds 64 len m then none
  else
    let n1 := leNat (m.bytes 16 8)
    let o2 := 0x9500 + n1
    let banks : Vector (List Byte) 4 := Vector.ofFn fun b =>
      m.bytes (0x8100 + 0x500 * b.val) 0x500
    let core := (i.core.fromSeats (decide (leNat (m.bytes 6 1) = 2)) m 0x9500 n1).fromCore m o2
    let held := (List.range 8).filter fun f => (m.bits 8 12 1).getLsbD f
    some (({ i with core := core, banks := banks } : CoreImage).fromMx m (o2 + 8768),
      held.map fun f => (.tcm (.grid x.1 x.2.1 x.2.2) f, m.extract (0x100 + 4096 * f) 4096))

/-! ## The cluster and partition parts (R406, R407) -/

/-- The length of a cluster part: a header of 4 KiB and the frames of its scratchpad. -/
def clusterLength : Nat := 0x41000

/-- The cluster part of a cluster: its seal, the frames held, and their bytes. -/
def Image.clusterPart (i : Image) (k : ClusterId) : Memory :=
  sealPart 0 clusterLength (laidOut [(4, natLe 2 (i.heldBits 16 (.scratch k)))] ++ i.heldCells 16 (.scratch k) 0x1000 0x4000)

/-- The clusters of an image, in row-major order die by die. -/
def Image.clusters (i : Image) : List ClusterId :=
  (List.range i.ndies).flatMap fun d => (List.range (i.rows / 4)).flatMap fun r => (List.range (i.cols / 4)).map fun c => ⟨d, r, c⟩

/-- Where the frames of shared SRAM stand in a partition part, and where its packed remainder does. -/
def sramAt (d f mb : Nat) : Nat := 0x200 + (d * mb + f) * 2 ^ 20

/-- The partition part: its length and its sealed bytes. The header holds the magic, the version, the mode, the shape,
the length and the seal, the levels, and a bit for each SRAM frame held; the packed remainder names the context and its
device. -/
def Image.partPart (i : Image) (ctx vd : Nat) : Nat × Memory :=
  let mb := i.place.sramMb
  let sram (d : Nat) : Memory := i.heldCells mb (.sram d) (sramAt d 0 mb) (2 ^ 20)
  let o := sramAt i.ndies 0 mb
  let rest := putNat ctx ++ putNat vd ++ putImage i
  let len := o + rest.length
  let header : List Byte :=
    natLe 4 0x56594C58 ++ natLe 2 1 ++ packEach 1 [i.det.toNat, i.ndies] ++ natLe 2 i.rows ++ natLe 2 i.cols ++ natLe 2 mb ++
      packEach 1 [i.place.whole.toNat, i.levels.length] ++ natLe 8 len
  let levels := packEach 8 (i.levels.map fun l => l.1.toNat + 16 * l.2)
  let held := (List.range i.ndies).map fun d => (0x100 + 32 * d, natLe 32 (i.heldBits mb (.sram d)))
  (len, sealPart 24 len (laidOut ([(0, header), (32, levels.take 224)] ++ held) ++
    (List.range i.ndies).flatMap sram ++ laidOut [(o, rest)]))

/-! ## The area (R410) -/

/-- The next multiple of 64 KiB. -/
def align64K (n : Nat) : Nat := (n + 0xFFFF) / 0x10000 * 0x10000

/-- The parts of an image with their places in the area, their lengths and their bytes: the partition part, the core images
at 64 KiB each, then the cluster parts. -/
def Image.parts (i : Image) (ctx vd : Nat) : List (Nat × Nat × Memory) :=
  let (len, p) := i.partPart ctx vd
  let o := align64K len
  (0, len, p) :: (i.cores.zipIdx.map fun e => (o + 0x10000 * e.2, i.corePart e.1)) ++
    i.clusters.zipIdx.map fun k => (o + 0x10000 * i.cores.length + clusterLength * k.2, clusterLength, i.clusterPart k.1)

/-- Whether an image area has memory. -/
def areaExists (base : Nat) : Bool := decide (base < 2 ^ 41) && decide (base % 2 ^ 39 < 0x6000000000)

/-- Write a part at its place, its last byte first; its granules hold no error then. -/
def State.writePart (s : State) (a len : Nat) (m : Memory) : State :=
  let out (g : Nat) : Bool := decide (g + 32 ≤ a) || decide (a + len ≤ g)
  { s with
    mem := (s.mem.clear a len).writeAll ((m.map fun e => (a + e.1, e.2)).reverse), bad := s.bad.filter out,
    weak := s.weak.filter out }

/-- Write the image of a context into the area at its base, its last part first. -/
def State.writeImage (s : State) (ctx : Nat) : State :=
  let x := s.ctxs.get ctx Ctx.reset
  match x.image with
  | some i =>
    if areaExists x.base then
      (i.parts ctx x.vd).reverse.foldl (fun (s : State) p => s.writePart (x.base + p.1) p.2.1 p.2.2) s
    else s
  | none => s

/-- Read the cores of an image back: none if a core image fails its magic, version or CRC. -/
def readCores (m : Memory) (a : Nat) : List ((Nat × Nat × Nat) × CoreImage) →
    Option (List ((Nat × Nat × Nat) × CoreImage) × List (FrameId × List (Nat × Byte)))
  | [] => some ([], [])
  | e :: r => do
    let len := coreLength m a
    let (i, f) ← e.2.fromPart e.1 len (m.extract a len)
    let (l, g) ← readCores m (a + 0x10000) r
    some ((e.1, i) :: l, f ++ g)

/-- Read the frames of the cluster parts back: none if one fails its CRC. -/
def readClusters (m : Memory) (a : Nat) : List ClusterId → Option (List (FrameId × List (Nat × Byte)))
  | [] => some []
  | k :: r => do
    let part := m.extract a clusterLength
    if !sealHolds 0 clusterLength part then none
    else
      let held := (List.range 16).filter fun f => (part.bits 16 4 2).getLsbD f
      let l ← readClusters m (a + clusterLength) r
      some ((held.map fun f => (.scratch k f, part.extract (0x1000 + 0x4000 * f) 0x4000)) ++ l)

/-- The image in the area at a base, with its context and the device of that: none if there is no memory, or if a part fails
its magic, version or CRC (R410). -/
def State.readImage (s : State) (base : Nat) : Option (Nat × Nat × Image) :=
  let len := leNat (s.mem.bytes (base + 16) 8)
  let part := s.mem.extract base len
  if !areaExists base ∨ leNat (part.bytes 0 4) ≠ 0x56594C58 ∨ leNat (part.bytes 4 2) ≠ 1 ∨ !sealHolds 24 len part then none
  else do
    let ndies := leNat (part.bytes 7 1)
    let mb := leNat (part.bytes 12 2)
    let o := sramAt ndies 0 mb
    let (ctx, b) ← getNat ((denseBytes part 0 len).drop o)
    let (vd, b) ← getNat b
    let (i, _) ← getImage b
    let a := base + align64K len
    let (cores, tcm) ← readCores s.mem a i.cores
    let scratch ← readClusters s.mem (a + 0x10000 * i.cores.length) i.clusters
    let sram := (List.range ndies).flatMap fun d =>
      ((List.range mb).filter fun f => (part.bits 256 (0x100 + 32 * d) 32).getLsbD f).map fun f =>
        ((.sram d f : FrameId), part.extract (sramAt d f mb) (2 ^ 20))
    some (ctx, vd, { i with
      cores := cores, frames := tcm ++ scratch ++ sram, det := part.bits 1 6 1 = 1, ndies := ndies
      rows := leNat (part.bytes 8 2), cols := leNat (part.bytes 10 2)
      place := { i.place with rows := leNat (part.bytes 8 2), cols := leNat (part.bytes 10 2), sramMb := mb } })

/-- Where a frame stands in the area of an image: the place of its part, that part's length and seal, the place and bit
of the mark that it is held, and the frame's place and size. -/
def State.framePlace (s : State) (base : Nat) (i : Image) : FrameId → Option (Nat × Nat × Nat × Nat × Nat × Nat × Nat)
  | f =>
    let len := leNat (s.mem.bytes (base + 16) 8)
    let o := base + align64K len
    let per := i.rows * i.cols
    match f with
    | .tcm (.grid d r c) n =>
      let a := o + 0x10000 * (d * per + r * i.cols + c)
      some (a, coreLength s.mem a, 64, 12, n, 0x100 + 4096 * n, 4096)
    | .tcm (.skoum _) _ => none
    | .scratch k n =>
      let a := o + 0x10000 * (i.ndies * per) + clusterLength * (k.die * (per / 16) + k.row * (i.cols / 4) + k.col)
      some (a, clusterLength, 0, 4 + n / 8, n % 8, 0x1000 + 0x4000 * n, 0x4000)
    | .sram d n => some (base, len, 24, 0x100 + 32 * d + n / 8, n % 8, sramAt d n i.place.sramMb, 2 ^ 20)

/-- Write a frame into the image of a context, or clear its bit there, and seal the part anew (R411, R413). -/
def State.markFrame (s : State) (ctx : Nat) (f : FrameId) (bytes : Option (List (Nat × Byte))) : State :=
  let x := s.ctxs.get ctx Ctx.reset
  match x.image with
  | none => s
  | some i =>
    if !areaExists x.base then s
    else
      match s.framePlace x.base i f with
      | none => s
      | some (a, len, crc, mark, bit, at_, size) =>
        let part := s.mem.extract a len
        let b := part.read mark
        let part := match bytes with
          | some bs => (part.restore at_ size bs).write mark (b ||| (1#8 <<< bit))
          | none => part.write mark (b &&& ~~~(1#8 <<< bit))
        s.writePart a len (sealPart crc len part)

end Sys2Proof.Machine
end

