-- ==== Sys2Proof/Machine/Space.lean ====
section
/-!
DEFINITION. The address map, load costs, translation, errors in memory and lazily saved frames (R57, R317,
R334 to R350, R413). A home address is a number: HBM at its physical address below 2^41, then the dies' shared
SRAM from 2^41, the clusters' scratchpads from 2^42 and the cores' TCMs from 2^43.
-/

namespace Sys2Proof.Machine

/-! ## Home addresses -/

/-- A byte of a core's TCM. -/
def tcmHome (c : CoreId) (o : Nat) : Nat := 2 ^ 43 + coreIndex c * 2 ^ 15 + o

/-- A byte of a cluster's scratchpad. -/
def scratchHome (k : ClusterId) (o : Nat) : Nat := 2 ^ 42 + ((k.die * 40 + k.row) * 40 + k.col) * 2 ^ 18 + o

/-- A byte of a die's shared SRAM. -/
def sramHome (d o : Nat) : Nat := 2 ^ 41 + d * 2 ^ 28 + o

/-- The die a home address lies on (R354). -/
def dieOfHome (h : Nat) : Nat :=
  if 2 ^ 43 ≤ h then Nat.min ((h - 2 ^ 43) / 2 ^ 15 / 25600) 4 % 4
  else if 2 ^ 42 ≤ h then (h - 2 ^ 42) / 2 ^ 18 / 1600
  else if 2 ^ 41 ≤ h then (h - 2 ^ 41) / 2 ^ 28
  else h / 2 ^ 39

/-- The identity of a home (R354): a TCM, a scratchpad, a die's SRAM or an HBM stack. -/
def homeId (h : Nat) : Nat :=
  if 2 ^ 43 ≤ h then h / 2 ^ 15
  else if 2 ^ 42 ≤ h then h / 2 ^ 18
  else if 2 ^ 41 ≤ h then h / 2 ^ 28
  else (h / 2 ^ 39) * 4 + Config.hbmStack (h % 2 ^ 39 / 256) % 4

/-- An HBM address exists below 384 GiB of its die (R340). -/
def hbmExists (pa : Nat) : Bool := decide (pa % 2 ^ 39 < 0x6000000000)

/-! ## Errors in memory (R350) -/

/-- The granule of a home address: 32 bytes in HBM, 8 elsewhere. -/
def granuleOf (h : Nat) : Nat := if h < 2 ^ 41 then h / 32 * 32 else h / 8 * 8

/-- Whether any of n bytes from h on lies in a bad granule. -/
def State.badIn (s : State) (h n : Nat) : Bool :=
  s.bad.any fun g => decide (g < h + n) && decide (h < g + (if g < 2 ^ 41 then 32 else 8))

/-- A read corrects the correctable granules it meets, which are counted (R350). -/
def State.correctBy (s : State) (h n : Nat) (count : State → Nat → State) : State :=
  if s.weak.isEmpty then s
  else
    let hit (g : Nat) : Bool := decide (g < h + n) && decide (h < g + (if g < 2 ^ 41 then 32 else 8))
    let k := (s.weak.filter hit).length
    if k = 0 then s else count { s with weak := s.weak.filter fun g => !hit g } k

/-- A read of a core corrects what it meets. -/
def State.correct (s : State) (c : CoreId) (h n : Nat) : State := s.correctBy h n fun s k => s.count c none 0x25 k

/-- A read that comes from no core of the grid is counted by the die that it reaches. -/
def State.correctDie (s : State) (h n : Nat) : State := s.correctBy h n fun s k => s.countDie (dieOfHome h) 0x25 k

/-- The same for the bytes at some home addresses. -/
def State.correctAt (s : State) (c : CoreId) (hs : List Nat) : State :=
  if s.weak.isEmpty then s else hs.foldl (fun (s : State) h => s.correct c h 1) s

/-- Write cells at their homes: cells that cover a bad granule make it good, and a write that would cover only
part of one is discarded (R350). Answers whether it was written. -/
def State.writeCells (s : State) (bs : List (Nat × Byte)) : Bool × State :=
  let whole (g : Nat) : Bool :=
    (List.range (if g < 2 ^ 41 then 32 else 8)).all fun i => bs.any fun b => decide (b.1 = g + i)
  let weak := if s.weak.isEmpty then s.weak else s.weak.filter fun g => !whole g
  if s.bad.isEmpty then (true, { s with mem := s.mem.writeAll bs, weak := weak })
  else
    let met := s.bad.filter fun g => bs.any fun b => decide (granuleOf b.1 = g)
    if met.all whole then (true, { s with mem := s.mem.writeAll bs, weak := weak, bad := s.bad.filter fun g => !met.contains g })
    else (false, s)

/-! ## Benches and the local window (R307, R317) -/

/-- Columns of a bench shape (R307). -/
def shapeCols (c : BitVec 2) : Nat := if c.toNat ≤ 1 then 2 else 4

/-- Rows of a bench shape. -/
def shapeRows (c : BitVec 2) : Nat := if c = 0 then 1 else if c = 3 then 4 else 2

/-- Member j of a bench, in row-major order from its lead (R308). -/
def member (lead : CoreId) (shape : BitVec 2) (j : Nat) : CoreId :=
  match lead with
  | .grid d r c => .grid d (r + j / shapeCols shape) (c + j % shapeCols shape)
  | .skoum n => .skoum n

/-- The home of byte o of a seat's TCM window: on a bench, line L lies in member L mod K at line L / K (R317). -/
def windowHome (c : CoreId) (b : Option Bench) (o : Nat) : Nat :=
  match b with
  | none => tcmHome c o
  | some x => tcmHome (member c x.shape (o / 64 % shapeK x.shape)) (o / 64 / shapeK x.shape * 64 + o % 64)

/-- What an address reaches before translation (R334 to R337). -/
inductive Spot where
  | mem (home : Nat)
  | engine (e : Engine) (off : Nat)
  | classes (off : Nat)
  | tmaps (off : Nat)
  | paged
  | nowhere
deriving DecidableEq, Repr

/-- Where the offset of a fabric or local address leads within a core: TCM, scratchpad or message area. -/
def State.coreOffset (s : State) (c : CoreId) (o : Nat) : Option Nat :=
  let area := 0x400 * (s.core c).msz.toNat
  if o < 0x8000 then some (tcmHome c o)
  else if 0x10000 ≤ o ∧ o < 0x50000 then some (scratchHome (clusterOf c) (o - 0x10000))
  else if 0xF4000 ≤ o ∧ o < 0xF4000 + area then some (tcmHome c (0x8000 - area + (o - 0xF4000)))
  else none

/-- The local window (R335). -/
def State.localSpot (s : State) (c : CoreId) (b : Option Bench) (a : Nat) : Spot :=
  if a < 0x8000 then .mem (windowHome c b a)
  else if 0x50000 ≤ a ∧ a < 0xF0000 then
    match b with
    | some x => if a < 0x50000 + shapeK x.shape * 0x8000 then .mem (windowHome c b (a - 0x50000)) else .nowhere
    | none => .nowhere
  else if 0xF0000 ≤ a ∧ a < 0xF1000 then .engine .mx (a - 0xF0000)
  else if 0xF1000 ≤ a ∧ a < 0xF2000 then .engine .cp (a - 0xF1000)
  else if 0xF2000 ≤ a ∧ a < 0xF3000 then .engine .sn (a - 0xF2000)
  else if 0xF3000 ≤ a ∧ a < 0xF3400 then .classes (a - 0xF3000)
  else if 0xF3800 ≤ a ∧ a < 0xF3A00 then .tmaps (a - 0xF3800)
  else match s.coreOffset c a with
    | some h => .mem h
    | none => .nowhere

/-- The fabric window (R336). -/
def State.fabricCore (s : State) (c : CoreId) (a : Nat) : Option CoreId :=
  match s.partOf c with
  | none => none
  | some p => if a / 2 ^ 36 % 4 = 0 then p.coreAt (a / 2 ^ 38 % 4) (a / 2 ^ 28 % 256) (a / 2 ^ 20 % 256) else none

/-- The shared-SRAM window (R337): offsets are virtual. -/
def State.sramSpot (s : State) (c : CoreId) (a : Nat) : Spot :=
  match s.partOf c with
  | none => .nowhere
  | some p =>
    let o := a % 2 ^ 28
    match p.dies[a / 2 ^ 28 % 4]? with
    | none => .nowhere
    | some d =>
      if o < ((s.core c).win.extractLsb' 32 9).toNat * 2 ^ 20 then
        .mem (sramHome d (if p.whole then o else p.sram.getD (o / 2 ^ 20) 0 * 2 ^ 20 + o % 2 ^ 20))
      else .nowhere

/-- The address map (R334). -/
def State.spot (s : State) (c : CoreId) (b : Option Bench) (va : Word) : Spot :=
  let a := va.toNat
  if a < 0x100000 then s.localSpot c b a
  else if 0x010000000000 ≤ a ∧ a < 0x020000000000 then
    match s.fabricCore c a with
    | some d =>
      match s.coreOffset d (a % 2 ^ 20) with
      | some h => .mem h
      | none => .nowhere
    | none => .nowhere
  else if 0x020000000000 ≤ a ∧ a < 0x020040000000 then s.sramSpot c a
  else if 0x100000000000 ≤ a ∧ a < 2 ^ 48 then .paged
  else .nowhere

/-- The virtual hop count between two cores (R57). -/
def State.hops (s : State) (x y : CoreId) : Nat :=
  let (_, r, c) := s.virt x
  let (_, r', c') := s.virt y
  (Nat.max r r' - Nat.min r r') + (Nat.max c c' - Nat.min c c')

/-- The cross-die surcharge of a target (R57). -/
def crossDie (c : CoreId) (die : Nat) : Nat := if dieOf c = die then 0 else 64

/-- The load cost of an address whose home is known (R57). -/
def State.loadCost (s : State) (c : CoreId) (va : Word) (home : Nat) : Nat :=
  let a := va.toNat
  if a < 0x100000 then (if 0x10000 ≤ a ∧ a < 0x50000 then 4 else 2)
  else if a < 0x020000000000 then
    match s.fabricCore c a with
    | some d => 6 + 2 * s.hops c d + crossDie c (dieOf d)
    | none => 6
  else if a < 0x020040000000 then 30 + crossDie c (dieOfHome home)
  else if dieOfHome home = dieOf c then 200
  else 320

/-! ## Translation (R340 to R344) -/

/-- How a walk fails. -/
inductive WalkFail where
  | fault
  | ecc
deriving DecidableEq, Repr

/-- The frame or table address of a PTE. -/
def leafPa (pte : Word) : Nat := (pte.extractLsb' 16 25).toNat * 2 ^ 16

/-- The next table of a non-leaf PTE. -/
def tablePa (pte : Word) : Nat := (pte.extractLsb' 16 33).toNat * 2 ^ 8

/-- RSET of a PTE. -/
def rset (pte : Word) : BitVec 4 := pte.extractLsb' 10 4

/-- A leaf that maps a page of 2^bits bytes passes (R342). -/
def leafOk (pte : Word) (bits : Nat) : Bool :=
  let pa := leafPa pte
  let repl := pte.getLsbD 6
  decide ((pte.extractLsb' 41 8) = 0) && decide (pa % 2 ^ bits = 0) && hbmExists pa &&
    (!repl || (decide (bits ≤ 21) && decide (2 ≤ ((List.range 4).filter fun i => (rset pte).getLsbD i).length) &&
      (rset pte).getLsbD (pa / 2 ^ 39)))

/-- What every PTE keeps (R341, R342): V, its zero fields, and no PIN beside REPL. -/
def pteOk (pte : Word) : Bool :=
  pte.getLsbD 0 && decide (pte.extractLsb' 49 15 = 0) && decide (pte.extractLsb' 14 2 = 0) && !pte.getLsbD 9 &&
    !(pte.getLsbD 6 && pte.getLsbD 7)

/-- The levels of a walk below a table: the lowest bit of each index, and its width. -/
def walkLevels : List (Nat × Nat) := [(39, 9), (30, 9), (21, 9), (16, 5)]

/-- Walk from a table down the levels (R340, R342): the leaf and the size of its page in bits. -/
def State.walkFrom (s : State) (va : Nat) : List (Nat × Nat) → Nat → Except WalkFail (Word × Nat)
  | [], _ => .error .fault
  | (lo, w) :: rest, table =>
    let at_ := table + va / 2 ^ lo % 2 ^ w * 8
    if !hbmExists at_ then .error .fault
    else if s.badIn at_ 8 then .error .ecc
    else
      let pte := s.mem.dword at_
      if !pteOk pte then .error .fault
      else if pte.getLsbD 1 then
        if lo = 39 then .error .fault else if leafOk pte lo then .ok (pte, lo) else .error .fault
      else if rest.isEmpty then .error .fault
      else
        let t := tablePa pte
        if (lo ≠ 21 ∧ t % 4096 ≠ 0) ∨ !hbmExists t then .error .fault else s.walkFrom va rest t

/-- The walk of a virtual address from a root as cr.ptb holds it (R343); with EN = 0 it fails. -/
def State.walk (s : State) (root : Word) (va : Word) : Except WalkFail (Word × Nat) :=
  if root.getLsbD 0 then s.walkFrom va.toNat walkLevels ((root.extractLsb' 12 29).toNat * 4096) else .error .fault

/-- The context that a core runs for, if it runs for one. -/
def State.ctxOf (s : State) (c : CoreId) : Option Nat := (s.partOf c).bind fun p => p.ctx

/-- The address of the page of 2^bits bytes that holds an address. -/
def pageBase (va : Word) (bits : Nat) : Word := BitVec.ofNat 64 (va.toNat / 2 ^ bits * 2 ^ bits)

/-- The entry of a TLB for an address of a context, if it holds one. -/
def tlbFind (t : List TlbEntry) (ctx : Option Nat) (root va : Word) : Option TlbEntry :=
  t.find? fun e => decide (e.ctx = ctx) && decide (e.root = root) && decide (pageBase va e.bits = e.page)

/-- Insert an entry into a TLB of a given size; the oldest leaves a full one. -/
def tlbAdd (size : Nat) (t : List TlbEntry) (e : TlbEntry) : List TlbEntry :=
  if t.contains e then t else (e :: t).take size

/-- Fill the TLBs above the level that answered: 0 micro, 1 cluster, 2 die (R344). -/
def State.fill (s : State) (c : CoreId) (e : TlbEntry) (upTo : Nat) : State :=
  let s := s.modCore c fun k => { k with utlb := tlbAdd 16 k.utlb e }
  let s := if 1 ≤ upTo then s.modCluster (clusterOf c) fun k => { k with tlb := tlbAdd 512 k.tlb e } else s
  if 2 ≤ upTo then s.modDie (dieOf c) fun k => { k with tlb := tlbAdd 1536 k.tlb e } else s

/-- What a translation gives: a leaf, a walk to wait for, or a failure. -/
inductive Xlate where
  | ok (e : TlbEntry)
  | wait
  | fail (f : WalkFail)
deriving DecidableEq, Repr

/-- A miss in a cluster's TLB, counted by its cluster and its die (R374). -/
def State.countTlb (s : State) (c : CoreId) : State :=
  (s.countCluster (clusterOf c) 0x21 1).countDie (dieOf c) 0x21 1

/-- The page that a miss waits for: the one that maps the address now, or else the smallest. -/
def State.missPage (s : State) (root va : Word) : Word :=
  match s.walk root va with
  | .ok (_, bits) => pageBase va bits
  | .error _ => pageBase va 16

/-- A requester's miss enters the pending table of its die, or joins the walk of a page that is there (R344). With the table
full it waits at its cluster's TLB without an entry. A miss is counted as it enters or joins. -/
def State.joinWalk (s : State) (c : CoreId) (who : Nat) (root page : Word) : State :=
  let d := dieOf c
  let is (w : Walk) : Bool := decide (w.root = root) && decide (w.va = page)
  match (s.die d).walks.find? is with
  | some w =>
    if w.waits.contains (c, who) then s
    else
      let join (w : Walk) : Walk := if is w then { w with waits := w.waits ++ [(c, who)] } else w
      (((s.count c none 0x20 1).countTlb c).modDie d fun x => { x with walks := x.walks.map join }).countDie d 0x23 1
  | none =>
    if (s.die d).walks.length < 512 then
      ((s.count c none 0x20 1).countTlb c).modDie d fun x => { x with walks := x.walks ++ [⟨root, page, [(c, who)]⟩] }
    else s

/-- Whether a record of a failed walk is that of a requester's address. -/
def walkedFor (c : CoreId) (who : Nat) (root va : Word) (w : Word × Word × CoreId × Nat) : Bool :=
  decide (w.1 = root) && decide (w.2.2 = (c, who)) && [16, 21, 30].any fun bits => decide (pageBase va bits = w.2.1)

/-- A translation that misses in every TLB waits for a walk (R344). Once that walk has failed, the next try reports what
the tables give. -/
def State.missed (s : State) (c : CoreId) (who : Nat) (root va : Word) : Xlate × State :=
  let d := dieOf c
  if (s.die d).walked.any (walkedFor c who root va) then
    let s := s.modDie d fun x => { x with walked := x.walked.filter fun w => !walkedFor c who root va w }
    match s.walk root va with
    | .error f => (.fail f, s)
    | .ok (pte, bits) =>
      let e : TlbEntry := ⟨s.ctxOf c, root, pageBase va bits, bits, pte⟩
      (.ok e, s.fill c e 2)
  else (.wait, s.joinWalk c who root (s.missPage root va))

/-- Translate for a requester of a core: through its TLBs, else by a walk. -/
def State.xlate (s : State) (c : CoreId) (who : Nat) (va : Word) : Xlate × State :=
  let root := (s.core c).ptb
  let ctx := s.ctxOf c
  match tlbFind (s.core c).utlb ctx root va with
  | some e => (.ok e, s)
  | none =>
    match tlbFind (s.cluster (clusterOf c)).tlb ctx root va with
    | some e => (.ok e, (s.count c none 0x20 1).fill c e 0)
    | none =>
      match tlbFind (s.die (dieOf c)).tlb ctx root va with
      | some e => (.ok e, ((s.count c none 0x20 1).countTlb c).fill c e 1)
      | none => s.missed c who root va

/-- The kinds of access that a leaf permits or not (R342). -/
inductive Access where
  | load | store | atomic | fetch
deriving DecidableEq, Repr

/-- Permission of a leaf at a privilege. -/
def permits (pte : Word) (priv : BitVec 2) : Access → Bool
  | .load => pte.getLsbD 2 && (decide (priv ≠ 0) || pte.getLsbD 5)
  | .store => pte.getLsbD 3 && (decide (priv ≠ 0) || pte.getLsbD 5)
  | .atomic => pte.getLsbD 2 && pte.getLsbD 3 && (decide (priv ≠ 0) || pte.getLsbD 5)
  | .fetch => pte.getLsbD 4 && (decide (priv ≠ 0) || pte.getLsbD 5)

/-- The physical address a leaf gives an address at its own die (R341). -/
def TlbEntry.pa (e : TlbEntry) (va : Word) : Nat := leafPa e.pte + va.toNat % 2 ^ e.bits

/-- A replicated leaf (R346). -/
def TlbEntry.repl (e : TlbEntry) : Bool := e.pte.getLsbD 6

/-- The replica that a read of a core takes: its own die's, else the sequencing home's (R346). -/
def TlbEntry.readPa (e : TlbEntry) (c : CoreId) (va : Word) : Nat :=
  if e.repl && (rset e.pte).getLsbD (dieOf c) then e.pa va % 2 ^ 39 + dieOf c * 2 ^ 39 else e.pa va

/-- The counting window that a die is in (R349), by cr.ref of its first region (DESIGN CHOICE, log entry 94). -/
def State.windowNow (s : State) (die : Nat) : Nat :=
  (s.region (100 * die)).ref.toNat / ((s.die die).window.toNat * 65536)

/-- A die's counts begin anew in a new window. -/
def State.newWindow (s : State) (die : Nat) : State :=
  if (s.die die).windowNo = s.windowNow die then s
  else s.modDie die fun d => { d with counts := [], windowNo := s.windowNow die }

/-- Count an access to a page by die, while migration is on (R348). -/
def State.countPage (s : State) (c : CoreId) (e : TlbEntry) : State :=
  let home := leafPa e.pte / 2 ^ 39
  let d := s.die home
  let det := match s.partOf c with
    | some p => p.det
    | none => true
  if d.migEn && !e.pte.getLsbD 7 && !e.repl && !det && decide (e.bits ≤ 21) then
    let at_ := (e.page, e.root, dieOf c)
    let s := s.newWindow home
    let n := Tab.get (s.die home).counts at_ 0
    s.modDie home fun d => { d with counts := Tab.set d.counts at_ (n + 1) }
  else s

/-- A page whose writes are held because it is moving (R348). -/
def State.moving (s : State) (e : TlbEntry) : Bool :=
  (s.die (leafPa e.pte / 2 ^ 39)).moves.any fun m => decide (m.root = e.root) && decide (m.page = e.page)

/-! ## Lazily saved frames (R411 to R413) -/

/-- The core whose TCM holds a home address. -/
def coreOfHome (h : Nat) : Option CoreId :=
  if 2 ^ 43 ≤ h then
    let i := (h - 2 ^ 43) / 2 ^ 15
    some (if i < 102400 then .grid (i / 25600) (i / 160 % 160) (i % 160) else .skoum (i - 102400))
  else none

/-- The router next to one, and the input that a header enters it by. -/
def beside : CoreId → Dir → CoreId × Fin 5
  | .grid d r c, .north => (.grid d (r - 1) c, 3)
  | .grid d r c, .east => (.grid d r (c + 1), 4)
  | .grid d r c, .south => (.grid d (r + 1) c, 1)
  | .grid d r c, .west => (.grid d r (c - 1), 2)
  | .skoum n, _ => (.skoum n, 0)

/-- The numbers between two, ends included. -/
def stepsBetween (a b : Nat) : List Nat := (List.range (max a b + 1)).drop (min a b)

/-- The routers of the path of kind 0 between two cores (R424): along the row, then along the column; between dies the path
passes the first router and the last. -/
def rowPath : CoreId → CoreId → List CoreId
  | .grid d r c, .grid d' r' c' =>
    if d = d' then (stepsBetween c c').map (CoreId.grid d r ·) ++ (stepsBetween r r').map (CoreId.grid d · c')
    else [.grid d r c, .grid d' r' c']
  | x, y => [x, y]

/-- The cluster whose scratchpad holds a home address, or whose core's TCM does. -/
def clusterOfHome (h : Nat) : Option ClusterId :=
  match coreOfHome h with
  | some c => some (clusterOf c)
  | none =>
    if 2 ^ 42 ≤ h then
      let i := (h - 2 ^ 42) / 2 ^ 18
      some ⟨i / 1600, i / 40 % 40, i % 40⟩
    else none

/-! ## Banks (R261, R339) -/

/-- The banks that n bytes from a home address on lie in: eight of each TCM and 32 of each scratchpad, interleaved by 8
bytes. Other memories show none. A bank is numbered after the home that it is part of. -/
def banksOf (h n : Nat) : List Nat :=
  if h < 2 ^ 42 then []
  else
    let m := if 2 ^ 43 ≤ h then 8 else 32
    ((List.range ((h % 8 + n + 7) / 8)).map fun i => homeId h * 32 + (h / 8 + i) % m).eraseDups

/-- Whether one of the banks of an access has been accessed in this local cycle: a bank serves one access per cycle. -/
def State.meets (s : State) (h n : Nat) : Bool := (banksOf h n).any s.banks.contains

/-- An access takes its banks for this local cycle. -/
def State.touch (s : State) (h n : Nat) : State :=
  { s with banks := s.banks ++ (banksOf h n).filter fun b => !s.banks.contains b }

/-- A conflict in a scratchpad's bank is noted for its cluster's and its die's counters (R374). -/
def State.noteClash (s : State) (h : Nat) : State :=
  match coreOfHome h, clusterOfHome h with
  | none, some k => s.modCluster k fun x => { x with clash := true }
  | _, _ => s

/-- The frame that holds a home address; paged memory has none. -/
def frameOf (h : Nat) : Option FrameId :=
  match coreOfHome h, clusterOfHome h with
  | some c, _ => some (.tcm c ((h - 2 ^ 43) % 2 ^ 15 / 4096))
  | none, some k => some (.scratch k ((h - 2 ^ 42) % 2 ^ 18 / 16384))
  | none, none => if 2 ^ 41 ≤ h then some (.sram ((h - 2 ^ 41) / 2 ^ 28) ((h - 2 ^ 41) % 2 ^ 28 / 2 ^ 20))
  else none

/-- The first home address and the length of a frame. -/
def frameSpan : FrameId → Nat × Nat
  | .tcm c f => (tcmHome c (f * 4096), 4096)
  | .scratch k f => (scratchHome k (f * 16384), 16384)
  | .sram d f => (sramHome d (f * 2 ^ 20), 2 ^ 20)

/-- A context's image, if it is out. -/
def State.image? (s : State) (c : Nat) : Option Image :=
  if s.ctxs.has c then (s.ctxs.get c Ctx.reset).image else none

/-- Change a context that exists. -/
def State.modCtx (s : State) (c : Nat) (f : Ctx → Ctx) : State :=
  if s.ctxs.has c then { s with ctxs := s.ctxs.set c (f (s.ctxs.get c Ctx.reset)) } else s

/-- A core's name on another place of the same shape. -/
def moveCore (old new : Part) (c : CoreId) : CoreId :=
  match old.virt c with
  | some (v, r, x) => (new.coreAt v r x).getD c
  | none => c

/-- The name of a frame on another place of the same shape. -/
def moveFrame (old new : Part) : FrameId → FrameId
  | .tcm c f => .tcm (moveCore old new c) f
  | .scratch k f => .scratch (clusterOf (moveCore old new (.grid k.die (4 * k.row) (4 * k.col)))) f
  | .sram d f =>
    let v := (old.dies.findIdx? (· = d)).getD 0
    let i := if old.whole then f else (old.sram.findIdx? (· = f)).getD 0
    .sram (new.dies.getD v 0) (if new.whole then i else new.sram.getD i 0)

/-- A partition at the place where the coordinates of its cores are their virtual ones (R7). -/
def Part.virtual (p : Part) : Part :=
  { p with dies := List.range p.dies.length, row := 0, col := 0, sram := List.range p.sram.length }

/-- Whether a frame is a partition's. -/
def Part.holdsFrame (p : Part) : FrameId → Bool
  | .tcm c _ => (p.virt c).isSome
  | .scratch k _ => (p.virt (.grid k.die (4 * k.row) (4 * k.col))).isSome
  | .sram d f => p.dies.contains d && (p.whole || p.sram.contains f)

/-- A home address by the virtual place of its frame in a partition; paged memory keeps its own (R406). -/
def Part.virtHome (p : Part) (h : Nat) : Nat :=
  match frameOf h with
  | none => h
  | some f => if p.holdsFrame f then (frameSpan (moveFrame p p.virtual f)).1 + (h - (frameSpan f).1) else h

/-- The name of a frame in an image: its virtual place in the partition that it is part of (R406). -/
def State.frameName (s : State) (f : FrameId) : FrameId :=
  match s.parts.find? fun p => p.2.holdsFrame f with
  | some (_, p) => moveFrame p p.virtual f
  | none => f

/-- Keep a frame in the image of the context that owns it; bad granules are recorded bad (R413, R414). -/
def State.keepFrame (s : State) (f : FrameId) (owner : Nat) : State :=
  let sp := frameSpan f
  let name := s.frameName f
  let here := s.bad.filter fun g => decide (sp.1 ≤ g) && decide (g < sp.1 + sp.2)
  { s.modCtx owner fun c => { c with image := c.image.map fun i =>
      { i with
        frames := Tab.set i.frames name (s.mem.extract sp.1 sp.2)
        bad := (i.bad.filter fun e => e.1 ≠ name) ++ here.map fun g => (name, g - sp.1) } } with
    bad := s.bad.filter fun g => !here.contains g }

/-- Save a frame into the image of the context that owns it, and into the area that holds that (R413). -/
def State.saveFrame (s : State) (f : FrameId) (owner : Nat) : State :=
  (s.keepFrame f owner).markFrame owner (s.frameName f) (some (s.mem.extract (frameSpan f).1 (frameSpan f).2))

/-- Load a frame from the image of a context, if it holds it, or fill it with zeros (R413). -/
def State.loadFrame (s : State) (f : FrameId) (ctx : Nat) : State :=
  let sp := frameSpan f
  let name := s.frameName f
  match s.image? ctx with
  | some i =>
    let bad := (i.bad.filter fun e => e.1 = name).map fun e => sp.1 + e.2
    let s := if Tab.has i.frames name then s.markFrame ctx name none else s
    { s.modCtx ctx fun c => { c with image := c.image.map fun i =>
        { i with frames := Tab.drop i.frames name, bad := i.bad.filter fun e => e.1 ≠ name } } with
      mem := s.mem.restore sp.1 sp.2 (Tab.get i.frames name []), bad := s.bad ++ bad }
  | none => { s with mem := s.mem.clear sp.1 sp.2 }

/-- A context claims a frame (R413): the owner's copy is saved first if another context owns it. -/
def State.claim (s : State) (ctx : Nat) (f : FrameId) : State :=
  let go (s : State) : State := let s := s.loadFrame f ctx; { s with owners := s.owners.set f ctx }
  if s.owners.has f then
    let o := s.owners.get f 0
    if o = ctx then s else go (s.saveFrame f o)
  else go s

/-- Any access by or for a core to a home address claims its frame for the core's context. -/
def State.claimHome (s : State) (c : CoreId) (h : Nat) : State :=
  match frameOf h with
  | none => s
  | some f =>
    match s.partOf c with
    | none => s
    | some p =>
      match p.ctx with
      | some x => s.claim x f
      | none => s

end Sys2Proof.Machine
end

