-- ==== Sys2Proof/Machine/Access.lean ====
section
/-!
DEFINITION. The accesses of the executing seat (R187, R194 to R208, R346, R347, R350 to R355, R388, R389, R454):
the checks at issue, forwarding, the store buffer and its slots, requests to other dies, the operations that a
home performs, and the waits that the ordering rules give.
-/

namespace Sys2Proof.Machine

/-! ## Keys and the ordered points of deterministic mode (R453, R454) -/

/-- The key of an input that the executing seat issues with a span cost. -/
def State.keyFor (s : State) (cost : Nat) : Key :=
  ⟨(s.me.tag.add cost).span.toNat, s.coordKey s.cur, s.me.inputs⟩

/-- Count an input of the executing seat. -/
def State.countInput (s : State) : State := s.modMe fun t => { t with inputs := t.inputs + 1 }

/-- The keys that seats of a partition hold at an ordered point. -/
def State.heldKeys (s : State) (p : Part) (point : Nat) : List Key :=
  p.cores.flatMap fun c => (s.core c).seats.toList.filterMap fun t =>
    match t.hold with
    | some h => h.det.bind fun d => if d.2 = point then some d.1 else none
    | none => none

/-- The leaf that a core's TLBs hold for an address, without any effect. -/
def State.tlbPeek (s : State) (c : CoreId) (va : Word) : Option TlbEntry :=
  let root := (s.core c).ptb
  let ctx := s.ctxOf c
  match tlbFind (s.core c).utlb ctx root va with
  | some e => some e
  | none =>
    match tlbFind (s.cluster (clusterOf c)).tlb ctx root va with
    | some e => some e
    | none => tlbFind (s.die (dieOf c)).tlb ctx root va

/-- The leaf that maps an address for a core now, from its TLBs or the tables, without any effect. -/
def State.peek (s : State) (c : CoreId) (va : Word) : Option TlbEntry :=
  match s.tlbPeek c va with
  | some e => some e
  | none =>
    match s.walk (s.core c).ptb va with
    | .ok (pte, bits) => some ⟨s.ctxOf c, (s.core c).ptb, pageBase va bits, bits, pte⟩
    | .error _ => none

/-- The home of an address for a core now, with the window of a bench or its own, if it has one. -/
def State.homeIn (s : State) (c : CoreId) (b : Option Bench) (va : Word) : Option Nat :=
  match s.spot c b va with
  | .mem h => some h
  | .paged => (s.peek c va).map fun e => e.pa va
  | _ => none

/-- The home of an address for a core now, if it has one. -/
def State.homeOf (s : State) (c : CoreId) (va : Word) : Option Nat := s.homeIn c (s.core c).bench va

/-- The home of an entry of a core's store buffer now: a bench's store keeps the bench's window (R318, R325). -/
def State.storeHome (s : State) (c : CoreId) (e : SbEntry) : Option Nat := s.homeIn c e.bench e.va

/-- Whether a home lies in a core's own TCM, which on a bench is that of every member (R318). -/
def State.ownTcm (s : State) (c : CoreId) (home : Nat) : Bool :=
  match coreOfHome home with
  | some d => decide (d = c) || ((s.core c).bench.isSome && decide ((s.core d).benchLead = some c))
  | none => false

/-- The keys that wait at a home in store buffers and link buffers. -/
def State.bufferedKeys (s : State) (p : Part) (point : Nat) : List Key :=
  (p.cores.flatMap fun c => (s.core c).sb.filterMap fun e =>
    if (s.storeHome c e).map homeId = some point then some e.key else none) ++
  s.links.flatMap fun l => l.2.filterMap fun x => if x.home = point then some x.key else none

/-- Whether an ordered point may serve a key: it is released, and no smaller key waits there (R454). -/
def State.mayServe (s : State) (p : Part) (point : Nat) (key : Key) : Bool :=
  decide (key.span ≤ p.horizon) && (s.heldKeys p point).all (fun k => !k.lt key) &&
    (s.bufferedKeys p point).all fun k => !k.lt key

/-- An ordered point serves an input of the executing seat if it is released and no smaller key waits there;
otherwise the seat holds with kind 9 (R454). -/
def State.ordered (s : State) (cost point : Nat) (go : State → State) : State :=
  match s.det? s.cur.core with
  | none => go s
  | some p =>
    let key := s.keyFor cost
    if s.mayServe p point key then go s
    else (s.stall 9).modMe fun t => { t with hold := t.hold.map fun h => { h with det := some (key, point) } }

/-! ## The seat's stores and requests under way -/

/-- The updates of a page that some replica has not applied (R347). -/
def Sequencer.unperformed (q : Sequencer) : List Update :=
  q.arriving ++ q.list.drop (q.applied.foldl (fun m a => Nat.min m a.2) q.list.length)

/-- The executing seat's entries in its store buffer. -/
def Core.storesOf (k : Core) (i : Fin 4) : List SbEntry := k.sb.filter fun e => e.seat = i

/-- The identities of a seat's stores that have not performed: in the store buffer, in a link buffer, or an
update that some replica has not applied (R347, R355). -/
def State.unperformed (s : State) (t : SeatId) : List Nat :=
  ((s.core t.core).storesOf t.seat).map (·.id) ++
  s.links.flatMap (fun l => l.2.filterMap fun p =>
    match p.kind with
    | .store _ => if p.core = t.core ∧ p.seat = t.seat then some p.id else none
    | .update _ who _ => if who = some t then some p.id else none
    | _ => none) ++
  s.seqrs.flatMap fun q => q.unperformed.filterMap fun u => if u.seat = some t then some u.id else none

/-- The identities of a seat's loads and atomics that have not returned. -/
def Seat.unreturned (t : Seat) : List Nat := t.outs.map (·.id)

/-- Whether an access with this identity is still under way anywhere. -/
def State.pending (s : State) (id : Nat) : Bool :=
  s.cores.any (fun c => c.2.sb.any (·.id = id) || c.2.seats.toList.any fun t => t.outs.any (·.id = id)) ||
  s.links.any (fun l => l.2.any (·.id = id)) ||
  s.seqrs.any fun q => q.unperformed.any (·.id = id)

/-- Whether a store with this identity has not performed: it is under way, or its records wait to be replayed (R224,
R361). -/
def State.unplayed (s : State) (id : Nat) : Bool :=
  s.pending id || s.cores.any fun c => c.2.rq.any fun e => e.st.id = id

/-- The identities of a seat's stores that have not performed, those in the record queue among them. -/
def State.unplayedOf (s : State) (t : SeatId) : List Nat :=
  s.unperformed t ++ ((s.core t.core).rq.filter fun e => e.st.seat = t.seat).map fun e => e.st.id

/-- The bytes that an entry writes, with their places from a home address on. -/
def SbEntry.cells (e : SbEntry) (h : Nat) : List (Nat × Byte) :=
  e.bytes.zipIdx.filterMap fun b => b.1.map fun x => (h + b.2, x)

/-- The bytes from the first to the last that an entry writes lie at a home: the first address and the length. -/
def cellSpan (h : Nat) : List (Nat × Byte) → Nat × Nat
  | [] => (h, 0)
  | b :: r => (b.1, ((b :: r).getLast?.elim b.1 (·.1)) + 1 - b.1)

/-- The mask of the bytes of an entry's dword at an offset. -/
def SbEntry.mask (e : SbEntry) (o : Nat) : Nat :=
  (List.range 8).foldl (fun m i => if ((e.bytes[o + i]?).join).isSome then m + 2 ^ i else m) 0

/-- The offsets of the dwords of a vector entry that its mask touches. -/
def SbEntry.dwords (e : SbEntry) : List Nat := ((List.range 8).map (8 * ·)).filter fun o => e.mask o ≠ 0

/-- The address of the oldest record of a queue entry (R387, R398): for a vector entry, that of its dword. -/
def RqEntry.va (e : RqEntry) : Word :=
  if e.st.vec then e.st.va + BitVec.ofNat 64 (e.st.dwords.getD e.popped 0) else e.st.va

/-- Whether the record queue of the executing core holds a record of the executing seat. -/
def State.hasRecord (s : State) : Bool := s.here.rq.any fun e => e.st.seat = s.cur.seat

/-- STORE_FAULT at the executing seat's instruction (R387, R399). -/
def State.takeStoreFault (s : State) : State :=
  let va := match s.here.rq.find? fun e => e.st.seat = s.cur.seat with
    | some e => e.va
    | none => 0
  (s.closeHold s.cur).trap s.cur cStoreFault s.me.pc va true

/-- The wait of a fence (R202): until every earlier store of the seat has left the store buffer or moved. Outside
trap state a record of the seat is taken as STORE_FAULT at this address, and in trap state it stays (R399). -/
def State.fenceWait (s : State) (go : State → State) : State :=
  if s.hasRecord && !s.me.inTrap then s.takeStoreFault
  else if (s.here.storesOf s.cur.seat).isEmpty then go s
  else s.stall 4

/-- The wait of sdrain (R203): until every earlier store of the seat has performed at its home or moved. -/
def State.drainWait (s : State) (go : State → State) : State :=
  if s.hasRecord && !s.me.inTrap then s.takeStoreFault
  else if (s.unperformed s.cur).isEmpty then go s
  else s.stall 4

/-- The wait of a release (R198, R208, R219): also until every earlier load and atomic has returned. -/
def State.releaseWait (s : State) (go : State → State) : State :=
  s.drainWait fun s => if s.me.outs.isEmpty then go s else s.stall 4

/-- Whether an address of a copy command lies on another package than the one at an index (R432). -/
def farAddr (index : Nat) (a : Nat) : Bool := decide (2 ^ 63 ≤ a) && decide (a / 2 ^ 48 % 512 ≠ index)

/-- Whether a copy command reads from or writes to another package. -/
def Cmd.crosses (x : Cmd) (index : Nat) : Bool :=
  let s := farAddr index (x.field 8 8)
  let d := farAddr index (x.field 16 8)
  if x.code = 1 ∨ x.code = 3 ∨ x.code = 4 then s || d else (decide (x.code = 5) || decide (x.code = 6)) && s

/-- Whether something that a seat sent to another package is in the package's link buffers (R366): a copy of a sendg that
has not left its core, a message on a plane whose frames are not all acknowledged, or a copy command that the seat pushed,
that no fault holds, and that has not completed. -/
def State.crossing (s : State) (t : SeatId) : Bool :=
  let k := s.core t.core
  let src := s.srcWord t
  let busy (i : Nat) : Bool := let p := s.fiold.get i FioldPort.reset; decide (p.queued ≠ 0) || !p.kept.isEmpty
  k.inj.toList.any (fun l => l.any fun m => m.pkg.isSome && decide (m.src = src)) ||
    (s.sentOut.any fun x =>
      match x.2.2 with
      | .message job _ _ _ _ acct _ _ =>
        decide (acct.extractLsb' 0 20 = src) && (s.partOf t.core).any (fun p => decide (p.job = job)) && busy x.1
      | _ => false) ||
    let far (x : Cmd) : Bool := decide (x.seat = t.seat) && x.crosses (((s.partOf t.core).map Part.index).getD 0)
    !k.cp.q.held && ((k.cp.q.run.any fun r => r.fin.isNone && far r.cmd) || k.cp.q.queue.any far)

/-- The wait of a release of scope .sys for what crosses packages (R366). -/
def State.crossWait (s : State) (go : State → State) : State := if s.crossing s.cur then s.stall 4 else go s

/-- No later load, or no later store, atomic or send, issues before these accesses are over. -/
def State.gate (s : State) (loads stores : List Nat) : State :=
  s.modMe fun t => { t with gateLoad := t.gateLoad ++ loads, gateStore := t.gateStore ++ stores }

/-! ## The checks of an access (R195, R206) -/

/-- What the checks of an access give: a trap, a wait of kind 4, the homes that a write and a read of the bytes
go to, a paged address that is translated later, or a register window. -/
inductive Reach where
  | trap (cause : BitVec 6) (tval : Word)
  | wait
  | mem (home readAt : Nat) (pte : Option TlbEntry)
  | paged
  | engine (e : Engine) (off : Nat)
  | classes (off : Nat)
  | tmaps (off : Nat)
deriving DecidableEq, Repr

/-- The checks of R195 for an access of n bytes by the executing seat, in their order; an atomic takes the homes
of R206 alone, checks NMO last, and in carried code reaches only its own TCM (R123). -/
def State.reach (s : State) (va : Word) (n : Nat) (a : Access) : Reach × State :=
  if va.toNat % n ≠ 0 then (.trap cAlign va, s)
  else
    match s.spot s.cur.core s.bench va with
    | .nowhere => (.trap cWindow va, s)
    | .engine e o => if a = .load then (.engine e o, s) else (.trap cWindow va, s)
    | .classes o =>
      if a = .atomic then (.trap cWindow va, s)
      else if a = .store ∧ s.me.priv = 0 then (.trap cPriv va, s)
      else (.classes o, s)
    | .tmaps o => if a = .atomic then (.trap cWindow va, s) else (.tmaps o, s)
    | .mem h => (.mem h h none, s)
    | .paged =>
      if a = .store then (.paged, s)
      else
        match s.xlate s.cur.core s.cur.seat.val va with
        | (.wait, s) => (.wait, s)
        | (.fail .fault, s) => (.trap cLoadFault va, s)
        | (.fail .ecc, s) => (.trap cEcc va, s)
        | (.ok e, s) =>
          if !permits e.pte s.me.priv a then (.trap cLoadFault va, s)
          else if a = .atomic ∧ !e.pte.getLsbD 8 then (.trap cWindow va, s)
          else (.mem (e.pa va) (if a = .atomic then e.pa va else e.readPa s.cur.core va) (some e), s)

/-- The first address of the carried code that the executing seat runs, if it runs one (R41). -/
def State.carriedStart (s : State) : Option Nat :=
  match s.me.work with
  | some w =>
    match w.kind, w.granules with
    | .carried, g :: _ => some (0xF4000 + 64 * g)
    | _, _ => none
  | none => none

/-- Whether an address is a parcel of the carried code that the executing seat runs. A seat in a trap handler counts as
still running the carried code that it was taken from (DEDUCED, log entry 68). -/
def State.inCarried (s : State) (a : Nat) : Bool :=
  match s.carriedStart, s.me.work with
  | some lo, some w => decide (lo ≤ a) && decide (a < w.codeEnd.toNat)
  | _, _ => false

/-- Memory forms inside carried code reach only the executing core's TCM (R123); an access that is misaligned is ALIGN
first (R195). -/
def State.carriedOk (s : State) (va : Word) (n : Nat) : Bool :=
  !s.inCarried s.me.pc.toNat || decide (va.toNat % n ≠ 0) ||
    match s.spot s.cur.core s.bench va with
    | .mem h => decide (2 ^ 43 ≤ h) && decide ((h - 2 ^ 43) / 2 ^ 15 = coreIndex s.cur.core)
    | _ => false

/-! ## Forwarding (R196, R190) -/

/-- The byte that the youngest holding entry gives for a home address and virtual address. -/
def forwardFrom (es : List (SbEntry × Option Nat)) (h : Nat) (va : Nat) : Option Byte :=
  match es with
  | [] => none
  | (e, home) :: r =>
    let base := home.getD e.va.toNat
    let x := if home.isSome then h else va
    if base ≤ x ∧ x < base + e.bytes.length then
      match (e.bytes[x - base]?).join with
      | some b => some b
      | none => forwardFrom r h va
    else forwardFrom r h va

/-- What a core's store buffer gives for n bytes, by home, or by address where an entry has none. -/
def State.forwardedOf (s : State) (c : CoreId) (home : Nat) (va : Word) (n : Nat) : List (Option Byte) :=
  let es := (s.core c).sb.reverse.map fun e => (e, s.storeHome c e)
  if es.isEmpty then List.replicate n none
  else (List.range n).map fun j => forwardFrom es (home + j) (va.toNat + j)

/-- What the executing core's store buffer gives. -/
def State.forwarded (s : State) (home : Nat) (va : Word) (n : Nat) : List (Option Byte) :=
  s.forwardedOf s.cur.core home va n

/-- A home that no address has: entries of the store buffer match by their address alone. -/
def noHome : Nat := 2 ^ 60

/-- Bytes with those that the store buffer gives in their place. -/
def overlay (fw : List (Option Byte)) (bs : List Byte) : List Byte :=
  bs.zipIdx.map fun b => (fw.getD b.2 none).getD b.1

/-- Bytes of a class-table or tensor-map window. -/
def windowBytes (total : Nat) (x : Nat) (off n : Nat) : List Byte :=
  ((natLe total x).drop off).take n

/-- The state region of a buffer-kind class lies where R40 allows it. A class with no region, STSIZE 0, counts as one
whose region is invalid (DESIGN CHOICE, log entry 61). -/
def Core.ringOk (k : Core) (x : BitVec 128) : Bool :=
  let lo := (x.extractLsb' 82 14).toNat * 64
  let n := (x.extractLsb' 70 12).toNat * 64
  decide (0 < n) &&
    (decide (lo + n ≤ 0x8000 - 0x400 * k.msz.toNat) || (decide (0x10000 ≤ lo) && decide (lo + n ≤ 0x50000)))

/-- The class table's entry as a load sees it: PEND is 1 while a held entry of the class waits (R30). -/
def Core.classEntry (k : Core) (c : Fin 64) : BitVec 128 :=
  let x := k.classes[c]
  let held (e : Entry) : Bool := decide (e.msg.cls.toNat = c.val) &&
    match e.kind with
    | .launchTask _ _ => false
    | _ => true
  let ring := decide ((x.extractLsb' 61 3) = 2) && !k.ringOk x
  if (!x.getLsbD 55 || ring) && k.runq.any held then x ||| (1#128 <<< 54) else x

/-- The class table as bytes. -/
def Core.classBytes (k : Core) (off n : Nat) : List Byte :=
  ((List.finRange 64).flatMap fun c => natLe 16 (k.classEntry c).toNat).drop off |>.take n

/-- The tensor maps as bytes. -/
def Core.tmapBytes (k : Core) (off n : Nat) : List Byte :=
  (k.tmaps.toList.flatMap fun x => natLe 32 x.toNat).drop off |>.take n

/-- A class entry with some bytes written, under the rules of its fields (R31, R32). KARG[66] is kept as written,
for a channel-kind class too (DESIGN CHOICE, log entry 62). -/
def classWrite (old : BitVec 128) (new : BitVec 128) : BitVec 128 :=
  let kind := if 4 < (new.extractLsb' 61 3).toNat then old.extractLsb' 61 3 else new.extractLsb' 61 3
  new.extractLsb' 70 58 ++ 0#3 ++ new.extractLsb' 64 3 ++ kind ++ new.extractLsb' 55 6 ++ 0#1 ++
    new.extractLsb' 50 4 ++ 0#2 ++ new.extractLsb' 1 47 ++ 0#1

/-- A tensor map with some bytes written, under the rules of its fields (R186). -/
def tmapWrite (old new : BitVec 256) : BitVec 256 :=
  let oob := if 2 < (new.extractLsb' 200 8).toNat then old.extractLsb' 200 8 else new.extractLsb' 200 8
  let fmt := if 11 < (new.extractLsb' 192 8).toNat then old.extractLsb' 192 8 else new.extractLsb' 192 8
  0#48 ++ oob ++ fmt ++ new.extractLsb' 0 192

/-- Replace bytes of a little-endian datum from an offset on. -/
def patch (total x off : Nat) (bs : List Byte) : Nat :=
  let old := natLe total x
  leNat (old.take off ++ bs.take (total - off) ++ old.drop (off + bs.length))

/-- Write bytes into the class table from an offset on. -/
def Core.writeClasses (k : Core) (off : Nat) (bs : List Byte) : Core :=
  let put (k : Core) (i : Fin 64) : Core :=
    let lo := i.val * 16
    if off < lo + 16 ∧ lo < off + bs.length then
      let x := patch 16 k.classes[i].toNat (off - lo) (bs.drop (lo - off))
      { k with classes := k.classes.set i (classWrite k.classes[i] (BitVec.ofNat 128 x)) }
    else k
  (List.finRange 64).foldl put k

/-- Write bytes into the tensor maps from an offset on. -/
def Core.writeTmaps (k : Core) (off : Nat) (bs : List Byte) : Core :=
  let put (k : Core) (i : Fin 16) : Core :=
    let lo := i.val * 32
    if off < lo + 32 ∧ lo < off + bs.length then
      let x := patch 32 k.tmaps[i].toNat (off - lo) (bs.drop (lo - off))
      { k with tmaps := k.tmaps.set i (tmapWrite k.tmaps[i] (BitVec.ofNat 256 x)) }
    else k
  (List.finRange 16).foldl put k

/-! ## Loads (R57, R190, R195, R196, R347, R350, R355) -/

/-- The value of a load from its bytes. -/
def loadValue (n : Nat) (signed : Bool) (bs : List Byte) : Word :=
  let x := leNat bs
  if signed && decide (256 ^ n ≤ 2 * x) then BitVec.ofNat 64 (2 ^ 64 + x - 256 ^ n) else BitVec.ofNat 64 x

/-- A load of a replicated line waits until the seat's own earlier stores to it have been applied at the replica that it
reads, those in the store buffer among them (R347). -/
def State.replWait (s : State) (home readAt : Nat) : Bool :=
  (s.here.storesOf s.cur.seat).any (fun e => (s.storeHome s.cur.core e).map (· / 64) = some (home / 64)) ||
  s.seqrs.any fun q =>
    decide (q.page ≤ home % 2 ^ 39) && decide (home % 2 ^ 39 < q.page + q.size) &&
      let mine (u : Update) : Bool := decide (u.seat = some s.cur) &&
        u.bytes.any fun b => decide (b.1 % 2 ^ 39 / 64 = home % 2 ^ 39 / 64)
      let done := Tab.get q.applied (readAt / 2 ^ 39) q.list.length
      q.arriving.any mine || (q.list.drop done).any mine

/-- The same for updates of the seat on their way in a link buffer. -/
def State.replLinked (s : State) (home : Nat) : Bool :=
  s.links.any fun l => l.2.any fun p =>
    match p.kind with
    | .update _ who bs => decide (who = some s.cur) &&
        bs.any fun b => decide (b.1 / 64 = home / 64)
    | _ => false

/-- The point of a home in the order of deterministic mode; an access to the own TCM passes none. -/
def State.pointOf (s : State) (home : Nat) : Option Nat :=
  if 2 ^ 43 ≤ home ∧ (home - 2 ^ 43) / 2 ^ 15 = coreIndex s.cur.core then none else some (homeId home)

/-- Whether the cluster that holds a TCM or scratchpad home runs; other homes are always there (R375, R377). -/
def State.homeUp (s : State) (home : Nat) : Bool :=
  let runs (k : ClusterId) : Bool := decide ((s.cluster k).power = .run)
  if 2 ^ 43 ≤ home then
    let i := (home - 2 ^ 43) / 2 ^ 15
    decide (102400 ≤ i) || runs ⟨i / 25600, i / 160 % 160 / 4, i % 160 / 4⟩
  else if 2 ^ 42 ≤ home then
    let i := (home - 2 ^ 42) / 2 ^ 18
    runs ⟨i / 1600, i / 40 % 40, i % 40⟩
  else true

/-- An access that reaches a cluster that does not run calls for its wake (R377). -/
def State.callHome (s : State) (home : Nat) : State :=
  match clusterOfHome home with
  | some k => if s.homeUp home then s else s.modCluster k fun x => { x with called := true }
  | none => s

/-- The router, if any, that drops a request of a core to a home or its response: memory traffic goes by kind 0 there
and back (R424, R428). An access to the core's own TCM, or to the scratchpad of its cluster, passes no router. -/
def State.barred (s : State) (c : CoreId) (home : Nat) : Option CoreId :=
  if (s.partOf c).isNone ∨ clusterOfHome home = some (clusterOf c) ∧ (coreOfHome home).isNone ∨ s.ownTcm c home then none
  else
    let path := match coreOfHome home with
      | some d => rowPath c d ++ rowPath d c
      | none => [c]
    path.find? fun x => !(s.core x).memb.getLsbD (s.core c).pid.toNat

/-- A router drops a request of a seat's work, which draws TENANT (R428, R396). -/
def State.dropRequest (s : State) (x : CoreId) (t : SeatId) (work : BitVec 12) (grp : BitVec 32) : State :=
  let f := Config.freeRequest s.frees
  let s := s.modDie (dieOf x) fun d => { d with tviol := sat32 (d.tviol.toNat + 1), lpart := (s.core t.core).pid }
  { s with
    frees := s.frees + 1
    replies := s.replies ++ [⟨t, cTenant, 0#24 ++ f.extractLsb' 24 8 ++ 0#8 ++ f.extractLsb' 0 24, work, grp⟩] }

/-- Whether a seat has a TENANT to take, or on its way to it. -/
def State.tenantDue (s : State) (t : SeatId) : Bool :=
  s.replies.any (fun r => decide (r.seat = t ∧ r.cause = cTenant)) || (s.seat t).pend.replies.any fun r => decide (r.1 = cTenant)

/-- A request that a router drops is sent once: no answer comes, and its seat takes TENANT (DESIGN CHOICE, log entry 75). -/
def State.dropOnce (s : State) (x : CoreId) (t : SeatId) : State :=
  if s.tenantDue t then s else s.dropRequest x t (s.seat t).starts (s.seat t).grp

/-- An access of the executing seat waits as kind 4 while its home's cluster does not run (R377), or for an answer that
does not come where a router drops its request. -/
def State.awake (s : State) (home : Nat) (go : State → State) : State :=
  match s.barred s.cur.core home with
  | some x => (s.dropOnce x s.cur).stall 4
  | none => if s.homeUp home then go s else (s.callHome home).stall 4

/-- Order an access at its home port, once its cluster runs (R377, R454). -/
def State.atHome (s : State) (cost home : Nat) (go : State → State) : State :=
  s.awake home fun s =>
    match s.pointOf home with
    | none => go s
    | some p => s.ordered cost p go

/-- Whether an access from a die to n bytes on it meets another one at a bank of theirs in this local cycle. -/
def State.clashes (s : State) (die home n : Nat) : Bool := decide (dieOfHome home = die) && s.meets home n

/-- The same for an access of the copy engine: the scratchpads' banks serve their requesters in turn (R339). -/
def State.scratchClash (s : State) (c : CoreId) (home n : Nat) : Bool :=
  decide (home < 2 ^ 43) && s.clashes (dieOf c) home n

/-- The same among the banks that others had taken before a unit began: the accesses of one unit follow each other. -/
def State.othersClash (s : State) (taken : List Nat) (c : CoreId) (home n : Nat) : Bool :=
  ({ s with banks := taken } : State).scratchClash c home n

/-- An access of the executing seat to n bytes on its own die waits, as kind 4, while another access has a bank of theirs
in this local cycle (R261, R339). -/
def State.onBanks (s : State) (home n : Nat) (go : State → State) : State :=
  if dieOfHome home ≠ dieOf s.cur.core then go s
  else if s.meets home n then (s.noteClash home).stall 4
  else go (s.touch home n)

/-- Put a packet into the link buffer between two dies. -/
def State.sendPacket (s : State) (src dst : Nat) (p : Packet) : State :=
  { s with links := s.links.set (src, dst) (s.links.get (src, dst) [] ++ [p]) }

/-- A packet of the executing seat. -/
def State.packet (s : State) (id home : Nat) (va : Word) (size cost : Nat) (pte : Option TlbEntry)
    (kind : PacketKind) : Packet :=
  { pte := pte, id := id, core := s.cur.core, seat := s.cur.seat, home := homeId home, va := va, size := size,
    grp := s.me.grp, seq := 0, key := s.keyFor cost, base := home, kind := kind }

/-- Read n bytes of memory at a home on the executing core's die with some forwarded: none for a bad granule. -/
def State.localRead (s : State) (readAt n : Nat) (fw : List (Option Byte)) : Option (List Byte) :=
  let need := (List.range n).any fun j => (fw.getD j none).isNone && s.badIn (readAt + j) 1
  if need then none else some ((List.range n).map fun j => (fw.getD j none).getD (s.mem.read (readAt + j)))

/-- The executing seat keeps a request. -/
def State.keepOut (s : State) (o : Outst) : State := s.modMe fun t => { t with outs := t.outs ++ [o] }

/-- A scalar load of n bytes to a register, with what follows its issue: `after` receives the request's identity if it is
still under way. A load that needs a granule of another die that is bad now waits at issue for its answer, so that its
ECC is precise (log entry 67). -/
def State.loadOp (s : State) (f : Form) (d : Reg) (va : Word) (n : Nat) (signed : Bool)
    (after : Option Nat → State → State) : State :=
  if !s.carriedOk va n then s.raise cWindow va
  else
    match s.reach va n .load with
    | (.trap c t, s) => s.raise c t
    | (.wait, s) => s.stall 4
    | (.paged, s) => s.raise cLoadFault va
    | (.engine _ _, s) => after none ((s.setG d 0).complete f 2 .seq)
    | (.classes o, s) =>
      let bs := overlay (s.forwarded noHome va n) (s.here.classBytes o n)
      after none ((s.setG d (loadValue n signed bs)).complete f 2 .seq)
    | (.tmaps o, s) => after none ((s.setG d (loadValue n signed (s.here.tmapBytes o n))).complete f 2 .seq)
    | (.mem home readAt pte, s) =>
      if (match pte with
          | some e => e.repl && (s.replWait home readAt || s.replLinked home)
          | none => false) then s.stall 4
      else
        let cost := s.loadCost s.cur.core va readAt
        s.atHome cost home fun s => s.onBanks readAt n fun s =>
          let s := s.claimHome s.cur.core home
          let s := match pte with
            | some e => s.countPage s.cur.core e
            | none => s
          let fw := s.forwarded home va n
          if dieOfHome readAt = dieOf s.cur.core ∨ fw.all Option.isSome then
            match s.localRead readAt n fw with
            | none => s.raise cEcc va
            | some bs =>
              let s := s.countInput.correct s.cur.core readAt n
              after none ((s.setG d (loadValue n signed bs)).complete f cost .seq)
          else
            let (id, s) := s.fresh
            let need := ((List.range n).filter fun j => (fw.getD j none).isNone).map fun j => readAt + j
            let p := { s.packet id home va n cost pte (.request .load s.cur need) with base := readAt }
            let s := s.sendPacket (dieOf s.cur.core) (dieOfHome readAt) p
            let hard := need.any fun a => s.badIn a 1
            let s := s.keepOut ⟨id, s.me.pc, va, .load d n signed fw, cost, none, hard, false⟩
            if hard then s.holdMe 10 false false else after (some id) (s.countInput.complete f cost .seq)

/-! ## Stores (R187, R195 to R198, R388) -/

/-- The shared slots of a core that stores in its buffer and records hold. -/
def Core.slots (k : Core) : Nat := (k.sb.filter fun e => !e.extra).length + k.rq.length

/-- Whether a packet is a core's store that keeps its slot until it performs. -/
def Packet.holdsSlot (p : Packet) (c : CoreId) : Bool :=
  decide (p.core = c) && !p.extra &&
    match p.kind with
    | .store _ => true
    | .update _ who _ => who.isSome
    | _ => false

/-- The shared slots of a core that are taken (R197): a store that has left the buffer keeps its slot until it performs. -/
def State.slots (s : State) (c : CoreId) : Nat :=
  let mine (u : Update) : Bool := u.slot && u.seat.any fun t => decide (t.core = c)
  (s.core c).slots + (s.links.map fun l => (l.2.filter fun p => p.holdsSlot c).length).sum +
    (s.seqrs.map fun q => (q.unperformed.filter mine).length).sum

/-- Append an entry of the executing seat to the store buffer; it counts in the seat's sequence. -/
def State.append (s : State) (va : Word) (bytes : List (Option Byte)) (vec extra : Bool) (after : List Nat)
    (cost : Nat) : Nat × State :=
  let (id, s) := s.fresh
  let e : SbEntry :=
    { id := id, va := va, bytes := bytes, seat := s.cur.seat, grp := s.me.grp, seq := s.me.storeSeq,
      priv := s.me.priv, vec := vec, after := after, extra := extra, key := s.keyFor cost, doomed := false,
      starts := s.me.starts, why := 0, held := 0, bench := s.bench }
  let s := s.modHere fun k => { k with sb := k.sb ++ [e] }
  (id, (s.modMe fun t => { t with storeSeq := t.storeSeq + 1 }).countInput)

/-- A scalar store of bytes. `after` names the accesses that must be over before its entry leaves. -/
def State.storeOp (s : State) (f : Form) (va : Word) (bs : List Byte) (after : List Nat) : State :=
  if !s.carriedOk va bs.length then s.raise cWindow va
  else
    match s.reach va bs.length .store with
    | (.trap c t, s) => s.raise c t
    | (.tmaps o, s) =>
      if (s.unperformed s.cur).isEmpty then (s.modHere fun k => k.writeTmaps o bs).complete f 1 .seq else s.stall 4
    | (_, s) =>
      if 16 ≤ s.slots s.cur.core then s.stall 4
      else (s.append va (bs.map some) false false after 1).2.complete f 1 .seq

/-! ## What homes perform (R16, R46, R47, R65, R207, R458) -/

/-- amo.fadd: RNE, old first among NaNs, no flag. -/
def amoFadd (n : Nat) (old v : Nat) : Nat := ((if n = 4 then Fmt.f32 else Fmt.f64).add .rne old v).bits

/-- The signed value of n bytes. -/
def signedOf (n x : Nat) : Int := if 256 ^ n ≤ 2 * x then (x : Int) - 256 ^ n else x

/-- The new value of an atomic, none when cas writes nothing. -/
def amoNew (f : AmoFun) (n : Nat) (old v e : Nat) : Option Nat :=
  match f with
  | .add => some ((old + v) % 256 ^ n)
  | .and => some (old &&& v)
  | .or => some (old ||| v)
  | .xor => some (old ^^^ v)
  | .min => some (if signedOf n old ≤ signedOf n v then old else v)
  | .max => some (if signedOf n v ≤ signedOf n old then old else v)
  | .minz => some (Nat.min old v)
  | .maxz => some (Nat.max old v)
  | .swap => some v
  | .fadd => some (amoFadd n old v)
  | .cas => if old = e then some v else none

/-- A guided claim of R46 on the fields of its object: start, count. -/
def claimCount (next end_ p mn d : Nat) : Nat :=
  let rem := if next < end_ then end_ - next else 0
  let q := Nat.max d 1 * Nat.max p 1
  if rem = 0 then 0 else Nat.min rem (Nat.max (Nat.max mn 1) ((rem + q - 1) / q))

/-- Where entry i of a work queue lies, with its leaf: at its virtual address for the requesting core; where that reaches no
home, behind the object in its own memory (log entry 8). -/
def State.entryHome (s : State) (c : CoreId) (va : Word) (home i : Nat) : Nat × Option TlbEntry :=
  let a := va + BitVec.ofNat 64 (32 + 8 * i)
  ((s.homeOf c a).getD (home + 32 + 8 * i),
    match s.spot c (s.core c).bench a with
    | .paged => s.peek c a
    | _ => none)

/-! ### Replicated pages (R346, R347, R355) -/

/-- The same bytes in the replica on a die. -/
def onDie (die : Nat) (bs : List (Nat × Byte)) : List (Nat × Byte) :=
  bs.map fun b => (b.1 % 2 ^ 39 + die * 2 ^ 39, b.2)

/-- The dies of a replica set. -/
def rsetDies (pte : Word) : List Nat := (List.range 4).filter fun i => (rset pte).getLsbD i

/-- The sequencer of a leaf's page, with nothing in it. -/
def Sequencer.ofLeaf (e : TlbEntry) : Sequencer :=
  let dies := rsetDies e.pte
  ⟨leafPa e.pte % 2 ^ 39, 2 ^ e.bits, leafPa e.pte / 2 ^ 39, dies, [], [], dies.map fun d => (d, 0)⟩

/-- Whether a sequencer is that of a leaf's page. -/
def Sequencer.is (q : Sequencer) (e : TlbEntry) : Bool :=
  decide (q.page = leafPa e.pte % 2 ^ 39) && decide (q.home = leafPa e.pte / 2 ^ 39)

/-- An update is on its way to its page's sequencer. A replica that the leaf names and the sequencer does not
know starts with every update so far, since supervisor software made the replicas equal. -/
def State.arriveUpdate (s : State) (u : Update) : State :=
  let e := u.leaf
  if s.seqrs.any fun q => q.is e then
    let join (q : Sequencer) : Sequencer :=
      if q.is e then
        { q with
          rset := rsetDies e.pte
          applied := (rsetDies e.pte).map fun d => (d, Tab.get q.applied d q.list.length)
          arriving := q.arriving ++ [u] }
      else q
    { s with seqrs := s.seqrs.map join }
  else { s with seqrs := s.seqrs ++ [{ Sequencer.ofLeaf e with arriving := [u] }] }

/-- An imprecise ECC, counted as it is found, is pending on a seat until its next boundary (R350). -/
def State.pendEcc (s : State) (t : SeatId) (va : Word) : State :=
  (s.count t.core none 0x26 1).modSeat t fun x => { x with pend := { x.pend with ecc := pendFirst x.pend.ecc va } }

/-- The address that an update writes first. -/
def Update.va (u : Update) : Word :=
  u.leaf.page + BitVec.ofNat 64 (((u.bytes.map (·.1)).headD 0) % 2 ^ u.leaf.bits)

/-- A replica applies an update. A discarded one makes ECC pending on the seat whose store it is; one that no seat stored is
counted by the replica's die. -/
def State.applyUpdate (s : State) (die : Nat) (u : Update) : State :=
  match s.writeCells (onDie die u.bytes), u.seat with
  | (true, s), _ => s
  | (false, s), some t => s.pendEcc t u.va
  | (false, s), none => s.countDie die 0x26 1

/-- The sequencing home takes in every update of a leaf's page that has reached it, in order, and its own replica applies
them: what an atomic on the page waits for (R346). -/
def State.catchUp (s : State) (e : TlbEntry) : State :=
  match s.seqrs.findIdx? (Sequencer.is · e) with
  | none => s
  | some i =>
    match s.seqrs[i]? with
    | none => s
    | some q =>
      let list := q.list ++ q.arriving
      let todo := list.drop (Tab.get q.applied q.home q.list.length)
      let q := { q with arriving := [], list := list, applied := Tab.set q.applied q.home list.length }
      todo.foldl (fun (s : State) u => s.applyUpdate q.home u) { s with seqrs := s.seqrs.set i q }

/-- The same for a leaf that may map no replicated page. -/
def State.caughtUp (s : State) (pte : Option TlbEntry) : State :=
  match pte with
  | some e => if e.repl then s.catchUp e else s
  | none => s

/-- Write cells of a seat's atomic at a home through a leaf: to a replicated page they are an update, which is sequenced and
which the home's replica has applied (R346). It counts among the seat's updates until every replica has applied it, so that
the seat's later load of the line waits for it (R208, R347). -/
def State.putThrough (s : State) (t : SeatId) (pte : Option TlbEntry) (cells : List (Nat × Byte)) : State :=
  match pte with
  | some e =>
    if e.repl then
      let (id, s) := s.fresh
      (s.arriveUpdate ⟨id, e, some t, false, false, cells⟩).catchUp e
    else (s.writeCells cells).2
  | none => (s.writeCells cells).2

/-- Where the key span of a work-queue entry is kept in deterministic mode (R457, R458). -/
def State.spanKey (s : State) (c : CoreId) (at_ : Nat) : Option (Nat × Nat) :=
  (s.det? c).bind fun p => p.ctx.map fun x => (x, p.virtHome at_)

/-- An access to an entry of a work queue claims its frame, and counts for its page (R348, R413). -/
def State.touchEntry (s : State) (c : CoreId) (at_ : Nat) (leaf : Option TlbEntry) : State :=
  let s := s.claimHome c at_
  match leaf with
  | some e => s.countPage c e
  | none => s

/-- Perform an operation of a seat at a home, in its single order. The address is that of the datum or object, and the
leaf is the one that translated it. -/
def State.perform (s : State) (t : SeatId) (op : HomeOp) (va : Word) (home : Nat) (size : Nat) (key : Key)
    (pte : Option TlbEntry) : Reply × State :=
  let c := t.core
  let s := if op = .load then s else s.caughtUp pte
  let m := s.mem
  let d (o : Nat) : Word := m.dword (home + o)
  let w (o : Nat) : Nat := leNat (m.bytes (home + o) 4)
  let put (s : State) (o n x : Nat) : State := s.putThrough t pte (cellsFrom (home + o) (natLe n x))
  let no : Reply := ⟨0, 0, Tag.zero, [], false⟩
  match op with
  | .load =>
    if s.badIn home size then ({ no with bad := true }, s) else ({ no with bytes := m.bytes home size }, s.correct c home size)
  | .amo f n v e =>
    if s.badIn home n then ({ no with bad := true }, s)
    else
      let old := leNat (m.bytes home n)
      let s := s.correct c home n
      let s := match amoNew f n old (v.toNat % 256 ^ n) (e.toNat % 256 ^ n) with
        | some x => put s 0 n x
        | none => s
      ({ no with r0 := loadValue n true (natLe n old) }, s)
  | .claim =>
    if s.badIn home 32 then ({ no with bad := true }, s)
    else
      let k := claimCount (d 0).toNat (d 8).toNat (w 16) (w 20) (w 24)
      let s := s.correct c home 32
      let s := if k = 0 then s else put s 0 8 (((d 0).toNat + k) % 2 ^ 64)
      ({ no with r0 := d 0, r1 := BitVec.ofNat 64 k }, s)
  | .enq v =>
    if s.badIn home 32 then ({ no with bad := true }, s)
    else
      let s := s.correct c home 32
      let lg := w 16
      if lg < 4 ∨ 24 < lg ∨ 2 ^ lg ≤ (d 8 - d 0).toNat then (no, s)
      else
        let (at_, leaf) := s.entryHome c va home ((d 8).toNat % 2 ^ lg)
        let s := s.touchEntry c at_ leaf
        if s.badIn at_ 8 then ({ no with bad := true }, s)
        else
          let s := put (s.putThrough t leaf (cellsFrom at_ (natLe 8 v.toNat))) 8 8 (((d 8).toNat + 1) % 2 ^ 64)
          ({ no with r0 := 1 },
            match s.spanKey c at_ with
            | some k => { s with wqSpans := s.wqSpans.set k key.span }
            | none => s)
  | .deqTry => takeEntry s no m put
  | .deq => takeEntry s no m put
  | .join arrival origin =>
    if s.badIn home 32 then ({ no with bad := true }, s)
    else
      let s := s.correct c home 32
      let n := (d 0).toNat
      if n = 0 then (no, s)
      else
        let field := Tag.ofBits (BitVec.ofNat 128 (leNat (m.bytes (home + 16) 16)))
        let x := chainJoin (arrival, origin) [field] 0
        let x := if n = 1 then (x.add 3) else x
        let s := s.putThrough t pte (cellsFrom home (natLe 8 (n - 1)) ++ cellsFrom (home + 16) (natLe 16 x.bits.toNat))
        ({ no with r0 := if n = 1 then 1 else 0, tag := x }, s)
where
  /-- Take the entry at the head of a work queue, if there is one. -/
  takeEntry (s : State) (no : Reply) (m : Memory) (put : State → Nat → Nat → Nat → State) : Reply × State :=
    let c := t.core
    if s.badIn home 32 then ({ no with bad := true }, s)
    else
      let s := s.correct c home 32
      let hd := m.dword home
      let tl := m.dword (home + 8)
      let lg := leNat (m.bytes (home + 16) 4)
      if lg < 4 ∨ 24 < lg ∨ hd = tl then (no, s)
      else
        let (at_, leaf) := s.entryHome c va home (hd.toNat % 2 ^ lg)
        let s := s.touchEntry c at_ leaf
        if s.badIn at_ 8 then ({ no with bad := true }, s)
        else
          let k := s.spanKey c at_
          let span := (k.map fun k => Tab.get s.wqSpans k 0).getD 0
          let v := s.mem.dword at_
          let s := put (s.correct c at_ 8) 0 8 (hd.toNat + 1)
          ({ no with r0 := v, r1 := 1, tag := { Tag.zero with span := sat48 span } },
            match k with
            | some k => { s with wqSpans := s.wqSpans.drop k }
            | none => s)

/-- The address of the entry that an operation on a work queue at a home reaches now, if it reaches one in paged memory. -/
def State.ringVa (s : State) (c : CoreId) (op : HomeOp) (va : Word) (home : Nat) : Option Word :=
  let hd := (s.mem.dword home).toNat
  let tl := (s.mem.dword (home + 8)).toNat
  let lg := leNat (s.mem.bytes (home + 16) 4)
  let at_ (i : Nat) : Option Word :=
    let a := va + BitVec.ofNat 64 (32 + 8 * (i % 2 ^ lg))
    if lg < 4 ∨ 24 < lg ∨ s.spot c (s.core c).bench a ≠ .paged then none else some a
  match op with
  | .enq _ => at_ tl
  | .deqTry => if hd = tl then none else at_ hd
  | .deq => if hd = tl then none else at_ hd
  | _ => none

/-- Whether an operation reaches its entry: its page's translation is there or has failed, and an entry to be written lies on
no page that is moving (R344, R348). `some k` is the wait kind of what holds it; a missing translation joins a walk. -/
def State.ringHeld (s : State) (c : CoreId) (op : HomeOp) (va : Word) (home : Nat) : Option Nat × State :=
  match s.ringVa c op va home with
  | none => (none, s)
  | some a =>
    match s.xlate c 6 a with
    | (.wait, s) => (some 4, s)
    | (.ok e, s) =>
      match op with
      | .enq _ => (if s.moving e then some 8 else none, s)
      | _ => (none, s)
    | (.fail _, s) => (none, s)

/-- A waiting deq takes the entry at the head of its queue, if one is there: its home answers it (R47). -/
def State.serveDeq (s : State) (w : DeqWait) : Option State :=
  match (s.seat w.seat).outs.find? fun o => o.id = w.id with
  | none => none
  | some o =>
    match s.perform w.seat .deq o.va w.home 32 ⟨0, 0, 0⟩ w.pte with
    | (r, t) =>
      if !r.bad ∧ r.r1 = 0 then none
      else
        let t : State := { t with deqs := t.deqs.filter fun x => x.id ≠ w.id }
        some (t.modSeat w.seat fun x => { x with
          outs := x.outs.map fun y => if y.id = o.id then { y with reply := some r, back := true } else y })

/-- The deqs that wait at a home are served in arrival order while entries are there. -/
def State.serveDeqs (s : State) (home : Nat) : List DeqWait → State
  | [] => s
  | w :: r =>
    if w.home ≠ home then s.serveDeqs home r
    else match s.serveDeq w with
      | some t => t.serveDeqs home r
      | none => s

/-- Perform an operation where deqs may wait: they take their entries before a later request does, and as an enq brings
one. -/
def State.performAt (s : State) (t : SeatId) (op : HomeOp) (va : Word) (home : Nat) (size : Nat) (key : Key)
    (pte : Option TlbEntry) : Reply × State :=
  match op with
  | .deq => let s := s.serveDeqs home s.deqs; s.perform t op va home size key pte
  | .deqTry => let s := s.serveDeqs home s.deqs; s.perform t op va home size key pte
  | .enq _ =>
    match (s.serveDeqs home s.deqs).perform t op va home size key pte with
    | (r, s) => (r, s.serveDeqs home s.deqs)
  | _ => s.perform t op va home size key pte

/-- Whether an operation on another die may meet a granule that is bad now: it then waits at issue for its answer, so
that its ECC is precise. A queue's entries may lie anywhere (log entry 67). -/
def State.mayMeetBad (s : State) (op : HomeOp) (home n : Nat) : Bool :=
  match op with
  | .load => s.badIn home n
  | .amo _ _ _ _ => s.badIn home n
  | .claim => s.badIn home 32
  | .join _ _ => s.badIn home 32
  | _ => !s.bad.isEmpty

/-! ## Atomics and the operations on objects (R205 to R208, R219 to R221, R458) -/

/-- A work-queue entry raises the span to the key span that it carries (R458); outside deterministic mode it
carries zero. -/
def Seat.raiseSpan (t : Seat) (x : Tag) : Seat :=
  if t.tag.span.toNat < x.span.toNat then { t with tag := ({ t.tag with span := x.span } : Tag).fix } else t

/-- A v register with element i of n bytes replaced. -/
def setElem (n i x : Nat) (v : VReg) : VReg :=
  let mask : VReg := BitVec.ofNat 8192 (256 ^ n - 1) <<< (8 * n * i)
  (v &&& ~~~mask) ||| (BitVec.ofNat 8192 (x % 256 ^ n) <<< (8 * n * i))

/-- Fill elements from the 64 bytes of the line that they lie in. -/
def fillElems (n : Nat) (els : List (Nat × Word)) (line : List Byte) (v : VReg) : VReg :=
  els.foldl (fun v e => setElem n e.1 (leNat ((line.drop (e.2.toNat % 64)).take n)) v) v

/-- What a returned value writes (R196, R207, R220, R221). A join writes no register. -/
def Seat.receive (t : Seat) (dest : Dest) (r : Reply) : Seat :=
  match dest with
  | .load d n signed fw =>
    t.wr d (loadValue n signed ((List.range n).map fun j => (fw.getD j none).getD (r.bytes.getD j 0)))
  | .amo d _ => t.wr d r.r0
  | .pair d b op =>
    match op with
    | .claim => (t.wr d r.r0).wr b r.r1
    | .enq _ => t.wr d r.r0
    | .deqTry => if r.r1 = 0 then t.wr b 0 else ((t.raiseSpan r.tag).wr d r.r0).wr b 1
    | .deq => (t.raiseSpan r.tag).wr d r.r0
    | _ => t
  | .join _ => t
  | .lanes n els fw =>
    { t with vprog := t.vprog.map fun v =>
      { v with data := fillElems n els ((List.range 64).map fun j => (fw.getD j none).getD (r.bytes.getD j 0)) v.data } }

/-- How an operation at a home is ordered by its instruction. -/
structure Order where
  acq : Bool
  rel : Bool
deriving DecidableEq, Repr

/-- An object of R46 or R47 lies in a scratchpad, in shared SRAM or in paged memory, never in a TCM. -/
def objectHome (home : Nat) : Bool := decide (home < 2 ^ 43)

/-- The identity of a request, its packet, and what the executing seat keeps of it. -/
def State.request (s : State) (op : HomeOp) (va : Word) (home n cost : Nat) (pte : Option TlbEntry) (dest : Dest)
    (whole : Bool) : Nat × State :=
  let (id, s) := s.fresh
  let s := s.sendPacket (dieOf s.cur.core) (dieOfHome home) (s.packet id home va n cost pte (.request op s.cur []))
  (id, s.keepOut ⟨id, s.me.pc, va, dest, cost, none, whole, false⟩)

/-- Perform an operation for the executing seat at a home of its own die. -/
def State.performHere (s : State) (op : HomeOp) (va : Word) (home n cost : Nat) (pte : Option TlbEntry) :
    Reply × State :=
  s.performAt s.cur op va home n (s.keyFor cost) pte

/-- A claim takes the seat's next kind-7 origin (R53, R220). -/
def State.claimOrigin (s : State) (claim : Bool) : State := if claim then (s.nextOrigin s.cur 7).2 else s

/-- Whether an operation is a claim. -/
def HomeOp.isClaim : HomeOp → Bool
  | .claim => true
  | _ => false

/-- Whether a request is a claim's. -/
def Dest.isClaim : Dest → Bool
  | .pair _ _ op => op.isClaim
  | _ => false

/-- The executing seat's request whose answer its instruction waits for at issue. -/
def Seat.waitsFor (t : Seat) : Option Outst := t.outs.find? fun o => o.whole

/-- Forget a request. -/
def Seat.dropOut (t : Seat) (id : Nat) : Seat := { t with outs := t.outs.filter fun o => o.id ≠ id }

/-- An instruction that waits at issue for the answer of its request, once it has it: an uncorrectable error is its precise
trap; otherwise it writes its registers and completes. -/
def State.whenBack (s : State) (f : Form) (o : Outst) : State :=
  match o.back, o.reply with
  | true, some r =>
    let s := s.modMe fun t => t.dropOut o.id
    if r.bad then s.raise cEcc o.va
    else (((s.claimOrigin o.dest.isClaim).countInput).modMe fun t => t.receive o.dest r).complete f o.cost .seq
  | _, _ => s.holdMe 10 false false

/-- A page that is moving holds a write of the executing seat to it as kind 8 (R348). -/
def State.unlessMoving (s : State) (pte : Option TlbEntry) (go : State → State) : State :=
  if (match pte with
      | some e => s.moving e
      | none => false) then s.stall 8
  else go s

/-- An operation of the executing seat on a work queue of its own die waits while its entry is held. -/
def State.onRing (s : State) (op : HomeOp) (va : Word) (home : Nat) (go : State → State) : State :=
  if dieOfHome home ≠ dieOf s.cur.core then go s
  else
    match s.ringHeld s.cur.core op va home with
    | (some k, s) => s.stall k
    | (none, s) => go s

/-- Whether an operation on another die waits at issue for its answer: it may meet a bad granule, or it is a deq.try in
deterministic mode, whose entry raises the span before a later instruction adds to it (R458). -/
def State.waitsWhole (s : State) (op : HomeOp) (home n : Nat) : Bool :=
  s.mayMeetBad op home n || (decide (op = .deqTry) && (s.det? s.cur.core).isSome)

/-- An atomic or an operation on an object, from its checks to its completion: `n` is the size that its address
must be a multiple of, `extra` what its cost adds to the load cost, `object` whether a TCM is refused. On another
die it leaves as a request, and its registers are written when the value returns. -/
def State.atomicOp (s : State) (f : Form) (op : HomeOp) (va : Word) (n : Nat) (object : Bool) (o : Order)
    (dest : Dest) : State :=
  if !s.carriedOk va n then s.raise cWindow va
  else
    match s.reach va n .atomic with
    | (.trap c t, s) => s.raise c t
    | (.wait, s) => s.stall 4
    | (.mem home _ pte, s) =>
      if object && !objectHome home then s.raise cWindow va
      else
        let wait (go : State → State) : State := if o.rel then s.releaseWait fun s => s.crossWait go else s.fenceWait go
        wait fun s => s.unlessMoving pte fun s =>
          let cost := s.loadCost s.cur.core va home + 4
          s.awake home fun s =>
            s.ordered cost (homeId home) fun s => s.onBanks home n fun s =>
              (s.claimHome s.cur.core home).onRing op va home fun s =>
              let s := match pte with
                | some e => s.countPage s.cur.core e
                | none => s
              if dieOfHome home = dieOf s.cur.core then
                match s.performHere op va home n cost pte with
                | (r, s) =>
                  if r.bad then s.raise cEcc va
                  else
                    (((s.claimOrigin op.isClaim).countInput).modMe fun t => t.receive dest r).complete f cost .seq
              else
                let whole := s.waitsWhole op home n
                let (id, s) := (s.claimOrigin (op.isClaim && !whole)).request op va home n cost pte dest whole
                if whole then s.holdMe 10 false false
                else (if o.acq then s.gate [id] [id] else s).countInput.complete f cost .seq
    | (_, s) => s.raise cWindow va

/-! ## The counted seats of deterministic mode (R455, R456) -/

/-- A seat is counted while it holds live work, unless it is blocked on m0 to m3, in dwait or in a deq that has no answer
(R455). -/
def Core.counted (k : Core) (i : Fin 4) : Bool :=
  let t := k.seats[i]
  t.work.isSome &&
    match t.hold with
    | none => true
    | some h =>
      let channel := (List.finRange 8).any fun m => decide (m.val < 4) && (k.readers[m]).contains i
      let deq := match t.waitsFor with
        | some o => (match o.dest with
          | .pair _ _ .deq => o.reply.isNone
          | _ => false)
        | none => false
      !(decide (h.kind = 11) || (decide (h.kind = 0) && (channel || deq)))

/-- The running span of a seat as the horizon counts it: that of the input which waits at an ordered point, after its
cost, and of the entry that its home has served (R454, R455; DEDUCED, log entry 89). -/
def Seat.runSpan (t : Seat) : Nat :=
  let held := match t.hold.bind Hold.det with
    | some d => d.1.span
    | none => 0
  let served := match t.waitsFor.bind Outst.reply with
    | some r => r.tag.span.toNat
    | none => 0
  Nat.max t.tag.span.toNat (Nat.max held served)

/-- In deterministic mode a counted seat issues only when its running span and number are the lowest of the core's
counted seats (R456). -/
def State.mayIssue (s : State) : Bool :=
  (s.det? s.cur.core).isNone || !s.here.counted s.cur.seat ||
    (List.finRange 4).all fun i =>
      let t := s.here.seats[i]
      !s.here.counted i || decide (s.me.runSpan < t.runSpan) ||
        (decide (s.me.runSpan = t.runSpan) && decide (s.cur.seat ≤ i))

end Sys2Proof.Machine
end

