-- ==== Sys2Proof/Machine/Scalar.lean ====
section
/-!
DEFINITION. The integer instructions on the g registers (R136 to R141) and their 16-bit aliases (R121).
-/

namespace Sys2Proof.Machine

/-! ## The operations of R137 and R139 as functions of their operands -/

/-- A 32-bit word's form. -/
abbrev w32 (energy : Nat) (i : Instr) : Form := ⟨4, energy, i.tval⟩

/-- A 16-bit parcel's form: E0 (R120). -/
abbrev w16 (i : Instr) : Form := ⟨2, 0, i.tval⟩

/-- The sign-extended 11-bit immediate (R105). -/
def sx11 (i : BitVec 11) : Word := i.signExtend 64

/-- The sign-extended 5-bit immediate of a parcel (R120). -/
def sx5 (i : BitVec 5) : Word := i.signExtend 64

/-- The signed smaller of two words. -/
def sminW (x y : Word) : Word := if x.slt y then x else y

/-- The signed larger of two words. -/
def smaxW (x y : Word) : Word := if x.slt y then y else x

/-- The shift amount of an operand, modulo 64. -/
def amount (y : Word) : Nat := y.toNat % 64

/-- Signed division of R138. -/
def divW (x y : Word) : Word :=
  if y = 0 then BitVec.allOnes 64
  else if x = BitVec.intMin 64 ∧ y = BitVec.allOnes 64 then x
  else BitVec.ofInt 64 (x.toInt.tdiv y.toInt)

/-- Signed remainder of R138. -/
def remW (x y : Word) : Word :=
  if y = 0 then x
  else if x = BitVec.intMin 64 ∧ y = BitVec.allOnes 64 then 0
  else BitVec.ofInt 64 (x.toInt - y.toInt * x.toInt.tdiv y.toInt)

/-- Unsigned division of R138. -/
def divzW (x y : Word) : Word := if y = 0 then BitVec.allOnes 64 else x / y

/-- Unsigned remainder of R138. -/
def remzW (x y : Word) : Word := if y = 0 then x else x % y

/-- High half of the signed product. -/
def mulhW (x y : Word) : Word := BitVec.ofInt 64 (x.toInt * y.toInt / 2 ^ 64)

/-- High half of the unsigned product. -/
def mulhzW (x y : Word) : Word := BitVec.ofNat 64 (x.toNat * y.toNat / 2 ^ 64)

/-- Zero bits above the highest one bit; 64 for zero. -/
def clzW (x : Word) : Word := if x = 0 then 64 else BitVec.ofNat 64 (63 - x.toNat.log2)

/-- Zero bits below the lowest one bit; 64 for zero. -/
def ctzW (x : Word) : Word := BitVec.ofNat 64 ((List.range 64).findIdx fun i => x.getLsbD i)

/-- The number of one bits. -/
def popcW (x : Word) : Word := BitVec.ofNat 64 ((List.range 64).filter fun i => x.getLsbD i).length

/-- The width that a code of sext and zext names (R109). -/
def extBits (w : BitVec 5) : Nat := if w = 0 then 8 else if w = 1 then 16 else 32

/-- Sign extension of the low n bits. -/
def sextW (n : Nat) (x : Word) : Word := (x.extractLsb' 0 n).signExtend 64

/-- Zero extension of the low n bits. -/
def zextW (n : Nat) (x : Word) : Word := (x.extractLsb' 0 n).setWidth 64

/-- The lowest bit of the field that gB describes, and its width clipped at bit 63 (R139). -/
def fieldOf (y : Word) : Nat × Nat :=
  let lo := y.toNat % 64
  (lo, Nat.min ((y.extractLsb' 6 6).toNat + 1) (64 - lo))

/-- Ones in the low n bits. -/
def lowMask (n : Nat) : Word := BitVec.ofNat 64 (2 ^ n - 1)

/-- bext. -/
def bextW (x y : Word) : Word := (x >>> (fieldOf y).1) &&& lowMask (fieldOf y).2

/-- bins on the old value of gD. -/
def binsW (old x y : Word) : Word :=
  let m := lowMask (fieldOf y).2 <<< (fieldOf y).1
  (old &&& ~~~m) ||| ((x <<< (fieldOf y).1) &&& m)

/-- One if a condition holds. -/
def oneIf (b : Bool) : Word := if b then 1 else 0

/-- An instruction that writes one g register and goes on. -/
def State.alu (s : State) (f : Form) (d : Reg) (x : Word) (cost : Nat) : Out State :=
  .next ((s.setG d x).complete f cost .seq)

/-! ## The register forms -/

/-- `add` (R137). -/
def execAdd (d a b : Reg) (s : State) : Out State :=
  s.alu (w32 0 (.add d a b)) d (s.g a + s.g b) 1

/-- `sub` (R137). -/
def execSub (d a b : Reg) (s : State) : Out State :=
  s.alu (w32 0 (.sub d a b)) d (s.g a - s.g b) 1

/-- `and` (R137). -/
def execAnd (d a b : Reg) (s : State) : Out State :=
  s.alu (w32 0 (.and d a b)) d (s.g a &&& s.g b) 1

/-- `or` (R137). -/
def execOr (d a b : Reg) (s : State) : Out State :=
  s.alu (w32 0 (.or d a b)) d (s.g a ||| s.g b) 1

/-- `xor` (R137). -/
def execXor (d a b : Reg) (s : State) : Out State :=
  s.alu (w32 0 (.xor d a b)) d (s.g a ^^^ s.g b) 1

/-- `andn` (R137). -/
def execAndn (d a b : Reg) (s : State) : Out State :=
  s.alu (w32 0 (.andn d a b)) d (s.g a &&& ~~~(s.g b)) 1

/-- `orn` (R137). -/
def execOrn (d a b : Reg) (s : State) : Out State :=
  s.alu (w32 0 (.orn d a b)) d (s.g a ||| ~~~(s.g b)) 1

/-- `min` (R137). -/
def execMin (d a b : Reg) (s : State) : Out State :=
  s.alu (w32 0 (.min d a b)) d (sminW (s.g a) (s.g b)) 1

/-- `max` (R137). -/
def execMax (d a b : Reg) (s : State) : Out State :=
  s.alu (w32 0 (.max d a b)) d (smaxW (s.g a) (s.g b)) 1

/-- `minz` (R137). -/
def execMinz (d a b : Reg) (s : State) : Out State :=
  s.alu (w32 0 (.minz d a b)) d (if s.g a < s.g b then s.g a else s.g b) 1

/-- `maxz` (R137). -/
def execMaxz (d a b : Reg) (s : State) : Out State :=
  s.alu (w32 0 (.maxz d a b)) d (if s.g a < s.g b then s.g b else s.g a) 1

/-- `sll` (R137). -/
def execSll (d a b : Reg) (s : State) : Out State :=
  s.alu (w32 0 (.sll d a b)) d (s.g a <<< amount (s.g b)) 1

/-- `srl` (R137). -/
def execSrl (d a b : Reg) (s : State) : Out State :=
  s.alu (w32 0 (.srl d a b)) d (s.g a >>> amount (s.g b)) 1

/-- `sra` (R137). -/
def execSra (d a b : Reg) (s : State) : Out State :=
  s.alu (w32 0 (.sra d a b)) d ((s.g a).sshiftRight (amount (s.g b))) 1

/-- `rol` (R137). -/
def execRol (d a b : Reg) (s : State) : Out State :=
  s.alu (w32 0 (.rol d a b)) d ((s.g a).rotateLeft (amount (s.g b))) 1

/-- `ror` (R137). -/
def execRor (d a b : Reg) (s : State) : Out State :=
  s.alu (w32 0 (.ror d a b)) d ((s.g a).rotateRight (amount (s.g b))) 1

/-- `slt` (R137). -/
def execSlt (d a b : Reg) (s : State) : Out State :=
  s.alu (w32 0 (.slt d a b)) d (oneIf ((s.g a).slt (s.g b))) 1

/-- `sltz` (R137). -/
def execSltz (d a b : Reg) (s : State) : Out State :=
  s.alu (w32 0 (.sltz d a b)) d (oneIf (decide (s.g a < s.g b))) 1

/-- `div` (R138). -/
def execDiv (d a b : Reg) (s : State) : Out State :=
  s.alu (w32 1 (.div d a b)) d (divW (s.g a) (s.g b)) 20

/-- `divz` (R138). -/
def execDivz (d a b : Reg) (s : State) : Out State :=
  s.alu (w32 1 (.divz d a b)) d (divzW (s.g a) (s.g b)) 20

/-- `rem` (R138). -/
def execRem (d a b : Reg) (s : State) : Out State :=
  s.alu (w32 1 (.rem d a b)) d (remW (s.g a) (s.g b)) 20

/-- `remz` (R138). -/
def execRemz (d a b : Reg) (s : State) : Out State :=
  s.alu (w32 1 (.remz d a b)) d (remzW (s.g a) (s.g b)) 20

/-- `mul` (R137). -/
def execMul (d a b : Reg) (s : State) : Out State :=
  s.alu (w32 1 (.mul d a b)) d (s.g a * s.g b) 3

/-- `mulh` (R137). -/
def execMulh (d a b : Reg) (s : State) : Out State :=
  s.alu (w32 1 (.mulh d a b)) d (mulhW (s.g a) (s.g b)) 3

/-- `mulhz` (R137). -/
def execMulhz (d a b : Reg) (s : State) : Out State :=
  s.alu (w32 1 (.mulhz d a b)) d (mulhzW (s.g a) (s.g b)) 3

/-- `bext` (R139). -/
def execBext (d a b : Reg) (s : State) : Out State :=
  s.alu (w32 0 (.bext d a b)) d (bextW (s.g a) (s.g b)) 1

/-- `clz` (R137). -/
def execClz (d a : Reg) (s : State) : Out State := s.alu (w32 0 (.clz d a)) d (clzW (s.g a)) 1

/-- `ctz` (R137). -/
def execCtz (d a : Reg) (s : State) : Out State := s.alu (w32 0 (.ctz d a)) d (ctzW (s.g a)) 1

/-- `popc` (R137). -/
def execPopc (d a : Reg) (s : State) : Out State := s.alu (w32 0 (.popc d a)) d (popcW (s.g a)) 1

/-- `sext` (R137); a width code above 2 raises ILLEGAL (R109). -/
def execSext (d a : Reg) (w : BitVec 5) (s : State) : Out State :=
  if 2 < w.toNat then .next (s.raise cIllegal (Instr.sext d a w).tval)
  else s.alu (w32 0 (.sext d a w)) d (sextW (extBits w) (s.g a)) 1

/-- `zext` (R137); a width code above 2 raises ILLEGAL (R109). -/
def execZext (d a : Reg) (w : BitVec 5) (s : State) : Out State :=
  if 2 < w.toNat then .next (s.raise cIllegal (Instr.zext d a w).tval)
  else s.alu (w32 0 (.zext d a w)) d (zextW (extBits w) (s.g a)) 1

/-- `bins` (R139); it reads its destination. -/
def execBins (d a b : Reg) (s : State) : Out State :=
  s.alu (w32 0 (.bins d a b)) d (binsW (s.g d) (s.g a) (s.g b)) 1

/-! ## The immediate forms (R140, R141) -/

/-- `addi` (R140). -/
def execAddi (d a : Reg) (imm : BitVec 11) (s : State) : Out State :=
  s.alu (w32 0 (.addi d a imm)) d (s.g a + sx11 imm) 1

/-- `andi` (R140). -/
def execAndi (d a : Reg) (imm : BitVec 11) (s : State) : Out State :=
  s.alu (w32 0 (.andi d a imm)) d (s.g a &&& sx11 imm) 1

/-- `ori` (R140). -/
def execOri (d a : Reg) (imm : BitVec 11) (s : State) : Out State :=
  s.alu (w32 0 (.ori d a imm)) d (s.g a ||| sx11 imm) 1

/-- `xori` (R140). -/
def execXori (d a : Reg) (imm : BitVec 11) (s : State) : Out State :=
  s.alu (w32 0 (.xori d a imm)) d (s.g a ^^^ sx11 imm) 1

/-- `slti` (R140). -/
def execSlti (d a : Reg) (imm : BitVec 11) (s : State) : Out State :=
  s.alu (w32 0 (.slti d a imm)) d (oneIf ((s.g a).slt (sx11 imm))) 1

/-- `slli` (R140). -/
def execSlli (d a : Reg) (sh : BitVec 6) (s : State) : Out State := s.alu (w32 0 (.slli d a sh)) d (s.g a <<< sh.toNat) 1

/-- `srli` (R140). -/
def execSrli (d a : Reg) (sh : BitVec 6) (s : State) : Out State := s.alu (w32 0 (.srli d a sh)) d (s.g a >>> sh.toNat) 1

/-- `srai` (R140). -/
def execSrai (d a : Reg) (sh : BitVec 6) (s : State) : Out State := s.alu (w32 0 (.srai d a sh)) d ((s.g a).sshiftRight sh.toNat) 1

/-- `lui` (R141). -/
def execLui (d : Reg) (imm : BitVec 16) (s : State) : Out State :=
  s.alu (w32 0 (.lui d imm)) d (imm.signExtend 64 <<< 16) 1

/-- `addpc` (R141): the instruction's own address is added. -/
def execAddpc (d : Reg) (imm : BitVec 16) (s : State) : Out State :=
  s.alu (w32 0 (.addpc d imm)) d (s.me.pc + (imm.signExtend 64 <<< 1)) 1

/-! ## The 16-bit aliases (R121) -/

/-- The parcel of `sub gD, gD, gA`. -/
def execSub16 (d a : Reg) (s : State) : Out State := s.alu (w16 (.sub16 d a)) d (s.g d - s.g a) 1

/-- The parcel of `and gD, gD, gA`. -/
def execAnd16 (d a : Reg) (s : State) : Out State := s.alu (w16 (.and16 d a)) d (s.g d &&& s.g a) 1

/-- The parcel of `or gD, gD, gA`. -/
def execOr16 (d a : Reg) (s : State) : Out State := s.alu (w16 (.or16 d a)) d (s.g d ||| s.g a) 1

/-- The parcel of `xor gD, gD, gA`. -/
def execXor16 (d a : Reg) (s : State) : Out State := s.alu (w16 (.xor16 d a)) d (s.g d ^^^ s.g a) 1

/-- The parcel of `slt gD, gD, gA`. -/
def execSlt16 (d a : Reg) (s : State) : Out State := s.alu (w16 (.slt16 d a)) d (oneIf ((s.g d).slt (s.g a))) 1

/-- The parcel of `sll gD, gD, gA`. -/
def execSll16 (d a : Reg) (s : State) : Out State := s.alu (w16 (.sll16 d a)) d (s.g d <<< amount (s.g a)) 1

/-- The parcel of `srl gD, gD, gA`. -/
def execSrl16 (d a : Reg) (s : State) : Out State := s.alu (w16 (.srl16 d a)) d (s.g d >>> amount (s.g a)) 1

/-- The parcel of `sra gD, gD, gA`. -/
def execSra16 (d a : Reg) (s : State) : Out State := s.alu (w16 (.sra16 d a)) d ((s.g d).sshiftRight (amount (s.g a))) 1

/-- The parcel of `mul gD, gD, gA`. -/
def execMul16 (d a : Reg) (s : State) : Out State := s.alu (w16 (.mul16 d a)) d (s.g d * s.g a) 3

/-- The parcel of `min gD, gD, gA`. -/
def execMin16 (d a : Reg) (s : State) : Out State := s.alu (w16 (.min16 d a)) d (sminW (s.g d) (s.g a)) 1

/-- The parcel of `max gD, gD, gA`. -/
def execMax16 (d a : Reg) (s : State) : Out State := s.alu (w16 (.max16 d a)) d (smaxW (s.g d) (s.g a)) 1

/-- The parcel of `andn gD, gD, gA`. -/
def execAndn16 (d a : Reg) (s : State) : Out State := s.alu (w16 (.andn16 d a)) d (s.g d &&& ~~~(s.g a)) 1

/-- The parcel of `addi gD, gD, #s5`. -/
def execAddi16 (d : Reg) (imm : BitVec 5) (s : State) : Out State :=
  s.alu (w16 (.addi16 d imm)) d (s.g d + sx5 imm) 1

/-- The parcel of `mov gD, gA`. -/
def execMov16 (d a : Reg) (s : State) : Out State := s.alu (w16 (.mov16 d a)) d (s.g a ||| s.g 0) 1

/-- The parcel of `andi gD, gD, #s5`. -/
def execAndi16 (d : Reg) (imm : BitVec 5) (s : State) : Out State :=
  s.alu (w16 (.andi16 d imm)) d (s.g d &&& sx5 imm) 1

/-- The parcel of `srli gD, gD, #u5`. -/
def execSrli16 (d : Reg) (imm : BitVec 5) (s : State) : Out State :=
  s.alu (w16 (.srli16 d imm)) d (s.g d >>> imm.toNat) 1

/-- The parcel of `srai gD, gD, #u5`. -/
def execSrai16 (d : Reg) (imm : BitVec 5) (s : State) : Out State :=
  s.alu (w16 (.srai16 d imm)) d ((s.g d).sshiftRight imm.toNat) 1

end Sys2Proof.Machine
end

