-- ==== Sys2Proof/Machine/Engines.lean ====
section
/-!
DEFINITION. What the engines share (R224 to R227, R257 to R260, R277, R350, R436): pushes, the output FIFOs, the
done counters, and the retirement of commands. A command's own effects are in the files of its engine.
-/

namespace Sys2Proof.Machine

/-! ## The fields of a command (R257) -/

/-- DC. -/
def Cmd.dc (c : Cmd) : Bool := c.img.getLsbD 8

/-- OF. -/
def Cmd.outs (c : Cmd) : Bool := c.img.getLsbD 9

/-- The done counter that a command counts in, if it names one. -/
def ctrOf (img : BitVec 512) : Option (BitVec 3) :=
  if img.getLsbD 8 ∧ (img.extractLsb' 16 8).toNat ≤ 7 then some (img.extractLsb' 16 3) else none

/-- Whether the header breaks R257, or a byte from 8 on that the layout does not name is not zero (status 2). -/
def Cmd.malformed (c : Cmd) (named : List Nat) : Bool :=
  decide (c.byte 1 / 4 ≠ 0) || decide (c.byte 3 ≠ 0) ||
    (if c.dc then decide (7 < c.byte 2) else decide (c.byte 2 ≠ 255)) ||
    (List.range 56).any fun i => decide (c.byte (i + 8) ≠ 0) && !named.contains (i + 8)

/-- The lowest status among those whose condition holds (R276). -/
def lowest : List (Bool × Nat) → Option Nat
  | [] => none
  | (b, n) :: r => if b then some n else lowest r

/-! ## The engines of a core -/

/-- The origin kind of a pushed command (R17, R53). -/
def originKind (e : Engine) (code : Nat) : Fin 9 :=
  match e with
  | .mx => 3
  | .cp => 4
  | .sn => if code = 2 ∨ code = 4 ∨ code = 5 then 6 else 5

/-- A command's tag when it is over (R68): its cost if it completed, its origin as last, and GAP. -/
def Cmd.endTag (c : Cmd) (cost : Nat) : Tag :=
  ((if c.gap then c.tag.setFlag 2 true else c.tag).add cost |> fun t => { t with last := c.origin })

/-- A started command that has done nothing yet. -/
def Run.start (c : Cmd) : Run :=
  { cmd := c, step := 0, s0 := 0, s1 := 0, acc := [], scan := none, seg := false, found := 0, lost := 0,
    inst := none, waits := [], bytes := [], reads := [], heldBy := none, walks := false, why := 0, held := 0, fin := none,
    tag := c.tag }

/-- A command that ends with a status and a COUNT. -/
def Run.finish (r : Run) (cost status count : Nat) : Run :=
  { r with fin := some (BitVec.ofNat 8 status, BitVec.ofNat 16 count), tag := r.cmd.endTag cost }

/-- Close the open interval of a queued command. -/
def Cmd.closeHeld (x : Cmd) (rate : BitVec 32) : Cmd := { x with tag := x.tag.charge 1 (toRef x.held rate), held := 0 }

/-- Close the open interval of a run and charge it to its command (R60, R348). -/
def Run.closeHeld (r : Run) (rate : BitVec 32) : Run :=
  { r with cmd := { r.cmd with tag := r.cmd.tag.charge r.why (toRef r.held rate) }, held := 0 }

/-- The hold of a run's unit is over. -/
def Run.free (r : Run) (rate : BitVec 32) : Run := { r.closeHeld rate with heldBy := none, walks := false, why := 0 }

/-- Why a run's unit is held: 8 for a page that is moving, 4 for a walk, a sleeping cluster or a bank, or 0. -/
def Run.holdKind (r : Run) (moving : TlbEntry → Bool) : Nat :=
  if r.fin.isSome then 0 else if r.heldBy.any moving then 8 else if r.walks then 4 else 0

/-- A run after a local cycle: an interval goes on while its reason does (R59). -/
def Run.aged (r : Run) (rate : BitVec 32) (kind : Nat) : Run :=
  if kind = r.why then (if kind = 0 then r else { r with held := r.held + 1 })
  else { r.closeHeld rate with why := kind, held := if kind = 0 then 0 else 1 }

/-- An element of the output FIFO (R260, R302, R431). -/
def Run.element (r : Run) : Word :=
  let f := r.fin.getD (0, 0)
  BitVec.ofNat 32 (r.cmd.field 4 4) ++ BitVec.ofNat 8 r.cmd.code ++ f.1 ++ f.2

/-- Whether a status is a fault of its engine (R276, R303, R434). -/
def isFault (e : Engine) (st : BitVec 8) : Bool :=
  decide (1 ≤ st.toNat) && decide (st.toNat ≤ (if e = .cp then 9 else 6))

/-- A command that has faulted and not yet taken its place. -/
def EngineQ.faulted (q : EngineQ) (e : Engine) : Bool :=
  q.run.any fun r =>
    match r.fin with
    | some f => isFault e f.1
    | none => false

/-- A completion that waits for room in a full FIFO; it keeps the engine from starting anything (R225). -/
def EngineQ.jammed (q : EngineQ) : Bool :=
  decide (8 ≤ q.fifo.length) &&
    match q.run with
    | r :: _ =>
      match r.fin with
      | some f => r.cmd.outs || decide (f.1 ≠ 0)
      | none => false
    | [] => false

/-- Whether the partition of a core is stopped for pre-emption (R402). -/
def State.stopped (s : State) (c : CoreId) : Bool :=
  match s.partOf c with
  | some p => p.stop
  | none => false

/-- The command at the head of a queue, if nothing but its own description can keep it from starting (R224,
R258, R277): its pusher's earlier stores have performed, and the engine is not held, stopped or jammed. -/
def State.startable (s : State) (c : CoreId) (e : Engine) : Option Cmd :=
  let q := (s.core c).q e
  if q.held || q.faulted e || q.jammed || s.stopped c then none
  else
    match q.queue with
    | x :: _ => if x.after.any s.unplayed then none else some x
    | [] => none

/-- Take the head command out of its queue as it starts: its own kind-1 interval is charged (R60, R68). -/
def State.takeHead (s : State) (c : CoreId) (e : Engine) : Cmd × State :=
  let rate := (s.region (s.regionOf c)).rate
  let q := (s.core c).q e
  match q.queue with
  | x :: r =>
    let x := x.closeHeld rate
    (x, s.modCore c fun k => k.modQ e fun q => { q with queue := r })
  | [] => (⟨0, 0, 0, 0, 0, 0, none, 0, Tag.zero, ⟨0, 0, 0⟩, [], 0, false, false⟩, s)

/-- Add a started command to those under way. -/
def State.addRun (s : State) (c : CoreId) (e : Engine) (r : Run) : State :=
  s.modCore c fun k => k.modQ e fun q => { q with run := q.run ++ [r] }

/-- Change the first command under way that meets a test. -/
def modFirst (p : Run → Bool) (f : Run → Run) : List Run → List Run
  | [] => []
  | r :: rs => if p r then f r :: rs else r :: modFirst p f rs

/-- Change the running command of a core's engine that has the given codes. -/
def State.modRun (s : State) (c : CoreId) (e : Engine) (codes : List Nat) (f : Run → Run) : State :=
  s.modCore c fun k => k.modQ e fun q =>
    { q with run := modFirst (fun r => r.fin.isNone && codes.contains r.cmd.code) f q.run }

/-- The running command of a core's engine that has one of the given codes. -/
def Core.running (k : Core) (e : Engine) (codes : List Nat) : Option Run :=
  (k.q e).run.find? fun r => r.fin.isNone && codes.contains r.cmd.code

/-- Start the head command and have it end at once with a fault's status. -/
def State.startFault (s : State) (c : CoreId) (e : Engine) (status : Nat) : State :=
  let (x, s) := s.takeHead c e
  s.addRun c e ((Run.start x).finish 0 status 0)

/-! ## Pushes (R224, R257, R271, R277, R436) -/

/-- The point of an engine's command queue in the order of deterministic mode (R454). -/
def pushPoint (c : CoreId) (e : Engine) : Nat :=
  2 ^ 64 + coreIndex c * 4 + (match e with | .mx => 0 | .cp => 1 | .sn => 2)

/-- The bytes that an MMAV copies at its push: lanes 0 to 511 of v(va) to v(va + 7), as many as exist (R271). -/
def Seat.mmavCopy (t : Seat) (va : Nat) : BitVec 4096 :=
  (List.range 8).foldl (fun (x : BitVec 4096) r =>
    if h : va + r < 32 then x ||| ((t.v[va + r].setWidth 512).setWidth 4096 <<< (512 * r)) else x) 0

/-- Clear HELD of the copy engine and continue its command (R436): from its unit, or from its start checks if it
failed those, since it has no unit then. -/
def Core.resumeCp (k : Core) : Core :=
  k.modQ .cp fun q =>
    match q.heldRun with
    | some r =>
      let q := { q with held := false, heldRun := none }
      match r.fin with
      | some (st, _) =>
        if st.toNat ≤ 5 then { q with queue := r.cmd :: q.queue }
        else { q with run := { r with fin := none, tag := r.cmd.tag } :: q.run }
      | none => q
    | none => q

/-- The copy engine counts the commands pushed to it (R441). -/
def Core.countPush (k : Core) (e : Engine) : Core :=
  if e = .cp then { k with cp := { k.cp with count := k.cp.count + 1 } } else k

/-- Push the 64 bytes of a command to an engine of the executing core, at an instruction's span cost. -/
def State.pushOp (s : State) (f : Form) (e : Engine) (img : BitVec 512) (cost : Nat) : State :=
  let q := s.here.q e
  let code := (img.extractLsb' 0 8).toNat
  if e = .cp ∧ code = 7 ∧ q.held then (s.modHere Core.resumeCp).complete f cost .seq
  else if 2 ≤ q.queue.length then
    if q.held && !s.streaming then s.raise cEngine (match q.heldRun with | some r => r.element | none => 0)
    else s.stall 1
  else
    s.ordered cost (pushPoint s.cur.core e) fun s =>
      let s := s.closeHold s.cur
      let (o, s) := s.nextOrigin s.cur (originKind e code)
      let t := s.me
      let x : Cmd :=
        { img := img, regs := if e = .mx ∧ code = 9 then t.mmavCopy (img.extractLsb' 72 8).toNat
            else if e = .cp then BitVec.ofNat 4096 (s.here.cp.count + 1) else 0,
          seat := s.cur.seat, starts := t.starts, grp := t.grp, priv := t.priv, ctr := ctrOf img, origin := o,
          tag := t.tag.add cost, key := s.keyFor cost, after := s.unplayedOf s.cur, held := 0, gap := false,
          dropped := false }
      let issue (k : Core) : Core :=
        match x.ctr with
        | some n =>
          let d := k.done[n.toNat]'n.isLt
          { k with done := k.done.set n.toNat { d with i := d.i + 1 } n.isLt }
        | none => k
      let s := s.modHere fun k => ((issue k).countPush e).modQ e fun q => { q with queue := q.queue ++ [x] }
      s.countInput.complete f cost .seq

/-- `mxpush` (R224): lanes 0 to 511 of vA. -/
def execMxpush (a : Reg) (s : State) : Out State :=
  .next (s.pushOp (w32 1 (.mxpush a)) .mx ((s.me.v[a.toNat]'a.isLt).setWidth 512) 1)

/-- `cppush` (R224). -/
def execCppush (a : Reg) (s : State) : Out State :=
  .next (s.pushOp (w32 1 (.cppush a)) .cp ((s.me.v[a.toNat]'a.isLt).setWidth 512) 1)

/-- `snpush` (R224). -/
def execSnpush (a : Reg) (s : State) : Out State :=
  .next (s.pushOp (w32 1 (.snpush a)) .sn ((s.me.v[a.toNat]'a.isLt).setWidth 512) 1)

/-! ## The output FIFOs (R225) -/

/-- The engine that a code of epop names. -/
def engineOf (e : BitVec 5) : Option Engine :=
  if e = 0 then some .mx else if e = 1 then some .cp else if e = 2 then some .sn else none

/-- The commands and records that meet a test have been observed (R455). -/
def Core.observe (k : Core) (p : Unseen → Bool) : Core := { k with unseen := k.unseen.filter fun u => !p u }

/-- The oldest element of an engine's FIFO has been observed. -/
def Core.observePop (k : Core) (e : Engine) : Core :=
  { k with unseen := k.unseen.eraseP fun u => decide (u.fifo = some e) }

/-- Whether an input that an instruction takes in counts as arriving last: it waited for it (R69), and in deterministic mode
the input's key is larger than the seat's (R454). -/
def State.takesLast (s : State) (key : Option Key) : Bool :=
  match s.det? s.cur.core, key with
  | some _, some k => (s.keyFor 0).lt k
  | _, _ => s.waited

/-- Take in a tag at an instruction: the open interval is closed first (R69). -/
def State.takeTag (s : State) (t : Tag) (key : Option Key) : State :=
  let w := s.takesLast key
  (s.closeHold s.cur).modMe fun x => { x with tag := x.tag.take t w }

/-- epop: the oldest element, or a wait for one that will come; none to come raises ILLEGAL. -/
def State.epopOp (s : State) (f : Form) (d : Reg) (e : BitVec 5) : Out State :=
  match engineOf e with
  | none => .next (s.raise cIllegal f.tval)
  | some e =>
    let q := s.here.q e
    match q.fifo with
    | (x, t) :: r =>
      let key := (s.here.unseen.find? fun u => decide (u.fifo = some e)).map (·.key)
      let s := s.modHere fun k => (k.modQ e fun q => { q with fifo := r }).observePop e
      .next (((s.takeTag t key).setG d x).complete f 1 .seq)
    | [] =>
      if q.queue.any Cmd.outs || q.run.any (fun r => r.cmd.outs) then .next (s.holdMe 0 false false)
      else .next (s.raise cIllegal f.tval)

/-- `epop` (R225). -/
def execEpop (d : Reg) (e : BitVec 5) (s : State) : Out State := s.epopOp (w32 0 (.epop d e)) d e

/-- The parcel of `epop` (R121). -/
def execEpop16 (d : Reg) (e : BitVec 5) (s : State) : Out State := s.epopOp (w16 (.epop16 d e)) d e

/-! ## The done counters (R69, R226, R227) -/

/-- The history tag H(n), or H(C - 15) where the counter is further on; H(0) is no input (R69). -/
def DoneCounter.tagAt (x : DoneCounter) (n : Nat) : Option (Tag × Key) :=
  if n = 0 then none else x.hist[Nat.min (x.c.toNat - n) 15]?

/-- dwait: fewer than n commands issued blocks a stream seat and raises ILLEGAL in handler mode; a wait for
completions is no wait interval; the history tag is joined. -/
def State.dwaitOp (s : State) (f : Form) (n : BitVec 3) (count : Nat) : Out State :=
  let x := s.here.done[n.toNat]'n.isLt
  if x.i.toNat < count then .next (if s.streaming then s.holdMe 11 true false else s.raise cIllegal f.tval)
  else if x.c.toNat < count then .next (s.holdMe 11 false false)
  else
    let s := s.modHere fun k => k.observe fun u =>
      match u.ctr with
      | some y => decide (y.1 = n) && decide (y.2.toNat ≤ count)
      | none => false
    let s := match x.tagAt count with
      | some t => s.takeTag t.1 (some t.2)
      | none => s
    .next (s.complete f 1 .seq)

/-- `dwait` (R226). -/
def execDwait (n : BitVec 3) (imm : BitVec 11) (s : State) : Out State :=
  s.dwaitOp (w32 0 (.dwait n imm)) n imm.toNat

/-- The parcel of `dwait` (R121). -/
def execDwait16 (n : BitVec 3) (imm : BitVec 5) (s : State) : Out State :=
  s.dwaitOp (w16 (.dwait16 n imm)) n imm.toNat

/-- `drd` (R227): read and rebase; C above zero joins H(C). -/
def execDrd (d : Reg) (n : BitVec 3) (a : Reg) (s : State) : Out State :=
  let x := s.here.done[n.toNat]'n.isLt
  let k := Nat.min (s.g a).toNat x.c.toNat
  let s := match x.tagAt x.c.toNat with
    | some t => s.takeTag t.1 (some t.2)
    | none => s
  let x' : DoneCounter := { x with c := x.c - BitVec.ofNat 32 k, i := x.i - BitVec.ofNat 32 k }
  let s := s.modHere fun y =>
    ({ y with done := y.done.set n.toNat x' n.isLt } : Core).observe fun u =>
      match u.ctr with
      | some z => decide (z.1 = n)
      | none => false
  .next ((s.setG d (x.c.setWidth 64)).complete (w32 0 (.drd d n a)) 1 .seq)

/-! ## Retirement and faults (R225, R259, R277) -/

/-- Whether a seat still runs the work that pushed a command. -/
def State.stillRuns (s : State) (c : CoreId) (x : Cmd) : Bool :=
  let t := (s.core c).seats[x.seat]
  t.work.isSome && decide (t.starts = x.starts)

/-- Make ENGINE_FAULT, OUTLIER_FULL or an imprecise ECC pending on the seat that pushed a command. -/
def State.pendOn (s : State) (c : CoreId) (x : Cmd) (f : Pending → Pending) : State :=
  if s.stillRuns c x then s.modCore c fun k => k.modSeat x.seat fun t => { t with pend := f t.pend } else s

/-- The event code of a retired command (R374). -/
def retireCode : Engine → Nat
  | .mx => 0x0A
  | .sn => 0x0C
  | .cp => 0x0D

/-- Note, in deterministic mode, a completion that a seat is to observe: `see` gives the FIFO of its element. -/
def Core.note (k : Core) (see : Option (Option Engine)) (ctr : Option (BitVec 3)) (key : Key) : Core :=
  match see, ctr with
  | some e, some n => { k with unseen := k.unseen ++ [⟨key, some (n, (k.done[n.toNat]'n.isLt).c), e⟩] }
  | some (some e), none => { k with unseen := k.unseen ++ [⟨key, none, some e⟩] }
  | _, _ => k

/-- An imprecise ECC of an engine's command, counted as it is found: it is pending on the seat that pushed the command, if
that still runs the same work (R350). -/
def State.pendEccOn (s : State) (c : CoreId) (x : Cmd) (va : Word) : State :=
  (s.count c none 0x26 1).pendOn c x fun p => { p with ecc := pendFirst p.ecc va }

/-- Whether a command that is over puts an element into the FIFO. -/
def Run.needsFifo (r : Run) (st : BitVec 8) : Bool := if st = 0xFF then r.cmd.outs else r.cmd.outs || decide (st ≠ 0)

/-- Whether the oldest command under way is over and nothing keeps it from retiring. -/
def EngineQ.mayRetire (q : EngineQ) (e : Engine) : Bool :=
  match q.run with
  | r :: _ =>
    match r.fin with
    | some (st, _) => !((r.needsFifo st && decide (8 ≤ q.fifo.length)) || (isFault e st && q.held))
    | none => false
  | [] => false

/-- Retire the oldest command under way, if it is over (R259): its element enters the FIFO, and its counter is
incremented; a fault holds the engine and is made pending on its pusher (R277). A second fault takes its place once the
first holds the engine no more. -/
def State.retire (s : State) (c : CoreId) (e : Engine) : State :=
  let q := (s.core c).q e
  match q.run with
  | [] => s
  | r :: rest =>
    match r.fin with
    | none => s
    | some (st, _) =>
      let needs := r.needsFifo st
      if !q.mayRetire e then s
      else
        let fifo := if needs then q.fifo ++ [(r.element, r.tag)] else q.fifo
        let s := s.count c none (retireCode e) 1
        let det := (s.det? c).isSome
        let see : Option (Option Engine) :=
          if det ∧ st ≠ 0xFF then some (if needs then some e else none) else none
        if isFault e st then
          let s := s.modCore c fun k => (k.modQ e fun q =>
            { q with run := rest, fifo := fifo, held := true, heldRun := some r, fstat := st,
                     fcode := BitVec.ofNat 8 r.cmd.code }).note see none r.cmd.key
          s.pendOn c r.cmd fun p => { p with engine := pendFirst p.engine r.element }
        else
          s.modCore c fun k =>
            let k := k.modQ e fun q => { q with run := rest, fifo := fifo }
            match r.cmd.ctr with
            | some n => (k.doneInc n det (r.tag, r.cmd.key)).note see (some n) r.cmd.key
            | none => k.note see none r.cmd.key

/-- Whether the scan engine has a command under way: it runs one at a time (R285). -/
def Core.snBusy (k : Core) : Bool := k.sn.q.run.any fun r => r.fin.isNone

/-- Whether the copy engine has a command under way: it runs one at a time (R431). -/
def Core.cpBusy (k : Core) : Bool := k.cp.q.run.any fun r => r.fin.isNone

/-- Take a command that has no meaning in its engine, or one that a cancel has dropped, out of the queue. -/
def State.startOdd (s : State) (c : CoreId) (e : Engine) : State :=
  match s.startable c e with
  | none => s
  | some x =>
    let top := match e with | .mx => 9 | .cp => 7 | .sn => 5
    if x.dropped then
      let (x, s) := s.takeHead c e
      s.addRun c e ((Run.start x).finish 0 0xFF 0)
    else if (x.code = 0 ∨ top < x.code) ∧ !(decide (e = .sn) && (s.core c).snBusy) ∧
        !(decide (e = .cp) && (s.core c).cpBusy) then s.startFault c e 1
    else s

/-- ENGINE_COMMAND_RETIRE (R259): every command at the front that is over retires. A head whose CODE is no
command's is found to fault here (R276), since no command's own event names it. -/
def execEngineCommandRetire (c : CoreId) (e : Engine) (s : State) : Out State := .next ((s.startOdd c e).retire c e)

/-- RETRY (R275, R304): the held command starts again from its beginning, before anything pushed since. -/
def State.retryHeld (s : State) (c : CoreId) (e : Engine) : State :=
  match ((s.core c).q e).heldRun with
  | none => s
  | some r => s.modCore c fun k => k.modQ e fun q =>
      { q with held := false, heldRun := none, queue := r.cmd :: q.queue }

/-! ## Operand ranges and accesses of the engines -/

/-- A range of n bytes, aligned, within a core's TCM. -/
def inTcm (a n align : Nat) : Bool := decide (a % align = 0) && decide (a + n ≤ 0x8000)

/-- A range within the TCM or the cluster's scratchpad. -/
def inTcmOrScratch (a n align : Nat) : Bool :=
  inTcm a n align || (decide (a % align = 0) && decide (0x10000 ≤ a) && decide (a + n ≤ 0x50000))

/-- The home of such an address. -/
def engineHome (c : CoreId) (a : Nat) : Nat :=
  if a < 0x8000 then tcmHome c a else scratchHome (clusterOf c) (a - 0x10000)

/-- An engine's access to a home claims the frames it lies in (R413), and takes its banks (R261). -/
def State.engineAt (s : State) (c : CoreId) (h n : Nat) : State :=
  ((s.claimHome c h).claimHome c (h + (n - 1))).touch h n

/-- Read n bytes for an engine: none if a bad granule is met (R276), which is counted. It reads its core's TCM as it is, and
of the scratchpad takes what the store buffer gives (R355). -/
def State.engineRead (s : State) (c : CoreId) (a n : Nat) : Option (List Byte) × State :=
  let h := engineHome c a
  let s := s.engineAt c h n
  let fw := if a < 0x8000 then List.replicate n none else s.forwardedOf c h (BitVec.ofNat 64 a) n
  match s.localRead h n fw with
  | some bs => (some bs, s.correct c h n)
  | none => (none, s.count c none 0x26 1)

/-- Write bytes for an engine's command in its core's TCM; a discarded write makes ECC pending (R350). -/
def State.engineWrite (s : State) (c : CoreId) (x : Cmd) (a : Nat) (bs : List Byte) : State :=
  let h := engineHome c a
  match (s.engineAt c h bs.length).writeCells (cellsFrom h bs) with
  | (true, s) => s
  | (false, s) => s.pendEccOn c x (BitVec.ofNat 64 a)

end Sys2Proof.Machine
end

