-- ==== Sys2Proof/Machine/Messages.lean ====
section
/-!
DEFINITION. The sends, the queue registers, neighbour sends, class masking and wfm (R15, R18, R26, R27, R39, R43,
R209 to R216, R222).
-/

namespace Sys2Proof.Machine

/-! ## Destinations and payloads (R15, R211) -/

/-- The core at virtual coordinates of the executing core's partition. -/
def State.coreAt (s : State) (v r c : Nat) : Option CoreId :=
  match s.partOf s.cur.core with
  | some p => p.coreAt v r c
  | none => none

/-- The destination of a send (R15). -/
def State.destOf (s : State) (w : Word) : Option CoreId :=
  if w.toNat / 2 ^ 18 ≠ 0 then none
  else s.coreAt (w.extractLsb' 16 2).toNat (w.extractLsb' 8 8).toNat (w.extractLsb' 0 8).toNat

/-- The cores of a rectangle word in row-major order, if all lie in the shape. -/
def State.rectCores (s : State) (w : Word) : Option (List CoreId) :=
  let v := (w.extractLsb' 16 2).toNat
  let r := (w.extractLsb' 8 8).toNat
  let c := (w.extractLsb' 0 8).toNat
  ((List.range ((w.extractLsb' 18 8).toNat + 1)).flatMap fun i =>
    (List.range ((w.extractLsb' 26 8).toNat + 1)).map fun j => (r + i, c + j)).mapM fun x => s.coreAt v x.1 x.2

/-- The destinations of a sendg or msend and the package they lie on, if it is another (R211). An msend whose PKG is not zero
is outside its form, as one with REM set is (DEDUCED, log entry 68). -/
def State.rectOf (s : State) (w : Word) (remote : Bool) : Option (List CoreId × Option (BitVec 9)) :=
  let pkg := w.extractLsb' 35 9
  let rem := w.getLsbD 34
  match s.partOf s.cur.core with
  | none => none
  | some p =>
    if w.toNat / 2 ^ 44 ≠ 0 ∨ p.domain ≤ pkg.toNat ∨ (!remote && (rem || decide (pkg ≠ 0))) then none
    else (s.rectCores w).map fun l => (l, if rem ∧ pkg.toNat ≠ p.index then some pkg else none)

/-- Whether a payload descriptor passes its WINDOW check, with the payload's length and address. -/
def descOf (w : Word) : Option (Nat × Nat) :=
  let n := (w.extractLsb' 48 9).toNat
  let a := (w.extractLsb' 0 48).toNat
  if w.toNat / 2 ^ 57 ≠ 0 ∨ 256 < n then none
  else if n = 0 ∨ a + n ≤ 0x8000 ∨ (0x10000 ≤ a ∧ a + n ≤ 0x50000) then some (n, a)
  else none

/-- The home of a byte of a payload. -/
def State.payloadHome (s : State) (a : Nat) : Nat :=
  match s.spot s.cur.core s.bench (BitVec.ofNat 64 a) with
  | .mem h => h
  | _ => 0

/-- Reading a payload claims its frames and corrects what can be corrected (R350, R413). -/
def State.readsPayload (s : State) (n a : Nat) : State :=
  let homes := (List.range n).map fun i => s.payloadHome (a + i)
  (homes.foldl (fun (s : State) h => s.claimHome s.cur.core h) s).correctAt s.cur.core homes

/-- Read a payload at issue as loads are read, byte by byte with forwarding; a bad granule gives its address. -/
def State.payload (s : State) : Nat → Nat → Except Nat (List Byte)
  | 0, _ => .ok []
  | n + 1, a =>
    let h := s.payloadHome a
    match s.localRead h 1 (s.forwarded h (BitVec.ofNat 64 a) 1) with
    | none => .error a
    | some b => (s.payload n (a + 1)).map fun r => b ++ r

/-! ## Cost, room and the message (R27, R56, R57, R67, R212) -/

/-- The span cost of a send: the farthest destination's hops, the payload beats and the surcharges. A send to another
package whose rectangle also reaches another die takes both surcharges: R57 does not say otherwise (DEDUCED, log
entry 68). -/
def State.sendCost (s : State) (dests : List CoreId) (len : Nat) (far : Bool) : Nat :=
  let h := dests.foldl (fun m d => Nat.max m (s.hops s.cur.core d)) 0
  let die := if dests.any fun d => decide (dieOf d ≠ dieOf s.cur.core) then 64 else 0
  4 + h + (len + 31) / 32 + die + (if far then 1500 else 0)

/-- Whether a send on a virtual network has room. Every entry of AM is a sendg with copies to emit. -/
def Core.sendRoom (k : Core) (vn : VNet) : Bool :=
  let q := k.inj[vnIndex vn]
  decide (q.length < 4) && (decide (vn ≠ .am) || q.isEmpty)

/-- Wait for room, remembering what for; a handler seat takes SENDFULL at the first attempt without room made 64
or more cycles after its first. -/
def State.noRoom (s : State) (which : Nat) (tval : Word) : State :=
  let late := match s.me.hold with
    | some h => h.tried && decide (64 ≤ h.since)
    | none => false
  if !s.streaming && late then s.raise cSendfull tval
  else (s.stall 3).modMe fun t =>
    { t with hold := t.hold.map fun h => { h with mark := which, tval := tval, tried := true,
                                                   since := if h.tried then h.since else 0 } }

/-- The message of the executing seat, once its open interval is charged; it takes the next kind-0 origin. -/
def State.message (s : State) (vn : VNet) (cls : BitVec 6) (data : List Byte) (dst : CoreId) (rest : List CoreId)
    (pkg : Option (BitVec 9)) (cost : Nat) : Msg × State :=
  let s := s.closeHold s.cur
  let (o, s) := s.nextOrigin s.cur 0
  let t := s.me
  ({ dst := dst, cls := cls, grp := t.grp, part := s.here.pid, tag := t.tag.add cost, data := data,
     src := s.srcWord s.cur, seq := o.extractLsb' 0 8, work := t.starts, age := 0, vn := vn, key := s.keyFor cost,
     kind := .plain, rest := rest, pkg := pkg, after := s.unperformed s.cur, held := 0, heldDet := 0, qwait := 0, came := 0,
     rect := if vn = .mc ∨ !rest.isEmpty then some (dst, (rest.getLast?).getD dst) else none },
   s.countInput)

/-- Put a message into its injection queue. -/
def Core.inject (k : Core) (m : Msg) : Core :=
  { k with inj := k.inj.set (vnIndex m.vn) (k.inj[vnIndex m.vn] ++ [m]) }

/-- The last part of a send: its fence wait, room, and the message. `full` says what no room does, `sent` what
follows the message. -/
def State.sendTo (s : State) (f : Form) (vn : VNet) (cls : BitVec 6) (touch : (State → State) → State → State)
    (data : State → Except Nat (List Byte)) (len : Nat) (dests : List CoreId) (pkg : Option (BitVec 9))
    (full sent : Nat → State → State) : State :=
  s.fenceWait fun s =>
    let cost := s.sendCost dests len pkg.isSome
    if !s.here.sendRoom vn then full cost s
    else
      touch (fun s =>
        match data s with
        | .error a => s.raise cEcc (BitVec.ofNat 64 a)
        | .ok bs =>
          match dests with
          | [] => s.complete f cost .seq
          | d :: rest =>
            let (m, s) := s.message vn cls bs d rest pkg cost
            sent cost (s.modHere fun k => k.inject m)) s

/-- The 8 bytes of a register as a payload. -/
def State.regPayload (d : Reg) (s : State) : Except Nat (List Byte) := .ok (natLe 8 (s.g d).toNat)

/-- `send` (R15, R212). -/
def execSend (d a : Reg) (c : BitVec 6) (s : State) : Out State :=
  let f := w32 1 (.send d a c)
  let w := s.g a
  match s.destOf w with
  | none => .next (s.raise cWindow w)
  | some x => .next (s.sendTo f .req c (fun go s => go s) (State.regPayload d) 8 [x] none (fun _ s => s.noRoom 0 w)
      fun cost s => s.complete f cost .seq)

/-- sendc: it never waits for room; gD takes its status after the payload was read. -/
def State.sendcOp (s : State) (f : Form) (a d : Reg) (c : BitVec 6) : Out State :=
  let w := s.g a
  match s.destOf w with
  | none => .next (s.raise cWindow w)
  | some x => .next (s.sendTo f .rsp c (fun go s => go s) (State.regPayload d) 8 [x] none
      (fun cost s => (s.setG d 0).complete f cost .seq) fun cost s => (s.setG d 1).complete f cost .seq)

/-- `sendc` (R212). -/
def execSendc (d a : Reg) (c : BitVec 6) (s : State) : Out State := s.sendcOp (w32 1 (.sendc d a c)) a d c

/-- The parcel of `sendc g6, gD, #u5` (R121). -/
def execSendc16 (d : Reg) (imm : BitVec 5) (s : State) : Out State :=
  s.sendcOp (w16 (.sendc16 d imm)) 6 d (imm.setWidth 6)

/-- A send to a rectangle with the payload of a descriptor, its checks in the order of R211. -/
def State.rectSend (s : State) (f : Form) (vn : VNet) (a d : Reg) (c : BitVec 6) : Out State :=
  let w := s.g a
  let desc := s.g d
  match s.rectOf w (decide (vn = .am)), descOf desc with
  | none, _ => .next (s.raise cWindow w)
  | _, none => .next (s.raise cWindow desc)
  | some (dests, pkg), some (n, at_) =>
    if at_ % 8 ≠ 0 then .next (s.raise cAlign desc)
    else .next (s.sendTo f vn c (fun go s => s.onBanks (s.payloadHome at_) n fun s => go (s.readsPayload n at_))
      (fun s => s.payload n at_) n dests pkg
      (fun _ s => s.noRoom (vnIndex vn).val w) fun cost s => s.complete f cost .seq)

/-- `sendg` (R212). -/
def execSendg (d a : Reg) (c : BitVec 6) (s : State) : Out State := s.rectSend (w32 1 (.sendg d a c)) .am a d c

/-- `msend` (R212). -/
def execMsend (d a : Reg) (c : BitVec 6) (s : State) : Out State := s.rectSend (w32 1 (.msend d a c)) .mc a d c

/-! ## Queue registers (R43, R209) -/

/-- The seats of a core that a wake has given an entry or a slot of queue q, and that have not issued yet. -/
def Core.woken (k : Core) (code : Nat) : Nat := (k.seats.toList.filter fun t => t.handed = some code).length

/-- Replace a queue. -/
def Core.setQueue (k : Core) (q : BitVec 3) (l : List Word) : Core :=
  { k with queues := k.queues.set q.toNat l q.isLt }

/-- A queue. -/
def Core.queue (k : Core) (q : BitVec 3) : List Word := k.queues[q.toNat]'q.isLt

/-- Put a seat into the order of the blocked ones: last, or, if it was woken and another seat was first, where it was. -/
def blockSeat (l : List (Fin 4)) (i : Fin 4) (woken : Bool) : List (Fin 4) :=
  if l.contains i then l else if woken then i :: l else l ++ [i]

/-- A seat blocks on an empty queue. -/
def Core.waitGet (k : Core) (q : BitVec 3) (i : Fin 4) : Core :=
  let woken := decide ((k.seats[i]).handed = some q.toNat)
  { k with getters := k.getters.set q.toNat (blockSeat (k.getters[q.toNat]'q.isLt) i woken) q.isLt }

/-- The same for a full queue. -/
def Core.waitPut (k : Core) (q : BitVec 3) (i : Fin 4) : Core :=
  let woken := decide ((k.seats[i]).handed = some (8 + q.toNat))
  { k with putters := k.putters.set q.toNat (blockSeat (k.putters[q.toNat]'q.isLt) i woken) q.isLt }

/-- Whether the executing seat may take an entry: the queue holds one, and the seat is not blocked on it unless it has been
woken. -/
def State.mayGet (s : State) (q : BitVec 3) : Bool :=
  let k := s.here
  decide (0 < (k.queue q).length) && !(k.getters[q.toNat]'q.isLt).contains s.cur.seat

/-- Whether the executing seat may put an entry. -/
def State.mayPut (s : State) (q : BitVec 3) : Bool :=
  let k := s.here
  decide ((k.queue q).length < 16) && !(k.putters[q.toNat]'q.isLt).contains s.cur.seat

/-- qput. -/
def State.qputOp (s : State) (f : Form) (q : BitVec 3) (a : Reg) : Out State :=
  if s.mayPut q then
    let s := s.modHere fun k => k.setQueue q (k.queue q ++ [s.g a])
    .next ((s.modMe fun t => { t with handed := none }).complete f 1 .seq)
  else if s.streaming then
    .next (((s.modHere fun k => k.waitPut q s.cur.seat).modMe fun t => { t with handed := none }).block)
  else .next (s.raise cIllegal f.tval)

/-- qget. -/
def State.qgetOp (s : State) (f : Form) (d : Reg) (q : BitVec 3) : Out State :=
  match s.mayGet q, s.here.queue q with
  | true, x :: r =>
    let s := (s.modHere fun k => k.setQueue q r).modMe fun t => { t with handed := none }
    .next ((s.setG d x).complete f 1 .seq)
  | _, _ =>
    if s.streaming then
      .next (((s.modHere fun k => k.waitGet q s.cur.seat).modMe fun t => { t with handed := none }).block)
    else .next (s.raise cIllegal f.tval)

/-- `qput` (R209). -/
def execQput (q : BitVec 3) (a : Reg) (s : State) : Out State := s.qputOp (w32 0 (.qput q a)) q a

/-- The parcel of `qput` (R121); its form is written out, since Lean builds no such constructor at run time. -/
def execQput16 (q : BitVec 3) (a : Reg) (s : State) : Out State :=
  s.qputOp ⟨2, 0, (join16 a (q.setWidth 5) 8 2).setWidth 64⟩ q a

/-- `qget` (R209). -/
def execQget (d : Reg) (q : BitVec 3) (s : State) : Out State := s.qgetOp (w32 0 (.qget d q)) d q

/-- The parcel of `qget` (R121). -/
def execQget16 (d : Reg) (q : BitVec 5) (s : State) : Out State :=
  s.qgetOp ⟨2, 0, (join16 q d 9 2).setWidth 64⟩ d (q.extractLsb' 0 3)

/-- `qtry` (R209). -/
def execQtry (d a : Reg) (q : BitVec 3) (s : State) : Out State :=
  let f := w32 0 (.qtry d a q)
  match s.here.queue q with
  | x :: r => .next ((((s.modHere fun k => k.setQueue q r).setG d x).setG a 1).complete f 1 .seq)
  | [] => .next ((s.setG a 0).complete f 1 .seq)

/-- `qcnt` (R209). -/
def execQcnt (d : Reg) (q : BitVec 3) (s : State) : Out State :=
  .next ((s.setG d (BitVec.ofNat 64 (s.here.queue q).length)).complete (w32 0 (.qcnt d q)) 1 .seq)

/-- QUEUE_WAKE (R43): the seat blocked longest on an empty or full queue is handed an entry or a slot that has
appeared. -/
def execQueueWake (c : CoreId) (q : BitVec 3) (s : State) : Out State :=
  let k := s.core c
  let n := (k.queue q).length
  let wake (k : Core) (i : Fin 4) (code : Nat) : Core := k.modSeat i fun t => { t with handed := some code }
  match k.getters[q.toNat]'q.isLt, k.putters[q.toNat]'q.isLt with
  | i :: r, _ =>
    if k.woken q.toNat < n then
      .next (s.setCore c (wake { k with getters := k.getters.set q.toNat r q.isLt } i q.toNat))
    else .next s
  | [], i :: r =>
    if n + k.woken (8 + q.toNat) < 16 then
      .next (s.setCore c (wake { k with putters := k.putters.set q.toNat r q.isLt } i (8 + q.toNat)))
    else .next s
  | [], [] => .next s

/-! ## Neighbour sends (R39, R216) -/

/-- The neighbour of a core within its partition. -/
def State.neighbour (s : State) (c : CoreId) (dir : Fin 4) : Option CoreId :=
  match s.partOf c with
  | none => none
  | some p =>
    match p.virt c with
    | none => none
    | some (v, r, x) =>
      if dir = 0 then (if r = 0 then none else p.coreAt v (r - 1) x)
      else if dir = 1 then p.coreAt v r (x + 1)
      else if dir = 2 then p.coreAt v (r + 1) x
      else (if x = 0 then none else p.coreAt v r (x - 1))

/-- The window toward a direction (R39). -/
def Core.window (k : Core) (dir : Fin 4) : Nat := (k.nwin.extractLsb' (4 * dir.val) 4).toNat

/-- `nsend` (R216). -/
def execNsend (a b : Reg) (s : State) : Out State :=
  let f := w32 1 (.nsend a b)
  if h : b.toNat < 4 then
    let dir : Fin 4 := ⟨b.toNat, h⟩
    let tval := BitVec.ofNat 64 b.toNat
    if s.bench.isSome then .next (s.raise cBench 0)
    else if s.here.window dir = 0 ∨ s.neighbour s.cur.core dir = none then .next (s.raise cWindow tval)
    else if s.here.window dir ≤ s.here.sent[dir] then
      .next (if s.streaming then s.stall 6 else s.raise cSendfull tval)
    else
      let x := (s.me.v[a.toNat]'a.isLt).setWidth 512
      .next ((s.modHere fun k =>
        { k with sent := k.sent.set dir (k.sent[dir] + 1), flying := k.flying.set dir (k.flying[dir] ++ [x]) }).complete
        f 1 .seq)
  else .next (s.raise cIllegal f.tval)

/-! ## Class masking and priority (R18, R30, R215, R222) -/

/-- Change the class table's entries of the classes that a mask selects. -/
def Core.onClasses (k : Core) (mask : Word) (f : BitVec 128 → BitVec 128) : Core :=
  { k with classes := Vector.ofFn fun i : Fin 64 => if mask.getLsbD i.val then f k.classes[i] else k.classes[i] }

/-- `clen` (R215). -/
def execClen (a : Reg) (s : State) : Out State :=
  .next ((s.modHere fun k => k.onClasses (s.g a) fun x => x ||| (1#128 <<< 55)).complete (w32 0 (.clen a)) 1 .seq)

/-- `cldis` (R215). -/
def execCldis (a : Reg) (s : State) : Out State :=
  .next ((s.modHere fun k => k.onClasses (s.g a) fun x => x &&& ~~~(1#128 <<< 55)).complete (w32 0 (.cldis a)) 1 .seq)

/-- The PEND bits of all classes (R30). -/
def Core.pendMask (k : Core) : Word :=
  (List.finRange 64).foldl (fun (m : Word) i =>
    if (k.classEntry i).getLsbD 54 then m ||| (1#64 <<< i.val) else m) 0

/-- `clpend` (R215). -/
def execClpend (d : Reg) (s : State) : Out State :=
  .next ((s.setG d s.here.pendMask).complete (w32 0 (.clpend d)) 1 .seq)

/-- `prio` (R18, R222). -/
def execPrio (a : Reg) (c : BitVec 6) (s : State) : Out State :=
  let f := w32 0 (.prio a c)
  let v := s.g a
  if 7 < v.toNat then .next (s.raise cIllegal f.tval)
  else
    let set (k : Core) : Core :=
      let x := k.classes[c.toNat]'c.isLt
      let y : BitVec 128 := x.extractLsb' 61 67 ++ v.extractLsb' 0 3 ++ x.extractLsb' 0 58
      { k with classes := k.classes.set c.toNat y c.isLt }
    .next ((s.modHere set).complete f 1 .seq)

/-! ## wfm (R214) -/

/-- The conditions that a wfm enables and that hold, as MSG, CHAN and CNT; `mark` is the count of accepted
messages when it issued. -/
def Core.wfmHolds (k : Core) (x : Word) (mark : Nat) : BitVec 3 :=
  let ch : Fin 4 := (x.extractLsb' 36 2).toFin
  let n := x.extractLsb' 32 3
  let c := (k.done[n.toNat]'n.isLt).c
  BitVec.ofBool (x.getLsbD 39 && decide (mark < k.accepted)) ++
    BitVec.ofBool (x.getLsbD 38 && !(k.chans[ch]).isEmpty) ++
    BitVec.ofBool (x.getLsbD 35 && decide ((c - x.extractLsb' 0 32).toNat < 2 ^ 31))

/-- `wfm` (R214). -/
def execWfm (d a : Reg) (s : State) : Out State :=
  let f := w32 0 (.wfm d a)
  let x := s.g a
  if !s.streaming ∨ x.toNat / 2 ^ 40 ≠ 0 ∨ !(x.getLsbD 39 || x.getLsbD 38 || x.getLsbD 35) then
    .next (s.raise cIllegal f.tval)
  else
    let mark := match s.me.hold with
      | some h => if h.asleep then h.mark else s.here.accepted
      | none => s.here.accepted
    let r := s.here.wfmHolds x mark
    if r = 0 then .next (s.holdMe 0 false true) else .next ((s.setG d (r.setWidth 64)).complete f 1 .seq)

end Sys2Proof.Machine
end

