-- ==== Sys2Proof/Machine/Arrival.lean ====
section
/-!
DEFINITION. From arrival to start: acceptance, selection and task starts, deliveries to channels and rings, the
deque and steals, and mode changes (R25, R28 to R45, R66, R67, R420, R456, R458).
-/

namespace Sys2Proof.Machine

/-! ## Acceptance (R28 to R30, R41, R42, R67, R420) -/

/-- KIND of a class (R33). -/
def Core.kindOf (k : Core) (c : BitVec 6) : Nat := ((k.classes[c.toNat]'c.isLt).extractLsb' 61 3).toNat

/-- A bit of a class's entry. -/
def Core.classBit (k : Core) (c : BitVec 6) (i : Nat) : Bool := (k.classes[c.toNat]'c.isLt).getLsbD i

/-- A field of a class's entry. -/
def Core.classField (k : Core) (c : BitVec 6) (lo n : Nat) : Nat :=
  ((k.classes[c.toNat]'c.isLt).extractLsb' lo n).toNat

/-- Whether the class's KIND decides what a message becomes: any but a launch record's task (R86) and a stolen entry,
which starts as a task (R45). -/
def MsgKind.byClass : MsgKind → Bool
  | .plain | .launch => true
  | .launchTask _ _ | .stolen _ _ _ _ => false

/-- Granules a payload takes: one for an empty message of a channel-kind class (R28). -/
def Core.granulesFor (k : Core) (m : Msg) : Nat :=
  if m.data.isEmpty then (if m.kind.byClass ∧ k.kindOf m.cls = 1 then 1 else 0) else (m.data.length + 63) / 64

/-- The lowest run of n free granules (R29). -/
def Core.findRun (k : Core) (n : Nat) : Option Nat :=
  let total := 16 * k.msz.toNat
  if n ≤ total then (List.range (total - n + 1)).find? fun g => (List.range n).all fun i => !k.granules.contains (g + i)
  else none

/-- Whether a message has a free run-queue entry and its granules. -/
def Core.fits (k : Core) (m : Msg) : Bool := decide (k.runq.length < 32) && (k.findRun (k.granulesFor m)).isSome

/-- Whether a message is a stolen entry on its way. -/
def MsgKind.isStolen : MsgKind → Bool
  | .stolen _ _ _ _ => true
  | _ => false

/-- A message is dropped: a stolen entry is no longer on its way to its thief. -/
def Core.dropped (k : Core) (m : Msg) : Core := { k with stealOut := k.stealOut && !m.kind.isStolen }

/-- The parcels of a payload. -/
def parcelsOf : List Byte → List (BitVec 16)
  | b0 :: b1 :: r => (b1 ++ b0) :: parcelsOf r
  | _ => []

/-- Why a message is not accepted, as the cause and value of the SYS reply (R41, R42). -/
def Core.refuses (k : Core) (m : Msg) : Option (BitVec 6 × Word) :=
  let n := m.data.length
  let active : Option (BitVec 6 × Word) :=
    let a : Word := BitVec.ofNat 64 (leNat (m.data.take 8))
    if n < 8 ∨ a.getLsbD 0 ∨ a < k.cwlo ∨ k.cwhi ≤ a then some (cWindow, a) else none
  if !m.kind.byClass then none
  else if k.kindOf m.cls = 4 then
    if n < 2 ∨ 16 < n ∨ n % 2 ≠ 0 then some (cIllegal, BitVec.ofNat 64 n)
    else ((parcelsOf m.data).find? fun p => p.extractLsb' 0 2 ≠ 0).map fun p => (cIllegal, p.setWidth 64)
  else if k.kindOf m.cls = 3 then active
  else none

/-- The core and the seat that a message's source names, in its partition. -/
def State.sender (s : State) (m : Msg) : Option SeatId :=
  match s.part? m.part.toNat with
  | none => none
  | some p =>
    (p.coreAt (m.src.extractLsb' 16 2).toNat (m.src.extractLsb' 8 8).toNat (m.src.extractLsb' 0 8).toNat).map
      fun c => ⟨c, (m.src.extractLsb' 18 2).toFin⟩

/-! ## Fiold: planes and packets (R439 to R442) -/

/-- The live plane that a packet takes, if any reaches the target (R441). -/
def State.planeFor (s : State) (want pkg : Nat) : Option Nat :=
  if s.pkg.lostPeers.contains pkg then none
  else ((List.range 32).map fun i => (want + i) % 32).find? fun i => (s.fiold.get i FioldPort.reset).up

/-- The frames that a packet takes: eight flits of 32 bytes each. -/
def framesOf (q : FioldPacket) : Nat :=
  let bytes := match q with
    | .message _ _ _ _ _ _ _ d => 48 + d.length
    | .unit _ _ _ _ _ _ d _ => 32 + d.length
    | .ack _ _ _ _ _ _ => 17
    | .read _ _ _ _ _ _ _ _ => 32
    | .response _ _ _ _ _ _ d => 32 + d.length
    | .reply _ _ _ _ _ _ _ => 48
  (bytes + 255) / 256

/-- Send frames that wait, while fewer than 64 are unacknowledged. -/
def FioldPort.refill (p : FioldPort) : FioldPort :=
  let n := Nat.min p.queued (64 - p.kept.length)
  { p with
    kept := p.kept ++ (List.range n).map (fun i => p.seq + BitVec.ofNat 16 i)
    seq := p.seq + BitVec.ofNat 16 n
    queued := p.queued - n }

/-- Change a Fiold port. -/
def State.modFiold (s : State) (i : Nat) (f : FioldPort → FioldPort) : State :=
  { s with fiold := s.fiold.set i (f (s.fiold.get i FioldPort.reset)) }

/-- Give a packet to a plane. -/
def State.toFiold (s : State) (plane pkg : Nat) (q : FioldPacket) : State :=
  ({ s with sentOut := s.sentOut ++ [(plane, pkg, q)] } : State).modFiold plane fun p =>
    { p with queued := p.queued + framesOf q }.refill

/-- A SYS reply to a seat of another package (R396, R442): it is lost where no plane reaches the package. -/
def State.replyAcross (s : State) (job : BitVec 16) (self spkg : BitVec 9) (src : BitVec 20) (cause : BitVec 6)
    (v : Word) (work : BitVec 12) (grp : BitVec 32) : State :=
  match s.planeFor 0 spkg.toNat with
  | some plane => s.toFiold plane spkg.toNat (.reply job self src cause v work grp)
  | none => s

/-- A SYS reply to a message's sender (R396); one that no seat sent draws none. -/
def State.sysReplyTo (s : State) (m : Msg) (cause : BitVec 6) (v : Word) : State :=
  match m.kind, m.pkg with
  | .plain, none =>
    match s.sender m with
    | some t => { s with replies := s.replies ++ [⟨t, cause, v, m.work, m.grp⟩] }
    | none => s
  | .plain, some pkg =>
    match s.part? m.part.toNat with
    | some p => s.replyAcross p.job (BitVec.ofNat 9 p.index) pkg m.src cause v m.work m.grp
    | none => s
  | _, _ => s

/-- The origin that a message's source and sequence form (R53). -/
def Msg.origin (m : Msg) : BitVec 32 :=
  m.src.extractLsb' 16 2 ++ m.src.extractLsb' 8 8 ++ m.src.extractLsb' 0 8 ++ m.src.extractLsb' 18 2 ++ 0#4 ++ m.seq

/-- Sums of the account table saturate (R420). -/
def satAdd (x : Word) (n : Nat) : Word :=
  if x.toNat + n < 2 ^ 64 then x + BitVec.ofNat 64 n else BitVec.allOnes 64

/-- The account entry of a sender core (R420). -/
def Core.acctOf (k : Core) (key : BitVec 18) : Fin 16 :=
  let fifteen := (List.finRange 16).filter fun i => decide (i.val < 15)
  match fifteen.find? fun i => (k.acct[i]).valid && decide ((k.acct[i]).key = key) with
  | some i => i
  | none =>
    match fifteen.find? fun i => !(k.acct[i]).valid with
    | some i => i
    | none => 15

/-- Count an acceptance in the account table. -/
def Core.account (k : Core) (i : Fin 16) (key : BitVec 18) (age qwait : Nat) : Core :=
  let a := k.acct[i]
  let b : Acct :=
    { a with valid := true, key := if i = 15 then 0 else key, count := sat32 (a.count.toNat + 1),
             transit := satAdd a.transit age, qwait := satAdd a.qwait qwait }
  { k with acct := k.acct.set i b }

/-- Add a kind-2 charge to an account entry. -/
def Core.addQwait (k : Core) (i : Nat) (n : Nat) : Core :=
  if h : i < 16 then
    let a := k.acct[i]
    { k with acct := k.acct.set i { a with qwait := satAdd a.qwait n } }
  else k

/-- The home of granule g of a core's message area. -/
def State.areaHome (s : State) (c : CoreId) (g : Nat) : Nat :=
  tcmHome c (0x8000 - 0x400 * (s.core c).msz.toNat + 64 * g)

/-- Close the open interval of a message held at an input (R60, R67): before its release in deterministic mode as kind
9, then as kind 2. -/
def Msg.closeHeld (m : Msg) (rate : BitVec 32) : Msg :=
  let ref := toRef m.held rate
  { m with
    tag := (m.tag.charge 9 (toRef m.heldDet rate)).charge 2 ref, held := 0, heldDet := 0, qwait := m.qwait + ref }

/-- Close the open hold of a run-queue entry: an interval of kind 2. -/
def Entry.closeHeld (e : Entry) (rate : BitVec 32) : Entry :=
  { e with held := 0, msg := { e.msg with tag := e.msg.tag.charge 2 (toRef e.held rate) } }

/-- Accept a message that fits: its payload is placed, its held cycles are charged, it is counted and perhaps
steered, and it joins the run queue. -/
def State.enter (s : State) (c : CoreId) (m : Msg) : State :=
  let k := s.core c
  let n := k.granulesFor m
  let g := (k.findRun n).getD 0
  let m := m.closeHeld (s.region (s.regionOf c)).rate
  let h := s.areaHome c g
  let s := if n = 0 then s else
    ((s.claimHome c h).writeCells (cellsFrom h (m.data ++ List.replicate (64 * n - m.data.length) 0))).2
  let steer := k.classBit m.cls 50 && decide (k.classField m.cls 96 32 < m.tag.span.toNat)
  let pr : BitVec 3 := BitVec.ofNat 3 (k.classField m.cls 51 3)
  let key := m.src.extractLsb' 0 18
  let i := k.acctOf key
  let kind : EntryKind := match m.kind with
    | .launchTask t r => .launchTask t r
    | .stolen r a v p => .stolen r a v p
    | _ => .byClass
  let e : Entry :=
    { msg := { m with tag := if steer then m.tag.setFlag 7 true else m.tag },
      kind := kind, granules := (List.range n).map fun j => g + j,
      steered := if steer then some pr else none, held := 0, acct := i.val }
  let s := s.modCore c fun k =>
    { (k.account i key m.age m.qwait) with
      runq := k.runq ++ [e], granules := k.granules ++ e.granules, accepted := k.accepted + 1,
      stealOut := k.stealOut && !m.kind.isStolen }
  let s := s.count c none 0x06 1
  if steer && s.traces c 1 then
    s.record (coreIndex c) (s.traceRec 0x02 ⟨c, 0⟩ (natLe 16 m.tag.bits.toNat ++ natLe 1 m.cls.toNat ++ natLe 3 pr.toNat ++
      natLe 4 (k.classField m.cls 96 32)))
  else s

/-- The point of a core's acceptance in the order of deterministic mode (R454). -/
def acceptPoint (c : CoreId) : Nat := 2 ^ 65 + coreIndex c

/-- In deterministic mode acceptance serves only released inputs in key order (R454). -/
def State.mayAccept (s : State) (c : CoreId) (key : Key) : Bool :=
  match s.det? c with
  | none => true
  | some p =>
    decide (key.span ≤ p.horizon) &&
      ((s.core c).inputs.toList.all fun l => l.all fun m => !m.key.lt key) &&
      (s.heldKeys p (acceptPoint c)).all fun x => !x.lt key

/-- Whether a core's cluster is up. -/
def State.up (s : State) (c : CoreId) : Bool := decide ((s.cluster (clusterOf c)).power = .run)

/-- The index of a router input. -/
def portIndex : InPort → Option (Fin 5)
  | .loc => some 0
  | .north => some 1
  | .east => some 2
  | .south => some 3
  | .west => some 4
  | .spawn _ => none

/-- Whether a core can take a message off its input: it cancels it, refuses it or has room for it. -/
def Core.admits (k : Core) (m : Msg) : Bool :=
  k.cancelling.any (fun x => decide (x.1 = m.grp)) || (k.refuses m).isSome || k.fits m

/-- What a core does with a message that it can take off its input: while a grpcancel cancels its group here it goes
(R390), and a refused one goes with a SYS reply. -/
def State.acceptHere (s : State) (c : CoreId) (m : Msg) : State :=
  if (s.core c).cancelling.any fun x => decide (x.1 = m.grp) then s.modCore c fun k => k.dropped m
  else
    match (s.core c).refuses m with
    | some (cause, v) => s.sysReplyTo m cause v
    | none => s.enter c m

/-- Whether the head of a network's buffer at an input may leave it: it is cancelled, refused or taken in. -/
def State.leaves (s : State) (c : CoreId) (m : Msg) : Bool :=
  let k := s.core c
  s.mayAccept c m.key && k.admits m

/-- The first message of a router input that may leave, among the heads of its networks, with its place: a held
message holds no message of another network (R28, R423). -/
def State.nextIn (s : State) (c : CoreId) : List Msg → List VNet → Nat → Option (Nat × Msg)
  | [], _, _ => none
  | m :: r, seen, i =>
    if !seen.contains m.vn && s.leaves c m then some (i, m) else s.nextIn c r (m.vn :: seen) (i + 1)

/-- Take the next message off a router input, if one may leave it. -/
def State.acceptFrom (s : State) (c : CoreId) (i : Fin 5) : State :=
  let l := (s.core c).inputs[i]
  if !s.up c then s
  else
    match s.nextIn c l [] 0 with
    | none => s
    | some (j, m) =>
      (s.modCore c fun k => { k with inputs := k.inputs.set i (l.eraseIdx j) }).acceptHere c m

/-! ## Task starts (R36, R66) -/

/-- g4 of a class (R36). -/
def Core.stBase (k : Core) (c : BitVec 6) : Word :=
  if k.classField c 70 12 = 0 then 0 else BitVec.ofNat 64 (k.classField c 82 14 * 64)

/-- g5 of a message (R36). -/
def g5Word (src : BitVec 20) (cls : BitVec 6) (len : Nat) : Word :=
  0#28 ++ src.extractLsb' 16 2 ++ src.extractLsb' 8 8 ++ src.extractLsb' 0 8 ++ src.extractLsb' 18 2 ++ 0#1 ++ cls ++
    BitVec.ofNat 9 len

/-- The address of a payload in the local window. -/
def granuleAddr (gs : List Nat) : Word :=
  match gs with
  | g :: _ => BitVec.ofNat 64 (0xF4000 + 64 * g)
  | [] => 0

/-- The routine of a class's ENTRY. -/
def Core.entryPc (k : Core) (c : BitVec 6) : Word := BitVec.ofNat 64 (k.classField c 1 47 * 2)

/-- What starting a run-queue entry sets, with the priority that it was selected at. The tag has its kind-2
charges; a launch task's is given by its seat. An entry accepted under another KIND starts as its class's KIND now
says, its payload as it is (DESIGN CHOICE, log entry 63). -/
def State.startOf (s : State) (c : CoreId) (e : Entry) (prio : BitVec 3) (launch : BitVec 32) : Start :=
  let k := s.core c
  let m := e.msg
  let d (i : Nat) : Word := BitVec.ofNat 64 (leNat ((m.data.drop i).take 8))
  let tag (add : Nat) : Tag := { m.tag.add add with last := m.origin }
  let base : Start :=
    { kind := .task, cls := m.cls, granules := e.granules, channel := none, pc := k.entryPc m.cls, codeEnd := 0,
      acct := some e.acct, prio := prio, g2 := d 0, g3 := granuleAddr e.granules, g4 := k.stBase m.cls,
      g5 := g5Word m.src m.cls m.data.length, grp := m.grp, tag := tag 2 }
  let active : Start := { base with kind := .active, pc := d 0 &&& 0x0000FFFFFFFFFFFE, g2 := d 8 }
  match e.kind with
  | .launchTask _ r => { base with pc := r, tag := { Tag.zero with last := launch }.add 2 }
  | .stolen r a _ p =>
    { base with pc := r, prio := p, g2 := a, g3 := 0, g5 := g5Word (m.src.extractLsb' 0 18 |>.setWidth 20) m.cls 0,
                tag := m.tag.add 2 }
  | .channelTask ch =>
    { base with channel := some ch, g2 := BitVec.ofNat 64 (k.chans[ch]).length, g3 := 0, acct := none }
  | .byClass =>
    if k.kindOf m.cls = 3 then active
    else if k.kindOf m.cls = 4 then
      let a := granuleAddr e.granules
      { base with kind := .carried, pc := a, codeEnd := a + BitVec.ofNat 64 m.data.length, tag := tag 0 }
    else base

/-! ## Selection (R34, R35, R45, R456) -/

/-- A handler seat that may start work: no work, no pending mode, and its core neither stopped nor a bench's. -/
def State.freeSeat (s : State) (c : CoreId) (i : Fin 4) : Bool :=
  let k := s.core c
  let t := k.seats[i]
  (decide (k.modes[i] = 0b00) || (decide (i = 3) && decide (k.modes[i] = 0b11))) && t.work.isNone &&
    t.modePend.isNone && k.benchLead.isNone && !s.stopped c && s.up c

/-- A live task or carried code of a class on a core. -/
def Core.liveClass (k : Core) (c : BitVec 6) : Bool :=
  k.seats.toList.any fun t =>
    match t.work with
    | some w => decide (w.kind ≠ .stream) && decide (w.cls = c)
    | none => false

/-- Whether an entry will start an active-kind task. -/
def Core.isActive (k : Core) (e : Entry) : Bool :=
  decide (e.kind = .byClass) && decide (k.kindOf e.msg.cls = 3)

/-- Whether an entry's class is enabled and of a kind that selection starts: neither is asked of a launch record's
task (R86), nor KIND of a task that a delivery created, which has become a task-kind entry (R38). -/
def Core.selectable (k : Core) (e : Entry) : Bool :=
  let x := k.kindOf e.msg.cls
  match e.kind with
  | .launchTask _ _ => true
  | .channelTask _ => k.classBit e.msg.cls 55
  | _ => k.classBit e.msg.cls 55 && (decide (x = 0) || decide (x = 3) || decide (x = 4))

/-- Whether an entry is eligible to a seat (R34). -/
def State.eligible (s : State) (c : CoreId) (i : Fin 4) (e : Entry) : Bool :=
  let k := s.core c
  let three := decide (k.modes[(3 : Fin 4)] = 0b11)
  k.selectable e && !(k.classBit e.msg.cls 56 && k.liveClass e.msg.cls) &&
    (!three || (k.isActive e == decide (i = 3))) && !e.msg.after.any s.pending &&
    match e.kind with
    | .launchTask t _ => decide (t = i)
    | _ => true

/-- The effective priority of an entry. -/
def Core.entryPrio (k : Core) (e : Entry) : BitVec 3 :=
  match e.steered with
  | some p => p
  | none => BitVec.ofNat 3 (k.classField e.msg.cls 58 3)

/-- Whether an entry comes before another that arrived earlier. -/
def Core.before (k : Core) (x y : Entry) : Bool :=
  let px := k.entryPrio x
  let py := k.entryPrio y
  if px ≠ py then decide (py < px)
  else
    let ox := k.classBit x.msg.cls 57
    let oy := k.classBit y.msg.cls 57
    if ox ≠ oy then ox else ox && decide (y.msg.tag.span < x.msg.tag.span)

/-- The place of the first entry of a list in selection order. -/
def Core.best (k : Core) : List (Nat × Entry) → Option (Nat × Entry)
  | [] => none
  | x :: r =>
    match k.best r with
    | none => some x
    | some y => if k.before y.2 x.2 then some y else some x

/-- The first eligible entry for a seat, with its place in the run queue. -/
def State.firstFor (s : State) (c : CoreId) (i : Fin 4) : Option (Nat × Entry) :=
  let k := s.core c
  k.best ((k.runq.zipIdx.map fun x => (x.2, x.1)).filter fun x => s.eligible c i x.2)

/-- The seat that the next task start of a core must take in deterministic mode (R456). -/
def Core.detSeat (k : Core) : Option (Fin 4) :=
  let hs := (List.finRange 4).filter fun i =>
    decide (k.modes[i] = 0b00) || (decide (i = 3) && decide (k.modes[i] = 0b11))
  hs[k.taskStarts % Nat.max hs.length 1]?

/-- A start of work: the seat begins, and a task start is counted; carried code has none (R33, R456). -/
def State.beginWork (s : State) (t : SeatId) (x : Start) : State :=
  (s.noteSpan t).modCore t.core fun k =>
    { k.modSeat t.seat (fun y => y.begin (basePriv t.core) x) with
      taskStarts := if x.kind = .carried then k.taskStarts else k.taskStarts + 1 }

/-- Start an entry of the run queue on a seat: the cycles that it was eligible are charged (R60), a stolen task's as
any other's (DEDUCED, log entry 65), and it leaves the queue. -/
def State.startEntry (s : State) (c : CoreId) (i : Fin 4) (at_ : Nat) (e : Entry) : State :=
  let ref := toRef e.held (s.region (s.regionOf c)).rate
  let e := e.closeHeld (s.region (s.regionOf c)).rate
  let prio := (s.core c).entryPrio e
  let s := s.modCore c fun k => { (k.addQwait e.acct ref) with runq := k.runq.eraseIdx at_ }
  match e.kind with
  | .launchTask _ _ =>
    let (o, s) := s.nextOrigin ⟨c, i⟩ 1
    s.beginWork ⟨c, i⟩ (s.startOf c e prio o)
  | _ => s.beginWork ⟨c, i⟩ (s.startOf c e prio 0)

/-! ## The deque (R44, R45) -/

/-- The home of a deque slot: the entries stand in a ring of the 64 slots, the top one at `dqTop` (DESIGN CHOICE, log
entry 80). -/
def State.dequeHome (s : State) (c : CoreId) (slot : Nat) : Nat :=
  tcmHome c ((s.core c).dqb.toNat * 0x800 + 32 * (slot % 64))

/-- Whether a deque entry is visible: the forker's earlier stores have left the store buffer (R218). -/
def Core.visible (k : Core) (x : DequeInfo) : Bool := k.sb.all fun e => !x.after.contains e.id

/-- The bytes of a deque entry: routine, class, argument and tag. -/
def State.dequeEntry (s : State) (c : CoreId) (slot : Nat) : Word × BitVec 6 × Word × Tag :=
  let h := s.dequeHome c slot
  let w := s.mem.dword h
  (w &&& 0x0000FFFFFFFFFFFE, w.extractLsb' 48 6, s.mem.dword (h + 8),
    Tag.ofBits (BitVec.ofNat 128 (leNat (s.mem.bytes (h + 16) 16))))

/-- Pop the bottom entry of a core's deque and start it on a seat. -/
def State.popDeque (s : State) (c : CoreId) (i : Fin 4) : Option State :=
  let k := s.core c
  match k.dqHeld.getLast? with
  | none => none
  | some x =>
    let slot := k.dqTop + k.dqHeld.length - 1
    let s := s.claimHome c (s.dequeHome c slot)
    let (pc, cls, arg, tag) := s.dequeEntry c slot
    if !k.visible x || (k.classBit cls 56 && k.liveClass cls) || !s.mayAccept c x.key then none
    else
      let src := (s.srcWord ⟨c, 0⟩).extractLsb' 0 18
      let start : Start :=
        { kind := .task, cls := cls, granules := [], channel := none, pc := pc, codeEnd := 0, acct := none,
          prio := BitVec.ofNat 3 (k.classField cls 58 3), g2 := arg, g3 := 0, g4 := k.stBase cls,
          g5 := g5Word (src.setWidth 20) cls 0, grp := x.grp, tag := tag.add 2 }
      some ((s.modCore c fun k => { k with dqHeld := k.dqHeld.dropLast }).beginWork ⟨c, i⟩ start)

/-- Whether an entry starts as carried code. -/
def Core.isCarried (k : Core) (e : Entry) : Bool := decide (e.kind = .byClass) && decide (k.kindOf e.msg.cls = 4)

/-- What a free handler seat does: it takes its first eligible entry, or pops the deque. -/
def State.seatTakes (s : State) (c : CoreId) (i : Fin 4) : Option State :=
  let k := s.core c
  let other := (s.det? c).isSome && decide (k.detSeat ≠ some i)
  if !s.freeSeat c i then none
  else
    match s.firstFor c i with
    | some (at_, e) => if other && !k.isCarried e then none else some (s.startEntry c i at_ e)
    | none => if other then none else if i = 3 ∧ k.modes[(3 : Fin 4)] = 0b11 then none else s.popDeque c i

/-- SELECT_ENTRY (R34, R45): the lowest free handler seat that finds work starts it. -/
def execSelectEntry (c : CoreId) (s : State) : Out State :=
  .next (((List.finRange 4).findSome? fun i => s.seatTakes c i).getD s)

/-! ## Steals (R45) -/

/-- A core's position in its cluster's ring (R232). -/
def ringPos : CoreId → Nat
  | .grid _ r c => 4 * (r % 4) + (if r % 2 = 0 then c % 4 else 3 - c % 4)
  | .skoum _ => 0

/-- The core at a position of a cluster's ring. -/
def ringCore (k : ClusterId) (p : Nat) : CoreId :=
  let r := p % 16 / 4
  .grid k.die (4 * k.row + r) (4 * k.col + (if r % 2 = 0 then p % 4 else 3 - p % 4))

/-- Whether a core asks for a steal (R45): it has a free handler seat, no eligible entry and an empty deque, and neither
a steal under way nor one that returned nothing less than 16 cycles ago. -/
def State.wantsSteal (s : State) (c : CoreId) : Bool :=
  let k := s.core c
  let three := decide (k.modes[(3 : Fin 4)] = 0b11)
  ((List.finRange 4).any fun i => s.freeSeat c i && !(three && decide (i = 3))) &&
    !((List.finRange 4).any fun i => s.freeSeat c i && (s.firstFor c i).isSome) &&
    k.dqHeld.isEmpty && !k.stealOut && decide (k.stealWait = 0) && (s.det? c).isNone

/-- The first core after another in its cluster's ring whose deque holds an entry that it may have. -/
def State.victimOf (s : State) (c : CoreId) : Option CoreId :=
  let has (v : CoreId) : Bool :=
    match (s.core v).dqHeld with
    | x :: _ => (s.core v).visible x && decide ((s.core v).pid = (s.core c).pid) && (s.core v).benchLead.isNone
    | [] => false
  match c with
  | .skoum _ => none
  | _ => ((List.range 15).map fun j => ringCore (clusterOf c) (ringPos c + 1 + j)).find? has

/-- Whether a core's own pop reaches its last deque entry now. -/
def State.popsLast (s : State) (v : CoreId) : Bool :=
  let k := s.core v
  decide (k.dqHeld.length = 1) && (List.finRange 4).any fun i =>
    s.freeSeat v i && (s.firstFor v i).isNone && !(decide (i = 3) && decide (k.modes[(3 : Fin 4)] = 0b11)) &&
      (s.popDeque v i).isSome

/-- The message that carries the top entry of a deque to a thief: one payload beat, the entry's 32 bytes. -/
def State.stolenMsg (s : State) (c v : CoreId) (x : DequeInfo) : Msg :=
  let k := s.core v
  let (pc, cls, arg, tag) := s.dequeEntry v k.dqTop
  { dst := c, cls := cls, grp := x.grp, part := k.pid, tag := tag, data := s.mem.bytes (s.dequeHome v k.dqTop) 32,
    src := s.srcWord ⟨v, 0⟩, seq := 0, work := 0, age := 0, vn := .req, key := x.key,
    kind := .stolen pc arg v (BitVec.ofNat 3 (k.classField cls 58 3)), rest := [], pkg := none, after := [], held := 0,
    heldDet := 0, qwait := 0, came := 0, rect := none }

/-- STEAL_REQUEST (R45): a core that asks for a steal is granted the top entry of the first core after it in ring order
that holds one, unless a core at a lower position of the ring asks in the same cycle, which is served first. The
entry leaves as a message. Where the victim's own pop reaches its last entry the pop wins: the steal returns nothing. -/
def execStealRequest (c : CoreId) (s : State) : Out State :=
  let ahead (j : Nat) : Bool :=
    let d := ringCore (clusterOf c) j
    s.wantsSteal d && (s.victimOf d).isSome
  match s.victimOf c with
  | none => .next s
  | some v =>
    if !s.wantsSteal c || (List.range (ringPos c)).any ahead then .next s
    else if s.popsLast v then .next (s.modCore c fun k => { k with stealWait := 16 })
    else
      match (s.core v).dqHeld with
      | [] => .next s
      | x :: r =>
        let s := s.claimHome v (s.dequeHome v (s.core v).dqTop)
        let m := s.stolenMsg c v x
        let s := s.modCore v fun y => { y with dqHeld := r, dqTop := (y.dqTop + 1) % 64 }
        let s := s.modCore c fun y => { y with stealOut := true }
        .next (({ s with net := s.net ++ [⟨m, v, 0, false⟩] } : State).count c none 0x08 1)

/-! ## Deliveries to channels and rings (R38, R40) -/

/-- The first entry of the run queue that may be delivered: `pick` names the classes that the delivery serves,
`room` whether a message can be delivered now. An entry that cannot be holds back later ones of its class. -/
def firstDeliverable (pick : Entry → Bool) (room : Entry → Bool) : List (Nat × Entry) → List (BitVec 6) → Option (Nat × Entry)
  | [], _ => none
  | x :: r, blocked =>
    if !pick x.2 then firstDeliverable pick room r blocked
    else if !blocked.contains x.2.msg.cls && room x.2 then some x
    else firstDeliverable pick room r (x.2.msg.cls :: blocked)

/-- Bind a message's granules to a channel as its next beats. -/
def beatsOf (e : Entry) (tag : Tag) : List Beat :=
  e.granules.zipIdx.map fun x =>
    ⟨x.1, e.msg.grp, e.msg.key, if x.2 = 0 then some ({ tag with last := e.msg.origin }, e.msg.origin) else none, none⟩

/-- CHANNEL_DELIVERY (R38): the next deliverable message of a class whose channel is m is bound to its beats. With
no stream seat bound to the channel and no task of it live or queued, its entry becomes a task. An empty message that
was accepted under another KIND has no granule, and is delivered with no beat (DESIGN CHOICE, log entry 63). -/
def execChannelDelivery (c : CoreId) (m : BitVec 2) (s : State) : Out State :=
  let k := s.core c
  let ch : Fin 4 := m.toFin
  let pick (e : Entry) : Bool :=
    decide (e.kind = .byClass) && decide (k.kindOf e.msg.cls = 1) && decide (k.classField e.msg.cls 64 2 = m.toNat)
  let room (e : Entry) : Bool :=
    k.classBit e.msg.cls 55 && decide ((k.chans[ch]).length + e.granules.length ≤ 8) && !e.msg.after.any s.pending
  if s.stopped c then .next s
  else
    match firstDeliverable pick room (k.runq.zipIdx.map fun x => (x.2, x.1)) [] with
    | none => .next s
    | some (at_, e) =>
      let ref := toRef e.held (s.region (s.regionOf c)).rate
      let tag := e.msg.tag.charge 2 ref
      let bound := k.seats.toList.any fun t => decide (t.boundChan = some ch) &&
        match t.work with
        | some w => decide (w.kind = .stream)
        | none => false
      let live := k.seats.toList.any fun t => match t.work with
        | some w => decide (w.channel = some ch)
        | none => false
      let queued := k.runq.any fun x => decide (x.kind = .channelTask ch)
      let chans := k.chans.set ch (k.chans[ch] ++ beatsOf e tag)
      let runq :=
        if bound || live || queued then k.runq.eraseIdx at_
        else k.runq.set at_ { e with kind := .channelTask ch, granules := [], held := 0, msg := { e.msg with tag := tag } }
      .next (s.setCore c { k.addQwait e.acct ref with chans := chans, runq := runq })

/-- The cells that a ring record writes, wrapping at the end of the data area. -/
def ringCells (base d w : Nat) (bs : List Byte) : List (Nat × Byte) :=
  bs.zipIdx.map fun x => (base + 64 + (w + x.2) % d, x.1)

/-- RING_DELIVERY (R40): the next message of a buffer-kind class is written into its ring, W advances, and the
class's done counter is incremented; its granules and its entry are freed. W - R is taken modulo 2^64, so that a ring
whose R exceeds W holds its records back (DESIGN CHOICE, log entry 64). -/
def execRingDelivery (c : CoreId) (cls : BitVec 6) (s : State) : Out State :=
  let k := s.core c
  let x := k.classes[cls.toNat]'cls.isLt
  let pick (e : Entry) : Bool :=
    decide (e.kind = .byClass) && decide (e.msg.cls = cls)
  if k.kindOf cls ≠ 2 ∨ !k.classBit cls 55 ∨ !k.ringOk x ∨ s.stopped c then .next s
  else
    let h := engineHome c (k.classField cls 82 14 * 64)
    let s := s.claimHome c h
    let d := k.classField cls 70 12 * 64 - 64
    let w := (s.mem.dword h).toNat
    let used := (s.mem.dword h - s.mem.dword (h + 8)).toNat
    let size (e : Entry) : Nat := 32 + 32 * ((e.msg.data.length + 31) / 32)
    let room (e : Entry) : Bool := decide (used + size e ≤ d) && !e.msg.after.any s.pending
    match firstDeliverable pick room (k.runq.zipIdx.map fun x => (x.2, x.1)) [] with
    | none => .next s
    | some (at_, e) =>
      let m := e.msg
      let ref := toRef e.held (s.region (s.regionOf c)).rate
      let tag := m.tag.charge 2 ref
      let u := size e
      let bs := natLe 8 (g5Word m.src m.cls m.data.length).toNat ++ natLe 8 0 ++ natLe 16 tag.bits.toNat ++ m.data ++
        List.replicate (u - 32 - m.data.length) 0
      let cells := ringCells h d w bs
      let s := (cells.filter fun b => decide (b.1 % 32 = 0)).foldl (fun (s : State) b => s.claimHome c b.1) s
      let s := (s.writeCells cells).2
      let s := (s.writeCells (cellsFrom h (natLe 8 ((w + u) % 2 ^ 64)))).2
      let n := x.extractLsb' 64 3
      let det := (s.det? c).isSome
      let see : Option (Option Engine) := if det then some none else none
      .next (s.modCore c fun k =>
        let k := { ((k.addQwait e.acct ref).free e.granules) with runq := k.runq.eraseIdx at_ }
        let y := k.done[n.toNat]'n.isLt
        let y := ({ y with i := y.i + 1 } : DoneCounter).inc det ({ tag with last := m.origin }, m.key)
        ({ k with done := k.done.set n.toNat y n.isLt } : Core).note see (some n) m.key)

/-! ## Neighbour vectors (R39) -/

/-- The direction codes of nsend. -/
def dirIndex : Dir → Fin 4
  | .north => 0
  | .east => 1
  | .south => 2
  | .west => 3

/-- The channel that a vector sent in a direction lands in: north in m6, east in m7, south in m4, west in m5. -/
def landing (d : Fin 4) : Fin 4 := d + 2

/-- NSEND_ARRIVAL (R39): the oldest vector under way from a core in a direction lands in the neighbour's
channel. -/
def execNsendArrival (c : CoreId) (dir : Dir) (s : State) : Out State :=
  let i := dirIndex dir
  match (s.core c).flying[i], s.neighbour c i with
  | x :: r, some n =>
    let s := s.modCore c fun k => { k with flying := k.flying.set i r }
    let m := landing i
    .next (s.modCore n fun k => { k with nchans := k.nchans.set m (k.nchans[m] ++ [(x, none)]) })
  | _, _ => .next s

/-- CREDIT_RETURN (R39): a vector that the neighbour has consumed gives its credit back. -/
def execCreditReturn (c : CoreId) (dir : Dir) (s : State) : Out State :=
  let i := dirIndex dir
  match s.neighbour c i with
  | none => .next s
  | some n =>
    let k := s.core c
    if (k.flying[i]).length + ((s.core n).nchans[landing i]).length < k.sent[i] then
      .next (s.setCore c { k with sent := k.sent.set i (k.sent[i] - 1) })
    else .next s

/-! ## Mode changes (R25, R36, R66, R161, R458) -/

/-- MODE_CHANGE (R25): a pending mode takes effect at the seat's idle point. -/
def execModeChange (t : SeatId) (s : State) : Out State :=
  let x := s.seat t
  match x.modePend with
  | none => .next s
  | some m =>
    if x.work.isSome ∨ s.stopped t.core ∨ (s.core t.core).benchLead.isSome then .next s
    else .next ((s.modSeat t fun x => { x with modePend := none }).setMode t m)

end Sys2Proof.Machine
end

