-- ==== Sys2Proof/Machine/Fetch.lean ====
section
/-!
DEFINITION. Fetching the bytes of an instruction (R103, R41, R338).
-/

namespace Sys2Proof.Machine

/-- What fetching a parcel gives. -/
inductive Parcel where
  | ok (p : BitVec 16)
  | wait
  | trap (cause : BitVec 6)
deriving DecidableEq, Repr

/-- Two bytes as a parcel (R4). -/
def Memory.parcel (m : Memory) (h : Nat) : BitVec 16 := BitVec.ofNat 16 (leNat (m.bytes h 2))

/-- Two of a list of bytes as a parcel. -/
def parcelOf (bs : List Byte) (i : Nat) : BitVec 16 := BitVec.ofNat 16 (leNat ((bs.drop i).take 2))

/-- The core whose instruction cache holds the fetch block of an address: on a bench, a member (R315). -/
def State.blockHolder (s : State) (va : Word) : CoreId :=
  match s.bench with
  | none => s.cur.core
  | some b => member s.cur.core b.shape (((va.toNat / 32) ^^^ (va.toNat / 1024)) % shapeK b.shape)

/-- Hold a fetch block as it is read now; the cache of 8 KiB has room for 256, and the oldest goes. -/
def Core.fillBlock (k : Core) (block : Nat) (bs : List Byte) : Core :=
  { k with icache := ((block, bs) :: k.icache.filter fun e => e.1 ≠ block).take 256 }

/-- The newest n instructions of a loop buffer: a parcel that begins one, and the second ones taken in after it. -/
def keepInstrs : Nat → List (Nat × BitVec 16 × Bool) → List (Nat × BitVec 16 × Bool)
  | _, [] => []
  | 0, _ => []
  | n + 1, e :: r => if e.2.2 then e :: keepInstrs n r else e :: keepInstrs (n + 1) r

/-- Hold a parcel of a loop's body in the loop buffer, which has room for 64 instructions. -/
def Core.fillLoop (k : Core) (h : Nat) (p : BitVec 16) (first : Bool) : Core :=
  { k with loopBuf := keepInstrs 64 ((h, p, first) :: k.loopBuf.filter fun e => e.1 ≠ h) }

/-- What a core holds of the parcel at a home: in its loop buffer, and in its instruction cache. -/
def Core.heldParcels (k : Core) (h : Nat) : List (BitVec 16) :=
  ((k.loopBuf.filter fun e => e.1 = h).map (·.2.1)) ++
    (k.icache.filter fun e => e.1 = h / 32 * 32).map fun e => parcelOf e.2 (h % 32)

/-- Whether an address lies in the body of an active loop of the executing seat. -/
def Seat.looping (t : Seat) (va : Word) : Bool :=
  [false, true].any fun l => decide (t.loop l 0 ≠ 0) && decide ((t.loop l 1).toNat ≤ va.toNat) &&
    decide (va.toNat ≤ (t.loop l 2).toNat + 2)

/-- A fetch from memory reads each byte from the core's store buffer if it holds it (R355), and the block with it. The parcel
is read at `h`, and the stores to it go to `home`. -/
def State.readBlock (s : State) (holder : CoreId) (home h : Nat) (va : Word) : Parcel × State :=
  let block := h / 32 * 32
  let fw := s.forwarded (home / 32 * 32) (va - BitVec.ofNat 64 (h % 32)) 32
  let need := (List.range 2).filter fun j => (fw.getD (h % 32 + j) none).isNone
  if need.any fun j => s.badIn (h + j) 1 then (.trap cEcc, s)
  else
    let bs := overlay fw (s.mem.bytes block 32)
    (.ok (parcelOf bs (h % 32)), (s.correct s.cur.core h 2).modCore holder fun k => k.fillBlock block bs)

/-- Take what is held of a parcel, or read it. What is held differs from memory only where a store performed after it was
read, with no invalidation since; there a free value says which of the two is taken. -/
def State.readHeld (s : State) (holder : CoreId) (home h : Nat) (va : Word) : List (BitVec 16) → Parcel × State
  | [] => s.readBlock holder home h va
  | p :: r =>
    if p = s.mem.parcel h ∧ !s.badIn h 2 ∧ s.here.sb.isEmpty then (.ok p, s)
    else
      let v : State := { s with frees := s.frees + 1 }
      if Config.freeHit s.frees then (.ok p, v) else v.readHeld holder home h va r

/-- Read the parcel at a home for a fetch (R1, R97, R204): from the loop buffer or the fetch block that the core holds, and
otherwise from memory. A parcel of a loop's body is kept in the loop buffer. -/
def State.readParcel (s : State) (holder : CoreId) (home h : Nat) (va : Word) (first : Bool) : Parcel × State :=
  match s.readHeld holder home h va ((s.core holder).heldParcels h) with
  | (.ok p, s) =>
    let new := s.me.looping va && !(s.core holder).loopBuf.contains (h, p, first)
    (.ok p, if new then s.modCore holder fun k => k.fillLoop h p first else s)
  | x => x

/-- Read a parcel of carried code: it lies in the core's own TCM, whose bytes the store buffer may hold (R41, R355). -/
def State.readCarried (s : State) (va : Word) : Parcel × State :=
  let c := s.cur.core
  let h := tcmHome c (0x8000 - 0x400 * s.here.msz.toNat + (va.toNat - 0xF4000))
  let s := s.claimHome c h
  match s.localRead h 2 (s.forwarded h va 2) with
  | some bs => (.ok (parcelOf bs 0), s.correct c h 2)
  | none => (.trap cEcc, s)

/-- Fetch a parcel for the executing seat: carried code from the message area; every other parcel from inside the
code window, through translation with execute permission. A fetch from the local window raises WINDOW. `first` tells the
first parcel of an instruction. -/
def State.fetchParcel (s : State) (va : Word) (first : Bool) : Parcel × State :=
  let c := s.cur.core
  let k := s.here
  if s.inCarried va.toNat then s.readCarried va
  else if va.toNat < 0x100000 ∨ va < k.cwlo ∨ k.cwhi ≤ va then (.trap cWindow, s)
  else
    match s.spot c s.bench va with
    | .paged =>
      match s.xlate c s.cur.seat.val va with
      | (.wait, s) => (.wait, s)
      | (.fail .ecc, s) => (.trap cEcc, s)
      | (.fail .fault, s) => (.trap cLoadFault, s)
      | (.ok e, s) =>
        if !permits e.pte s.me.priv .fetch then (.trap cLoadFault, s)
        else if e.repl && (s.replWait (e.pa va) (e.readPa c va) || s.replLinked (e.pa va)) then (.wait, s)
        else (s.countPage c e).readParcel (s.blockHolder va) (e.pa va) (e.readPa c va) va first
    | _ => (.trap cLoadFault, s)

/-- What fetching an instruction gives. -/
inductive Fetched where
  | ok (i : Decoded)
  | wait
  | trap (cause : BitVec 6) (tval : Word)
deriving DecidableEq, Repr

/-- Decode what was fetched: a word that the encodings refuse raises ILLEGAL with itself in cr.tval (R118). -/
def fetchedOf (c : Code) : Fetched :=
  match readCode c with
  | .ok i => .ok i
  | .error _ => .trap cIllegal c.word

/-- Fetch and decode the instruction at the executing seat's address: its first parcel, and where that is not a
16-bit one its second (R102, R103). -/
def State.fetch (s : State) : Fetched × State :=
  let a := s.me.pc
  match s.fetchParcel a true with
  | (.wait, s) => (.wait, s)
  | (.trap c, s) => (.trap c a, s)
  | (.ok p, s) =>
    if p.extractLsb' 0 2 ≠ 3 then (fetchedOf (.w16 p), s)
    else
      match s.fetchParcel (a + 2) false with
      | (.wait, s) => (.wait, s)
      | (.trap c, s) => (.trap c (a + 2), s)
      | (.ok q, s) => (fetchedOf (.w32 (q ++ p)), s)

/-- The loop buffer is invalidated (R97, R153); on a bench, those of its members. -/
def State.dropLoops (s : State) : State :=
  match s.bench with
  | none => s.modHere Core.dropLoops
  | some b => ((List.range (shapeK b.shape)).map (member s.cur.core b.shape)).foldl
      (fun (s : State) c => s.modCore c Core.dropLoops) s

/-- The address of the instruction after the one at an address that lies at a loop's end (R97, R154): its parcel
decides the length. A parcel that cannot be fetched raises its trap here, with that address in cr.tval. -/
def State.afterAt (s : State) (a : Word) (go : Word → State → State) : State :=
  match s.fetchParcel a true with
  | (.ok p, s) => go (a + if p.extractLsb' 0 2 = 3 then 4 else 2) s
  | (.wait, s) => s.stall 4
  | (.trap c, s) => s.raise c a

end Sys2Proof.Machine
end

