-- ==== Sys2Proof/Machine/Tasks.lean ====
section
/-!
DEFINITION. The task instructions: spawn, fork, join, claim, the work queues and exit (R16, R37, R46, R47, R53,
R65, R217 to R223, R458), and the events that serve an instruction waiting for room, asleep or at a home.
-/

namespace Sys2Proof.Machine

/-! ## spawn (R27, R28, R217) -/

/-- Whether a seat's spawn waits for room and its message would now be taken in, or refused for good. -/
def State.spawnFits (s : State) (c : CoreId) (i : Fin 4) : Bool :=
  let s0 : State := { s with cur := ⟨c, i⟩ }
  match s0.me.hold with
  | none => false
  | some h =>
    decide (h.kind = 3) && decide (h.mark = 4) && !s.stopped c &&
      match s0.fetch with
      | (.ok (.instr (.spawn d k)), s1) =>
        let m := (s1.message .req k (natLe 8 (s1.g d).toNat) c [] none 5).1
        (s1.here.refuses m).isSome || s1.here.fits m
      | _ => false

/-- `spawn`: the executing core accepts the message itself, ahead of its router inputs, once no spawn of a lower seat of
the core waits that it could accept (R28). Its tag and origin are a send's with no hop. -/
def execSpawn (d : Reg) (c : BitVec 6) (s : State) : Out State :=
  .next (s.fenceWait fun s =>
    s.ordered 5 (acceptPoint s.cur.core) fun s =>
      let full (s : State) : State := s.noRoom 4 (c.setWidth 64)
      let before := (s.det? s.cur.core).isSome &&
        s.here.inputs.toList.any fun l => l.any fun m => m.key.lt (s.keyFor 5)
      if before then s.stall 9
      else
        let (m, s1) := s.message .req c (natLe 8 (s.g d).toNat) s.cur.core [] none 5
        let first := (List.finRange 4).all fun j => decide (s.cur.seat ≤ j) || !s.spawnFits s.cur.core j
        if s.here.admits m && first then (s1.acceptHere s.cur.core m).complete (w32 1 (.spawn d c)) 5 .seq else full s)

/-! ## fork (R44, R218) -/

/-- `fork`: an entry at the bottom of the deque, in the core's TCM. -/
def execFork (d a : Reg) (imm : BitVec 11) (s : State) : Out State :=
  let f := w32 1 (.fork d a imm)
  let k := s.here
  let h := s.dequeHome s.cur.core (k.dqTop + k.dqHeld.length)
  if !k.dqen ∨ 64 ≤ k.dqHeld.length then .next ((s.setG d 0).complete f 3 .seq)
  else .next <| s.onBanks h 32 fun s =>
    let s := s.closeHold s.cur
    let (o, s) := s.nextOrigin s.cur 1
    let t := s.me
    let tag : Tag := { t.tag.add 3 with last := o }
    let routine := t.pc + (sx11 imm <<< 1)
    let word : Word := (routine &&& 0x0000FFFFFFFFFFFE) ||| ((if s.bench.isSome then 0 else t.prioCls).setWidth 64 <<< 48)
    let bs := natLe 8 word.toNat ++ natLe 8 (s.g a).toNat ++ natLe 16 tag.bits.toNat
    let x : DequeInfo := ⟨t.grp, s.keyFor 3, (k.storesOf s.cur.seat).map (·.id)⟩
    let s := ((s.claimHome s.cur.core h).writeCells (cellsFrom h bs)).2
    let s := s.modHere fun k => { k with dqHeld := k.dqHeld ++ [x] }
    (s.countInput.setG d 1).complete f 3 .seq

/-! ## The end of work by an instruction (R37, R41, R223) -/

/-- The end of the executing seat's work: the instruction completes, and the work ends. -/
def State.endHere (s : State) (f : Form) (cost : Nat) : State := (s.complete f cost .seq).endWork s.cur

/-! ## join (R16, R65, R219) -/

/-- What the answer of a join's home does: the last arriver goes on with the merged tag, which has the join's cost
in it; every other arriver ends. -/
def State.joined (s : State) (f : Form) (r : Reply) : State :=
  if r.r0 = 1 then (s.modMe fun t => { t with tag := r.tag }).complete f 0 .seq else s.endHere f 3

/-- Whether a seat's instruction is past the point where a stop abandons it: its home has answered, or it is a grpcancel in
progress (R403, R404, R419). -/
def Core.finishing (k : Core) (c : CoreId) (i : Fin 4) : Bool :=
  k.cancelling.any (fun x => decide (x.2 = ⟨c, i⟩)) ||
    match (k.seats[i]).waitsFor with
    | some o => o.back
    | none => false

/-- A first attempt of a join, its checks and its wait over: the arrival carries the running tag before the
join's cost, with the next kind-2 origin. On another die the seat waits for the answer, and counts the origin as it takes
that (DESIGN CHOICE, log entry 79). -/
def State.joinAt (s : State) (f : Form) (va : Word) (home : Nat) (pte : Option TlbEntry) : State :=
  s.ordered 3 (homeId home) fun s => s.onBanks home 32 fun s =>
    let s := (s.claimHome s.cur.core home).closeHold s.cur
    let s := match pte with
      | some e => s.countPage s.cur.core e
      | none => s
    let (o, s1) := s.nextOrigin s.cur 2
    let op : HomeOp := .join s.me.tag o
    if dieOfHome home = dieOf s.cur.core then
      match s1.performHere op va home 32 3 pte with
      | (r, s2) => if r.bad then s.raise cEcc va else s2.countInput.joined f r
    else (s.request op va home 32 3 pte (.join o) true).2.holdMe 10 false false

/-- `join` (R219). -/
def execJoin (a : Reg) (imm : BitVec 11) (s : State) : Out State :=
  let f := w32 1 (.join a imm)
  let va := s.g a + sx11 imm
  if s.bench.isSome then .next (s.raise cBench 0)
  else
    match s.me.waitsFor with
    | some o =>
      match o.back, o.reply with
      | true, some r =>
        let s := s.modMe fun t => t.dropOut o.id
        .next (if r.bad then s.raise cEcc o.va else (s.nextOrigin s.cur 2).2.countInput.joined f r)
      | _, _ => .next (s.holdMe 10 false false)
    | none =>
      match s.reach va 32 .atomic with
      | (.trap c t, s) => .next (s.raise c t)
      | (.wait, s) => .next (s.stall 4)
      | (.mem home _ pte, s) =>
        .next (s.releaseWait fun s => s.unlessMoving pte fun s =>
          s.awake home fun s => s.joinAt f va home pte)
      | (_, s) => .next (s.raise cWindow va)

/-! ## claim and the work queues (R46, R47, R220, R221) -/

/-- `claim` (R220). -/
def execClaim (d a b : Reg) (s : State) : Out State :=
  .next (s.atomicOp (w32 1 (.claim d a b)) .claim (s.g a) 32 true ⟨false, false⟩ (.pair d b .claim))

/-- `enq` (R221): a release. -/
def execEnq (d a b : Reg) (s : State) : Out State :=
  .next (s.atomicOp (w32 1 (.enq d a b)) (.enq (s.g b)) (s.g a) 32 true ⟨false, true⟩ (.pair d 0 (.enq (s.g b))))

/-- `deq.try` (R221): an acquire. -/
def execDeqTry (d a x : Reg) (s : State) : Out State :=
  .next (s.atomicOp (w32 1 (.deqTry d a x)) .deqTry (s.g a) 32 true ⟨true, false⟩ (.pair d x .deqTry))

/-- A deq goes to its home: an entry there ends it, and without one it waits there and the seat is blocked. -/
def State.deqAt (s : State) (f : Form) (d : Reg) (va : Word) (home : Nat) (pte : Option TlbEntry) : State :=
  let cost := s.loadCost s.cur.core va home + 4
  s.ordered cost (homeId home) fun s => s.onBanks home 32 fun s =>
    (s.claimHome s.cur.core home).onRing .deq va home fun s =>
    let s := match pte with
      | some e => s.countPage s.cur.core e
      | none => s
    let dest : Dest := .pair d 0 .deq
    if dieOfHome home = dieOf s.cur.core then
      match s.performHere .deq va home 32 cost pte with
      | (r, s1) =>
        if r.bad then s.raise cEcc va
        else if r.r1 = 1 then ((s1.countInput).modMe fun t => t.receive dest r).complete f cost .seq
        else
          let (id, s) := s1.fresh
          let s : State := { s with deqs := s.deqs ++ [⟨s.cur, home, id, pte, s.keyFor cost⟩] }
          (s.keepOut ⟨id, s.me.pc, va, dest, cost, none, true, false⟩).block
    else (s.request .deq va home 32 cost pte dest true).2.block

/-- `deq` (R221): stream mode only; an acquire, since the seat waits for it. -/
def execDeq (d a : Reg) (s : State) : Out State :=
  let f := w32 1 (.deq d a)
  let va := s.g a
  if !s.streaming then .next (s.raise cIllegal f.tval)
  else
    match s.me.waitsFor with
    | some o =>
      match o.back, o.reply with
      | true, some r =>
        let s := s.modMe fun t => t.dropOut o.id
        if r.bad then .next (s.raise cEcc o.va)
        else
          let home := (s.homeOf s.cur.core o.va).getD 0
          .next (((s.countInput).modMe fun t => t.receive o.dest r).complete f (s.loadCost s.cur.core o.va home + 4) .seq)
      | _, _ => .next s.block
    | none =>
      match s.reach va 32 .atomic with
      | (.trap c t, s) => .next (s.raise c t)
      | (.wait, s) => .next (s.stall 4)
      | (.mem home _ pte, s) =>
        if !objectHome home then .next (s.raise cWindow va)
        else
          .next (s.fenceWait fun s => s.unlessMoving pte fun s =>
            s.awake home fun s => s.deqAt f d va home pte)
      | (_, s) => .next (s.raise cWindow va)

/-- A vector store that waits for room to place the rest of its entries is abandoned: those that stand in the store buffer
are taken back, with the counts of stores and inputs (R189, R404; log entry 9). -/
def State.takeBack (s : State) (t : SeatId) : State :=
  match (s.seat t).vprog with
  | some vp =>
    if vp.store then
      (s.modCore t.core fun k => { k with sb := k.sb.filter fun e => !vp.placed.contains e.id }).modSeat t fun x =>
        { x with vprog := none, storeSeq := vp.seq0, inputs := vp.inputs0 }
    else s
  | none => s

/-- Give up the instruction that a seat holds, with no effect: a deq that waits at its home is withdrawn (R221), and a
vector store takes its entries back. -/
def State.withdraw (s : State) (t : SeatId) : State :=
  let s := s.takeBack t
  match (s.seat t).waitsFor with
  | none => s
  | some o =>
    if s.deqs.any fun w => w.id = o.id then
      ({ s with deqs := s.deqs.filter fun w => w.id ≠ o.id } : State).modSeat t fun x => x.dropOut o.id
    else s

/-! ## exit (R223) -/

/-- exit: it waits for the seat's stores, and ends its task, carried code or stream program. -/
def State.exitOp (s : State) (f : Form) : State :=
  if s.bench.isSome then s.raise cBench 0 else s.fenceWait fun s => s.endHere f 1

/-- `exit` (R223). -/
def execExit (s : State) : Out State := .next (s.exitOp (w32 0 .exit))

/-- The parcel of `exit` (R121). -/
def execExit16 (s : State) : Out State := .next (s.exitOp (w16 .exit16))

/-! ## The events that serve a waiting instruction -/

/-- Whether a candidate's turn has come: none that R28 tries before it can be served now. Spawns come first, the lowest
seat's first, then the inputs local, north, east, south and west. -/
def State.turnOf (s : State) (c : CoreId) (inp : InPort) : Bool :=
  let seats (n : Nat) : Bool := (List.finRange 4).all fun j => decide (n ≤ j.val) || !s.spawnFits c j
  let ports (n : Nat) : Bool := (List.finRange 5).all fun j =>
    decide (n ≤ j.val) || (s.nextIn c (s.core c).inputs[j] [] 0).isNone
  match inp with
  | .spawn i => seats i.val
  | .loc => seats 4
  | .north => seats 4 && ports 1
  | .east => seats 4 && ports 2
  | .south => seats 4 && ports 3
  | .west => seats 4 && ports 4

/-- ACCEPT_MESSAGE (R28): a router input's message, or a spawn that waits for room, whose turn has come. -/
def execAcceptMessage (c : CoreId) (inp : InPort) (s : State) : Out State :=
  if !s.turnOf c inp then .next s
  else
  match inp with
  | .spawn i =>
    let s0 : State := { s with cur := ⟨c, i⟩ }
    match s0.me.hold with
    | some h =>
      if h.kind = 3 ∧ h.mark = 4 ∧ !s.stopped c ∧ s0.mayIssue then
        match s0.fetch with
        | (.ok (.instr (.spawn d k)), s1) => execSpawn d k s1
        | _ => .next s
      else .next s
    | none => .next s
  | .loc => .next (s.acceptFrom c 0)
  | .north => .next (s.acceptFrom c 1)
  | .east => .next (s.acceptFrom c 2)
  | .south => .next (s.acceptFrom c 3)
  | .west => .next (s.acceptFrom c 4)

/-- WFM_WAKE (R214): a sleeping seat's wfm completes once one of its conditions holds. -/
def execWfmWake (t : SeatId) (s : State) : Out State :=
  let s0 : State := { s with cur := t }
  match s0.me.hold with
  | some h =>
    if h.asleep && !s.stopped t.core then
      match s0.fetch with
      | (.ok (.instr (.wfm d a)), s1) =>
        if s1.here.wfmHolds (s1.g a) h.mark = 0 then .next s else execWfm d a s1
      | _ => .next s
    else .next s
  | none => .next s

/-- Whether what a send without room waits for has come: an injection queue, or acceptance at the own core. -/
def State.roomFor (s : State) (t : SeatId) (which : Nat) : Bool :=
  let k := s.core t.core
  if which = 4 then decide (k.runq.length < 32) && (k.findRun 1).isSome
  else k.sendRoom (if which = 0 then .req else if which = 1 then .rsp else if which = 2 then .am else .mc)

/-- SENDFULL (R26, R27): a handler seat's send that finds no room 64 or more cycles after its first attempt. -/
def execSendfull (t : SeatId) (s : State) : Out State :=
  let s0 : State := { s with cur := t }
  match s0.me.hold with
  | some h =>
    if h.kind = 3 ∧ 64 ≤ h.since ∧ !s0.stopped t.core ∧ !s0.streaming ∧ !s0.roomFor t h.mark then
      .next (s0.raise cSendfull h.tval)
    else .next s
  | none => .next s

end Sys2Proof.Machine
end

