-- ==== Sys2Proof/Machine/Boundary.lean ====
section
/-!
DEFINITION. The boundary causes and the events that take them (R19, R72, R165, R274, R277, R350, R387, R391, R395,
R396).
-/

namespace Sys2Proof.Machine

/-- A pending boundary cause with its value (R391). -/
inductive Cause where
  | store (va : Word)
  | ecc (a : Word)
  | engine (x : Word)
  | outlier (x : Word)
  | reply (cause : BitVec 6) (x : Word)
  | watchdog (reload : Word)
  | chain (span : Word)
deriving DecidableEq, Repr

/-- The oldest record of a seat. -/
def Core.recordOf (k : Core) (i : Fin 4) : Option RqEntry := k.rq.find? fun e => e.st.seat = i

/-- Whether a seat stands at an instruction boundary: it runs work outside trap state, its partition is not stopped, no
grpcancel of its own has acted, and no request that its instruction waits for is under way, but for a deq that waits at its
home. -/
def State.atBoundary (s : State) (t : SeatId) : Bool :=
  let x := s.seat t
  x.work.isSome && !x.inTrap && !s.stopped t.core && !(s.core t.core).cancelling.any (fun y => decide (y.2 = t)) &&
    match x.waitsFor with
    | none => true
    | some o => s.deqs.any fun w => w.id = o.id

/-- The first pending cause of a seat in the order of R395. -/
def State.firstCause (s : State) (t : SeatId) : Option Cause :=
  let x := s.seat t
  match (s.core t.core).recordOf t.seat with
  | some e => some (.store e.va)
  | none =>
    match x.pend.ecc, x.pend.engine, x.pend.outlier, x.pend.replies with
    | some a, _, _, _ => some (.ecc a)
    | none, some e, _, _ => some (.engine e)
    | none, none, some o, _ => some (.outlier o)
    | none, none, none, r :: _ => some (.reply r.1 r.2)
    | none, none, none, [] =>
      if x.pend.watchdog then some (.watchdog (x.wdReload.setWidth 64))
      else if x.pend.chain then some (.chain (x.tag.span.setWidth 64))
      else none

/-- The cause code, value and IMP of a pending cause. -/
def Cause.parts : Cause → BitVec 6 × Word × Bool
  | .store va => (cStoreFault, va, true)
  | .ecc a => (cEcc, a, true)
  | .engine x => (cEngine, x, true)
  | .outlier x => (cOutlier, x, true)
  | .reply c x => (c, x, true)
  | .watchdog x => (cWatchdog, x, false)
  | .chain x => (cChain, x, false)

/-- The seat once a cause is no longer pending: records stay until software removes them, and CHAIN disarms its
check. -/
def Seat.takes (t : Seat) : Cause → Seat
  | .store _ => t
  | .ecc _ => { t with pend := { t.pend with ecc := none } }
  | .engine _ => { t with pend := { t.pend with engine := none } }
  | .outlier _ => { t with pend := { t.pend with outlier := none } }
  | .reply _ _ => { t with pend := { t.pend with replies := t.pend.replies.drop 1 } }
  | .watchdog _ => { t with pend := { t.pend with watchdog := false } }
  | .chain _ => { t with pend := { t.pend with chain := false }, armed := false }

/-- Take a boundary trap (R391, R395): an instruction held at issue is abandoned with its interval charged, and
cr.epc names the boundary. -/
def State.takeCause (s : State) (t : SeatId) (c : Cause) : State :=
  let (cause, tval, imp) := c.parts
  let s := (s.withdraw t).closeHold t
  let s := match c with
    | .chain _ =>
      let s := s.count t.core (some t.seat) 0x09 1
      if s.traces t.core 0 then s.record (coreIndex t.core) (s.traceRec 0x01 t (natLe 16 (s.seat t).tag.bits.toNat ++
        natLe 8 (s.seat t).pc.toNat ++ natLe 8 (s.seat t).chlim.toNat)) else s
    | _ => s
  (s.modSeat t fun x => x.takes c).trap t cause (s.seat t).pc tval imp

/-- Whether a cause waits: CHAIN does while its core's trace buffer is full (R449). -/
def State.causeWaits (s : State) (t : SeatId) : Cause → Bool
  | .chain _ => s.traces t.core 0 && !s.recordRoom (coreIndex t.core)
  | _ => false

/-- Take the first pending cause of a seat if it is one that `sel` accepts and does not wait. -/
def State.takeIf (s : State) (t : SeatId) (sel : Cause → Bool) : State :=
  if s.atBoundary t then
    match s.firstCause t with
    | some c => if sel c && !s.causeWaits t c then s.takeCause t c else s
    | none => s
  else s

/-- STORE_FAULT (R387). -/
def execStoreFault (t : SeatId) (s : State) : Out State :=
  .next (s.takeIf t fun c => match c with | .store _ => true | _ => false)

/-- ECC_STORE_AT_HOME (R350). -/
def execEccStoreAtHome (t : SeatId) (s : State) : Out State :=
  .next (s.takeIf t fun c => match c with | .ecc _ => true | _ => false)

/-- ENGINE_FAULT (R277, R303). -/
def execEngineFault (t : SeatId) (s : State) : Out State :=
  .next (s.takeIf t fun c => match c with | .engine _ => true | _ => false)

/-- OUTLIER_FULL (R274). -/
def execOutlierFull (t : SeatId) (s : State) : Out State :=
  .next (s.takeIf t fun c => match c with | .outlier _ => true | _ => false)

/-- SYS_REPLY_TRAP (R396). -/
def execSysReplyTrap (t : SeatId) (s : State) : Out State :=
  .next (s.takeIf t fun c => match c with | .reply _ _ => true | _ => false)

/-- WATCHDOG (R165). -/
def execWatchdog (t : SeatId) (s : State) : Out State :=
  .next (s.takeIf t fun c => match c with | .watchdog _ => true | _ => false)

/-- CHAIN (R72). -/
def execChain (t : SeatId) (s : State) : Out State :=
  .next (s.takeIf t fun c => match c with | .chain _ => true | _ => false)

/-! ## The watchdog's count (R165) -/

/-- WATCHDOG_EXPIRY (R165): the cycle in which COUNT goes from 1 to 0 makes WATCHDOG pending. -/
def execWatchdogExpiry (t : SeatId) (s : State) : Out State :=
  if (s.seat t).wdCount = 1 ∧ !s.stopped t.core then .next (s.modSeat t Seat.watch) else .next s

end Sys2Proof.Machine
end

