-- ==== Sys2Proof/Machine/Wide.lean ====
section
/-!
DEFINITION. Wide values and the arithmetic of matrix and scan work (R245 to R256): exact data with NaN payloads,
sums and products, the one rounding, and conversion to the formats of a write-back.
-/

namespace Sys2Proof.Machine

/-- A datum of matrix or scan work: a NaN with its sign and payload, an infinity, or a finite number
(-1)^neg * m * 2^e. -/
inductive Wd where
  | nan (neg : Bool) (payload : Nat)
  | inf (neg : Bool)
  | num (neg : Bool) (m : Nat) (e : Int)
deriving DecidableEq, Repr

/-- The wide format with 24-bit significands (R245). Its pattern is the upper 35 bits of binary64's. -/
def Fmt.wide : Fmt := ⟨11, 23, 1023, 0x3FF7FFFFF, true, true⟩

/-- The payload of a core's NaN at a place k (R249). -/
def nanPayload (virt : Nat × Nat × Nat) (k : Nat) : Nat :=
  (virt.1 % 4) * 2 ^ 20 + (virt.2.1 % 256) * 2 ^ 12 + (virt.2.2 % 256) * 2 ^ 4 + k % 16

/-- A pattern of a format as a datum that enters the work of a core: a payload that it already has is kept, and any
other NaN takes the core's (R250, R252). -/
def Fmt.enter (k : Fmt) (own : Nat) (x : Nat) : Wd :=
  match k.dec x with
  | .inf n => .inf n
  | .num n m e => .num n m e
  | .nan n _ f =>
    let p := if k.fbits = 52 then f / 2 ^ 29 % 2 ^ 22 else if k.fbits = 23 then f % 2 ^ 22 else 0
    .nan n (if p = 0 then own else p)

/-- A wide value as a datum. -/
def enterWide (own : Nat) (x : Word) : Wd := Fmt.f64.enter own x.toNat

/-- Of two NaNs the smaller payload, and the sign 0 between equal payloads (R251). -/
def Wd.meet (x y : Wd) : Wd :=
  match x, y with
  | .nan n p, .nan n' p' => if p < p' then .nan n p else if p' < p then .nan n' p' else .nan (n && n') p
  | .nan n p, _ => .nan n p
  | _, y => y

/-- Whether a datum is a NaN. -/
def Wd.isNan : Wd → Bool
  | .nan _ _ => true
  | _ => false

/-- The exact product; 0 times infinity creates a NaN. -/
def Wd.mul (own : Nat) (x y : Wd) : Wd :=
  match x, y with
  | .num n m e, .num n' m' e' => .num (n != n') (m * m') (e + e')
  | .inf n, .num n' m _ => if m = 0 then .nan false own else .inf (n != n')
  | .num n m _, .inf n' => if m = 0 then .nan false own else .inf (n != n')
  | .inf n, .inf n' => .inf (n != n')
  | x, y => x.meet y

/-- The exact sum; opposite infinities create a NaN. Where a term is a NaN already, the infinities create no further one
(DESIGN CHOICE, log entry 85). -/
def Wd.sum (own : Nat) (ts : List Wd) : Wd :=
  match ts.filter Wd.isNan with
  | x :: r => r.foldl Wd.meet x
  | [] =>
    match ts.filterMap (fun t => match t with | .inf n => some n | _ => none) with
    | n :: r => if r.all fun m => m == n then .inf n else .nan false own
    | [] =>
      let fs := ts.filterMap fun t => match t with | .num n m e => some (n, m, e) | _ => none
      let (v, e) := exactSum fs
      if v = 0 then .num (zeroSign .rne (fs.map fun f => f.1)) 0 0 else .num (decide (v < 0)) v.natAbs e

/-- A NaN's wide pattern (R246, R252). -/
def wideNan (neg : Bool) (payload : Nat) : Word :=
  BitVec.ofNat 64 ((if neg then 2 ^ 63 else 0) + 0x7FF8000000000000 + payload % 2 ^ 22 * 2 ^ 29)

/-- Round to a wide value (R247). -/
def Wd.round : Wd → Word
  | .nan n p => wideNan n p
  | .inf n => if n then 0xFFF0000000000000 else 0x7FF0000000000000
  | .num n m e =>
    let zero : Word := if n then 0x8000000000000000 else 0
    if m = 0 then zero
    else
      let q := (m.log2 : Int) + e - 23
      let y := rint .rne n m (q - e)
      let top := q + (if y = 2 ^ 24 then 1 else 0)
      if top + 23 < -1022 then zero
      else BitVec.ofNat 64 ((Fmt.wide.round .rne n y q).bits * 2 ^ 29)

/-- Scale by a power of two, exactly. -/
def Wd.scale (k : Int) : Wd → Wd
  | .num n m e => .num n m (e + k)
  | x => x

/-- A binary32 pattern widened (R246, R268): a NaN keeps its fraction and is made quiet. -/
def widen (x : Nat) : Word := BitVec.ofNat 64 (Fmt.f64.convert .f32 .rne x).bits

/-! ## Formats of engine elements (R186, R239, R240) -/

/-- The floating-point format of a FMT code. -/
def fmtCode (code : Nat) : Option Fmt :=
  match code with
  | 4 => some .f16
  | 5 => some .bf16
  | 6 => some .f32
  | 8 => some .e4m3
  | 9 => some .e5m2
  | 10 => some .e2m1
  | _ => none

/-- The size in bits of an element of a FMT code. -/
def fmtBits (code : Nat) : Nat := [8, 16, 32, 64, 16, 16, 32, 64, 8, 8, 4, 16].getD code 8

/-- A two's-complement integer as a datum. -/
def intDatum (bits x : Nat) : Wd :=
  if 2 ^ bits ≤ 2 * x then .num true (2 ^ bits - x) 0 else .num false x 0

/-- An element as a datum. -/
def elemDatum (code own x : Nat) : Wd :=
  match fmtCode code with
  | some k => k.enter own x
  | none => intDatum (fmtBits code) x

/-- The 32 bits of one line of a k-step as its elements: 4 of 8 bits, 8 of 4, 2 of 16 or 1 of 32 (R268). -/
def stepElems (code own w : Nat) : List Wd :=
  let b := fmtBits code
  (List.range (32 / b)).map fun i => elemDatum code own (w / 2 ^ (b * i) % 2 ^ b)

/-! ## Write-back (R233, R253, R254) -/

/-- A NaN's pattern in a format, with the payload bits that fit (R252). -/
def Fmt.writeNan (k : Fmt) (neg : Bool) (payload : Nat) : Nat :=
  if k.signals then
    k.sign neg (k.maxCode + 1 + 2 ^ (k.fbits - 1) + payload % 2 ^ 22 / 2 ^ (22 - (k.fbits - 1)))
  else k.sign neg k.defaultNan

/-- The pattern that a wide value takes in a format, and the flags of an outlier entry if it is one. -/
def writeBack (code : Nat) (w : Word) : Nat × Nat :=
  match fmtCode code, enterWide 0 w with
  | some k, .nan n p => (k.writeNan n p, 0)
  | some k, .inf n => if k.inf then (k.sign n k.infCode, 0) else (0, 2)
  | some k, .num n m e =>
    if m = 0 then (k.sign n 0, 0)
    else
      let r := k.roundMag .rne n m e
      if r.huge then (0, 1) else (k.sign n r.code, 0)
  | none, .nan _ _ => (0, 3)
  | none, .inf _ => (0, 2)
  | none, .num n m e =>
    let b := fmtBits code
    let v := rint .rne n m (-e)
    if (if n then v ≤ 2 ^ (b - 1) else v < 2 ^ (b - 1)) then (if n then (2 ^ b - v) % 2 ^ b else v, 0) else (0, 1)

end Sys2Proof.Machine
end

