-- ==== Sys2Proof/Machine/Mx.lean ====
section
/-!
DEFINITION. The matrix engine (R230 to R233, R241 to R248, R258 to R277): its units, latches, banks, tables and
write-back. Commands of the latch unit, ZERO and LDC act in one event; an MMA takes one event for each k-step and
an STC one for each row, after the event that starts it (log entry 12).
-/

namespace Sys2Proof.Machine

/-! ## Units, starts and completions (R258, R262, R276) -/

/-- Whether the array unit has a command under way. -/
def Core.arrayBusy (k : Core) : Bool := (k.running .mx [5, 6, 7, 8, 9]).isSome

/-- Whether the latch unit has: of its commands only a ROTB takes more than one event. -/
def Core.latchBusy (k : Core) : Bool := (k.running .mx [4]).isSome

/-- Change the matrix engine of a core. -/
def State.modMx (s : State) (c : CoreId) (f : Mx → Mx) : State := s.modCore c fun k => { k with mx := f k.mx }

/-- Start the head command of a code, if it may start now: `unit` says that its unit is free, and `own` is its own
condition. It is checked as it starts: `check` gives the lowest status found (R276). -/
def State.mxStart (s : State) (c : CoreId) (code : Nat) (unit own : Bool) (check : Cmd → Option Nat)
    (go : Cmd → State → State) : State :=
  match s.startable c .mx with
  | none => s
  | some x =>
    if x.dropped ∨ x.code ≠ code ∨ !unit ∨ !own then s
    else
      match check x with
      | some st => s.startFault c .mx st
      | none =>
        let (x, s) := s.takeHead c .mx
        go x s

/-- A command that starts and completes in one event. -/
def State.mxDone (s : State) (c : CoreId) (x : Cmd) (cost : Nat) (f : Mx → Mx) : State :=
  (s.modMx c f).addRun c .mx ((Run.start x).finish cost 0 0)

/-- The same with an operand: an uncorrectable error in it is status 6 and no effect. -/
def State.mxLoaded (s : State) (c : CoreId) (x : Cmd) (cost a n : Nat) (f : List Byte → Mx → Mx) : State :=
  match s.engineRead c a n with
  | (none, s) => s.addRun c .mx ((Run.start x).finish 0 6 0)
  | (some bs, s) => s.mxDone c x cost (f bs)

/-- The bytes 8 to 15 that a layout names: the bank, or the address. -/
def bankByte : List Nat := [8]

/-- Bytes 12 to 15. -/
def addrBytes : List Nat := [12, 13, 14, 15]

/-- The address of a command. -/
def Cmd.addr (x : Cmd) : Nat := x.field 12 4

/-- The bank of a command, once it is known to be one. -/
def Cmd.bank (x : Cmd) : Fin 4 := ⟨x.byte 8 % 4, Nat.mod_lt _ (by decide)⟩

/-! ## The latch unit (R232, R242, R269, R270) -/

/-- `LDCB` (R269). -/
def execLdcb (c : CoreId) (s : State) : Out State :=
  .next (s.mxStart c 1 (!(s.core c).latchBusy) true
    (fun x => lowest [(x.malformed addrBytes, 2), (!inTcmOrScratch x.addr 512 64, 5)])
    fun x s => s.mxLoaded c x 8 x.addr 512 fun bs m => { m with table := BitVec.ofNat 4096 (leNat bs) })

/-- The magnitude, twice over, of coordinate j of a ZQ2 index through a base table (R241 to R243). -/
def zq2Twice (table : BitVec 4096) (idx j : Nat) : Nat :=
  2 * (table.toNat / 2 ^ (16 * (idx / 256) + 2 * j) % 4) + idx % 2

/-- The sign of coordinate j: the last one makes the number of negative coordinates even. -/
def zq2Neg (idx j : Nat) : Bool :=
  if j < 7 then idx.testBit (1 + j)
  else ((List.range 7).filter fun i => idx.testBit (1 + i)).length % 2 = 1

/-- Coordinate j of an index as an E4M3 pattern; the value is exact. -/
def zq2Elem (table : BitVec 4096) (idx j : Nat) : Nat :=
  (Fmt.e4m3.round .rne (zq2Neg idx j) (zq2Twice table idx j) (-1)).bits

/-- The 512 bytes that 64 ZQ2 indices decode to, column by column. -/
def zq2Block (table : BitVec 4096) (bs : List Byte) : List Byte :=
  (List.range 64).flatMap fun i =>
    let idx := leNat ((bs.drop (2 * i)).take 2)
    (List.range 8).map fun j => BitVec.ofNat 8 (zq2Elem table idx j)

/-- The formats that LDB accepts (R269). -/
def ldbFormats : List Nat := [0, 4, 5, 6, 8, 9, 10, 11]

/-- The bytes that an LDB reads in a format and scale mode. -/
def ldbSize (fmt mode : Nat) : Nat :=
  if fmt = 11 then 144 else if mode = 1 then 528 else 512

/-- The scale bytes of a mode: 127, the given ones, or a constant. -/
def scaleBytes (mode : Nat) (given : List Byte) (cst : BitVec 8) : List Byte :=
  if mode = 0 then List.replicate 16 127 else if mode = 1 then given else List.replicate 16 cst

/-- The latch that an LDB fills. -/
def Mx.fill (m : Mx) (bs : List Byte) : Mx :=
  let zq := decide (m.bfmt = 11)
  let table := if m.tsel = 1 then defaultTable else m.table
  let data := if zq then zq2Block table (bs.take 128) else bs.take 512
  let given := if zq then bs.drop 128 else bs.drop 512
  { m with
    next := ⟨BitVec.ofNat 4096 (leNat data), if zq then 8 else m.bfmt,
      BitVec.ofNat 128 (leNat (scaleBytes m.bmode.toNat given m.bconst))⟩
    credit := .full }

/-- The successor of a core in its cluster's ring (R232). -/
def ringNext (c : CoreId) : CoreId := ringCore (clusterOf c) (ringPos c + 1)

/-- Whether a ring transfer into a core's B_next is in progress: its predecessor's ROTB runs (R270, R312). -/
def State.incoming (s : State) (c : CoreId) : Bool := (s.core (ringCore (clusterOf c) (ringPos c + 15))).latchBusy

/-- `LDB` (R269). -/
def execLdb (c : CoreId) (s : State) : Out State :=
  let m := (s.core c).mx
  let n := ldbSize m.bfmt.toNat m.bmode.toNat
  .next (s.mxStart c 2 (!(s.core c).latchBusy) (!s.incoming c)
    (fun x => lowest [(x.malformed addrBytes, 2), (!ldbFormats.contains m.bfmt.toNat, 4),
      (!inTcmOrScratch x.addr n 64, 5)])
    fun x s =>
      if m.bfmt = 11 ∧ m.bmode ≠ 1 then s.mxLoaded c x 8 x.addr 128 fun bs m => m.fill bs
      else s.mxLoaded c x 8 x.addr n fun bs m => m.fill bs)

/-- `SWPB` (R270): the latches are exchanged once B_next is full and nothing reads B_cur. -/
def execSwpb (c : CoreId) (s : State) : Out State :=
  let k := s.core c
  .next (s.mxStart c 3 (!k.latchBusy) (decide (k.mx.credit = .full) && (k.running .mx [5, 9]).isNone)
    (fun x => lowest [(x.malformed [], 2)])
    fun x s => s.mxDone c x 1 fun m => { m with cur := m.next, next := m.cur, credit := .credit })

/-- Whether any core of a core's cluster is part of a bench. -/
def State.benchIn (s : State) (c : CoreId) : Bool :=
  (List.range 16).any fun p => (s.core (ringCore (clusterOf c) p)).benchLead.isSome

/-- `ROTB` (R270): the start, once the successor's B_next is free with credit, and the end of the transfer, at which
B_cur, unchanged since, is in the successor's B_next and that is full. A started one completes at a stop too (R282). -/
def execRotb (c : CoreId) (s : State) : Out State :=
  let k := s.core c
  match k.running .mx [4] with
  | none =>
    .next (s.mxStart c 4 true (decide ((s.core (ringNext c)).mx.credit = .credit))
      (fun x => lowest [(x.malformed [], 2), (s.benchIn c, 3)])
      fun x s => s.addRun c .mx (Run.start x))
  | some _ =>
    .next ((s.modMx (ringNext c) fun m => { m with next := k.mx.cur, credit := .full }).modRun c .mx [4]
      fun r => r.finish 8 0 0)

/-! ## MMA and MMAV (R248, R267, R271) -/

/-- The path of a pair of formats: 0 for 8-bit, 1 for E2M1, 2 for 16-bit, 3 for FP32 (R267). -/
def pathOf (code : Nat) : Option Nat :=
  if code = 0 ∨ code = 8 ∨ code = 9 then some 0 else if code = 10 then some 1
  else if code = 4 ∨ code = 5 then some 2 else if code = 6 then some 3 else none

/-- Whether R267 accepts the formats of A and B_cur. -/
def pairOk (a b : Nat) : Bool :=
  match pathOf a, pathOf b with
  | some x, some y => x = y
  | _, _ => false

/-- The row scale byte of row i: in mode 1 from the operand. -/
def Run.rowScale (r : Run) (given : List Byte) (i : Nat) : Nat :=
  let mode := (r.s1.extractLsb' 0 2).toNat
  ((scaleBytes mode given (r.s1.extractLsb' 8 8)).getD i 127).toNat

/-- One k-step on the partial values: P + S for each element of the bank. A NaN in P whose payload is 0, which k-step 0
of core (0, 0, 0) makes, counts as one without a payload (DESIGN CHOICE, log entry 86). -/
def kStep (virt : Nat × Nat × Nat) (afmt bfmt t : Nat) (rows : List Nat) (b : BitVec 4096) (acc : List Word) :
    List Word :=
  let own := nanPayload virt t
  let as := rows.map (stepElems afmt own)
  let bs := (List.range 16).map fun j => stepElems bfmt own (b.toNat / 2 ^ (8 * (32 * j + 4 * t)) % 2 ^ 32)
  acc.zipIdx.map fun (p : Word × Nat) =>
    let s := Wd.sum own ((List.zipWith (Wd.mul own) (as.getD (p.2 / 16) []) (bs.getD (p.2 % 16) [])))
    (Wd.sum own [enterWide own p.1, s]).round

/-- The update of the accumulators from the partial values and the scales. -/
def accumulate (virt : Nat × Nat × Nat) (rows : Nat → Nat) (cols : BitVec 128) (p bank : List Word) : List Word :=
  let own := nanPayload virt 8
  bank.zipIdx.map fun (a : Word × Nat) =>
    let ea := rows (a.2 / 16)
    let eb := (cols.extractLsb' (8 * (a.2 % 16)) 8).toNat
    let x := enterWide own (p.getD a.2 0)
    let scaled : Wd :=
      if ea = 255 ∨ eb = 255 then Wd.meet x (.nan false own) else x.scale ((ea : Int) - 127 + ((eb : Int) - 127))
    (Wd.sum own [enterWide own a.1, scaled]).round

/-- Start an MMA or MMAV: the registers are sampled and P starts at −0. -/
def State.mmaStart (s : State) (c : CoreId) (code : Nat) (named : List Nat) (bad : Cmd → Bool)
    (addrOk : Cmd → Bool) : State :=
  let k := s.core c
  s.mxStart c code (!k.arrayBusy) true
    (fun x => lowest [(x.malformed named, 2), (bad x, 3), (!pairOk k.mx.afmt.toNat k.mx.cur.fmt.toNat, 4),
      (!addrOk x, 5)])
    fun x s => s.addRun c .mx
      { Run.start x with
        s0 := k.mx.afmt.setWidth 16, s1 := k.mx.aconst ++ (0#6 ++ k.mx.amode),
        acc := List.replicate 256 0x8000000000000000 }

/-- Take one k-step of the running MMA or MMAV, with the 4 bytes of each row; after the eighth, the update of the
bank and the command's completion. -/
def State.mmaStep (s : State) (c : CoreId) (r : Run) (rows : List Nat) (scales : List Byte) : State :=
  let m := (s.core c).mx
  let virt := s.virt c
  let acc := kStep virt r.s0.toNat m.cur.fmt.toNat r.step rows m.cur.data r.acc
  if r.step < 7 then
    s.modRun c .mx [r.cmd.code] fun r => { r with step := r.step + 1, acc := acc }
  else
    let b := r.cmd.bank
    let cost := if r.s0 = 6 then 128 else 64
    let s := s.modMx c fun m =>
      { m with banks := m.banks.set b (accumulate virt (r.rowScale scales) m.cur.scale acc m.banks[b]) }
    s.modRun c .mx [r.cmd.code] fun r => { r.finish cost 0 0 with acc := [] }

/-- `MMA` (R271): the start, or the next k-step, which reads its bytes of the A tile; the last one also reads the
row scales of mode 1. -/
def execMma (c : CoreId) (s : State) : Out State :=
  let k := s.core c
  match k.running .mx [5] with
  | none =>
    let n := if k.mx.amode = 1 then 528 else 512
    .next (s.mmaStart c 5 (8 :: addrBytes) (fun x => decide (3 < x.byte 8)) fun x => inTcm x.addr n 64)
  | some r =>
    if s.stopped c then .next s
    else
      let a := r.cmd.addr
      let h := tcmHome c a
      let scaled := decide (r.step = 7) && decide (r.s1.extractLsb' 0 2 = 1)
      let s := (List.range 16).foldl (fun (s : State) i => s.engineAt c (h + 32 * i + 4 * r.step) 4) s
      let s := if scaled then s.engineAt c (h + 512) 16 else s
      let bad := (List.range 16).any (fun i => s.badIn (h + 32 * i + 4 * r.step) 4) || (scaled && s.badIn (h + 512) 16)
      if bad then .next ((s.count c none 0x26 1).modRun c .mx [5] fun r => { r.finish 0 6 0 with acc := [] })
      else
        let rows := (List.range 16).map fun i => leNat (s.mem.bytes (h + 32 * i + 4 * r.step) 4)
        let s := (List.range 16).foldl (fun (s : State) i => s.correct c (h + 32 * i + 4 * r.step) 4) s
        let s := if scaled then s.correct c (h + 512) 16 else s
        .next (s.mmaStep c r rows (if scaled then s.mem.bytes (h + 512) 16 else []))

/-- `MMAV` (R271): its tile is the copy that its push took. -/
def execMmav (c : CoreId) (s : State) : Out State :=
  let k := s.core c
  match k.running .mx [9] with
  | none =>
    let named := [8, 9] ++ if k.mx.amode = 1 then (List.range 16).map (· + 16) else []
    .next (s.mmaStart c 9 named (fun x => decide (3 < x.byte 8) || decide (24 < x.byte 9)) fun _ => true)
  | some r =>
    if s.stopped c then .next s
    else
      let rows := (List.range 16).map fun i => r.cmd.regs.toNat / 2 ^ (8 * (32 * i + 4 * r.step)) % 2 ^ 32
      .next (s.mmaStep c r rows ((List.range 16).map fun i => BitVec.ofNat 8 (r.cmd.byte (16 + i))))

/-! ## ZERO and LDC (R272) -/

/-- `ZERO` (R272). -/
def execZero (c : CoreId) (s : State) : Out State :=
  .next (s.mxStart c 6 (!(s.core c).arrayBusy) true
    (fun x => lowest [(x.malformed bankByte, 2), (decide (3 < x.byte 8), 3)])
    fun x s => s.mxDone c x 2 fun m => { m with banks := m.banks.set x.bank (List.replicate 256 0) })

/-- A bank from its binary32 image. -/
def bankOf (bs : List Byte) : List Word :=
  (List.range 256).map fun i => widen (leNat ((bs.drop (4 * i)).take 4))

/-- `LDC` (R272). -/
def execLdc (c : CoreId) (s : State) : Out State :=
  .next (s.mxStart c 7 (!(s.core c).arrayBusy) true
    (fun x => lowest [(x.malformed (8 :: addrBytes), 2), (decide (3 < x.byte 8), 3), (!inTcm x.addr 1024 64, 5)])
    fun x s => s.mxLoaded c x 16 x.addr 1024 fun bs m => { m with banks := m.banks.set x.bank (bankOf bs) })

/-! ## STC (R233, R253, R273, R274) -/

/-- The formats that STC accepts. -/
def stcFormats : List Nat := [0, 1, 2, 4, 5, 6, 8, 9]

/-- The 16 bytes of an outlier entry. -/
def outlierEntry (index tile flags : Nat) (w : Word) : List Byte :=
  natLe 4 index ++ natLe 2 tile ++ natLe 2 flags ++ natLe 8 w.toNat

/-- List one outlier of the running STC, if the list has room. -/
def State.listOutlier (s : State) (c : CoreId) (x : Cmd) (index flags : Nat) (w : Word) : State :=
  let m := (s.core c).mx
  if m.ocnt.toNat < m.olim.toNat then
    let a := m.olist.toNat / 16 * 16 + 16 * m.ocnt.toNat
    let s := s.engineWrite c x a (outlierEntry index (x.field 10 2) flags w)
    s.modMx c fun m => { m with ocnt := m.ocnt + 1 }
  else s.modRun c .mx [8] fun r => { r with lost := r.lost + 1 }

/-- Write back one row, listing its outliers in order of column. The rows of a 64-byte line are written together, in one
access (R281). -/
def State.stcRow (s : State) (c : CoreId) (r : Run) : State :=
  let m := (s.core c).mx
  let fmt := r.s0.toNat
  let n := fmtBits fmt / 8
  let row := ((m.banks[r.cmd.bank]).drop (16 * r.step)).take 16
  let out := row.map (writeBack fmt)
  let line := r.bytes ++ out.flatMap fun o => natLe n o.1
  let full := decide (16 * n * (r.step + 1) % 64 = 0)
  let s := if full then s.engineWrite c r.cmd (r.cmd.addr + 16 * n * (r.step + 1) - 64) line else s
  let hits := (List.zip row out).zipIdx.filter fun o => o.1.2.2 ≠ 0
  let s := hits.foldl (fun (s : State) o => s.listOutlier c r.cmd (16 * r.step + o.2) o.1.2.2 o.1.1) s
  let s := s.count c none 0x0B hits.length
  s.modRun c .mx [8] fun r =>
    { r with step := r.step + 1, found := r.found + hits.length, bytes := if full then [] else line }

/-- The end of an STC after its last row: lost outliers give status 7 and OUTLIER_FULL. -/
def State.stcEnd (s : State) (c : CoreId) (r : Run) : State :=
  let status := if r.lost = 0 then 0 else 7
  let done := r.finish (16 + 2 * r.found) status r.found
  let s := s.modRun c .mx [8] fun _ => done
  if r.lost = 0 then s
  else
    (s.modMx c fun m => { m with ovf := true }).pendOn c r.cmd fun p =>
      { p with outlier := pendFirst p.outlier done.element }

/-- `STC` (R273, R274): the start, which checks the list if any element is an outlier, or the next row. -/
def execStc (c : CoreId) (s : State) : Out State :=
  let k := s.core c
  let m := k.mx
  match k.running .mx [8] with
  | none =>
    let n := fmtBits m.cfmt.toNat / 8
    let lost (x : Cmd) : Bool :=
      decide (0 < m.olim.toNat) && !inTcm (m.olist.toNat / 16 * 16) (16 * m.olim.toNat) 16 &&
        (m.banks[x.bank]).any fun w => decide ((writeBack m.cfmt.toNat w).2 ≠ 0)
    .next (s.mxStart c 8 (!k.arrayBusy) true
      (fun x => lowest [(x.malformed (8 :: 10 :: 11 :: addrBytes), 2), (decide (3 < x.byte 8), 3),
        (!stcFormats.contains m.cfmt.toNat, 4), (!inTcm x.addr (256 * n) 64 || lost x, 5)])
      fun x s => s.addRun c .mx { Run.start x with s0 := m.cfmt.setWidth 16 })
  | some r =>
    if s.stopped c then .next s
    else if r.step < 15 then .next (s.stcRow c r)
    else
      let s := s.stcRow c r
      match (s.core c).running .mx [8] with
      | some r => .next (s.stcEnd c r)
      | none => .next s

/-! ## cr.mxstat (R275, R277) -/

/-- MXSTAT_RETRY (R275). -/
def execMxstatRetry (c : CoreId) (s : State) : Out State := .next (s.retryHeld c .mx)

/-- MXSTAT_SKIP (R275). -/
def execMxstatSkip (c : CoreId) (s : State) : Out State := .next (s.skipHeld c .mx)

/-- MXSTAT_OVF_CLEAR (R275). -/
def execMxstatOvfClear (c : CoreId) (s : State) : Out State := .next (s.modMx c fun m => { m with ovf := false })

end Sys2Proof.Machine
end

