-- ==== Sys2Proof/Machine/Sn.lean ====
section
/-!
DEFINITION. The scan engine and the Trestle (R284 to R306, R70): the scan operators, SCANL and SCANC step by step,
group commands with their instances, and the close of an instance.
-/

namespace Sys2Proof.Machine

/-! ## The operator (R284, R291 to R294) -/

/-- The fields of cr.snop as a command sampled them. -/
structure ScanOp where
  kind : Nat
  semi : Nat
  type : Nat
  seg : Bool
  rev : Bool
  excl : Bool
  lanes : Nat
deriving DecidableEq, Repr

/-- Read cr.snop. -/
def ScanOp.of (x : BitVec 16) : ScanOp where
  kind := (x.extractLsb' 0 3).toNat
  semi := (x.extractLsb' 4 2).toNat
  type := (x.extractLsb' 6 2).toNat
  seg := x.getLsbD 9
  rev := x.getLsbD 10
  excl := x.getLsbD 11
  lanes := (x.extractLsb' 12 4).toNat + 1

/-- The element size. -/
def ScanOp.size (o : ScanOp) : Nat := [4, 2, 4, 8].getD o.type 4

/-- Whether elements are floating-point. -/
def ScanOp.float (o : ScanOp) : Bool := decide (o.type ≤ 1)

/-- AFFINE. -/
def ScanOp.affine (o : ScanOp) : Bool := decide (o.kind = 4)

/-- W: the bytes of one half of a step. -/
def ScanOp.half (o : ScanOp) : Nat := 64 * ((o.lanes * o.size + 63) / 64)

/-- The bytes of a step. -/
def ScanOp.step (o : ScanOp) : Nat := if o.affine then 2 * o.half else o.half

/-- The combinations that R292 refuses. -/
def ScanOp.refused (o : ScanOp) : Bool := o.affine && decide (o.semi ≠ 0) && decide (2 ≤ o.type)

/-- What a member's contribution must have in common with the others' (R299). -/
def ScanOp.agrees (o p : ScanOp) : Bool :=
  decide (o.kind = p.kind) && decide (o.semi = p.semi) && decide (o.type = p.type) && decide (o.lanes = p.lanes) &&
    o.seg == p.seg && o.rev == p.rev

/-- Binary32's place in the order of maximum and minimum: −0 lies below +0. -/
def orderKey (x : Nat) : Int := if 2 ^ 31 ≤ x then -((x - 2 ^ 31 : Nat) : Int) - 1 else x

/-- A datum rounded once to binary32, with no flag. -/
def Wd.toF32 : Wd → Word
  | .nan n p => BitVec.ofNat 64 (Fmt.f32.writeNan n p)
  | .inf n => BitVec.ofNat 64 (Fmt.f32.sign n Fmt.f32.infCode)
  | .num n m e => BitVec.ofNat 64 (Fmt.f32.round .rne n m e).bits

/-- The lane operations. -/
inductive LaneOp where
  | add | max | min | mul | lae
deriving DecidableEq, Repr

/-- An operation in binary32 (R293): NaNs that meet follow R251, and an invalid operation creates one. -/
def floatLane (f : LaneOp) (own : Nat) (x y : Word) : Word :=
  let dx := Fmt.f32.enter own (x.toNat % 2 ^ 32)
  let dy := Fmt.f32.enter own (y.toNat % 2 ^ 32)
  if dx.isNan || dy.isNan then (dx.meet dy).toF32
  else
    match f with
    | .add => (Wd.sum own [dx, dy]).toF32
    | .mul => (dx.mul own dy).toF32
    | .max => if orderKey x.toNat < orderKey y.toNat then y else x
    | .min => if orderKey y.toNat < orderKey x.toNat then y else x
    | .lae =>
      match dx, dy with
      | .inf false, _ => x
      | _, .inf false => y
      | .inf true, _ => y
      | _, .inf true => x
      | .num n m e, .num n' m' e' => BitVec.ofNat 64 (Fmt.f32.logAddExp (n, m, e) (n', m', e')).bits
      | _, _ => x

/-- An operation on integers of n bytes; they wrap. -/
def intLane (f : LaneOp) (n : Nat) (x y : Word) : Word :=
  let cut (v : Word) : Word := BitVec.ofNat 64 (v.toNat % 256 ^ n)
  match f with
  | .add => cut (x + y)
  | .mul => cut (x * y)
  | .max => if signedOf n x.toNat < signedOf n y.toNat then y else x
  | .min => if signedOf n y.toNat < signedOf n x.toNat then y else x
  | .lae => x

/-- An operation of an operator. -/
def ScanOp.lane (o : ScanOp) (f : LaneOp) (own : Nat) (x y : Word) : Word :=
  if o.float then floatLane f own x y else intLane f o.size x y

/-- The operation of a KIND other than AFFINE. -/
def ScanOp.simple (o : ScanOp) : LaneOp :=
  if o.kind = 0 then .add else if o.kind = 1 then .max else if o.kind = 2 then .min else .mul

/-- The product and the sum of an AFFINE's semiring. -/
def ScanOp.semiring (o : ScanOp) : LaneOp × LaneOp :=
  if o.semi = 0 then (.mul, .add)
  else (.add, if o.semi = 1 then .max else if o.semi = 2 then .min else .lae)

/-- Whether a word of a floating-point lane is a BF16 NaN as it was read, widened: nothing has operated on it. Bit 32, which
no float has, marks it. -/
def ScanOp.raw (o : ScanOp) (x : Word) : Bool := o.float && x.getLsbD 32

/-- A BF16 NaN has no payload: it takes the executing core's where it is first operated on (R250). -/
def ScanOp.bare (o : ScanOp) (x : Word) : Word := if o.raw x then (x &&& 0x80000000) ||| 0x7FC00000 else x

/-- e ∘ x of one lane. -/
def ScanOp.pair (o : ScanOp) (own : Nat) (e x : Word × Word) : Word × Word :=
  let e := (o.bare e.1, o.bare e.2)
  let x := (o.bare x.1, o.bare x.2)
  if o.affine then
    let (times, plus) := o.semiring
    (o.lane times own e.1 x.1, o.lane plus own (o.lane times own e.1 x.2) e.2)
  else (o.lane o.simple own e.1 x.1, 0)

/-- e ∘ x; composing with the identity returns the other operand (R294). Words that another LANES, TYPE or KIND made are
taken as they are, and lanes that one of the two does not have are left out (DESIGN CHOICE, log entry 87). -/
def ScanOp.compose (o : ScanOp) (own : Nat) (e x : ScanVal) : ScanVal :=
  match e, x with
  | none, x => x
  | e, none => e
  | some es, some xs => some (List.zipWith (o.pair own) es xs)

/-- Composition with segment bits (R297). -/
def ScanOp.composeSeg (o : ScanOp) (own : Nat) (e x : ScanVal × Bool) : ScanVal × Bool :=
  (if e.2 then e.1 else o.compose own e.1 x.1, x.2 || e.2)

/-- The values that the identity is written as (R293). -/
def ScanOp.idValue (o : ScanOp) : Word × Word :=
  if o.float then
    if o.affine then
      if o.semi = 0 then (0x3F800000, 0) else (0, if o.semi = 2 then 0x7F800000 else 0xFF800000)
    else
      (if o.kind = 0 then 0x80000000 else if o.kind = 1 then 0xFF800000 else if o.kind = 2 then 0x7F800000
        else 0x3F800000, 0)
  else
    let top : Word := BitVec.ofNat 64 (256 ^ o.size / 2)
    if o.affine then (1, 0)
    else (if o.kind = 0 then 0 else if o.kind = 1 then top else if o.kind = 2 then top - 1 else 1, 0)

/-! ## Steps in memory (R291, R293) -/

/-- An element's bytes as the word it computes with: BF16 is widened, and a NaN of it marked. -/
def ScanOp.readElem (o : ScanOp) (bs : List Byte) : Word :=
  let x := leNat bs
  BitVec.ofNat 64 (if o.type = 1 then x * 65536 + (if (Fmt.bf16.dec x).isNan then 2 ^ 32 else 0) else x)

/-- The bytes of an element: BF16 is rounded to nearest even, and a NaN carried as R252 gives; one that nothing has
operated on is written as it was read (R294). -/
def ScanOp.writeElem (o : ScanOp) (x : Word) : List Byte :=
  if o.type = 1 then
    natLe 2 (if o.raw x then x.toNat % 2 ^ 32 / 65536 else match Fmt.f32.dec (x.toNat % 2 ^ 32) with
      | .nan n _ f => Fmt.bf16.writeNan n (f % 2 ^ 22)
      | .inf n => Fmt.bf16.sign n Fmt.bf16.infCode
      | .num n m e => (Fmt.bf16.round .rne n m e).bits)
  else natLe o.size x.toNat

/-- The lanes of one half of a step. -/
def ScanOp.lanesOf (o : ScanOp) (bs : List Byte) : List Word :=
  (List.range o.lanes).map fun l => o.readElem ((bs.drop (o.size * l)).take o.size)

/-- Whether the L lanes of a step at an address of a core's TCM hold a bad granule. -/
def State.stepBad (s : State) (c : CoreId) (o : ScanOp) (a : Nat) : Bool :=
  s.badIn (tcmHome c a) (o.lanes * o.size) || (o.affine && s.badIn (tcmHome c (a + o.half)) (o.lanes * o.size))

/-- The scan engine's access to a range of its core's TCM claims the frames that the range lies in (R413). -/
def State.claimRange (s : State) (c : CoreId) (a n : Nat) : State :=
  if n = 0 ∨ 0x8000 < a + n then s
  else (List.range ((a + n - 1) / 4096 - a / 4096 + 1)).foldl
    (fun (s : State) i => s.claimHome c (tcmHome c ((a / 4096 + i) * 4096))) s

/-- The access to the lanes of a step: its frames are claimed and its banks taken, and what is correctable in them is
corrected (R350). -/
def State.stepAt (s : State) (c : CoreId) (o : ScanOp) (a : Nat) : State :=
  let n := o.lanes * o.size
  let part (s : State) (a : Nat) : State := (s.engineAt c (tcmHome c a) n).correct c (tcmHome c a) n
  if o.affine then part (part s a) (a + o.half) else part s a

/-- Read a step. -/
def State.readStep (s : State) (c : CoreId) (o : ScanOp) (a : Nat) : List (Word × Word) :=
  let n := o.lanes * o.size
  let as := o.lanesOf (s.mem.bytes (tcmHome c a) n)
  if o.affine then List.zip as (o.lanesOf (s.mem.bytes (tcmHome c (a + o.half)) n)) else as.map fun x => (x, 0)

/-- Write a step, of the L lanes at most; the identity is written as its table values. -/
def State.writeStep (s : State) (c : CoreId) (x : Cmd) (o : ScanOp) (a : Nat) (v : ScanVal) : State :=
  let ls := (v.getD (List.replicate o.lanes o.idValue)).take o.lanes
  let s := s.engineWrite c x a (ls.flatMap fun p => o.writeElem p.1)
  if o.affine then s.engineWrite c x (a + o.half) (ls.flatMap fun p => o.writeElem p.2) else s

/-! ## Starts -/

/-- Start the head command of a code once the engine is free: `look` claims what its checks read, and the lowest status
of its checks is its fault, where a bad granule is counted (R374). -/
def State.snStart (s : State) (c : CoreId) (code : Nat) (look : Cmd → State → State)
    (check : State → Cmd → Option Nat) (go : Cmd → State → State) : State :=
  match s.startable c .sn with
  | none => s
  | some x =>
    if x.dropped ∨ x.code ≠ code ∨ (s.core c).snBusy then s
    else
      let s := look x s
      match check s x with
      | some st => (if st = 6 then s.count c none 0x26 1 else s).startFault c .sn st
      | none => let (x, s) := s.takeHead c .sn; go x s

/-! ## SCANL and SCANC (R286, R295) -/

/-- The step count of a scan. -/
def Cmd.count (x : Cmd) : Nat := x.field 8 2

/-- Bit t of a flag word. -/
def flagAt (f : List Byte) (t : Nat) : Bool := (leNat f).testBit t

/-- The step that is u-th in the scan direction. -/
def ScanOp.at_ (o : ScanOp) (n u : Nat) : Nat := if o.rev then n - 1 - u else u

/-- The number of steps that a SCANC reads: up to the first segment that begins. -/
def ScanOp.reach (o : ScanOp) (n : Nat) (f : List Byte) : Nat :=
  if o.seg then (List.range n).findIdx fun u => flagAt f (o.at_ n u) else n

/-- A scan claims what it reads: its flag word, and the steps of S, or of D for a SCANC. -/
def State.scanLook (s : State) (c : CoreId) (o : ScanOp) (isL : Bool) (x : Cmd) : State :=
  let s := if o.seg then (s.claimRange c (x.field 20 4) 8) else s
  s.claimRange c (if isL then x.field 12 4 else x.field 16 4) (x.count * o.step)

/-- The checks of a scan at its start; an address must lie in TCM even if the scan has no step. -/
def State.scanCheck (c : CoreId) (o : ScanOp) (isL : Bool) (s : State) (x : Cmd) : Option Nat :=
  let n := x.count
  let src := x.field 12 4
  let dst := x.field 16 4
  let fa := x.field 20 4
  let named := [8, 9] ++ (if isL then [12, 13, 14, 15] else []) ++ [16, 17, 18, 19] ++
    if o.seg then [20, 21, 22, 23] else []
  let range (a : Nat) : Bool := inTcm a (Nat.max 1 (n * o.step)) 64
  let flag := s.mem.bytes (tcmHome c fa) 8
  let from_ := if isL then src else dst
  let reads := if isL then n else o.reach n flag
  lowest [(x.malformed named || decide (64 < n), 2), ((s.core c).follows c, 3), (o.refused, 4),
    ((isL && !range src) || !range dst || (o.seg && !inTcm fa 8 8), 5),
    ((o.seg && s.badIn (tcmHome c fa) 8) ||
      (List.range reads).any fun u => s.stepBad c o (from_ + o.at_ n u * o.step), 6)]

/-- The end of a scan: SCANL leaves its aggregate. -/
def State.scanEnd (s : State) (c : CoreId) (r : Run) (isL : Bool) : State :=
  let s := if isL then s.modSn c fun n => { n with agg := r.scan, aggSeg := r.seg } else s
  s.modRun c .sn [r.cmd.code] fun _ => r.finish (4 * r.cmd.count) 0 0

/-- Start a scan: cr.snop and the flag word are sampled. -/
def State.scanStart (s : State) (c : CoreId) (code : Nat) : State :=
  let op := (s.core c).sn.snop
  let o := ScanOp.of op
  let isL := decide (code = 1)
  s.snStart c code (fun x s => s.scanLook c o isL x) (State.scanCheck c o isL) fun x s =>
    let s := if o.seg then s.correct c (tcmHome c (x.field 20 4)) 8 else s
    let flag := if o.seg then s.mem.bytes (tcmHome c (x.field 20 4)) 8 else []
    let r := { Run.start x with s0 := op, bytes := flag }
    let s := s.addRun c .sn r
    if x.count = 0 then s.scanEnd c r isL else s

/-- A step that meets a granule which has gone bad since the start: the command faults with status 6 (R303), and no bad
datum is taken (R351). -/
def State.scanFault (s : State) (c : CoreId) (code : Nat) : State :=
  (s.count c none 0x26 1).modRun c .sn [code] fun r => r.finish 0 6 0

/-- One step of SCANL. -/
def State.scanlStep (s : State) (c : CoreId) (r : Run) : State :=
  let o := ScanOp.of r.s0
  let n := r.cmd.count
  let t := o.at_ n r.step
  let own := nanPayload (s.virt c) 15
  let begins := o.seg && flagAt r.bytes t
  let x0 := if begins then none else r.scan
  let at_ := r.cmd.field 16 4 + t * o.step
  let src := r.cmd.field 12 4 + t * o.step
  let s := s.stepAt c o src
  if s.stepBad c o src then s.scanFault c 1
  else
    let x := o.compose own (some (s.readStep c o src)) x0
    let s := s.writeStep c r.cmd o at_ (if o.excl then x0 else x)
    let r' := { r with step := r.step + 1, scan := x, seg := r.seg || begins }
    if r.step + 1 < n then s.modRun c .sn [1] fun _ => r' else s.scanEnd c r' true

/-- One step of SCANC. A carry that was left under another LANES, TYPE or KIND is composed as it is (DESIGN CHOICE, log entry
87). -/
def State.scancStep (s : State) (c : CoreId) (r : Run) : State :=
  let o := ScanOp.of r.s0
  let n := r.cmd.count
  let t := o.at_ n r.step
  let own := nanPayload (s.virt c) 15
  let at_ := r.cmd.field 16 4 + t * o.step
  if o.seg && flagAt r.bytes t then s.scanEnd c r false
  else
    let s := s.stepAt c o at_
    if s.stepBad c o at_ then s.scanFault c 3
    else
      let s := s.writeStep c r.cmd o at_ (o.compose own (some (s.readStep c o at_)) (s.core c).sn.carry)
      let r' := { r with step := r.step + 1 }
      if r.step + 1 < n then s.modRun c .sn [3] fun _ => r' else s.scanEnd c r' false

/-- `SCANL` (R295): the start, or the next step. -/
def execScanl (c : CoreId) (s : State) : Out State :=
  match (s.core c).running .sn [1] with
  | none => .next (s.scanStart c 1)
  | some r => if s.stopped c then .next s else .next (s.scanlStep c r)

/-- `SCANC` (R295): the start, or the next step. -/
def execScanc (c : CoreId) (s : State) : Out State :=
  match (s.core c).running .sn [3] with
  | none => .next (s.scanStart c 3)
  | some r => if s.stopped c then .next s else .next (s.scancStep c r)

/-! ## Positions and instances (R287, R289, R290, R296, R297) -/

/-- The operator that a group command carries: TRED takes SEG and EXCL as 0, and TBAR samples none. -/
def groupOp (code : Nat) (op : BitVec 16) : BitVec 16 :=
  if code = 4 then 0 else if code = 5 then op &&& 0xF5FF else op

/-- Start a group command: it contributes at once and stays until its instance closes. -/
def State.groupStart (s : State) (c : CoreId) (code : Nat) (named : List Nat) (addrs : Cmd → List Nat) : State :=
  let k := s.core c
  let op := groupOp code k.sn.snop
  let o := ScanOp.of op
  let look (x : Cmd) (s : State) : State := if code = 5 then s.claimRange c (x.field 16 4) o.step else s
  let check (s : State) (x : Cmd) : Option Nat :=
    lowest [(x.malformed named, 2),
      (k.follows c || (match s.part? k.pid.toNat with
        | some p => !p.groupOk c x
        | none => true), 3),
      (decide (code ≠ 4) && o.refused, 4),
      ((addrs x).any fun a => !inTcm a o.step 64, 5),
      (decide (code = 5) && s.stepBad c o (x.field 16 4), 6)]
  s.snStart c code look check fun x s =>
    let s := if code = 5 then s.stepAt c o (x.field 16 4) else s
    let pos := ((s.part? k.pid.toNat).bind fun p => p.position c).getD 0
    let (val, seg) : ScanVal × Bool :=
      if code = 2 then (k.sn.agg, k.sn.aggSeg)
      else if code = 5 then (some (s.readStep c o (x.field 16 4)), false) else (none, false)
    let s := if code = 2 then s.modSn c fun n => { n with agg := none, aggSeg := false } else s
    let (id, s) := s.contribute c x ⟨pos, op, val, seg, some (x.endTag 0, x.origin), 0, x.key, false⟩
    s.addRun c .sn { Run.start x with s0 := op, inst := some id }

/-- `TJOIN` (R287). -/
def execTjoin (c : CoreId) (s : State) : Out State :=
  .next (s.groupStart c 2 ((List.range 12).map (· + 8)) fun x => [x.field 16 4])

/-- `TBAR` (R296). -/
def execTbar (c : CoreId) (s : State) : Out State :=
  .next (s.groupStart c 4 ((List.range 8).map (· + 8)) fun _ => [])

/-- `TRED` (R296, R297). -/
def execTred (c : CoreId) (s : State) : Out State :=
  .next (s.groupStart c 5 ((List.range 16).map (· + 8)) fun x => [x.field 16 4, x.field 20 4])

/-! ## The close of an instance (R70, R298 to R300) -/

/-- Compose a run of contributions in order. -/
def ScanOp.fold (o : ScanOp) (own : Nat) (cs : List (ScanVal × Bool)) (x : ScanVal × Bool) : ScanVal × Bool :=
  cs.foldl (fun x e => o.composeSeg own e x) x

/-- The runs of sixteen contributions, each composed. -/
def ScanOp.runs (o : ScanOp) (own : Nat) : Nat → List (ScanVal × Bool) → List (ScanVal × Bool)
  | 0, _ => []
  | n + 1, cs => if cs.isEmpty then [] else o.fold own (cs.take 16) (none, false) :: o.runs own n (cs.drop 16)

/-- The carry into rank r in the bracket order (R298); `fuel` bounds the depth, one for each factor of 16. -/
def ScanOp.carry (o : ScanOp) (own : Nat) : Nat → List (ScanVal × Bool) → Nat → ScanVal × Bool
  | 0, _, _ => (none, false)
  | fuel + 1, cs, r =>
    if r = 0 then (none, false)
    else
      let q := r / 16
      let x := if q = 0 then (none, false) else o.carry own fuel (o.runs own cs.length cs) q
      o.fold own ((cs.drop (16 * q)).take (r % 16)) x

/-- The rank of a position in a group. -/
def rankOf (rev : Bool) (first count pos : Nat) : Nat := if rev then first + count - 1 - pos else pos - first

/-- Contributions of an instance in rank order. -/
def Instance.ranked (i : Instance) (rev : Bool) : List (ScanVal × Bool) :=
  (List.range i.count).map fun r =>
    match i.got.find? fun y => rankOf rev i.first i.count y.pos = r with
    | some y => (y.val, y.seg)
    | none => (none, false)

/-- Whether the members' operators differ (R299). -/
def Instance.mismatch (i : Instance) : Bool :=
  decide (i.code ≠ 4) &&
    match i.got.filter fun y => !y.auto with
    | [] => false
    | y :: r => r.any fun z => !(ScanOp.of y.op).agrees (ScanOp.of z.op)

/-- The contribution that counts as arriving last (R64): in deterministic mode the one with the largest key (R454); else
the last that came, and among those of its cycle at the combining point the one with the lowest origin. -/
def laterContrib (det : Bool) (x y : Contrib) : Contrib :=
  if det then (if y.key.lt x.key then x else y)
  else if x.time = y.time then
    match x.tag, y.tag with
    | some a, some b => if a.2.toNat ≤ b.2.toNat then x else y
    | _, _ => y
  else y

/-- The chain join of contributions (R70); one without a tag takes no part. -/
def joinContribs (det : Bool) (cost : Nat) (l : List Contrib) : Tag :=
  match l.filter fun y => y.tag.isSome with
  | [] => Tag.zero
  | y :: r =>
    match (r.foldl (laterContrib det) y).tag with
    | none => Tag.zero
    | some x => chainJoin x ((y :: r).filterMap fun z => z.tag.map Prod.fst) cost

/-- One member's completion at the close: its carry or result is written, and its tag is the group's. The executing core
of a NaN created in its composition is the receiving member (DEDUCED, log entry 66). -/
def State.closeMember (s : State) (i : Instance) (p : Part) (status : Nat) (y : Contrib) : State :=
  match p.atPosition y.pos with
  | none => s
  | some c =>
    match (s.core c).sn.q.run.find? fun r => decide (r.inst = some i.id) && r.fin.isNone with
    | none => s
    | some r =>
      let o := ScanOp.of y.op
      let own := nanPayload (s.virt c) 15
      let rank := rankOf o.rev i.first i.count y.pos
      let per := p.rows * p.cols
      let cost := 16 + 64 * ((i.first + i.count - 1) / per - i.first / per)
      let from_ := if i.code = 2 then i.got.filter fun z => rankOf o.rev i.first i.count z.pos ≤ rank else i.got
      let tag := joinContribs p.det cost from_
      let tag := if r.cmd.gap then tag.setFlag 2 true else tag
      let s :=
        if i.code = 4 then s
        else if status = 8 then s.modSn c fun n => { n with mism := true }
        else
          let v := o.carry own 8 (i.ranked o.rev) (if i.code = 2 then rank else i.count)
          if i.code = 2 then
            (s.modSn c fun n => { n with carry := v.1, carrySeg := v.2 }).writeStep c r.cmd o (r.cmd.field 16 4) v.1
          else s.writeStep c r.cmd o (r.cmd.field 20 4) v.1
      let ends (r : Run) : Run := { r with fin := some (BitVec.ofNat 8 status, 0), tag := tag }
      let mine (r : Run) : Bool := decide (r.inst = some i.id) && r.fin.isNone
      s.modCore c fun k => k.modQ .sn fun q => { q with run := modFirst mine ends q.run }

/-- GROUP_CLOSE (R300): the i-th open instance of a partition closes once every position has contributed. -/
def execGroupClose (part i : Nat) (s : State) : Out State :=
  match s.part? part, (s.instances.filter fun x => x.part = part)[i]? with
  | some p, some x =>
    if x.got.length < x.count ∨ p.quiet then .next s
    else
      let status := if x.mismatch then 8 else 0
      let s := (x.got.filter fun y => !y.auto).foldl (fun (s : State) y => s.closeMember x p status y) s
      .next { s with instances := s.instances.filter fun y => y.id ≠ x.id }
  | _, _ => .next s

/-! ## cr.snstat (R303, R304) -/

/-- SNSTAT_RETRY (R304). -/
def execSnstatRetry (c : CoreId) (s : State) : Out State := .next (s.retryHeld c .sn)

/-- SNSTAT_SKIP (R303). -/
def execSnstatSkip (c : CoreId) (s : State) : Out State := .next (s.skipSn c)

/-- SNSTAT_MISM_CLEAR (R304). -/
def execSnstatMismClear (c : CoreId) (s : State) : Out State := .next (s.modSn c fun n => { n with mism := false })

end Sys2Proof.Machine
end

