-- ==== Sys2Proof/Machine/Bench.lean ====
section
/-!
DEFINITION. Benches (R307 to R328): compose, release and benchq. What a bench is while it lives stands with the
operands, the address map and the end of work.
-/

namespace Sys2Proof.Machine

/-- The failure word of compose (R313). -/
def composeWord (code j : Nat) : Word := BitVec.ofNat 64 (code + 256 * j)

/-- Whether an engine holds a command, queued, running or held (R312). -/
def EngineQ.busy (q : EngineQ) : Bool := !q.queue.isEmpty || !q.run.isEmpty || q.held

/-- Why member j of a shape is not vacant, as a failure code (R312, R313). The lead's seat 0 executes the compose,
so only its seats 1 to 3 count. -/
def State.notVacant (s : State) (c : CoreId) (j : Nat) : Option Nat :=
  let k := s.core c
  let seats := (List.finRange 4).filter fun i => decide (j ≠ 0 ∨ i ≠ 0)
  if k.benchLead.isSome || seats.any fun i => (k.seats[i]).work.isSome || decide (k.modes[i] = 0b01) then some 3
  else if k.mx.q.busy || k.cp.q.busy || k.sn.q.busy || s.incoming c then some 4
  else if !k.dqHeld.isEmpty || k.stealOut || !k.sb.isEmpty || !k.rq.isEmpty then some 5
  else none

/-- Whether a shape fits inside a core's cluster with that core at its top-left. -/
def shapeFits (c : CoreId) (shape : BitVec 2) : Bool :=
  match c with
  | .grid _ r x => decide (r % 4 + shapeRows shape ≤ 4) && decide (x % 4 + shapeCols shape ≤ 4)
  | .skoum _ => false

/-- The failure of a compose by the executing seat, if one of its checks fails. -/
def State.composeFails (s : State) (shape : BitVec 2) : Option Word :=
  let c := s.cur.core
  if !shapeFits c shape then some (composeWord 1 0)
  else if s.cur.seat ≠ 0 then some (composeWord 2 0)
  else
    (List.range (shapeK shape)).findSome? fun j => (s.notVacant (member c shape j) j).map fun code => composeWord code j

/-- The seat at composition and at hand-back: lanes and predicate bits of one core, zero above. -/
def Seat.narrow (t : Seat) : Seat :=
  { t with v := t.v.map fun x => (x.setWidth 512).setWidth 8192, p := t.p.map fun x => (x.setWidth 64).setWidth 1024 }

/-- Form a bench of the executing core (R308, R314): its members show every seat as parked. -/
def State.formBench (s : State) (shape : BitVec 2) (wide : Bool) (mode0 : BitVec 2) : State :=
  let c := s.cur.core
  let parked : Vector (BitVec 2) 4 := Vector.replicate 4 0b10
  let join (s : State) (j : Nat) : State :=
    s.modCore (member c shape j) fun k => { k with benchLead := some c, benchModes := k.modes, modes := parked }
  let s := (List.range (shapeK shape)).foldl join s
  s.modCore c fun k =>
    let modes := (k.benchModes.toList.drop 1)
    { (k.modSeat 0 Seat.narrow) with
      bench := some ⟨shape, mode0, modes, wide⟩, modes := parked.set 0 0b01 }

/-- The automatic contributions of a bench's members to the instances that are open (R290). -/
def State.autoContribute (s : State) (shape : BitVec 2) : State :=
  let c := s.cur.core
  match s.partOf c with
  | none => s
  | some p =>
    let part := (s.core c).pid.toNat
    let poss := (List.range (shapeK shape - 1)).filterMap fun j => p.position (member c shape (j + 1))
    let add (i : Instance) : Instance :=
      if i.part = part then
        (poss.filter fun q => decide (i.first ≤ q) && decide (q < i.first + i.count)).foldl
          (fun (i : Instance) q => i.add (autoContrib q 0)) i
      else i
    { s with instances := s.instances.map add }

/-- `compose` (R307). -/
def execCompose (d : Reg) (shape : BitVec 2) (s : State) : Out State :=
  let f := w32 1 (.compose d shape)
  if s.bench.isSome then .next (s.raise cBench 0)
  else
    .next (s.drainWait fun s =>
      match s.composeFails shape with
      | some w => (s.setG d w).complete f 40 .seq
      | none =>
        let s := (s.setG d 0).formBench shape false s.here.modes[s.cur.seat]
        (s.autoContribute shape).complete f 40 .seq)

/-- Give a bench's state back to seat 0 of its lead, and free its members (R309, R327). -/
def State.handBack (s : State) (b : Bench) : State :=
  let c := s.cur.core
  let s := (s.freeMembers c).modCore c fun k =>
    { (k.modSeat 0 Seat.narrow) with bench := none, benchLead := none, modes := k.modes.set 0 b.mode0 }
  s.setModes c (s.core c).launchModes

/-- `release` (R309). -/
def execRelease (s : State) : Out State :=
  match s.bench with
  | none => .next (s.raise cBench 0)
  | some b => .next (s.drainWait fun s => (s.handBack b).complete (w32 1 .release) 40 .seq)

/-- `benchq` (R310). -/
def execBenchq (d : Reg) (s : State) : Out State :=
  .next ((s.setG d (BitVec.ofNat 64 s.k)).complete (w32 1 (.benchq d)) 1 .seq)

end Sys2Proof.Machine
end

