-- ==== Sys2Proof/Machine/Control.lean ====
section
/-!
DEFINITION. Branches and jumps, the hardware loops, the instructions that enter and leave traps, and the chain
instructions (R75, R76, R97 to R101, R151 to R155, R162 to R164).
-/

namespace Sys2Proof.Machine

/-! ## Branches and jumps (R151, R152) -/

/-- A branch by a number of parcels from the instruction's own address. -/
def State.branch (s : State) (f : Form) (taken : Bool) (parcels : Word) : Out State :=
  .next (s.complete f 1 (if taken then .jump (s.me.pc + (parcels <<< 1)) else .seq))

/-- `b.eq` (R151). -/
def execBEq (a b : Reg) (off : BitVec 11) (s : State) : Out State :=
  s.branch (w32 0 (.bEq a b off)) (decide (s.g a = s.g b)) (sx11 off)

/-- `b.ne` (R151). -/
def execBNe (a b : Reg) (off : BitVec 11) (s : State) : Out State :=
  s.branch (w32 0 (.bNe a b off)) (decide (s.g a ≠ s.g b)) (sx11 off)

/-- `b.lt` (R151). -/
def execBLt (a b : Reg) (off : BitVec 11) (s : State) : Out State :=
  s.branch (w32 0 (.bLt a b off)) ((s.g a).slt (s.g b)) (sx11 off)

/-- `b.ge` (R151). -/
def execBGe (a b : Reg) (off : BitVec 11) (s : State) : Out State :=
  s.branch (w32 0 (.bGe a b off)) (!(s.g a).slt (s.g b)) (sx11 off)

/-- The parcel of `b.lt gD, g0, s5` (R121). -/
def execBLt16 (d : Reg) (imm : BitVec 5) (s : State) : Out State :=
  s.branch (w16 (.bLt16 d imm)) ((s.g d).slt (s.g 0)) (sx5 imm)

/-- The parcel of `b.ge gD, g0, s5` (R121). -/
def execBGe16 (d : Reg) (imm : BitVec 5) (s : State) : Out State :=
  s.branch (w16 (.bGe16 d imm)) (!(s.g d).slt (s.g 0)) (sx5 imm)

/-- `j` (R152). -/
def execJ (off : BitVec 21) (s : State) : Out State :=
  s.branch (w32 0 (.j off)) true (off.signExtend 64)

/-- The parcel of `j` (R121). -/
def execJ16 (off : BitVec 10) (s : State) : Out State :=
  s.branch (w16 (.j16 off)) true (off.signExtend 64)

/-- `jal`: g1 takes the return address (R152). -/
def execJal (off : BitVec 21) (s : State) : Out State :=
  (s.setG 1 (s.me.pc + 4)).branch (w32 0 (.jal off)) true (off.signExtend 64)

/-- A jump to a register's value, read before the return address is written; an odd target raises ALIGN. -/
def State.jumpReg (s : State) (f : Form) (d a : Reg) : Out State :=
  let t := s.g a
  if t.getLsbD 0 then .next (s.raise cAlign t)
  else .next ((s.setG d (s.me.pc + BitVec.ofNat 64 f.len)).complete f 1 (.jump t))

/-- `jalr` (R152). -/
def execJalr (d a : Reg) (s : State) : Out State := s.jumpReg (w32 0 (.jalr d a)) d a

/-- The parcel of `jalr` (R121). -/
def execJalr16 (d a : Reg) (s : State) : Out State := s.jumpReg (w16 (.jalr16 d a)) d a

/-! ## The loop registers (R97 to R100, R153, R154) -/

/-- `loop.rd` (R100). -/
def execLoopRd (d : Reg) (sel : BitVec 5) (s : State) : Out State :=
  if h : sel.toNat < 6 then s.alu (w32 0 (.loopRd d sel)) d s.me.loops[sel.toNat] 1
  else .next (s.raise cIllegal (Instr.loopRd d sel).tval)

/-- Write the end of a level: an end that the instruction at `ref` has passed makes the level inactive (R153). -/
def Seat.setLoopEnd (t : Seat) (level : Bool) (v : Word) : Seat :=
  let off := if t.inTrap then decide (v < t.tr.epc) else decide (v ≤ t.pc)
  let t := t.setLoop level 2 v
  if off then t.setLoop level 0 0 else t

/-- `loop.wr` (R153). -/
def execLoopWr (a : Reg) (sel : BitVec 5) (s : State) : Out State :=
  let v := s.g a
  let level := decide (3 ≤ sel.toNat)
  let k := sel.toNat % 3
  if 6 ≤ sel.toNat then .next (s.raise cIllegal (Instr.loopWr a sel).tval)
  else if k ≠ 0 ∧ v.getLsbD 0 then .next (s.raise cAlign v)
  else
    let s := s.modMe fun t =>
      if k = 0 then t.setLoop level 0 v else if k = 1 then t.setLoop level 1 v else t.setLoopEnd level v
    .next ((if k = 0 then s else s.dropLoops).complete (w32 0 (.loopWr a sel)) 1 .seq)

/-- `loop.leave` (R154): a transfer, which no end test follows; of an inactive level it goes on with the following
instruction and has no other effect (log entry 20). -/
def execLoopLeave (n : BitVec 5) (s : State) : Out State :=
  let f := w32 0 (.loopLeave n)
  let level := decide (n = 1)
  if 1 < n.toNat ∨ s.me.inTrap then .next (s.raise cIllegal f.tval)
  else if s.me.loop level 0 = 0 then .next (s.complete f 1 (.goto (s.me.pc + 4)))
  else .next (s.afterAt (s.me.loop level 2) fun next s =>
    let s := s.modMe fun t =>
      let inner := t.nested (!level) level
      let t := t.setLoop level 0 0
      if inner then t.setLoop (!level) 0 0 else t
    s.complete f 1 (.jump next))

/-- Arm a level (R97), which invalidates the loop buffer: with a count of zero the body is skipped. In trap state it
raises ILLEGAL (R99). -/
def State.armLoop (s : State) (f : Form) (l : BitVec 1) (count : Word) (imm : BitVec 11) : Out State :=
  let level := decide (l = 1)
  if s.me.inTrap ∨ imm.toNat < 2 then .next (s.raise cIllegal f.tval)
  else
    let le := s.me.pc + BitVec.ofNat 64 (2 * imm.toNat)
    let set (s : State) : State := (s.modMe fun t =>
      ((t.setLoop level 1 (t.pc + 4)).setLoop level 2 le).setLoop level 0 count).dropLoops
    if count = 0 then .next (s.afterAt le fun next s => (set s).complete f 1 (.to next))
    else .next ((set s).complete f 1 .seq)

/-- `loop.arm` (R97). -/
def execLoopArm (l : BitVec 1) (a : Reg) (imm : BitVec 11) (s : State) : Out State :=
  s.armLoop (w32 0 (.loopArm l a imm)) l (s.g a) imm

/-- `loop.armi` (R97). -/
def execLoopArmi (l : BitVec 1) (n : BitVec 5) (imm : BitVec 11) (s : State) : Out State :=
  s.armLoop (w32 0 (.loopArmi l n imm)) l (n.setWidth 64) imm

/-! ## Traps (R101, R162 to R164) -/

/-- `svc` (R101, R163). -/
def execSvc (s : State) : Out State := .next (s.completeTrap (w32 0 .svc) 1 cSvc 0)

/-- `brk` (R163). -/
def execBrk (n : BitVec 5) (s : State) : Out State :=
  .next (s.completeTrap (w32 0 (.brk n)) 1 cBrk (n.setWidth 64))

/-- `trap` (R163): the causes below 32 need supervisor privilege. -/
def execTrap (a b : Reg) (s : State) : Out State :=
  let cause := (s.g a).extractLsb' 0 6
  if cause.toNat < 32 ∧ s.me.priv = 0 then .next (s.raise cPriv (s.g a))
  else .next (s.completeTrap (w32 0 (.trap a b)) 1 cause (s.g b))

/-- `eret` (R164, R393). -/
def execEret (s : State) : Out State :=
  if s.me.inTrap then .next ((s.modMe Seat.leaveTrap).complete (w32 0 .eret) 1 (.goto s.me.tr.epc))
  else .next (s.raise cIllegal Instr.eret.tval)

/-! ## The chain instructions (R75, R76) -/

/-- An instruction that rewrites the running tag and adds no further cost. -/
def State.retag (s : State) (f : Form) (g : Tag → Tag) : State :=
  ((s.closeHold s.cur).modMe fun t => { t with tag := g t.tag }).complete f 0 .seq

/-- A part of a tag, or cr.gap, by chrd's selector. -/
def chainPart (t : Tag) (gap : Word) (sel : BitVec 5) : Word :=
  if sel = 0 then t.bits.extractLsb' 0 64
  else if sel = 1 then t.bits.extractLsb' 64 64
  else if sel = 2 then t.span.setWidth 64
  else if sel = 3 then t.wait.setWidth 64
  else if sel = 4 then t.last.setWidth 64
  else if sel = 5 then t.flags.setWidth 64
  else gap

/-- chrd: the tag is read after the instruction's own cost is added. -/
def State.chrdOp (s : State) (f : Form) (d : Reg) (sel : BitVec 5) : Out State :=
  if 6 < sel.toNat then .next (s.raise cIllegal f.tval)
  else
    let s := s.closeHold s.cur
    s.alu f d (chainPart (s.me.tag.add 1) s.me.gap sel) 1

/-- `chrd` (R76). -/
def execChrd (d : Reg) (sel : BitVec 5) (s : State) : Out State := s.chrdOp (w32 0 (.chrd d sel)) d sel

/-- The parcel of `chrd` (R121); its form is written out, since Lean builds no such constructor at run time. -/
def execChrd16 (d : Reg) (sel : BitVec 5) (s : State) : Out State :=
  s.chrdOp ⟨2, 0, (join16 sel d 10 2).setWidth 64⟩ d sel

/-- `chmerge` (R76). -/
def execChmerge (a b : Reg) (s : State) : Out State :=
  let x := Tag.ofBits (s.g b ++ s.g a)
  .next (s.retag (w32 0 (.chmerge a b)) fun t =>
    ({ t with span := sat48 (Nat.max (t.span.toNat + 1) x.span.toNat) }.setFlag 2 (t.gap || x.gap)).fix)

/-- `chmerge.last` (R76): the incoming tag arrives last, with the seat's next kind-8 origin. -/
def execChmergeLast (a b : Reg) (s : State) : Out State :=
  let x := Tag.ofBits (s.g b ++ s.g a)
  let (o, s) := s.nextOrigin s.cur 8
  .next (s.retag (w32 0 (.chmergeLast a b)) fun t => (chainJoin (x, o) [t] 1).setFlag 8 true)

/-- `chadd` (R76). -/
def execChadd (a : Reg) (s : State) : Out State :=
  .next (s.retag (w32 0 (.chadd a)) fun t => t.add (1 + (s.g a).toNat))

/-- `chwr` (R76), at supervisor privilege: exactly the written tag, with its fixed flags. The span that it replaces counts
among those reached since launch (R455). -/
def execChwr (a b : Reg) (s : State) : Out State :=
  let f := w32 0 (.chwr a b)
  if s.me.priv = 0 then .next (s.raise cPriv f.tval)
  else
    let x := Tag.ofBits (s.g b ++ s.g a)
    .next ((s.noteSpan s.cur).retag f fun _ => ({ x with flags := x.flags &&& 0x01FF } : Tag).fix)

end Sys2Proof.Machine
end

