-- ==== Sys2Proof/Machine/Horizon.lean ====
section
/-!
DEFINITION. The horizon of a partition in deterministic mode (R455 to R458).
-/

namespace Sys2Proof.Machine

/-- The running spans of a core's counted seats. -/
def Core.countedSpans (k : Core) : List Nat :=
  ((List.finRange 4).filter k.counted).map fun i => (k.seats[i]).runSpan

/-- The key spans of a core's inputs that have been issued and not consumed: messages at any place of it, beats,
commands and records that no seat has observed, stores to other homes, deque entries and pending stream entries. -/
def State.coreSpans (s : State) (c : CoreId) : List Nat :=
  let k := s.core c
  let own (e : SbEntry) : Bool := (s.storeHome c e).any fun h => s.ownTcm c h
  let beats := (k.chans.toList.flatten).filter fun b => b.first.isSome
  let engine (q : EngineQ) : List Nat := (q.queue.map fun x => x.key.span) ++ q.run.map fun r => r.cmd.key.span
  let enters (t : Seat) : Bool := decide (t.modePend = some 0b01)
  (k.inputs.toList.flatten).map (fun m => m.key.span) ++ (k.inj.toList.flatten).map (fun m => m.key.span) ++
    k.runq.map (fun e => e.msg.key.span) ++ beats.map (fun b => b.key.span) ++ engine k.mx.q ++ engine k.sn.q ++
    engine k.cp.q ++ k.unseen.map (·.key.span) ++ (k.sb.filter fun e => !own e).map (fun e => e.key.span) ++
    k.dqHeld.map (fun e => e.key.span) ++ ((k.seats.toList.filter enters).map fun t => t.modeSpan.toNat)

/-- Everything that holds the horizon of a partition back: counted seats, and inputs not consumed (R455). -/
def State.openSpans (s : State) (id : Nat) (p : Part) : List Nat :=
  p.cores.flatMap (fun c => (s.core c).countedSpans ++ s.coreSpans c) ++
    (s.net.filter fun f => f.msg.part.toNat = id).map (fun f => f.msg.key.span) ++
    s.links.flatMap (fun l => (l.2.filter fun x => p.cores.contains x.core).map fun x => x.key.span) ++
    ((s.wqSpans.filter fun w => some w.1.1 = p.ctx).map (·.2))

/-- The largest running span that a seat of a partition has reached since launch. -/
def State.topSpan (s : State) (p : Part) : Nat :=
  p.cores.foldl (fun n c => (s.core c).seats.toList.foldl (fun n t => Nat.max n t.tag.span.toNat) n) p.top

/-- The horizon of a partition now (R455); it never decreases. -/
def State.horizonOf (s : State) (id : Nat) (p : Part) : Nat :=
  Nat.max p.horizon (((s.openSpans id p).min?).getD (s.topSpan p))

/-- HORIZON_UPDATE (R456): the partition's positions receive the horizon. -/
def execHorizonUpdate (part : Nat) (s : State) : Out State :=
  match s.part? part with
  | some p => if p.det ∧ !p.quiet then .next (s.modPart part fun q => { q with horizon := s.horizonOf part p }) else .next s
  | none => .next s

end Sys2Proof.Machine
end

