-- ==== Sys2Proof/Machine/Memory.lean ====
section
/-!
DEFINITION. The scalar loads and stores, prefetch, tensor-map elements, fences and atomics (R194 to R208), with
their 16-bit aliases (R121).
-/

namespace Sys2Proof.Machine

/-- Nothing follows a load's issue. -/
def keep (_ : Option Nat) (s : State) : State := s

/-- What an acquiring load leaves: no later access issues before its value has returned (R198). -/
def acquire (id : Option Nat) (s : State) : State :=
  match id with
  | some x => s.gate [x] [x]
  | none => s

/-- The n low bytes of a register of the executing seat. -/
def State.regBytes (s : State) (d : Reg) (n : Nat) : List Byte := natLe n (s.g d).toNat

/-! ## Loads and stores (R194 to R196) -/

/-- `ld.bs` with [gA + gB] (R194, R196). -/
def execLdBs (d a b : Reg) (s : State) : Out State :=
  .next (s.loadOp (w32 1 (.ldBs d a b)) d (s.g a + s.g b) 1 true keep)

/-- `ld.bz` with [gA + gB] (R194, R196). -/
def execLdBz (d a b : Reg) (s : State) : Out State :=
  .next (s.loadOp (w32 1 (.ldBz d a b)) d (s.g a + s.g b) 1 false keep)

/-- `ld.hs` with [gA + gB] (R194, R196). -/
def execLdHs (d a b : Reg) (s : State) : Out State :=
  .next (s.loadOp (w32 1 (.ldHs d a b)) d (s.g a + s.g b) 2 true keep)

/-- `ld.hz` with [gA + gB] (R194, R196). -/
def execLdHz (d a b : Reg) (s : State) : Out State :=
  .next (s.loadOp (w32 1 (.ldHz d a b)) d (s.g a + s.g b) 2 false keep)

/-- `ld.ws` with [gA + gB] (R194, R196). -/
def execLdWs (d a b : Reg) (s : State) : Out State :=
  .next (s.loadOp (w32 1 (.ldWs d a b)) d (s.g a + s.g b) 4 true keep)

/-- `ld.wz` with [gA + gB] (R194, R196). -/
def execLdWz (d a b : Reg) (s : State) : Out State :=
  .next (s.loadOp (w32 1 (.ldWz d a b)) d (s.g a + s.g b) 4 false keep)

/-- `ld.d` with [gA + gB] (R194, R196). -/
def execLdD (d a b : Reg) (s : State) : Out State :=
  .next (s.loadOp (w32 1 (.ldD d a b)) d (s.g a + s.g b) 8 false keep)

/-- `st.b` with [gA + gB] (R194, R196). -/
def execStB (d a b : Reg) (s : State) : Out State :=
  .next (s.storeOp (w32 1 (.stB d a b)) (s.g a + s.g b) (s.regBytes d 1) [])

/-- `st.h` with [gA + gB] (R194, R196). -/
def execStH (d a b : Reg) (s : State) : Out State :=
  .next (s.storeOp (w32 1 (.stH d a b)) (s.g a + s.g b) (s.regBytes d 2) [])

/-- `st.w` with [gA + gB] (R194, R196). -/
def execStW (d a b : Reg) (s : State) : Out State :=
  .next (s.storeOp (w32 1 (.stW d a b)) (s.g a + s.g b) (s.regBytes d 4) [])

/-- `st.d` with [gA + gB] (R194, R196). -/
def execStD (d a b : Reg) (s : State) : Out State :=
  .next (s.storeOp (w32 1 (.stD d a b)) (s.g a + s.g b) (s.regBytes d 8) [])

/-- `ld.acq` (R198). -/
def execLdAcq (d a b : Reg) (s : State) : Out State :=
  .next (s.loadOp (w32 1 (.ldAcq d a b)) d (s.g a + s.g b) 8 false acquire)

/-- `st.rel` (R198): it waits at issue for the seat's loads and atomics, and its entry waits for its stores. -/
def execStRel (d a b : Reg) (s : State) : Out State :=
  let f := w32 1 (.stRel d a b)
  let va := s.g a + s.g b
  match s.reach va 8 .store with
  | (.trap c t, s) => .next (s.raise c t)
  | (_, s) =>
    if s.me.outs.isEmpty then
      .next (s.crossWait fun s => s.storeOp f va (s.regBytes d 8) (s.unperformed s.cur))
    else .next (s.stall 4)

/-- `pf` (R199): no effect beyond its cost. -/
def execPf (a b : Reg) (s : State) : Out State := .next (s.complete (w32 1 (.pf a b)) 1 .seq)

/-- `ld.ws` with [gA + imm] (R194, R196). -/
def execLdWsImm (d a : Reg) (imm : BitVec 11) (s : State) : Out State :=
  .next (s.loadOp (w32 1 (.ldWsImm d a imm)) d (s.g a + sx11 imm) 4 true keep)

/-- `ld.wz` with [gA + imm] (R194, R196). -/
def execLdWzImm (d a : Reg) (imm : BitVec 11) (s : State) : Out State :=
  .next (s.loadOp (w32 1 (.ldWzImm d a imm)) d (s.g a + sx11 imm) 4 false keep)

/-- `ld.d` with [gA + imm] (R194, R196). -/
def execLdDImm (d a : Reg) (imm : BitVec 11) (s : State) : Out State :=
  .next (s.loadOp (w32 1 (.ldDImm d a imm)) d (s.g a + sx11 imm) 8 false keep)

/-- `st.w` with [gA + imm] (R194, R196). -/
def execStWImm (d a : Reg) (imm : BitVec 11) (s : State) : Out State :=
  .next (s.storeOp (w32 1 (.stWImm d a imm)) (s.g a + sx11 imm) (s.regBytes d 4) [])

/-- `st.d` with [gA + imm] (R194, R196). -/
def execStDImm (d a : Reg) (imm : BitVec 11) (s : State) : Out State :=
  .next (s.storeOp (w32 1 (.stDImm d a imm)) (s.g a + sx11 imm) (s.regBytes d 8) [])

/-- The parcel of `ld.d` (R121). -/
def execLdD16 (d a : Reg) (s : State) : Out State :=
  .next (s.loadOp (w16 (.ldD16 d a)) d (s.g a) 8 false keep)

/-- The parcel of `st.d` (R121). -/
def execStD16 (d a : Reg) (s : State) : Out State :=
  .next (s.storeOp (w16 (.stD16 d a)) (s.g a) (s.regBytes d 8) [])

/-- The parcel of `ld.wz` (R121). -/
def execLdWz16 (d a : Reg) (s : State) : Out State :=
  .next (s.loadOp (w16 (.ldWz16 d a)) d (s.g a) 4 false keep)

/-- The parcel of `ld.bz` (R121). -/
def execLdBz16 (d a : Reg) (s : State) : Out State :=
  .next (s.loadOp (w16 (.ldBz16 d a)) d (s.g a) 1 false keep)

/-- The parcel of `st.b` (R121). -/
def execStB16 (d a : Reg) (s : State) : Out State :=
  .next (s.storeOp (w16 (.stB16 d a)) (s.g a) (s.regBytes d 1) [])

/-- The parcel of `ld.d` of the word at g4 + 8u (R121). -/
def execLdDG416 (d : Reg) (imm : BitVec 5) (s : State) : Out State :=
  .next (s.loadOp (w16 (.ldDG416 d imm)) d (s.g 4 + 8 * imm.setWidth 64) 8 false keep)

/-- The parcel of `st.d` to g4 + 8u (R121). -/
def execStDG416 (d : Reg) (imm : BitVec 5) (s : State) : Out State :=
  .next (s.storeOp (w16 (.stDG416 d imm)) (s.g 4 + 8 * imm.setWidth 64) (s.regBytes d 8) [])

/-- The parcel of `ld.d` of the word at g3 + 8u (R121). -/
def execLdDG316 (d : Reg) (imm : BitVec 5) (s : State) : Out State :=
  .next (s.loadOp (w16 (.ldDG316 d imm)) d (s.g 3 + 8 * imm.setWidth 64) 8 false keep)

/-! ## Tensor maps (R186, R188, R200) -/

/-- The element sizes of the formats (R186). -/
def fmtSize (fmt : Nat) : Nat := [1, 2, 4, 8, 2, 2, 4, 8, 1, 1, 1, 2].getD fmt 1

/-- The fields of a tensor map. -/
structure TMap where
  base : Word
  ext0 : Nat
  ext1 : Nat
  str0 : Int
  str1 : Int
  fmt : Nat
  oob : Nat
deriving DecidableEq, Repr

/-- Read a tensor map. -/
def TMap.of (x : BitVec 256) : TMap where
  base := x.extractLsb' 0 64
  ext0 := (x.extractLsb' 64 32).toNat
  ext1 := (x.extractLsb' 96 32).toNat
  str0 := (x.extractLsb' 128 32).toInt
  str1 := (x.extractLsb' 160 32).toInt
  fmt := (x.extractLsb' 192 8).toNat
  oob := (x.extractLsb' 200 8).toNat

/-- Map N of the executing core; on a bench, of the lead. -/
def State.tmap (s : State) (n : BitVec 4) : TMap := TMap.of (s.here.tmaps[n.toNat]'n.isLt)

/-- What the bounds of a map make of an element: an address, a zero, nothing, or WINDOW. -/
inductive Elem where
  | at_ (va : Word)
  | zero
  | skip
  | out
deriving DecidableEq, Repr

/-- The address of an element within the bounds. -/
def TMap.addr (m : TMap) (x y : Int) : Word := m.base + BitVec.ofInt 64 (x * m.str0 + y * m.str1)

/-- A coordinate forced into an extent. -/
def clamp (x : Int) (ext : Nat) : Int := if x < 0 then 0 else if (ext : Int) - 1 < x then (ext : Int) - 1 else x

/-- The bounds rule of R188 and R200 for a load or a store. -/
def TMap.elem (m : TMap) (x y : Int) (load : Bool) : Elem :=
  if 0 ≤ x ∧ x < m.ext0 ∧ 0 ≤ y ∧ y < m.ext1 then .at_ (m.addr x y)
  else if m.oob = 0 then (if load then .zero else .skip)
  else if m.oob = 1 then
    if !load then .skip
    else if m.ext0 = 0 ∨ m.ext1 = 0 then .zero
    else .at_ (m.addr (clamp x m.ext0) (clamp y m.ext1))
  else .out

/-- The coordinate word of a WINDOW under OOB 2. -/
def coordPair (x y : Int) : Word := BitVec.ofInt 32 y ++ BitVec.ofInt 32 x

/-- `tld` (R200). -/
def execTld (n : BitVec 4) (d a b : Reg) (s : State) : Out State :=
  let f := w32 1 (.tld n d a b)
  let m := s.tmap n
  let x := (s.g a).toInt
  let y := (s.g b).toInt
  match m.elem x y true with
  | .at_ va => .next (s.loadOp f d va (fmtSize m.fmt) (decide (m.fmt ≤ 3)) keep)
  | .zero => .next ((s.setG d 0).complete f 2 .seq)
  | .skip => .next (s.complete f 2 .seq)
  | .out => .next (s.raise cWindow (coordPair x y))

/-- `tst` (R200). -/
def execTst (n : BitVec 4) (d a b : Reg) (s : State) : Out State :=
  let f := w32 1 (.tst n d a b)
  let m := s.tmap n
  let x := (s.g a).toInt
  let y := (s.g b).toInt
  match m.elem x y false with
  | .at_ va => .next (s.storeOp f va (s.regBytes d (fmtSize m.fmt)) [])
  | .out => .next (s.raise cWindow (coordPair x y))
  | _ => .next (s.complete f 1 .seq)

/-! ## Fences (R202 to R204) -/

/-- The identities of the executing seat's loads and atomics under way. -/
def State.unreturnedIds (s : State) : List Nat := s.me.unreturned

/-- What a release fence waits for: loads and atomics, and for .pkg and .sys the stores too (R202). -/
def State.fenceSet (s : State) (scope : BitVec 5) : List Nat :=
  s.unreturnedIds ++ if 4 ≤ scope.toNat then s.unperformed s.cur else []

/-- A fence: its wait, its completion, and what later accesses wait for. A release of scope .sys also waits, here, for what
crosses packages (R366). -/
def State.fence (s : State) (f : Form) (scope : BitVec 5) (rel : Bool) (loads stores : State → List Nat) : Out State :=
  if 5 < scope.toNat then .next (s.raise cIllegal f.tval)
  else
    .next (s.fenceWait fun s =>
      let go (s : State) : State := (s.gate (loads s) (stores s)).complete f 1 .seq
      if rel ∧ scope = 5 then s.crossWait go else go s)

/-- `fence.acq` (R202). -/
def execFenceAcq (c : BitVec 5) (s : State) : Out State :=
  s.fence (w32 0 (.fenceAcq c)) c false State.unreturnedIds State.unreturnedIds

/-- `fence.rel` (R202). -/
def execFenceRel (c : BitVec 5) (s : State) : Out State :=
  s.fence (w32 0 (.fenceRel c)) c true (fun _ => []) fun s => s.fenceSet c

/-- `fence.sc` (R202). -/
def execFenceSc (c : BitVec 5) (s : State) : Out State :=
  s.fence (w32 0 (.fenceSc c)) c true (fun s => s.fenceSet c) fun s => s.fenceSet c

/-- `sdrain` (R203). -/
def execSdrain (s : State) : Out State := .next (s.drainWait fun s => s.complete (w32 0 .sdrain) 1 .seq)

/-- The executing core's instruction cache and loop buffer are emptied; on a bench, those of its members (R204). -/
def State.dropCode (s : State) : State :=
  let drop (s : State) (c : CoreId) : State := s.modCore c fun k => { k with icache := [] }.dropLoops
  match s.bench with
  | none => drop s s.cur.core
  | some b => ((List.range (shapeK b.shape)).map (member s.cur.core b.shape)).foldl drop s

/-- `ifence` (R204). -/
def execIfence (s : State) : Out State := .next (s.drainWait fun s => s.dropCode.complete (w32 0 .ifence) 1 .seq)

/-! ## Atomics (R205 to R208) -/

/-- The ordering of an atomic by its suffix code (R113). -/
def orderOf (ord : BitVec 2) : Order := ⟨ord.getLsbD 0, ord.getLsbD 1⟩

/-- The size of an atomic by its width bit (R205). -/
def amoSize (w : BitVec 1) : Nat := if w = 1 then 4 else 8

/-- An atomic on the datum at gA with the operand of gB, and gD as the value that cas compares with. -/
def State.amo (s : State) (f : Form) (fn : AmoFun) (n : Nat) (ord : BitVec 2) (d a b : Reg) : Out State :=
  .next (s.atomicOp f (.amo fn n (s.g b) (s.g d)) (s.g a) n false (orderOf ord) (.amo d n))

/-- `amo.add` (R207). -/
def execAmoAdd (w : BitVec 1) (ord : BitVec 2) (d a b : Reg) (s : State) : Out State :=
  s.amo (w32 1 (.amoAdd w ord d a b)) .add (amoSize w) ord d a b

/-- `amo.and` (R207). -/
def execAmoAnd (w : BitVec 1) (ord : BitVec 2) (d a b : Reg) (s : State) : Out State :=
  s.amo (w32 1 (.amoAnd w ord d a b)) .and (amoSize w) ord d a b

/-- `amo.or` (R207). -/
def execAmoOr (w : BitVec 1) (ord : BitVec 2) (d a b : Reg) (s : State) : Out State :=
  s.amo (w32 1 (.amoOr w ord d a b)) .or (amoSize w) ord d a b

/-- `amo.xor` (R207). -/
def execAmoXor (w : BitVec 1) (ord : BitVec 2) (d a b : Reg) (s : State) : Out State :=
  s.amo (w32 1 (.amoXor w ord d a b)) .xor (amoSize w) ord d a b

/-- `amo.min` (R207). -/
def execAmoMin (w : BitVec 1) (ord : BitVec 2) (d a b : Reg) (s : State) : Out State :=
  s.amo (w32 1 (.amoMin w ord d a b)) .min (amoSize w) ord d a b

/-- `amo.max` (R207). -/
def execAmoMax (w : BitVec 1) (ord : BitVec 2) (d a b : Reg) (s : State) : Out State :=
  s.amo (w32 1 (.amoMax w ord d a b)) .max (amoSize w) ord d a b

/-- `amo.minz` (R207). -/
def execAmoMinz (w : BitVec 1) (ord : BitVec 2) (d a b : Reg) (s : State) : Out State :=
  s.amo (w32 1 (.amoMinz w ord d a b)) .minz (amoSize w) ord d a b

/-- `amo.maxz` (R207). -/
def execAmoMaxz (w : BitVec 1) (ord : BitVec 2) (d a b : Reg) (s : State) : Out State :=
  s.amo (w32 1 (.amoMaxz w ord d a b)) .maxz (amoSize w) ord d a b

/-- `amo.swap` (R207). -/
def execAmoSwap (w : BitVec 1) (ord : BitVec 2) (d a b : Reg) (s : State) : Out State :=
  s.amo (w32 1 (.amoSwap w ord d a b)) .swap (amoSize w) ord d a b

/-- `amo.fadd` (R207). -/
def execAmoFadd (w : BitVec 1) (ord : BitVec 2) (d a b : Reg) (s : State) : Out State :=
  s.amo (w32 1 (.amoFadd w ord d a b)) .fadd (amoSize w) ord d a b

/-- `cas` (R207). -/
def execCas (w : BitVec 1) (ord : BitVec 2) (d a b : Reg) (s : State) : Out State :=
  s.amo (w32 1 (.cas w ord d a b)) .cas (amoSize w) ord d a b

/-- The parcel of `amo.add.d gD, [gA], gD` (R121). -/
def execAmoAddD16 (d a : Reg) (s : State) : Out State :=
  s.amo (w16 (.amoAddD16 d a)) .add 8 0 d a d

end Sys2Proof.Machine
end

