-- ==== Sys2Proof/Machine/Pages.lean ====
section
/-!
DEFINITION. Pages beyond one access: walks (R344), translation invalidation (R345), the sequencers of replicated
pages (R346, R347, R355), migration (R348, R349, R382), frame claims (R413) and scrubbing (R350).
-/

namespace Sys2Proof.Machine

/-! ## Walks (R344) -/

/-- The places of the entries that a walk reads, first to last: it ends at a leaf, at an entry that breaks R342, and at a
bad granule. -/
def State.walkPath (s : State) (va : Nat) : List (Nat × Nat) → Nat → List Nat
  | [], _ => []
  | (lo, w) :: rest, table =>
    let at_ := table + va / 2 ^ lo % 2 ^ w * 8
    let pte := s.mem.dword at_
    if !hbmExists at_ then []
    else if s.badIn at_ 8 || !pteOk pte || pte.getLsbD 1 || (decide (lo ≠ 21) && decide (tablePa pte % 4096 ≠ 0)) then [at_]
    else at_ :: s.walkPath va rest (tablePa pte)

/-- The same from a root. -/
def State.pathOf (s : State) (root va : Word) : List Nat :=
  if root.getLsbD 0 then s.walkPath va.toNat walkLevels ((root.extractLsb' 12 29).toNat * 4096) else []

/-- PAGE_WALK (R344, R374): the oldest pending page of a die is walked, which is counted, and the TLBs of the cores whose
requesters wait are filled; a walk that fails leaves its misses to report it when they are tried again. -/
def execPageWalk (die : Nat) (s : State) : Out State :=
  match (s.die die).walks with
  | [] => .next s
  | w :: rest =>
    let s := (s.modDie die fun d => { d with walks := rest }).countDie die 0x22 1
    let s := match w.waits with
      | (c, _) :: _ => s.correctAt c ((s.pathOf w.root w.va).flatMap fun a => (List.range 8).map fun i => a + i)
      | [] => s
    match s.walk w.root w.va with
    | .ok (pte, bits) =>
      .next (w.waits.foldl (fun (s : State) c => s.fill c.1 ⟨s.ctxOf c.1, w.root, pageBase w.va bits, bits, pte⟩ 2) s)
    | .error _ =>
      .next (s.modDie die fun d => { d with walked := d.walked ++ w.waits.map fun c => (w.root, w.va, c) })

/-! ## tlbinv (R345) -/

/-- Remove from every TLB of some dies the entries that meet a test; the Skoum complex is on die 0 (R78). -/
def State.dropTlbs (s : State) (dies : List Nat) (p : TlbEntry → Bool) : State :=
  let keep (l : List TlbEntry) : List TlbEntry := l.filter fun e => !p e
  { s with
    cores := s.cores.map fun x => if dies.contains (dieOf x.1) then (x.1, { x.2 with utlb := keep x.2.utlb }) else x
    clusters := s.clusters.map fun x => if dies.contains (x.1.die % 4) then (x.1, { x.2 with tlb := keep x.2.tlb }) else x
    dies := s.dies.map fun x => if dies.contains x.1 then (x.1, { x.2 with tlb := keep x.2.tlb }) else x }

/-- Remove from a core's micro-TLB and its cluster's TLB the entries that meet a test. -/
def State.dropNear (s : State) (c : CoreId) (p : TlbEntry → Bool) : State :=
  let keep (l : List TlbEntry) : List TlbEntry := l.filter fun e => !p e
  let s := s.modCore c fun k => { k with utlb := keep k.utlb }
  if s.clusters.has (clusterOf c) then s.modCluster (clusterOf c) fun k => { k with tlb := keep k.tlb } else s

/-- Whether an entry maps an address. -/
def TlbEntry.maps (e : TlbEntry) (va : Word) : Bool := decide (va.toNat / 2 ^ e.bits * 2 ^ e.bits = e.page.toNat)

/-- Whether an access of the partition is still on its way under a dropped entry: in a link buffer, a deq that waits at its
home, or an update that some replica has not applied. -/
def State.usesLeaf (s : State) (p : TlbEntry → Bool) : Bool :=
  let mine (u : Update) : Bool := decide (u.leaf.ctx = s.ctxOf s.cur.core) && p u.leaf
  s.links.any (fun l => l.2.any fun x =>
    decide ((s.core x.core).pid = s.here.pid) && match x.pte with
      | some e => p e
      | none => false) ||
  s.deqs.any (fun w => decide ((s.core w.seat.core).pid = s.here.pid) && w.pte.any p) ||
  s.seqrs.any fun q => q.unperformed.any mine

/-- `tlbinv` (R345). -/
def execTlbinv (a : Reg) (k : BitVec 5) (s : State) : Out State :=
  let f := w32 0 (.tlbinv a k)
  if 2 < k.toNat then .next (s.raise cIllegal f.tval)
  else if s.me.priv = 0 then .next (s.raise cPriv f.tval)
  else
    let va := s.g a
    let ctx := s.ctxOf s.cur.core
    let p (e : TlbEntry) : Bool := if k = 1 then decide (e.ctx = ctx) else e.maps va
    .next (s.drainWait fun s =>
      let near : List CoreId := match s.bench with
        | some b => (List.range (shapeK b.shape)).map fun j => member s.cur.core b.shape j
        | none => [s.cur.core]
      let dies := match s.partOf s.cur.core with
        | some q => q.dies
        | none => [dieOf s.cur.core]
      let s := if k = 2 then near.foldl (fun (s : State) c => s.dropNear c p) s else s.dropTlbs dies p
      if s.usesLeaf p then s.stall 4 else s.complete f 1 .seq)

/-! ## Replicated pages (R346, R347, R355) -/

/-- The update that a packet of a core's store buffer or copy engine brings (R197, R346). -/
def Packet.toUpdate (p : Packet) (e : TlbEntry) (who : Option SeatId) (bs : List (Nat × Byte)) : Update :=
  ⟨p.id, e, who, who.isSome, who.isSome && !p.extra, bs⟩

/-- Send an update of a core toward the sequencer: in its own die at once, else through the link buffer. -/
def State.sendUpdate (s : State) (p : Packet) (e : TlbEntry) (who : Option SeatId) (bs : List (Nat × Byte)) :
    State :=
  let home := leafPa e.pte / 2 ^ 39
  if home = dieOf p.core then s.arriveUpdate (p.toUpdate e who bs)
  else s.sendPacket (dieOf p.core) home { p with kind := .update e who bs }

/-- SEQUENCE_UPDATE (R355): the oldest update that has reached a sequencer joins its list. -/
def execSequenceUpdate (i : Nat) (s : State) : Out State :=
  match s.seqrs[i]? with
  | some q =>
    match q.arriving with
    | u :: r => .next { s with seqrs := s.seqrs.set i { q with arriving := r, list := q.list ++ [u] } }
    | [] => .next s
  | none => .next s

/-- APPLY_UPDATE (R346): a replica applies the next update of its sequence. -/
def execApplyUpdate (i die : Nat) (s : State) : Out State :=
  match s.seqrs[i]? with
  | some q =>
    let n := Tab.get q.applied die q.list.length
    match q.rset.contains die, q.list[n]? with
    | true, some u =>
      .next (({ s with seqrs := s.seqrs.set i { q with applied := Tab.set q.applied die (n + 1) } } : State).applyUpdate die u)
    | _, _ => .next s
  | none => .next s

/-! ## Migration (R348, R349, R382) -/

/-- Take the frame at HEAD of a die's pool of 64 KiB or 2 MiB frames. An entry that is no frame of the die is
lost from the ring. -/
def State.takeFrame (s : State) (die bits : Nat) : Option Nat × State :=
  let pool := if bits = 21 then (s.die die).pool2m else (s.die die).pool64
  let base := (pool.extractLsb' 12 29).toNat * 4096
  let lg := (pool.extractLsb' 0 5).toNat
  let hd := s.mem.dword base
  if lg < 4 ∨ 20 < lg ∨ hd = s.mem.dword (base + 8) then (none, s)
  else
    let x := s.mem.dword (base + 64 + 8 * (hd.toNat % 2 ^ lg))
    let frame := (x.extractLsb' 16 25).toNat * 2 ^ 16
    let s := { s with mem := s.mem.writeAll (cellsFrom base (natLe 8 (hd.toNat + 1))) }
    if frame / 2 ^ 39 = die ∧ frame % 2 ^ bits = 0 then (some frame, s) else (none, s)

/-- Write a frame at TAIL of a die's pool. -/
def State.giveFrame (s : State) (die bits frame : Nat) : State :=
  let pool := if bits = 21 then (s.die die).pool2m else (s.die die).pool64
  let base := (pool.extractLsb' 12 29).toNat * 4096
  let lg := (pool.extractLsb' 0 5).toNat
  let tl := s.mem.dword (base + 8)
  if lg < 4 ∨ 20 < lg then s
  else
    let mem := s.mem.writeAll (cellsFrom (base + 64 + 8 * (tl.toNat % 2 ^ lg)) (natLe 8 frame))
    { s with mem := mem.writeAll (cellsFrom (base + 8) (natLe 8 (tl.toNat + 1))) }

/-- Drop a page's counts. -/
def Die.resetCounts (d : Die) (page root : Word) : Die :=
  { d with counts := d.counts.filter fun c => !(decide (c.1.1 = page) && decide (c.1.2.1 = root)) }

/-- Whether a partition that runs from a root is stopped: no move begins there (R349). -/
def State.rootStops (s : State) (root : Word) : Bool :=
  s.parts.any fun p => p.2.stop && p.2.cores.any fun c => decide ((s.core c).ptb = root)

/-- MIGRATION_START (R348): the i-th count of a home die has reached THRESH and exceeds the home's own, and a frame
is taken on the accessing die. -/
def execMigrationStart (die i : Nat) (s : State) : Out State :=
  let s := s.newWindow die
  let d := s.die die
  match d.counts[i]? with
  | none => .next s
  | some ((page, root, from_), n) =>
    let home := Tab.get d.counts (page, root, die) 0
    if !d.migEn ∨ from_ = die ∨ n < d.thresh.toNat ∨ n ≤ home ∨ s.rootStops root ∨
        d.moves.any fun m => decide (m.root = root) && decide (m.page = page) then .next s
    else
      match s.walk root page with
      | .error _ => .next (s.modDie die fun d => d.resetCounts page root)
      | .ok (pte, bits) =>
        let e : TlbEntry := ⟨none, root, page, bits, pte⟩
        if bits > 21 ∨ pte.getLsbD 7 ∨ e.repl ∨ leafPa pte / 2 ^ 39 ≠ die then
          .next (s.modDie die fun d => d.resetCounts page root)
        else
          match s.takeFrame from_ bits with
          | (none, s) => .next (s.modDie die fun d => d.resetCounts page root)
          | (some frame, s) =>
            let m : Migration := ⟨root, page, bits, ((s.pathOf root page).getLast?).getD 0, pte, BitVec.ofNat 64 frame⟩
            .next (s.modDie die fun d => { d.resetCounts page root with moves := d.moves ++ [m] })

/-- A leaf with another frame address. -/
def withFrame (pte : Word) (frame : Nat) : Word :=
  pte.extractLsb' 41 23 ++ BitVec.ofNat 25 (frame / 2 ^ 16) ++ pte.extractLsb' 0 16

/-- An address in a frame that has moved. -/
def rebase (old new n a : Nat) : Nat := if old ≤ a ∧ a < old + n then new + (a - old) else a

/-- A packet toward a frame that has moved goes to the new frame, and so does what it touches (R348). -/
def Packet.rebind (p : Packet) (old new n : Nat) : Packet :=
  let moved := rebase old new n
  let cells (bs : List (Nat × Byte)) : List (Nat × Byte) := bs.map fun b => (moved b.1, b.2)
  { p with
    base := moved p.base, home := homeId (moved p.base)
    pte := p.pte.map fun e => { e with pte := withFrame e.pte new }
    kind := match p.kind with
      | .store bs => .store (cells bs)
      | .copy bs => .copy (cells bs)
      | .fetch fw as => .fetch fw (as.map moved)
      | .request op t as => .request op t (as.map moved)
      | k => k }

/-- Whether a packet was translated by the leaf of a page that moves. -/
def Migration.carries (m : Migration) (p : Packet) : Bool :=
  p.pte.any fun e => decide (e.root = m.root) && decide (e.page = m.page)

/-- Whether a packet on its way touches a frame through another mapping than the page that moves. -/
def State.linked (s : State) (m : Migration) (a n : Nat) : Bool :=
  s.links.any fun l => l.2.any fun p => decide (a ≤ p.base) && decide (p.base < a + n) && !m.carries p

/-- The packets of a page that has moved go on toward its new die, in their order. -/
def State.rebindLinks (s : State) (m : Migration) (old new n : Nat) : State :=
  let die := new / 2 ^ 39
  let goes (p : Packet) : Bool := m.carries p && decide (old ≤ p.base) && decide (p.base < old + n)
  let move (s : State) (at_ : Nat × Nat) : State :=
    let l := s.links.get at_ []
    let k := (at_.1, die)
    let s : State := { s with links := s.links.set at_ (l.filter fun p => !goes p) }
    { s with links := s.links.set k (s.links.get k [] ++ (l.filter goes).map fun p => p.rebind old new n) }
  ((s.links.filter fun l => l.2.any goes).map (·.1)).foldl move s

/-- A move that has not switched is abandoned: its frame returns to its pool (R348, R349, R351). -/
def State.abandonMoves (s : State) (p : Migration → Bool) : State :=
  let drop (s : State) (d : Nat) : State :=
    match (s.die d).moves.filter p with
    | [] => s
    | gone =>
      (gone.foldl (fun (s : State) m => s.giveFrame (m.frame.toNat / 2 ^ 39) m.bits m.frame.toNat) s).modDie d fun x =>
        { x with moves := x.moves.filter fun m => !p m }
  [0, 1, 2, 3].foldl drop s

/-- A store into the leaf of a page that is moving abandons the move, whatever it writes (R348). -/
def State.storedLeaf (s : State) (cells : List (Nat × Byte)) : State :=
  s.abandonMoves fun m => cells.any fun b => decide (m.pteAt ≤ b.1) && decide (b.1 < m.pteAt + 8)

/-- The deqs that wait at an object in a frame wait at it in the new frame (R47, R348). -/
def DeqWait.rebind (w : DeqWait) (old new n : Nat) : DeqWait :=
  if old ≤ w.home ∧ w.home < old + n then
    { w with home := rebase old new n w.home, pte := w.pte.map fun e => { e with pte := withFrame e.pte new } }
  else w

/-- MIGRATION_SWITCH (R348): the copy is complete, and the leaf takes the new frame; what is on its way to the old frame
performs on the new one. A leaf that has changed, or that is unmapped, abandons the move, and so does a bad
granule in the frame (R351). The copy corrects the correctable granules that it reads (R350). -/
def execMigrationSwitch (die i : Nat) (s : State) : Out State :=
  match (s.die die).moves[i]? with
  | none => .next s
  | some m =>
    let old := leafPa m.pte
    let new := m.frame.toNat
    let n := 2 ^ m.bits
    let ends (s : State) : State := s.modDie die fun d => { d with moves := d.moves.eraseIdx i }
    if s.mem.dword m.pteAt ≠ m.pte ∨ s.badIn old n then .next ((ends s).giveFrame (new / 2 ^ 39) m.bits new)
    else if s.linked m old n then .next s
    else
      let mem := (s.mem.clear new n).writeAll ((s.mem.extract old n).map fun e => (new + e.1, e.2))
      let mem := mem.writeAll (cellsFrom m.pteAt (natLe 8 (withFrame m.pte new).toNat))
      let within (lo g : Nat) : Bool := decide (lo ≤ g) && decide (g < lo + n)
      let s := s.countDie die 0x25 (s.weak.filter (within old)).length
      let s : State :=
        { s with
          mem := mem, bad := s.bad.filter fun g => !within new g
          weak := s.weak.filter fun g => !within old g && !within new g
          deqs := s.deqs.map fun w => w.rebind old new n }
      let s := (((ends s).rebindLinks m old new n).dropTlbs [0, 1, 2, 3] fun e => e.maps m.page).giveFrame die m.bits old
      .next (s.countDie die 0x27 1)

/-- COUNTING_WINDOW (R349): the per-die counts of a home die's pages begin anew in a new window. -/
def execCountingWindow (die : Nat) (s : State) : Out State := .next (s.newWindow die)

/-! ## Frame claims and scrubbing (R350, R413) -/

/-- Whether a frame belongs to a partition. -/
def Part.holds (p : Part) : FrameId → Bool
  | .tcm c f => (p.virt c).isSome && decide (f < 8)
  | .scratch k f => (p.virt (.grid k.die (4 * k.row) (4 * k.col))).isSome && decide (f < 16)
  | .sram d f => p.dies.contains d && (p.whole && decide (f < 256) || p.sram.contains f)

/-- The running partition of a context. -/
def State.runs (s : State) (ctx : Nat) : Option Part :=
  (s.parts.find? fun x => decide (x.2.ctx = some ctx)).map (·.2)

/-- FRAME_CLAIM (R413): a frame of its partition that a running context does not own is claimed for it. -/
def execFrameClaim (f : FrameId) (ctx : Nat) (s : State) : Out State :=
  match s.runs ctx with
  | some p => if p.holds f && !p.quiet then .next (s.claim ctx f) else .next s
  | none => .next s

/-- SCRUB (R350): a granule is read, corrected or counted. -/
def execScrub (g : Nat) (s : State) : Out State :=
  let g := granuleOf g
  let count (code : Nat) (s : State) : State :=
    match coreOfHome g with
    | some c => s.count c none code 1
    | none => s.countDie (dieOfHome g) code 1
  if s.bad.contains g then .next (count 0x26 s)
  else if s.weak.contains g then .next (count 0x25 { s with weak := s.weak.filter fun x => x ≠ g })
  else .next s

end Sys2Proof.Machine
end

