-- ==== Sys2Proof/Machine/Cp.lean ====
section
/-!
DEFINITION. The copy engine (R58, R364, R365, R431 to R438, R441): its commands in units, one unit in an event
(log entry 13). A unit toward another die or package is over when it is acknowledged, and the next one leaves
after that.
-/

namespace Sys2Proof.Machine

/-! ## Addresses and ranges (R432) -/

/-- An address of a command: on this package, or on another one of the job's domain. -/
structure CpAddr where
  va : Word
  pkg : Option Nat
deriving DecidableEq, Repr

/-- Read an address of a command, or the status that refuses it. -/
def Part.cpAddr (p : Part) (a : Word) : Except Nat CpAddr :=
  let pkg := (a.extractLsb' 48 9).toNat
  if !a.getLsbD 63 then .ok ⟨a, none⟩
  else if p.domain ≤ pkg then .error 3
  else if a.extractLsb' 57 6 ≠ 0 then .error 5
  else .ok ⟨(a.extractLsb' 0 48).setWidth 64, if pkg = p.index then none else some pkg⟩

/-- The end of the part of an offset within a core's local addresses that reaches memory. -/
def Core.offsetEnd (k : Core) (o : Nat) : Nat :=
  if o < 0x8000 then 0x8000 else if o < 0x50000 then 0x50000 else 0xF4000 + 0x400 * k.msz.toNat

/-- The end of the piece of the address map that an address lies in, if the engine reaches memory there. -/
def State.segEnd (s : State) (c : CoreId) (a : Nat) : Option Nat :=
  match s.spot c none (BitVec.ofNat 64 a) with
  | .paged => some (2 ^ 48)
  | .mem _ =>
    if a < 0x100000 then some ((s.core c).offsetEnd a)
    else if a < 0x020000000000 then
      (s.fabricCore c a).map fun d => a / 2 ^ 20 * 2 ^ 20 + (s.core d).offsetEnd (a % 2 ^ 20)
    else some (a / 2 ^ 28 * 2 ^ 28 + ((s.core c).win.extractLsb' 32 9).toNat * 2 ^ 20)
  | _ => none

/-- Whether a range reaches memory everywhere; `fuel` bounds the pieces of the map that it crosses. -/
def State.rangeOk (s : State) (c : CoreId) : Nat → Nat → Nat → Bool
  | 0, _, _ => false
  | fuel + 1, a, n =>
    n = 0 ||
      match s.segEnd c a with
      | none => false
      | some e => decide (a + n ≤ e) || s.rangeOk c fuel e (a + n - e)

/-- A range on another package lies in the fabric, shared-SRAM or paged window. -/
def remoteRangeOk (a n : Nat) : Bool :=
  let within (lo hi : Nat) : Bool := decide (lo ≤ a) && decide (a + n ≤ hi)
  n = 0 || within 0x010000000000 0x020000000000 || within 0x020000000000 0x020040000000 ||
    within 0x100000000000 (2 ^ 48)

/-- A condition that a command is checked for when it starts: whether it holds, its status, and the address that fails,
zero where none does (R434, R435). -/
abbrev CpCheck := Bool × Nat × Word

/-- The conditions of statuses 3 and 5 on a range of a command. -/
def State.rangeChecks (s : State) (c : CoreId) (p : Part) (a : Word) (n : Nat) : List CpCheck :=
  match p.cpAddr a with
  | .error st => [(true, st, a)]
  | .ok x => [(!(if x.pkg.isSome then remoteRangeOk x.va.toNat n else s.rangeOk c 8 x.va.toNat n), 5, a)]

/-! ## Reading and writing by units (R354, R364, R432, R435) -/

/-- Cut a range at multiples of a size: the address and length of each piece. -/
def cutRange (size : Nat) : Nat → Nat → Nat → List (Nat × Nat)
  | 0, _, _ => []
  | fuel + 1, a, n =>
    if n = 0 then []
    else
      let k := Nat.min n (size - a % size)
      (a, k) :: cutRange size fuel (a + k) (n - k)

/-- The lines of 64 bytes of a range. -/
def piecesOf (a n : Nat) : List (Nat × Nat) := cutRange 64 (n / 64 + 2) a n

/-- What an address of a command reaches: where a write and a read of it go, with its leaf, a status, or none while it waits
for a walk or for a cluster that does not run. -/
def State.cpReach (s : State) (c : CoreId) (priv : BitVec 2) (va : Word) (a : Access) :
    Except (Option Nat) (Nat × Nat × Option TlbEntry) × State :=
  let bad := if a = .load then 7 else 8
  let up (h : Nat) (x : Nat × Nat × Option TlbEntry) (s : State) : Except (Option Nat) (Nat × Nat × Option TlbEntry) × State :=
    match s.barred c h, (s.core c).cp.q.run with
    | some y, r :: _ => (.error none, s.dropOnce y ⟨c, r.cmd.seat⟩)
    | some _, [] => (.error none, s)
    | none, _ => if s.homeUp h then (.ok x, s) else (.error none, s.callHome h)
  match s.spot c none va with
  | .mem h => up h (h, h, none) s
  | .paged =>
    match s.xlate c 5 va with
    | (.ok e, s) =>
      if permits e.pte priv a then up (if a = .load then e.readPa c va else e.pa va) (e.pa va, e.readPa c va, some e) s
      else (.error (some bad), s)
    | (.wait, s) => (.error none, s)
    | (.fail .ecc, s) => (.error (some 6), s.count c none 0x26 1)
    | (.fail .fault, s) => (.error (some bad), s)
  | _ => (.error (some bad), s)

/-- Count an access of a command to a page. -/
def State.cpCount (s : State) (c : CoreId) (e : Option TlbEntry) : State :=
  match e with
  | some e => s.countPage c e
  | none => s

/-- A line of a source once it is translated. -/
structure CpLine where
  va : Word
  n : Nat
  home : Nat
  readAt : Nat
  pte : Option TlbEntry
deriving DecidableEq, Repr

/-- Translate the lines of a source: a status with the address that failed, or none while one waits. -/
def State.cpLines (s : State) (c : CoreId) (priv : BitVec 2) :
    List (Nat × Nat) → Except (Option (Nat × Word)) (List CpLine) × State
  | [] => (.ok [], s)
  | (a, n) :: r =>
    let va := BitVec.ofNat 64 a
    match s.cpReach c priv va .load with
    | (.error st, s) => (.error (st.map fun x => (x, va)), s)
    | (.ok (h, at_, e), s) =>
      match s.cpLines c priv r with
      | (.error x, s) => (.error x, s)
      | (.ok t, s) => (.ok (⟨va, n, h, at_, e⟩ :: t), s)

/-- Read a line for a command, or ask its home for it: the request, the address, and the bytes once they are known, none for
a bad granule. The engine reads its core's own TCM as it is, and takes what the store buffer gives elsewhere (R355). -/
def State.cpLine (s : State) (c : CoreId) (x : Cmd) (l : CpLine) : (Nat × Word × Option (List Byte)) × State :=
  let s := (s.claimHome c l.home).cpCount c l.pte
  let fw := if coreOfHome l.home = some c then List.replicate l.n none else s.forwardedOf c l.home l.va l.n
  let need := ((List.range l.n).filter fun j => (fw.getD j none).isNone).map fun j => l.readAt + j
  if dieOfHome l.readAt = dieOf c ∨ need.isEmpty then
    if need.any fun a => s.badIn a 1 then ((0, l.va, some []), s.count c none 0x26 1)
    else
      ((0, l.va, some (overlay fw (s.mem.bytes l.readAt l.n))), (s.correctAt c need).touch l.readAt l.n)
  else
    let (id, s) := s.fresh
    let p : Packet :=
      { id := id, core := c, seat := x.seat, home := homeId l.home, va := l.va, size := l.n, grp := x.grp, seq := 0,
        key := x.key, base := l.readAt, pte := l.pte, kind := .fetch fw need }
    ((id, l.va, none), s.sendPacket (dieOf c) (dieOfHome l.readAt) p)

/-- Read the lines of a source. -/
def State.cpRead (s : State) (c : CoreId) (x : Cmd) : List CpLine → List (Nat × Word × Option (List Byte)) × State
  | [] => ([], s)
  | l :: r =>
    let (y, s) := s.cpLine c x l
    let (t, s) := s.cpRead c x r
    (y :: t, s)

/-- The bytes of lines that are all known: up to the first bad granule, which is a status 6 at its address. -/
def joinLines : List (Nat × Word × Option (List Byte)) → Option (List Byte × Option (Nat × Word))
  | [] => some ([], none)
  | (_, va, some bs) :: r =>
    if bs.isEmpty then some ([], some (6, va))
    else (joinLines r).map fun x => (bs ++ x.1, x.2)
  | _ => none

/-- A piece of a write once it is translated. -/
structure CpWrite where
  va : Word
  home : Nat
  pte : Option TlbEntry
  bytes : List Byte
deriving DecidableEq, Repr

/-- Translate the pieces of a write. -/
def State.cpTargets (s : State) (c : CoreId) (priv : BitVec 2) :
    List (Nat × List Byte) → Except (Option (Nat × Word)) (List CpWrite) × State
  | [] => (.ok [], s)
  | (a, bs) :: r =>
    let va := BitVec.ofNat 64 a
    match s.cpReach c priv va .store with
    | (.error st, s) => (.error (st.map fun x => (x, va)), s)
    | (.ok (h, _, e), s) =>
      match s.cpTargets c priv r with
      | (.error x, s) => (.error x, s)
      | (.ok t, s) => (.ok (⟨va, h, e, bs⟩ :: t), s)

/-- Bytes from an address on, cut at the granules of 256 bytes, each of which is one access (R365). -/
def cutBytes (a : Nat) (bs : List Byte) : List (Nat × List Byte) :=
  (cutRange 256 (bs.length / 256 + 2) a bs.length).map fun p => (p.1, (bs.drop (p.1 - a)).take p.2)

/-- Perform one piece, or send it on its way: the packet or update that the unit then waits for. -/
def State.cpPut (s : State) (c : CoreId) (x : Cmd) (w : CpWrite) : List Nat × State :=
  let cells := cellsFrom w.home w.bytes
  let s := (s.claimHome c w.home).cpCount c w.pte
  let (id, s) := s.fresh
  let p : Packet :=
    { id := id, core := c, seat := x.seat, home := homeId w.home, va := w.va, size := w.bytes.length, grp := x.grp,
      seq := 0, key := x.key, base := w.home, pte := w.pte, kind := .copy cells }
  match w.pte with
  | some e =>
    if e.repl then ([id], s.sendUpdate p e none cells)
    else if dieOfHome w.home = dieOf c then ([], put s cells)
    else ([id], s.sendPacket (dieOf c) (dieOfHome w.home) p)
  | none =>
    if dieOfHome w.home = dieOf c then ([], put s cells)
    else ([id], s.sendPacket (dieOf c) (dieOfHome w.home) p)
where
  /-- Write cells on the own die; a discarded write makes ECC pending on the pusher (R350). -/
  put (s : State) (cells : List (Nat × Byte)) : State :=
    match (s.touch w.home w.bytes.length).writeCells cells with
    | (true, s) => s
    | (false, s) => s.pendEccOn c x w.va

/-- Perform pieces. -/
def State.cpPutAll (s : State) (c : CoreId) (x : Cmd) : List CpWrite → List Nat × State
  | [] => ([], s)
  | w :: r =>
    let (ids, s) := s.cpPut c x w
    let (more, s) := s.cpPutAll c x r
    (ids ++ more, s)

/-- The surcharge of a target (R57, R58). -/
def cpSurcharge (c : CoreId) (ws : List CpWrite) : Nat :=
  if ws.any fun w => decide (dieOfHome w.home ≠ dieOf c) then 64 else 0

/-! ## The layouts (R433) -/

/-- S, or D of a FILL. -/
def Cmd.cpS (x : Cmd) : Word := BitVec.ofNat 64 (x.field 8 8)

/-- D. -/
def Cmd.cpD (x : Cmd) : Word := BitVec.ofNat 64 (x.field 16 8)

/-- N of COPY and MCAST, I of GATHER and SCATTER, the pattern of FILL. -/
def Cmd.cpN (x : Cmd) : Nat := x.field 24 8

/-- A signed field of four bytes. -/
def Cmd.signed (x : Cmd) (i : Nat) : Int := (BitVec.ofNat 32 (x.field i 4)).toInt

/-- Byte i and the following n - 1. -/
def bytesAt (i n : Nat) : List Nat := (List.range n).map (· + i)

/-- The length in bytes of granule u of a range, and its offset (R435). -/
def granuleUnit (d : Word) (n u : Nat) : Nat × Nat :=
  let first := 256 - d.toNat % 256
  let off := if u = 0 then 0 else first + 256 * (u - 1)
  (off, Nat.min (n - off) (if u = 0 then first else 256))

/-- How many granules a range is cut into. -/
def granuleCount (d : Word) (n : Nat) : Nat :=
  if n = 0 then 0 else (d.toNat % 256 + n + 255) / 256

/-! ## Overlap (R364, R433) -/

/-- The memory a range of this package lies in, with the range's place in it: one TCM, one scratchpad or one die's
shared SRAM (below 2^60), or paged memory by its addresses. -/
def State.regionPlace (s : State) (c : CoreId) (va : Word) : Nat × Nat :=
  let a := va.toNat
  match s.spot c none va with
  | .mem h =>
    if 2 ^ 42 ≤ h then (homeId h, h)
    else (dieOfHome h, a)
  | _ => (2 ^ 60, a)

/-- The memory of another package that an address lies in, with the place in it: one TCM, one scratchpad or one die's shared
SRAM (below 2^60), or paged memory. -/
def remotePlace (a : Nat) : Nat × Nat :=
  let o := a % 2 ^ 20
  if 0x020000000000 ≤ a ∧ a < 0x020040000000 then (a / 2 ^ 28 % 4, a)
  else if 0x010000000000 ≤ a ∧ a < 0x020000000000 then
    if 0x10000 ≤ o ∧ o < 0x50000 then (2 ^ 58 + (a / 2 ^ 38 * 64 + a / 2 ^ 30 % 64) * 64 + a / 2 ^ 22 % 64, o)
    else (2 ^ 59 + a / 2 ^ 20, o)
  else (2 ^ 60, a)

/-- What the overlap of a COPY's ranges asks: nothing, a copy of the source before any write, or unspecified
destination bytes. -/
inductive Overlap where
  | none | before | open_
deriving DecidableEq, Repr

/-- The overlap of two ranges of n bytes on one package. -/
def State.overlap (s : State) (c : CoreId) (src dst : CpAddr) (n : Nat) : Overlap :=
  if src.pkg ≠ dst.pkg then .none
  else
    let place (a : CpAddr) : Nat × Nat := if a.pkg.isSome then remotePlace a.va.toNat else s.regionPlace c a.va
    let (x, i) := place src
    let (y, j) := place dst
    if x = y ∧ i < j + n ∧ j < i + n then (if x < 2 ^ 60 then .before else .open_) else .none

/-! ## Fiold: planes and packets (R441, R442) -/

/-- The row-major index of a core in its partition (R441). -/
def Part.index_ (p : Part) (c : CoreId) : Nat :=
  match p.virt c with
  | some (v, r, x) => (v * p.rows + r) * p.cols + x
  | none => 0

/-- The number of a copy command among the pushes of its core. -/
def Cmd.pushNo (x : Cmd) : Nat := x.regs.toNat

/-- Give a packet of a copy command to Fiold, if a plane reaches its package. -/
def State.cpSend (s : State) (c : CoreId) (p : Part) (x : Cmd) (pkg : Nat) (q : FioldPacket) : Option State :=
  (s.planeFor (p.index_ c + x.pushNo) pkg).map fun plane => s.toFiold plane pkg q

/-! ## Units -/

/-- Where a unit's bytes come from. -/
inductive CpSource where
  | bytes (bs : List Byte)
  | range (a : CpAddr) (n : Nat)
  /-- A range whose address is an index times a size from a base; the index lies at a local address. -/
  | indexed (base : Word) (at_ : Nat) (e : Nat)
deriving DecidableEq, Repr

/-- Where a unit's bytes go. -/
inductive CpDest where
  | addr (a : CpAddr)
  | indexed (base : Word) (at_ : Nat) (e : Nat)
  /-- The same local address of several cores. -/
  | cores (cs : List CoreId) (o : Nat)
  | nowhere
deriving DecidableEq, Repr

/-- A COPY that reads its source before it writes keeps the lines that it has read (R364). -/
def Run.snaps (r : Run) : Bool := r.seg && decide (r.cmd.code = 1)

/-- The copy command's state after a fault: registers, and its status (R435). -/
def State.cpFault (s : State) (c : CoreId) (codes : List Nat) (off : Nat) (st : Nat) (va : Word) : State :=
  let s := s.modCore c fun k => { k with cp := { k.cp with foff := BitVec.ofNat 64 off, fva := va } }
  s.modRun c .cp codes fun r =>
    { (r.free (s.region (s.regionOf c)).rate).finish 0 st 0 with
      bytes := if r.seg then r.bytes else [], reads := if r.snaps then r.reads else [], inst := none, lost := 0, s1 := 0 }

/-- A system address of another package, as cr.cpfva gives it. -/
def CpAddr.word (a : CpAddr) : Word :=
  match a.pkg with
  | none => a.va
  | some p => a.va ||| (BitVec.ofNat 64 p <<< 48) ||| (1#64 <<< 63)

/-- Add to the system address or virtual address. -/
def CpAddr.plus (a : CpAddr) (n : Nat) : CpAddr := { a with va := a.va + BitVec.ofNat 64 n }

/-- Read an index of a GATHER or SCATTER. -/
def State.cpIndex (s : State) (c : CoreId) (at_ : Nat) : Option Nat × State :=
  match s.engineRead c at_ 4 with
  | (some bs, s) => (some (leNat bs), s)
  | (none, s) => (none, s)

/-- An indexed address. -/
def indexedAddr (p : Part) (base : Word) (i e : Nat) : CpAddr :=
  match p.cpAddr base with
  | .ok a => a.plus (i * 2 ^ e)
  | .error _ => ⟨base, none⟩

/-- What reading a unit's bytes gives: bytes, a wait for another package, lines that other dies have been asked for,
a wait that a later try ends, or a fault. -/
inductive CpGot where
  | got (bs : List Byte)
  | asked
  | lines (ls : List (Nat × Word × Option (List Byte)))
  | wait
  | fault (st : Nat) (va : Word)
deriving DecidableEq, Repr

/-- Read a range for the running command: here, or by a request to another package. -/
def State.cpFetch (s : State) (taken : List Nat) (c : CoreId) (p : Part) (r : Run) (a : CpAddr) (n : Nat) : CpGot × State :=
  match a.pkg with
  | none =>
    let give (ls : List (Nat × Word × Option (List Byte))) : CpGot :=
      match joinLines ls with
      | some (bs, none) => .got bs
      | some (_, some (st, va)) => .fault st va
      | none => .lines ls
    if !r.reads.isEmpty then (give r.reads, s)
    else
      match s.cpLines c r.cmd.priv (piecesOf a.va.toNat n) with
      | (.ok ls, s) =>
        match ls.find? fun l => s.othersClash taken c l.readAt l.n with
        | some l => (.wait, s.noteClash l.readAt)
        | none => let (xs, s) := s.cpRead c r.cmd ls; (give xs, s)
      | (.error (some (st, va)), s) => (.fault st va, s)
      | (.error none, s) => (.wait, s)
  | some pkg =>
    if r.lost = 1 then (.got r.bytes, s)
    else
      match s.cpSend c p r.cmd pkg
          (.read p.job (BitVec.ofNat 9 p.index) (BitVec.ofNat 16 r.cmd.pushNo) (BitVec.ofNat 32 r.step) a.va n
            ((s.srcWord ⟨c, 0⟩).extractLsb' 0 18 |>.setWidth 20) r.cmd.priv) with
      | some s => (.asked, s)
      | none => (.fault 9 a.word, s)

/-- The bytes of a unit. -/
def State.cpSource (s : State) (taken : List Nat) (c : CoreId) (p : Part) (r : Run) : CpSource → CpGot × State
  | .bytes bs => (.got bs, s)
  | .range a n => s.cpFetch taken c p r a n
  | .indexed base at_ e =>
    match s.cpIndex c at_ with
    | (none, s) => (.fault 6 (BitVec.ofNat 64 at_), s)
    | (some i, s) => s.cpFetch taken c p r (indexedAddr p base i e) (2 ^ e)

/-- The end of a command (R58, R438). -/
def Run.cpDone (r : Run) : Run :=
  { r.finish (16 + (r.found + 255) / 256 + r.s0.toNat) 0 0 with bytes := [], reads := [], waits := [] }

/-- After a unit of n bytes has performed, or has been sent and waits for `ids`. -/
def State.cpNext (s : State) (c : CoreId) (codes : List Nat) (total n sur : Nat) (ids : List Nat) (inst : Option Nat) :
    State :=
  s.modRun c .cp codes fun r =>
    let r := { r.free (s.region (s.regionOf c)).rate with
      found := r.found + n, s0 := BitVec.ofNat 16 (Nat.max r.s0.toNat sur), waits := ids, inst := inst, lost := 0
      bytes := if r.seg then r.bytes else [], reads := if r.snaps then r.reads else [], s1 := 0 }
    if ids.isEmpty && inst.isNone then
      let r := { r with step := r.step + 1 }
      if r.step < total then r else r.cpDone
    else r

/-- The next unit of the running command waits for a walk, a cluster that does not run, or a bank. -/
def State.cpHeld (s : State) (c : CoreId) (codes : List Nat) : State :=
  s.modRun c .cp codes fun r => { r with heldBy := none, walks := true }

/-- Write a unit's bytes to one address of this package. An element that crosses a granule of another die is two writes, of
which the upper one leaves once the lower one has performed (R365). -/
def State.cpWriteHere (s : State) (taken : List Nat) (c : CoreId) (codes : List Nat) (r : Run) (total off : Nat) (va : Word)
    (bs : List Byte) : State :=
  match s.cpTargets c r.cmd.priv (cutBytes va.toNat bs) with
  | (.error (some (st, a)), s) => s.cpFault c codes off st a
  | (.error none, s) => s.cpHeld c codes
  | (.ok ws, s) =>
    match ws.findSome? fun w => w.pte.filter s.moving with
    | some e => s.modRun c .cp codes fun r => { r with heldBy := some e, walks := false }
    | none =>
      match ws.find? fun w => s.othersClash taken c w.home w.bytes.length with
      | some w => (s.noteClash w.home).cpHeld c codes
      | none =>
        if r.s1 = 0 ∧ 2 ≤ ws.length ∧ cpSurcharge c ws ≠ 0 then
          let (ids, s) := s.cpPutAll c r.cmd (ws.take 1)
          s.modRun c .cp codes fun r => { r.free (s.region (s.regionOf c)).rate with waits := ids, s1 := 1 }
        else
          let (ids, s) := s.cpPutAll c r.cmd (if r.s1 = 0 then ws else ws.drop 1)
          s.cpNext c codes total bs.length (cpSurcharge c ws) ids none

/-- Write a unit's bytes to an address. -/
def State.cpWrite (s : State) (taken : List Nat) (c : CoreId) (p : Part) (codes : List Nat) (r : Run) (total off : Nat) (a : CpAddr)
    (bs : List Byte) : State :=
  match a.pkg with
  | none => s.cpWriteHere taken c codes r total off a.va bs
  | some pkg =>
    match s.cpSend c p r.cmd pkg
        (.unit p.job (BitVec.ofNat 9 p.index) (BitVec.ofNat 16 r.cmd.pushNo) (BitVec.ofNat 32 r.step) a.va
          ((s.srcWord ⟨c, 0⟩).extractLsb' 0 18 |>.setWidth 20) bs r.cmd.priv) with
    | some s => s.cpNext c codes total bs.length 1500 [] (some r.step)
    | none => s.cpFault c codes off 9 a.word

/-- The writes of a unit to the same local address of several cores. -/
def cpEach (bs : List Byte) (o : Nat) (cs : List CoreId) : List CpWrite :=
  let homes := (cs.map fun d => engineHome d o).eraseDups
  homes.map fun h => ⟨BitVec.ofNat 64 o, h, none, bs⟩

/-- Perform the next unit of the running command. -/
def State.cpUnit (s : State) (c : CoreId) (p : Part) (codes : List Nat) (r : Run) (total off : Nat) (src : CpSource)
    (dst : CpDest) : State :=
  let taken := s.banks
  match s.cpSource taken c p r src with
  | (.fault st va, s) => s.cpFault c codes off st va
  | (.asked, s) => s.modRun c .cp codes fun r => { r with inst := some r.step, lost := 2 }
  | (.lines ls, s) => s.modRun c .cp codes fun r => { r with reads := ls }
  | (.wait, s) => s.cpHeld c codes
  | (.got bs, s) =>
    match dst with
    | .nowhere => s.cpNext c codes total 0 0 [] none
    | .addr a => s.cpWrite taken c p codes r total off a bs
    | .cores cs o =>
      let ws := cpEach bs o cs
      match ws.findSome? fun w => s.barred c w.home with
      | some x => (s.dropOnce x ⟨c, r.cmd.seat⟩).cpHeld c codes
      | none =>
      if ws.any fun w => !s.homeUp w.home then (ws.foldl (fun (s : State) w => s.callHome w.home) s).cpHeld c codes
      else if ws.any fun w => s.othersClash taken c w.home w.bytes.length then
        (ws.foldl (fun (s : State) w => if s.othersClash taken c w.home w.bytes.length then s.noteClash w.home else s)
          s).cpHeld c codes
      else
        let (ids, s) := s.cpPutAll c r.cmd ws
        s.cpNext c codes total bs.length (cpSurcharge c ws) ids none
    | .indexed base at_ e =>
      match s.cpIndex c at_ with
      | (none, s) => s.cpFault c codes off 6 (BitVec.ofNat 64 at_)
      | (some i, s) => s.cpWrite taken c p codes r total off (indexedAddr p base i e) bs

/-! ## Starting and stepping (R431, R434, R437) -/

/-- The partition of a core; a core of none has a domain of its own package. -/
def State.cpPart (s : State) (c : CoreId) : Part :=
  (s.partOf c).getD Part.reset

/-- Start the head command of a code: its checks, its record, and its completion if it has no unit. A command that a check
refuses has unit 0 as the one that faulted. -/
def State.cpStart (s : State) (c : CoreId) (code total : Nat) (check : Cmd → Part → List CpCheck)
    (go : Cmd → State → Run → Run × State) : State :=
  match s.startable c .cp with
  | some x =>
    let p := s.cpPart c
    if x.dropped ∨ x.code ≠ code ∨ (s.core c).cp.q.run.any fun r => r.fin.isNone then s
    else
      let l := check x p
      match lowest (l.map fun y => (y.1, y.2.1)) with
      | some st =>
        let va := ((l.find? fun y => y.1 && decide (y.2.1 = st)).map fun y => y.2.2).getD 0
        (s.modCore c fun k => { k with cp := { k.cp with foff := 0, fva := va } }).startFault c .cp st
      | none =>
        let (x, s) := s.takeHead c .cp
        let (r, s) := go x s (Run.start x)
        s.addRun c .cp (if total = 0 then r.cpDone else r)
  | none => s

/-- The element size's logarithm and the count of a GATHER or SCATTER. -/
def Cmd.elemLog (x : Cmd) : Nat := x.byte 36

/-- Their count. -/
def Cmd.elemCount (x : Cmd) : Nat := x.field 32 4

/-- The codes of the commands that have units. -/
def unitCodes : List Nat := [1, 2, 3, 4, 5, 6]

/-- The number of units of a running command, and of its next unit the offset or index, the source and the
destination (R433, R435). -/
def State.cpWhere (s : State) (c : CoreId) (r : Run) : Nat × Nat × Word × Word :=
  let x := r.cmd
  let w (n : Nat) : Word := BitVec.ofNat 64 n
  let elem := r.step * 2 ^ x.elemLog
  let i := leNat (s.mem.bytes (engineHome c (x.cpN + 4 * r.step)) 4) * 2 ^ x.elemLog
  if x.code = 3 then (x.elemCount, r.step, x.cpS + w i, x.cpD + w elem)
  else if x.code = 4 then (x.elemCount, r.step, x.cpS + w elem, x.cpD + w i)
  else if x.code = 6 then
    let n := x.field 16 8
    let off := (granuleUnit x.cpS n r.step).1
    (granuleCount x.cpS n, off, 0, x.cpS + w off)
  else
    let off := (granuleUnit x.cpD x.cpN r.step).1
    (granuleCount x.cpD x.cpN, off, x.cpS + w off, x.cpD + w off)

/-- A unit or read that is outstanding on a package which no plane reaches any more faults its command (R434, R441). -/
def State.cpLost (s : State) (c : CoreId) (r : Run) : State :=
  let p := s.cpPart c
  let (_, off, src, dst) := s.cpWhere c r
  let a := if r.lost = 2 then src else dst
  match p.cpAddr a with
  | .ok ⟨_, some pkg⟩ => if (s.planeFor (p.index_ c + r.cmd.pushNo) pkg).isNone then s.cpFault c unitCodes off 9 a else s
  | _ => s

/-- A step of the running command: an outstanding unit is over once all that it waits for is acknowledged; else the
next unit is taken. A stopped partition's command stands at its unit boundary (R437). -/
def State.cpStep (s : State) (c : CoreId) (code total : Nat) (r : Run) (go : Part → State → State) : State :=
  if r.inst.isSome then s.cpLost c r
  else if r.reads.any (fun x => x.2.2.isNone) then s
  else if !r.waits.isEmpty then
    if r.waits.any s.pending then s
    else if r.s1 = 1 then s.modRun c .cp [code] fun r => { r with waits := [] }
    else s.modRun c .cp [code] fun r =>
      let r := { r with waits := [], step := r.step + 1 }
      if r.step < total then r else r.cpDone
  else if s.stopped c then s
  else go (s.cpPart c) s

/-- The head command of the copy engine, or one of zeros. -/
def Core.cpHead (k : Core) : Cmd :=
  match k.cp.q.queue with
  | x :: _ => x
  | [] => ⟨0, 0, 0, 0, 0, 0, none, 0, Tag.zero, ⟨0, 0, 0⟩, [], 0, false, false⟩

/-- The header's status 2, and the conditions of ranges, as one list in the order of statuses. -/
def sortChecks (l : List CpCheck) : List CpCheck :=
  (List.range 10).flatMap fun i => l.filter fun x => x.2.1 = i

/-! ## COPY and FILL (R364, R433) -/

/-- The address of a command's field; a start check has refused one that is none. -/
def Part.addrOf (p : Part) (a : Word) : CpAddr :=
  match p.cpAddr a with
  | .ok x => x
  | .error _ => ⟨a, none⟩

/-- Read the lines of the source of a COPY that overlaps within one memory, before it writes; none while one waits. A line
that cannot be read is kept as none, which its unit then finds (R364). -/
def State.snapLines (s : State) (c : CoreId) (x : Cmd) :
    List (Nat × Nat) → Option (List (Nat × Word × Option (List Byte))) × State
  | [] => (some [], s)
  | (a, n) :: r =>
    let va := BitVec.ofNat 64 a
    match s.cpReach c x.priv va .load with
    | (.error none, s) => (none, s)
    | (.error (some _), s) =>
      match s.snapLines c x r with
      | (some t, s) => (some ((0, va, some []) :: t), s)
      | (none, s) => (none, s)
    | (.ok (h, at_, e), s) =>
      match s.snapLines c x r with
      | (some t, s) => let (y, s) := s.cpLine c x ⟨va, n, h, at_, e⟩; (some (y :: t), s)
      | (none, s) => (none, s)

/-- A COPY as it starts: one that overlaps within one memory reads its source first. -/
def State.snapshot (s : State) (c : CoreId) (p : Part) (x : Cmd) (r : Run) : Run × State :=
  let src := p.addrOf x.cpS
  match s.overlap c src (p.addrOf x.cpD) x.cpN with
  | .before =>
    if src.pkg.isSome then ({ r with seg := true }, s)
    else
      match s.snapLines c x (piecesOf src.va.toNat x.cpN) with
      | (some ls, s) => ({ r with seg := true, reads := ls }, s)
      | (none, s) => ({ r with seg := true, walks := true }, s)
  | _ => (r, s)

/-- Free values in place of the bytes of a unit that lie in the source too (R433). -/
def State.freeBytes (s : State) (src dst : Word) (n : Nat) (bs : List Byte) : List Byte :=
  bs.zipIdx.map fun b =>
    let a := dst.toNat + b.2
    if src.toNat ≤ a ∧ a < src.toNat + n then Config.freeByte (s.frees + b.2) else b.1

/-- Lines of a kept source that lie in a range and could not be read are read afresh as their unit comes (R364, R436): a
status with the address, or none while one waits. -/
def State.readAgain (s : State) (c : CoreId) (x : Cmd) (lo hi : Nat) :
    List (Nat × Word × Option (List Byte)) → Except (Option (Nat × Word)) (List (Nat × Word × Option (List Byte))) × State
  | [] => (.ok [], s)
  | l :: r =>
    let a := l.2.1.toNat
    let rest (y : Nat × Word × Option (List Byte)) (s : State) :=
      match s.readAgain c x lo hi r with
      | (.ok t, s) => (Except.ok (y :: t), s)
      | (.error e, s) => (.error e, s)
    if lo / 64 ≤ a / 64 ∧ a < hi ∧ l.2.2 = some [] then
      match s.cpReach c x.priv l.2.1 .load with
      | (.error st, s) => (.error (st.map fun y => (y, l.2.1)), s)
      | (.ok (h, at_, e), s) =>
        let (y, s) := s.cpLine c x ⟨l.2.1, Nat.min (64 - a % 64) (x.cpS.toNat + x.cpN - a), h, at_, e⟩
        if y.2.2 = some [] then (.error (some (6, l.2.1)), s) else rest y s
    else rest l s

/-- One unit of a COPY on this package that reads its source before it writes. -/
def State.copyKept (s : State) (c : CoreId) (p : Part) (r : Run) (total off n : Nat) (dst : CpAddr) : State :=
  let x := r.cmd
  let src := (p.addrOf x.cpS).va
  if r.reads.isEmpty then
    match s.snapLines c x (piecesOf src.toNat x.cpN) with
    | (none, s) => s.cpHeld c [1]
    | (some ls, s) => s.modRun c .cp [1] fun r => { r with reads := ls }
  else
    let a := src.toNat + off
    match s.readAgain c x a (a + n) r.reads with
    | (.error (some (st, va)), s) => s.cpFault c [1] off st va
    | (.error none, s) => s.cpHeld c [1]
    | (.ok ls, s) =>
      let s := s.modRun c .cp [1] fun r => { r with reads := ls }
      match joinLines (ls.filter fun l => decide (a / 64 ≤ l.2.1.toNat / 64) && decide (l.2.1.toNat < a + n)) with
      | some (bs, none) =>
        let bs := (bs.drop (a - Nat.max src.toNat (a / 64 * 64))).take n
        s.cpUnit c p [1] r total off (.bytes bs) (.addr (dst.plus off))
      | _ => s

/-- Ask another package for granule k of the source of a COPY that reads it before it writes. -/
def State.askGranule (s : State) (c : CoreId) (p : Part) (r : Run) (off k : Nat) (src : CpAddr) : State :=
  let (o, m) := granuleUnit r.cmd.cpD r.cmd.cpN k
  match s.cpSend c p r.cmd (src.pkg.getD 0)
      (.read p.job (BitVec.ofNat 9 p.index) (BitVec.ofNat 16 r.cmd.pushNo) (BitVec.ofNat 32 k) (src.plus o).va m
        ((s.srcWord ⟨c, 0⟩).extractLsb' 0 18 |>.setWidth 20) r.cmd.priv) with
  | some s => s.modRun c .cp [1] fun r => { r with inst := some k, lost := 2 }
  | none => s.cpFault c [1] off 9 (src.plus o).word

/-- One unit of such a COPY within another package: all its source is asked for first. -/
def State.copyFar (s : State) (c : CoreId) (p : Part) (r : Run) (total off : Nat) (src dst : CpAddr) : State :=
  if r.reads.length < total then s.askGranule c p r off r.reads.length src
  else
    match r.reads[r.step]? with
    | some (_, _, some bs) =>
      if bs.isEmpty then s.askGranule c p r off r.step src
      else s.cpUnit c p [1] r total off (.bytes bs) (.addr (dst.plus off))
    | _ => s

/-- One unit of a COPY. -/
def State.copyUnit (s : State) (c : CoreId) (p : Part) (r : Run) (total : Nat) : State :=
  let x := r.cmd
  let (off, n) := granuleUnit x.cpD x.cpN r.step
  let src := p.addrOf x.cpS
  let dst := p.addrOf x.cpD
  if r.seg then (if src.pkg.isSome then s.copyFar c p r total off src dst else s.copyKept c p r total off n dst)
  else
    let from_ : CpSource := .range (src.plus off) n
    match s.overlap c src dst x.cpN with
    | .open_ =>
      match s.cpSource s.banks c p r from_ with
      | (.got bs, t) =>
        let bs := t.freeBytes src.va (dst.plus off).va x.cpN bs
        { t with frees := t.frees + n }.cpUnit c p [1] r total off (.bytes bs) (.addr (dst.plus off))
      | _ => s.cpUnit c p [1] r total off from_ (.addr (dst.plus off))
    | _ => s.cpUnit c p [1] r total off from_ (.addr (dst.plus off))

/-- `COPY` (R433): the start, or the next unit. -/
def execCopy (c : CoreId) (s : State) : Out State :=
  match (s.core c).running .cp [1] with
  | none =>
    let x := (s.core c).cpHead
    let total := granuleCount x.cpD x.cpN
    .next (s.cpStart c 1 total
      (fun x p => sortChecks ([(x.malformed (bytesAt 8 24), 2, 0), (decide (2 ^ 32 < x.cpN), 5, x.cpS)] ++
        s.rangeChecks c p x.cpS x.cpN ++ s.rangeChecks c p x.cpD x.cpN))
      fun x s r => s.snapshot c (s.cpPart c) x r)
  | some r =>
    let total := granuleCount r.cmd.cpD r.cmd.cpN
    .next (s.cpStep c 1 total r fun p s => s.copyUnit c p r total)

/-- `FILL` (R433): the start, or the next unit. The pattern is taken by the byte's address. -/
def execFill (c : CoreId) (s : State) : Out State :=
  match (s.core c).running .cp [6] with
  | none =>
    let x := (s.core c).cpHead
    .next (s.cpStart c 6 (granuleCount x.cpS (x.field 16 8))
      (fun x p => sortChecks ((x.malformed (bytesAt 8 24), 2, 0) :: s.rangeChecks c p x.cpS (x.field 16 8)))
      fun _ s r => (r, s))
  | some r =>
    let d := r.cmd.cpS
    let n := r.cmd.field 16 8
    let total := granuleCount d n
    .next (s.cpStep c 6 total r fun p s =>
      let (off, k) := granuleUnit d n r.step
      let a := (p.addrOf d).plus off
      let bs := (List.range k).map fun j => BitVec.ofNat 8 (r.cmd.byte (24 + (a.va.toNat + j) % 8))
      s.cpUnit c p [6] r total off (.bytes bs) (.addr a))

/-! ## COPY2D (R188, R433) -/

/-- A rectangle of elements from (x, y) lies inside a map. -/
def TMap.covers (m : TMap) (x y : Int) (w h : Nat) : Bool :=
  decide (0 ≤ x) && decide (x + w ≤ m.ext0) && decide (0 ≤ y) && decide (y + h ≤ m.ext1)

/-- A map of a core. -/
def Core.mapOf (k : Core) (n : Nat) : TMap :=
  if h : n < 16 then TMap.of (k.tmaps[n]'h) else TMap.of 0

/-- The maps that a COPY2D sampled, in its record (R187): the source's 32 bytes, then the destination's. -/
def Run.maps (r : Run) : TMap × TMap :=
  (TMap.of (BitVec.ofNat 256 (leNat (r.bytes.take 32))), TMap.of (BitVec.ofNat 256 (leNat (r.bytes.drop 32))))

/-- Element u of a COPY2D: its source and destination (R433). -/
def copy2dUnit (x : Cmd) (m d : TMap) (u : Nat) : CpSource × CpDest :=
  let w := Nat.max (x.field 32 4) 1
  let i : Int := (u % w : Nat)
  let j : Int := (u / w : Nat)
  let n := fmtSize m.fmt
  let src : CpSource :=
    match m.elem (x.signed 16 + i) (x.signed 20 + j) true with
    | .at_ va => .range ⟨va, none⟩ n
    | _ => .bytes (List.replicate n 0)
  let dst : CpDest :=
    match d.elem (x.signed 24 + i) (x.signed 28 + j) false with
    | .at_ va => .addr ⟨va, none⟩
    | _ => .nowhere
  (src, dst)

/-- The conditions of status 5 on one element: an address outside every window. -/
def State.elemBad (s : State) (c : CoreId) (n : Nat) (e : CpSource × CpDest) : Option Word :=
  let bad (a : CpAddr) : Option Word := if s.rangeOk c 2 a.va.toNat n then none else some a.va
  (match e.1 with
    | .range a _ => bad a
    | _ => none).or
  (match e.2 with
    | .addr a => bad a
    | _ => none)

/-- The conditions of a COPY2D (R434). -/
def State.copy2dChecks (s : State) (c : CoreId) (x : Cmd) : List CpCheck :=
  let k := s.core c
  let m := k.mapOf (x.byte 8)
  let d := k.mapOf (x.byte 9)
  let w := x.field 32 4
  let h := x.field 36 4
  let some_ := decide (w ≠ 0 ∧ h ≠ 0)
  let bad := (List.range (w * h)).findSome? fun u => s.elemBad c (fmtSize m.fmt) (copy2dUnit x m d u)
  [(x.malformed (bytesAt 8 2 ++ bytesAt 16 24), 2, 0), (decide (15 < x.byte 8) || decide (15 < x.byte 9), 3, 0),
   (decide (m.fmt ≠ d.fmt), 4, 0),
   (some_ && ((decide (m.oob = 2) && !m.covers (x.signed 16) (x.signed 20) w h) ||
     (decide (d.oob = 2) && !d.covers (x.signed 24) (x.signed 28) w h)), 5, 0),
   (bad.isSome, 5, bad.getD 0)]

/-- `COPY2D` (R433): the start, which samples the maps, or the next element. -/
def execCopy2d (c : CoreId) (s : State) : Out State :=
  match (s.core c).running .cp [2] with
  | none =>
    let x := (s.core c).cpHead
    .next (s.cpStart c 2 (x.field 32 4 * x.field 36 4) (fun x _ => s.copy2dChecks c x)
      fun x s r =>
        let map (n : Nat) : List Byte := if h : n < 16 then natLe 32 ((s.core c).tmaps[n]'h).toNat else []
        ({ r with seg := true, bytes := map (x.byte 8) ++ map (x.byte 9) }, s))
  | some r =>
    let total := r.cmd.field 32 4 * r.cmd.field 36 4
    .next (s.cpStep c 2 total r fun p s =>
      let (m, d) := r.maps
      let (src, dst) := copy2dUnit r.cmd m d r.step
      s.cpUnit c p [2] r total r.step src dst)

/-! ## GATHER and SCATTER (R433) -/

/-- The conditions of a GATHER or SCATTER; `lin` is the address that advances and `base` the indexed one. -/
def State.indexChecks (s : State) (c : CoreId) (p : Part) (x : Cmd) (lin base : Word) : List CpCheck :=
  let n := x.elemCount
  sortChecks ([(x.malformed (bytesAt 8 29), 2, 0), (decide (8 < x.elemLog), 4, 0),
    (!inTcmOrScratch x.cpN (4 * n) 4, 5, BitVec.ofNat 64 x.cpN)] ++ s.rangeChecks c p lin (n * 2 ^ Nat.min x.elemLog 8) ++
    s.rangeChecks c p base (if n = 0 then 0 else 1))

/-- `GATHER` (R433): the start, or the next element. -/
def execGather (c : CoreId) (s : State) : Out State :=
  match (s.core c).running .cp [3] with
  | none =>
    .next (s.cpStart c 3 ((s.core c).cpHead).elemCount (fun x p => s.indexChecks c p x x.cpD x.cpS) fun _ s r => (r, s))
  | some r =>
    let x := r.cmd
    .next (s.cpStep c 3 x.elemCount r fun p s =>
      s.cpUnit c p [3] r x.elemCount r.step (.indexed x.cpS (x.cpN + 4 * r.step) x.elemLog)
        (.addr ((p.addrOf x.cpD).plus (r.step * 2 ^ x.elemLog))))

/-- `SCATTER` (R433): the start, or the next element. -/
def execScatter (c : CoreId) (s : State) : Out State :=
  match (s.core c).running .cp [4] with
  | none =>
    .next (s.cpStart c 4 ((s.core c).cpHead).elemCount (fun x p => s.indexChecks c p x x.cpS x.cpD) fun _ s r => (r, s))
  | some r =>
    let x := r.cmd
    .next (s.cpStep c 4 x.elemCount r fun p s =>
      s.cpUnit c p [4] r x.elemCount r.step
        (.range ((p.addrOf x.cpS).plus (r.step * 2 ^ x.elemLog)) (2 ^ x.elemLog))
        (.indexed x.cpD (x.cpN + 4 * r.step) x.elemLog))

/-! ## MCAST (R433, R435) -/

/-- The cores of a rectangle word of an MCAST (R211). -/
def Part.rectOf (p : Part) (w : Word) : Option (List CoreId) :=
  let nc := (w.extractLsb' 26 8).toNat + 1
  let nr := (w.extractLsb' 18 8).toNat + 1
  let v := (w.extractLsb' 16 2).toNat
  let r0 := (w.extractLsb' 8 8).toNat
  let c0 := (w.extractLsb' 0 8).toNat
  if v < p.dies.length ∧ r0 + nr ≤ p.rows ∧ c0 + nc ≤ p.cols then
    some ((List.range nr).flatMap fun i => (List.range nc).filterMap fun j => p.coreAt v (r0 + i) (c0 + j))
  else none

/-- The rectangle word. -/
def Cmd.rect (x : Cmd) : Word := BitVec.ofNat 64 (x.field 32 8)

/-- Whether some page of a range translates and is no replicated one. -/
def State.notRepl (s : State) (c : CoreId) (a n : Nat) : Bool :=
  (List.range (n / 65536 + 2)).any fun i =>
    let x := if i = 0 then a else (a / 65536 + i) * 65536
    decide (x < a + n) &&
      match s.peek c (BitVec.ofNat 64 x) with
      | some e => !e.repl
      | none => false

/-- The conditions of an MCAST (R434). -/
def State.mcastChecks (s : State) (c : CoreId) (p : Part) (x : Cmd) : List CpCheck :=
  let w := x.rect
  let d := x.cpD.toNat
  let n := x.cpN
  sortChecks ([(x.malformed (bytesAt 8 32) || decide (w.toNat / 2 ^ 34 ≠ 0), 2, 0),
    (decide (w ≠ 0) && (p.rectOf w).isNone, 3, 0),
    (if w = 0 then !(decide (2 ^ 44 ≤ d) && decide (d + n ≤ 2 ^ 48)) || s.notRepl c d n
      else !inTcmOrScratch d n 1, 5, x.cpD)] ++ s.rangeChecks c p x.cpS n)

/-- `MCAST` (R433): the start, or the next unit, which performs at every destination. -/
def execMcast (c : CoreId) (s : State) : Out State :=
  match (s.core c).running .cp [5] with
  | none =>
    let x := (s.core c).cpHead
    .next (s.cpStart c 5 (granuleCount x.cpD x.cpN) (fun x p => s.mcastChecks c p x) fun _ s r => (r, s))
  | some r =>
    let x := r.cmd
    let total := granuleCount x.cpD x.cpN
    .next (s.cpStep c 5 total r fun p s =>
      let (off, n) := granuleUnit x.cpD x.cpN r.step
      let dst : CpDest :=
        if x.rect = 0 then .addr ⟨x.cpD + BitVec.ofNat 64 off, none⟩
        else .cores ((p.rectOf x.rect).getD []) (x.cpD.toNat + off)
      s.cpUnit c p [5] r total off (.range ((p.addrOf x.cpS).plus off) n) dst)

/-! ## RESUME and cr.cpstat (R435, R436) -/

/-- `RESUME` (R436): queued at a copy engine that was not held, it has no effect. -/
def execResume (c : CoreId) (s : State) : Out State :=
  .next (s.cpStart c 7 0 (fun x _ => [(x.malformed [], 2, 0)]) fun _ s r => (r, s))

/-- CPSTAT_SKIP (R435). -/
def execCpstatSkip (c : CoreId) (s : State) : Out State := .next (s.skipHeld c .cp)

end Sys2Proof.Machine
end

