-- ==== Sys2Proof/Machine/Links.lean ====
section
/-!
DEFINITION. The buffers between seats and homes (R47, R197, R198, R318, R346 to R350, R354, R355, R360, R452): the
drain of store buffers, delivery and return over the link buffers, and deqs served at their homes.
-/

namespace Sys2Proof.Machine

/-! ## Replay logging (R450 to R452) -/

/-- The home word of a logged store (R450). -/
def State.homeWord (s : State) (c : CoreId) (home : Nat) : BitVec 32 :=
  let of (v r x k : Nat) : BitVec 32 :=
    0#10 ++ BitVec.ofNat 2 v ++ BitVec.ofNat 8 r ++ BitVec.ofNat 8 x ++ 0#2 ++ BitVec.ofNat 2 k
  let vdie (d : Nat) : Nat := match s.partOf c with
    | some p => (p.dies.findIdx? (· = d)).getD 0
    | none => 0
  let at_ (d : CoreId) (k : Nat) : BitVec 32 := let (v, r, x) := s.virt d; of v r x k
  match coreOfHome home with
  | some d => at_ d 0
  | none =>
    if 2 ^ 42 ≤ home then
      let i := (home - 2 ^ 42) / 2 ^ 18
      at_ (.grid (i / 1600) (4 * (i / 40 % 40)) (4 * (i % 40))) 1
    else if 2 ^ 41 ≤ home then of (vdie (dieOfHome home)) 0 0 2
    else of (vdie (dieOfHome home)) 0 0 3

/-- A home's port. -/
def State.port (s : State) (home : Nat) : Port := s.ports.get (homeId home) ⟨0, []⟩

/-- Whether a core's plain store to a home is logged: RACY, trace on, and a home other than its own TCM. -/
def State.logged (s : State) (c : CoreId) (home : Nat) : Bool :=
  s.trace.on && s.traces c 3 && !s.ownTcm c home

/-- The runs of written bytes of a store within its dwords: each run's first home address and its bytes. -/
def storeRuns : List (Nat × Byte) → List (Nat × List Byte)
  | [] => []
  | b :: r =>
    match storeRuns r with
    | (a, bs) :: t => if a = b.1 + 1 ∧ a % 8 ≠ 0 then (b.1, b.2 :: bs) :: t else (b.1, [b.2]) :: (a, bs) :: t
    | [] => [(b.1, [b.2])]

/-- A ring without room for a store's records holds its perform step. -/
def State.portFull (s : State) (c : CoreId) (home : Nat) (cells : List (Nat × Byte)) : Bool :=
  s.logged c home && decide (64 < (s.port home).ring.length + (storeRuns cells).length)

/-- Log a plain store as it performs. A record has eight bytes of data: a store that writes several runs of bytes, or several
dwords, makes a record for each, of one port count (DESIGN CHOICE, log entry 90). -/
def State.logStore (s : State) (t : SeatId) (home : Nat) (va : Word) (cells : List (Nat × Byte)) (grp : BitVec 32)
    (seq : BitVec 16) : State :=
  if s.logged t.core home then
    let p := s.port home
    let body (r : Nat × List Byte) : List Byte :=
      natLe 8 (va + BitVec.ofNat 64 (r.1 - home)).toNat ++ natLe 8 (leNat r.2) ++ natLe 4 r.2.length ++
        natLe 4 grp.toNat ++ natLe 4 seq.toNat ++ natLe 4 p.count.toNat ++ natLe 4 (s.homeWord t.core home).toNat
    let recs := (storeRuns cells).map fun r => s.traceRec 0x04 t (body r)
    { s with
      ports := s.ports.set (homeId home) ⟨p.count + 1, p.ring ++ recs⟩
      trace := { s.trace with events := s.trace.events + 1 } }
  else s

/-! ## Draining (R197, R355) -/

/-- Where the head of a store buffer goes. -/
inductive DrainTo where
  | home (h : Nat) (pte : Option TlbEntry)
  | classes (off : Nat)
  | waits
  | fails (reason : BitVec 2)
deriving DecidableEq, Repr

/-- Translate an entry at the head: write and user permission are checked with the privilege it was stored at. -/
def State.drainReach (s : State) (c : CoreId) (e : SbEntry) : DrainTo × State :=
  match s.spot c e.bench e.va with
  | .mem h => (.home h none, s)
  | .classes o => (.classes o, s)
  | .paged =>
    match s.xlate c 4 e.va with
    | (.ok x, s) => if permits x.pte e.priv .store then (.home (x.pa e.va) (some x), s) else (.fails 0, s)
    | (.wait, s) => (.waits, s)
    | (.fail .ecc, s) => (.fails 1, s.count c none 0x26 1)
    | (.fail .fault, s) => (.fails 0, s)
  | _ => (.fails 0, s)

/-- Move the head and every younger entry of its seat into the record queue; doomed entries are discarded. -/
def Core.moveRecords (k : Core) (rate : BitVec 32) (e : SbEntry) (reason : BitVec 2) : Core :=
  let k := k.closeStores rate
  let mine := k.sb.filter fun x => x.seat = e.seat
  let rest := k.sb.filter fun x => x.seat ≠ e.seat
  if e.doomed then { k with sb := k.sb.drop 1 }
  else
    let recs : List RqEntry := match mine.filter fun x => !x.doomed with
      | x :: r => ⟨x, reason, 0⟩ :: r.map fun y => ⟨y, 0, 0⟩
      | [] => []
    { k with sb := rest, rq := k.rq ++ recs }

/-- Whether a store of a core to another home is not acknowledged yet (R197). A store to a replicated page has its
sequencing die as its home (R347). -/
def State.otherHome (s : State) (c : CoreId) (home : Nat) (repl : Bool) : Bool :=
  let same (die : Nat) : Bool := repl && decide (die = home / 2 ^ 39)
  s.links.any (fun l => l.2.any fun p =>
    decide (p.core = c) && match p.kind with
      | .store _ => repl || decide (p.home ≠ homeId home)
      | .update _ who _ => who.isSome && !same (p.base / 2 ^ 39)
      | _ => false) ||
  s.seqrs.any fun q => !same q.home && q.unperformed.any fun u => u.plain && u.seat.any fun t => decide (t.core = c)

/-- Whether a home port may serve a key of a core's partition. -/
def State.served (s : State) (c : CoreId) (home : Nat) (key : Key) : Bool :=
  match s.det? c with
  | some p => s.ownTcm c home || s.mayServe p (homeId home) key
  | none => true

/-- A plain store performs at its home, whose banks it takes (R339). A discarded one makes ECC pending on its seat (R350). -/
def State.performStore (s : State) (t : SeatId) (home : Nat) (va : Word) (cells : List (Nat × Byte))
    (grp : BitVec 32) (seq : BitVec 16) : State :=
  let s := s.touch (cellSpan home cells).1 (cellSpan home cells).2
  match ((s.claimHome t.core home).storedLeaf cells).writeCells cells with
  | (true, s) => s.logStore t home va cells grp seq
  | (false, s) => s.pendEcc t va

/-- Whether a full ring holds the store at the head of a store buffer, whose home is on its die: an update of a replicated
page is not logged (R452). -/
def State.portHolds (s : State) (c : CoreId) (e : SbEntry) (h : Nat) (pte : Option TlbEntry) : Bool :=
  decide (dieOfHome h = dieOf c) && !pte.any TlbEntry.repl && s.portFull c h (e.cells h)

/-- Whether a full ring holds a store of a core that is in a link buffer. -/
def State.linkHolds (s : State) (c : CoreId) : Bool :=
  s.links.any fun l => l.2.any fun p =>
    match p.kind with
    | .store bs => decide (p.core = c) && s.portFull c p.base bs
    | _ => false

/-- Why the head of a store buffer and the entries behind it are held in this local cycle, as wait kinds: for the head 8
for a page that is moving, 4 for a walk, a cluster that does not run or a bank, and 9 below the horizon; for the others
4 behind a store that a full ring holds (R60, R348, R377, R452). -/
def State.storeHolds (s : State) (c : CoreId) : Nat × Nat :=
  match (s.core c).sb with
  | [] => (0, 0)
  | e :: _ =>
    let at_ (h : Nat) (pte : Option TlbEntry) : Nat × Nat :=
      let w := cellSpan h (e.cells h)
      if !s.homeUp h then (4, 0)
      else if pte.any s.moving then (8, 0)
      else if !s.served c h e.key then (9, 0)
      else if s.portHolds c e h pte then (0, 4)
      else if s.clashes (dieOf c) w.1 w.2 then (4, 0)
      else (0, 0)
    if s.linkHolds c then (4, 4)
    else match s.spot c e.bench e.va with
      | .mem h => at_ h none
      | .paged =>
        match s.tlbPeek c e.va with
        | some x => at_ (x.pa e.va) (some x)
        | none => (4, 0)
      | _ => (0, 0)

/-- The entries of a store buffer, held for these reasons in a local cycle. -/
def Core.holdStores (k : Core) (rate : BitVec 32) (why : Nat × Nat) : Core :=
  let put (k : Core) (e : SbEntry × Nat) : Core :=
    let w := if e.2 = 0 then why.1 else why.2
    if w = e.1.why then { k with sb := k.sb ++ [if w = 0 then e.1 else { e.1 with held := e.1.held + 1 }] }
    else { k.closeStore rate e.1 with sb := k.sb ++ [{ e.1 with why := w, held := if w = 0 then 0 else 1 }] }
  k.sb.zipIdx.foldl put { k with sb := [] }

/-- The head of a store buffer performs, enters a link buffer or goes to its page's sequencer. -/
def State.drainTo (s : State) (c : CoreId) (e : SbEntry) (h : Nat) (pte : Option TlbEntry) : State :=
  let cells := e.cells h
  match s.barred c h with
  | some x =>
    (s.modCore c fun k => { k.closeStore (s.region (s.regionOf c)).rate e with sb := k.sb.drop 1 }).dropRequest x
      ⟨c, e.seat⟩ e.starts e.grp
  | none =>
  if !s.homeUp h then s.callHome h
  else if pte.any s.moving || s.otherHome c h (pte.any TlbEntry.repl) || !s.served c h e.key ||
      s.portHolds c e h pte then s
  else if s.clashes (dieOf c) (cellSpan h cells).1 (cellSpan h cells).2 then s.noteClash h
  else
    let s := s.modCore c fun k => { k.closeStore (s.region (s.regionOf c)).rate e with sb := k.sb.drop 1 }
    let s := match pte with
      | some x => s.countPage c x
      | none => s
    let p : Packet :=
      { id := e.id, core := c, seat := e.seat, home := homeId h, va := e.va, size := e.bytes.length, grp := e.grp,
        seq := e.seq, key := e.key, base := h, pte := pte, extra := e.extra, kind := .store cells }
    match pte with
    | some x =>
      if x.repl then s.sendUpdate p x (some ⟨c, e.seat⟩) cells
      else if dieOfHome h = dieOf c then s.performStore ⟨c, e.seat⟩ h e.va cells e.grp e.seq
      else (s.claimHome c h).sendPacket (dieOf c) (dieOfHome h) p
    | none =>
      if dieOfHome h = dieOf c then s.performStore ⟨c, e.seat⟩ h e.va cells e.grp e.seq
      else (s.claimHome c h).sendPacket (dieOf c) (dieOfHome h) p

/-- STORE_DRAIN (R197): the head of a core's store buffer. -/
def execStoreDrain (c : CoreId) (s : State) : Out State :=
  match (s.core c).sb with
  | [] => .next s
  | e :: _ =>
    if e.after.any s.pending then .next s
    else
      match s.drainReach c e with
      | (.home h pte, s) => .next ((s.drainTo c e h pte).endBench c)
      | (.classes o, s) =>
        .next ((s.modCore c fun k =>
          { (e.cells o).foldl (fun (k : Core) b => k.writeClasses b.1 [b.2]) (k.closeStore (s.region (s.regionOf c)).rate e) with
            sb := k.sb.drop 1 }).endBench c)
      | (.waits, s) => .next s
      | (.fails r, s) => .next ((s.modCore c fun k => k.moveRecords (s.region (s.regionOf c)).rate e r).endBench c)

/-! ## Delivery and return (R350, R354, R355) -/

/-- The bytes that a packet touches. -/
def Packet.touches (p : Packet) : List Nat :=
  match p.kind with
  | .store bs => bs.map (·.1)
  | .copy bs => bs.map (·.1)
  | .fetch _ addrs => addrs
  | .update _ _ bs => bs.map (·.1)
  | .request .load _ addrs => addrs
  | .request _ _ _ => (List.range p.size).map fun i => p.base + i

/-- The bytes of the entry that an operation on a work queue would reach now. -/
def State.ringTouches (s : State) (p : Packet) : List Nat :=
  let hd := (s.mem.dword p.base).toNat
  let tl := (s.mem.dword (p.base + 8)).toNat
  let lg := leNat (s.mem.bytes (p.base + 16) 4)
  let entry (i : Nat) : List Nat :=
    if lg < 4 ∨ 24 < lg then []
    else (List.range 8).map fun j => (s.entryHome p.core p.va p.base (i % 2 ^ lg)).1 + j
  match p.kind with
  | .request (.enq _) _ _ => entry tl
  | .request .deq _ _ => entry hd
  | .request .deqTry _ _ => entry hd
  | _ => []

/-- Whether a packet writes where it is delivered. -/
def Packet.writes (p : Packet) : Bool :=
  match p.kind with
  | .fetch _ _ => false
  | .request .load _ _ => false
  | _ => true

/-- What holds an operation on a work queue at its home: the entry's translation, which then joins a walk, or an entry on a
page that is moving (R344, R348). -/
def State.queueWaits (s : State) (p : Packet) : Bool × State :=
  match p.kind with
  | .request op _ _ => match s.ringHeld p.core op p.va p.base with
    | (k, s) => (k.isSome, s)
  | _ => (false, s)

/-- Give a request its answer. -/
def State.answer (s : State) (t : SeatId) (id : Nat) (r : Reply) : State :=
  s.modSeat t fun x => { x with outs := x.outs.map fun o => if o.id = id then { o with reply := some r } else o }

/-- A request performs at its home. A deq that finds no entry waits there, but for one of a stopped partition, which is
withdrawn (R221, R404). -/
def State.serveRequest (s : State) (p : Packet) (op : HomeOp) (t : SeatId) (addrs : List Nat) : State :=
  let s := s.claimHome p.core p.base
  match op with
  | .load =>
    if addrs.any fun a => s.badIn a 1 then s.answer t p.id ⟨0, 0, Tag.zero, [], true⟩
    else (s.correctAt p.core addrs).answer t p.id
      ⟨0, 0, Tag.zero, s.mem.bytes p.base p.size, false⟩
  | _ =>
    let (r, s) := s.performAt t op p.va p.base p.size p.key p.pte
    if op = .deq ∧ !r.bad ∧ r.r1 = 0 then
      if s.stopped p.core then s.modSeat t fun x => x.dropOut p.id
      else { s with deqs := s.deqs ++ [⟨t, p.base, p.id, p.pte, p.key⟩] }
    else s.answer t p.id r

/-- A copy unit's write; a discarded one makes ECC pending on the pusher of the running command. -/
def State.serveCopy (s : State) (p : Packet) (bs : List (Nat × Byte)) : State :=
  match s.writeCells bs with
  | (true, s) => s
  | (false, s) =>
    match (s.core p.core).cp.q.run with
    | r :: _ => s.pendEccOn p.core r.cmd p.va
    | [] => s.count p.core none 0x26 1

/-- A line of a copy unit's source is read at its home: its bytes go to the running command that asked for it, or a bad
granule is reported to it (R355). -/
def State.serveFetch (s : State) (p : Packet) (fw : List (Option Byte)) (addrs : List Nat) : State :=
  let bad := addrs.any fun a => s.badIn a 1
  let bs := if bad then [] else overlay fw (s.mem.bytes p.base p.size)
  let got (x : Nat × Word × Option (List Byte)) : Nat × Word × Option (List Byte) :=
    if x.1 = p.id then (x.1, x.2.1, some bs) else x
  let s := if bad then s.count p.core none 0x26 1 else s.correctAt p.core addrs
  s.modCore p.core fun k => k.modQ .cp fun q => { q with run := q.run.map fun r => { r with reads := r.reads.map got } }

/-- LINK_DELIVERY (R355): the i-th packet of a link buffer, if no older one touches a byte that it touches, and once the
banks of its home are free (R339). A write to a page that is moving waits (R348). -/
def execLinkDelivery (src dst i : Nat) (s : State) : Out State :=
  let l := s.links.get (src, dst) []
  match l[i]? with
  | none => .next s
  | some p =>
    let mine := p.touches ++ s.ringTouches p
    if (l.take i).any fun q => (q.touches ++ s.ringTouches q).any mine.contains then .next s
    else if p.writes && p.pte.any s.moving then .next s
    else if !s.homeUp p.base then .next (s.callHome p.base)
    else if !s.served p.core p.base p.key then .next s
    else if s.meets p.base p.size then .next (s.noteClash p.base)
    else if (s.queueWaits p).1 then .next (s.queueWaits p).2
    else
      let s := (s.queueWaits p).2
      let s1 := ({ s with links := s.links.set (src, dst) (l.eraseIdx i) } : State).touch p.base p.size
      match p.kind with
      | .store bs =>
        if s.portFull p.core p.base bs then .next s
        else .next (s1.performStore ⟨p.core, p.seat⟩ p.base p.va bs p.grp p.seq)
      | .copy bs => .next (s1.serveCopy p bs)
      | .fetch fw addrs => .next (s1.serveFetch p fw addrs)
      | .update e who bs => .next (s1.arriveUpdate (p.toUpdate e who bs))
      | .request op t addrs => .next (s1.serveRequest p op t addrs)

/-- LOAD_RETURN (R355): an answered request of a seat returns. An instruction that waits for it goes on at its own issue;
any other writes its registers. A request that no instruction waits for meets no bad granule (log entry 67). -/
def execLoadReturn (t : SeatId) (i : Nat) (s : State) : Out State :=
  match (s.seat t).outs[i]? with
  | none => .next s
  | some o =>
    match o.reply with
    | none => .next s
    | some r =>
      if o.whole then
        .next (s.modSeat t fun x => { x with outs := x.outs.map fun y => if y.id = o.id then { y with back := true } else y })
      else
        if r.bad && !s.trapRoom t then .next s
        else
          let s := s.modSeat t fun x => x.dropOut o.id
          if r.bad then .next (((s.closeHold t).countEcc t.core cEcc).trap t cEcc o.pc o.va false)
          else .next (s.modSeat t fun x => x.receive o.dest r)

/-- DEQ_SERVE (R47): the i-th waiting deq takes an entry, if it is the first of its home's to wait and one is there; in
deterministic mode once it is released and no smaller key waits there (R454). -/
def execDeqServe (i : Nat) (s : State) : Out State :=
  match s.deqs[i]? with
  | none => .next s
  | some w =>
    if (s.deqs.take i).any fun x => x.home = w.home then .next s
    else if (s.det? w.seat.core).any fun p => !s.mayServe p (homeId w.home) w.key then .next s
    else .next ((s.serveDeq w).getD s)

end Sys2Proof.Machine
end

