-- ==== Sys2Proof/Machine/System.lean ====
section
/-!
DEFINITION. The instructions of a supervisor on stores and groups, and the account table (R197, R388 to R390, R398
to R400, R421).
-/

namespace Sys2Proof.Machine

/-! ## The account table (R421) -/

/-- `acrd` (R421). -/
def execAcrd (d a : Reg) (sel : BitVec 5) (s : State) : Out State :=
  let f := w32 0 (.acrd d a sel)
  let e := s.here.acct[((s.g a).extractLsb' 0 4).toFin]
  let x : Word :=
    if !e.valid then 0
    else if sel = 0 then BitVec.ofBool e.valid ++ 0#13 ++ e.key ++ e.count
    else if sel = 1 then e.transit
    else if sel = 2 then e.qwait
    else e.run
  if 3 < sel.toNat then .next (s.raise cIllegal f.tval) else .next ((s.setG d x).complete f 1 .seq)

/-! ## Records (R388, R389, R398) -/

/-- Byte +23 of a record. -/
def RqEntry.marks (e : RqEntry) : Byte :=
  0#2 ++ BitVec.ofBool e.st.vec ++ BitVec.ofBool (decide (e.st.priv ≠ 0)) ++ e.reason ++ BitVec.ofNat 2 e.st.seat.val

/-- Eight bytes of an entry from an offset, zeros outside its mask. -/
def SbEntry.dword (e : SbEntry) (o : Nat) : List Byte :=
  (List.range 8).map fun i => ((e.bytes[o + i]?).join).getD 0

/-- The oldest record of a queue entry, and the entry without it; none once it was the last. -/
def RqEntry.pop (e : RqEntry) : List Byte × Option RqEntry :=
  let x := e.st
  if x.vec then
    let o := x.dwords.getD e.popped 0
    (natLe 8 (x.va + BitVec.ofNat 64 o).toNat ++ x.dword o ++ natLe 4 x.grp.toNat ++ natLe 2 x.seq.toNat ++ [8, e.marks] ++
        natLe 8 (x.mask o),
      if e.popped + 1 < x.dwords.length then some { e with popped := e.popped + 1 } else none)
  else
    (natLe 8 x.va.toNat ++ x.dword 0 ++ natLe 4 x.grp.toNat ++ natLe 2 x.seq.toNat ++
      [BitVec.ofNat 8 x.bytes.length, e.marks] ++ natLe 8 0, none)

/-- Remove the oldest record of a seat. -/
def popRecord (i : Fin 4) : List RqEntry → Option (List Byte × List RqEntry)
  | [] => none
  | e :: r =>
    if e.st.seat = i then
      match e.pop with
      | (bs, some x) => some (bs, x :: r)
      | (bs, none) => some (bs, r)
    else (popRecord i r).map fun x => (x.1, e :: x.2)

/-- `sfq.pop` (R389). -/
def execSfqPop (d a : Reg) (s : State) : Out State :=
  let f := w32 0 (.sfqPop d a)
  let va := s.g a
  if s.me.priv = 0 then .next (s.raise cPriv f.tval)
  else
    match s.reach va 32 .store with
    | (.trap c t, s) => .next (s.raise c t)
    | (.engine _ _, s) => .next (s.raise cWindow va)
    | (r, s) =>
      match popRecord s.cur.seat s.here.rq with
      | none => .next ((s.setG d 0).complete f 1 .seq)
      | some (bs, rq) =>
        let t := s.modHere fun k => { k with rq := rq }
        match r with
        | .tmaps o =>
          if (s.unperformed s.cur).isEmpty then
            .next (((t.modHere fun k => k.writeTmaps o bs).setG d 1).complete f 1 .seq)
          else .next (s.stall 4)
        | _ =>
          let extra := decide (16 ≤ t.slots t.cur.core)
          if extra && t.here.sb.any SbEntry.extra then .next (s.stall 4)
          else .next (((t.append va (bs.map some) false extra [] 1).2.setG d 1).complete f 1 .seq)

/-! ## Replay (R400) -/

/-- The next record of a queue entry as an entry of the store buffer, and what is left of the queue entry. A vector entry
gives one for each dword; all are the store that moved, so that what waits for that store waits for each (R224, R361). -/
def RqEntry.next (e : RqEntry) : SbEntry × Option RqEntry :=
  let x := { e.st with after := [], doomed := false, extra := false, why := 0, held := 0 }
  if x.vec then
    let o := x.dwords.getD e.popped 0
    let more := decide (e.popped + 1 < x.dwords.length)
    ({ x with
        va := x.va + BitVec.ofNat 64 o
        bytes := (List.range 8).map fun i => (x.bytes[o + i]?).join },
      if more then some { e with popped := e.popped + 1 } else none)
  else (x, none)

/-- Put what is left in place of the first entry of a queue with an identity. -/
def leaveRecord (id : Nat) (rest : Option RqEntry) : List RqEntry → List RqEntry
  | [] => []
  | e :: r => if e.st.id = id then rest.toList ++ r else e :: leaveRecord id rest r

/-- Put the next record of a queue entry of the executing seat back into the store buffer, and tell whether it was the
last. A record takes a free slot, or the one that it leaves; where there is none, one entry may lie beyond the sixteen, so
that the buffer can empty. None while there is no room. -/
def State.replayRecord (s : State) (id : Nat) : Option (Bool × State) :=
  match s.here.rq.find? fun e => e.st.id = id with
  | none => some (true, s)
  | some e =>
    let (x, rest) := e.next
    let s := s.modHere fun k => { k with rq := leaveRecord id rest k.rq }
    let extra := decide (16 ≤ s.slots s.cur.core)
    if extra && s.here.sb.any SbEntry.extra then none
    else some (rest.isNone, s.modHere fun k => { k with sb := k.sb ++ [{ x with extra := extra }] })

/-- Put back the records of one queue entry, at most `n`; whether they were all. -/
def replayRecords : Nat → Nat → State → Bool × State
  | 0, _, s => (true, s)
  | n + 1, id, s =>
    match s.replayRecord id with
    | none => (false, s)
    | some (true, s) => (true, s)
    | some (false, s) => replayRecords n id s

/-- Put back queue entries, the oldest first, and complete; a record that finds no room waits. -/
def replayAll (f : Form) : List Nat → State → State
  | [], s => (s.modMe fun t => { t with replaying := none }).complete f 1 .seq
  | id :: r, s =>
    match replayRecords 8 id s with
    | (true, s) => replayAll f r s
    | (false, s) => (s.modMe fun t => { t with replaying := some (id :: r) }).stall 4

/-- `sfq.replay` (R400). -/
def execSfqReplay (s : State) : Out State :=
  let f := w32 0 .sfqReplay
  if s.me.priv = 0 then .next (s.raise cPriv f.tval)
  else
    match s.me.replaying with
    | some ids => .next (replayAll f ids s)
    | none => .next (s.drainWait fun s =>
        replayAll f ((s.here.rq.filter fun e => e.st.seat = s.cur.seat).map fun e => e.st.id) s)

/-! ## grpcancel (R223, R277, R303, R325, R390) -/

/-- The request of a deq that its seat waits for is no longer on its way to its home. -/
def State.recallDeq (s : State) (t : SeatId) : State :=
  match (s.seat t).waitsFor with
  | some o =>
    match o.dest with
    | .pair _ _ .deq => { s with links := s.links.map fun l => (l.1, l.2.filter fun x => x.id ≠ o.id) }
    | _ => s
  | none => s

/-- End the work of a seat without effect of its instruction: its entries that fail are discarded, but for those of a bench,
which is dissolved (R325, R390). -/
def State.cancelSeat (s : State) (t : SeatId) : State :=
  let bench := decide (t.seat = 0) && (s.core t.core).bench.isSome
  let doom (e : SbEntry) : SbEntry := if e.seat = t.seat ∧ !bench then { e with doomed := true } else e
  let s := (((s.recallDeq t).withdraw t).modCore t.core fun k => { k with sb := k.sb.map doom }).endWork t
  if t.seat = 0 then s.dissolve t.core else s

/-- Rewrite the deque of a core with some of its entries: their bytes follow from the top. -/
def State.keepDeque (s : State) (c : CoreId) (p : DequeInfo → Bool) : State :=
  let k := s.core c
  let kept := k.dqHeld.zipIdx.filter fun x => p x.1
  if kept.length = k.dqHeld.length then s
  else
    let s := (List.range k.dqHeld.length).foldl (fun (s : State) i => s.claimHome c (s.dequeHome c (k.dqTop + i))) s
    let bytes := kept.map fun x => s.mem.bytes (s.dequeHome c (k.dqTop + x.2)) 32
    let put (s : State) (b : List Byte × Nat) : State :=
      { s with mem := s.mem.writeAll (cellsFrom (s.dequeHome c (k.dqTop + b.2)) b.1) }
    (bytes.zipIdx.foldl put s).modCore c fun k => { k with dqHeld := kept.map (·.1) }

/-- Remove the run-queue entries, the channel beats, the records and the input messages of a core that a cancel
removes; `p` is asked of their group. -/
def Core.cancelWaiting (k : Core) (p : BitVec 32 → Bool) : Core :=
  let runs := k.runq.filter fun e => p e.msg.grp
  let stolen := (k.inputs.toList.flatten).any fun m => m.kind.isStolen && p m.grp
  let beats := (k.chans.toList.flatten).filter fun b => p b.grp && b.taken.isNone
  let k := (k.free (runs.flatMap (·.granules))).free (beats.map (·.granule))
  { k with
    runq := k.runq.filter fun e => !p e.msg.grp
    chans := k.chans.map fun l => l.filter fun b => !(p b.grp && b.taken.isNone)
    rq := k.rq.filter fun e => !p e.st.grp
    stealOut := k.stealOut && !stolen
    inputs := k.inputs.map fun l => l.filter fun m => !p m.grp }

/-- What a cancel of groups does at one core, but for an excepted seat. -/
def State.cancelAt (s : State) (c : CoreId) (p : BitVec 32 → Bool) (except_ : Option SeatId) : State :=
  let s := s.cancelEngines c fun x => p x.grp
  let seat (s : State) (i : Fin 4) : State :=
    let t : SeatId := ⟨c, i⟩
    if (s.seat t).work.isSome ∧ p (s.seat t).grp ∧ except_ ≠ some t then s.cancelSeat t else s
  let s := (List.finRange 4).foldl seat s
  (s.keepDeque c fun x => !p x.grp).modCore c fun k => k.cancelWaiting p

/-- Whether a message of a group of the partition is still on its way to its destination core (R390). -/
def State.underWay (s : State) (part : BitVec 6) (g : BitVec 32) : Bool :=
  s.net.any (fun x => decide (x.msg.part = part) && decide (x.msg.grp = g)) ||
    s.cores.any fun x => decide (x.2.pid = part) && x.2.inj.toList.any fun l => l.any fun m => decide (m.grp = g)

/-- The end of a grpcancel: no core cancels the group's messages any longer, those that wait at inputs go, and the
executing seat's own work ends. -/
def State.endCancel (s : State) (t : SeatId) (g : BitVec 32) : State :=
  let cores := match s.partOf t.core with
    | some p => p.cores
    | none => [t.core]
  let clear (s : State) (c : CoreId) : State := s.modCore c fun k =>
    { k with
      cancelling := k.cancelling.filter fun x => x ≠ (g, t)
      stealOut := k.stealOut && !(k.inputs.toList.flatten).any fun m => m.kind.isStolen && decide (m.grp = g)
      inputs := k.inputs.map fun l => l.filter fun m => m.grp ≠ g }
  (cores.foldl clear s).cancelSeat t

/-- `grpcancel` (R390): it acts at every core at once, then stalls until no message of the group is under way. -/
def execGrpcancel (s : State) : Out State :=
  let f := w32 0 .grpcancel
  let g := s.me.grp
  if s.me.priv = 0 then .next (s.raise cPriv f.tval)
  else if s.here.cancelling.contains (g, s.cur) then
    if s.underWay s.here.pid g then .next (s.stall 4)
    else .next ((s.complete f 1 .seq).endCancel s.cur g)
  else
    .next (s.drainWait fun s =>
      let cores := match s.partOf s.cur.core with
        | some p => p.cores
        | none => [s.cur.core]
      let act (s : State) (c : CoreId) : State :=
        (s.cancelAt c (fun x => x = g) (some s.cur)).modCore c fun k =>
          { k with cancelling := k.cancelling ++ [(g, s.cur)] }
      let s := cores.foldl act s
      if s.underWay s.here.pid g then s.stall 4 else (s.complete f 1 .seq).endCancel s.cur g)

end Sys2Proof.Machine
end

