-- ==== Sys2Proof/Machine/Partition.lean ====
section
/-!
DEFINITION. Partitions and contexts: where a partition may lie (R92, R337, R380), the stop, quiescence and resumption
(R71, R402 to R404), images (R406 to R412), the arbiter (R93, R94), re-partitioning (R95) and a failed router (R430).
-/

namespace Sys2Proof.Machine

/-! ## Places (R92, R337, R380) -/

/-- Whether a logical cluster is a hole: its physical cluster is retired. -/
def isHole (retired : List (Nat × Nat × Nat)) (k : ClusterId) : Bool := retired.contains (k.die, physRow retired k, k.col)

/-- The clusters of a partition, by logical place. -/
def Part.clusters (p : Part) : List ClusterId :=
  p.dies.flatMap fun d => (List.range (p.rows / 4)).flatMap fun r =>
    (List.range (p.cols / 4)).map fun c => ⟨d, p.row / 4 + r, p.col / 4 + c⟩

/-- Whether two partitions share a cluster. -/
def Part.meets (p q : Part) : Bool :=
  p.dies.any q.dies.contains && decide (p.row < q.row + q.rows) && decide (q.row < p.row + p.rows) &&
    decide (p.col < q.col + q.cols) && decide (q.col < p.col + p.cols)

/-- A partition of a shape at a place. -/
def partAt (pl : Place) (h w n sramMb : Nat) : Part :=
  if n = 0 then
    { Part.reset with
      dies := pl.dies, row := 4 * pl.row, col := 4 * pl.col, rows := 4 * h, cols := 4 * w, sramMb := sramMb
      sram := pl.sram }
  else { Part.reset with dies := pl.dies, rows := 160, cols := 160, whole := true, sramMb := 256 }

/-- Whether a partition may lie where it does: dies of the package, a rectangle inside one, no hole, no cluster of
another partition, and its shared-SRAM frames free (R337). -/
def State.placeOk (s : State) (p : Part) (n : Nat) : Bool :=
  let others := s.parts.map (·.2)
  decide (p.dies.length = Nat.max n 1) && decide p.dies.Nodup && p.dies.all (fun d => decide (d < 4)) &&
    decide (0 < p.rows) && decide (0 < p.cols) && decide (p.row + p.rows ≤ 160) && decide (p.col + p.cols ≤ 160) &&
    p.clusters.all (fun k => !isHole s.pkg.retired k) && others.all (fun q => !p.meets q) &&
    (p.whole || (decide (p.sram.length = p.sramMb) && decide p.sram.Nodup && p.sram.all fun f =>
      decide (f < 256) && others.all fun q => !(q.dies.any p.dies.contains && (q.whole || q.sram.contains f))))

/-- Whether two partitions have the same virtual shape. -/
def Part.sameShape (p q : Part) : Bool :=
  decide (p.dies.length = q.dies.length) && decide (p.rows = q.rows) && decide (p.cols = q.cols) && p.whole == q.whole &&
    decide (p.sramMb = q.sramMb)

/-- A core that no context holds: its router's registers stay, and the fractions of its energy counts (R280). -/
def Core.vacate (k : Core) : Core :=
  { Core.reset with
    memb := k.memb, route := k.route, pid := k.pid
    seats := k.seats.map fun t => { Seat.reset with fraction := t.fraction } }

/-! ## The stop (R403, R404) -/

/-- A seat at a stop: a vector load under way is abandoned, and so is a vector store that has placed nothing; a deq is
withdrawn from its home. -/
def State.stopSeat (s : State) (t : SeatId) : State :=
  (s.withdraw t).modSeat t fun x =>
    { x with
      vprog := none, outs := x.outs.filter fun o => !o.isLanes, replaying := none }

/-- A seat at quiescence: the interval of an instruction that the stop abandoned closes; a blocked or sleeping seat is kept
so. Until then a region stop in progress may still split it (R386). -/
def State.restSeat (s : State) (t : SeatId) : State :=
  match (s.seat t).hold with
  | some h =>
    if h.kind = 0 ∨ h.kind = 11 then s else (s.closeHold t).modCore t.core fun k => k.unreserve t.seat
  | none => s

/-- Close the open intervals of a core's messages, entries, commands and running work, but for its seats' holds. -/
def Core.closeWaits (k : Core) (rate : BitVec 32) : Core :=
  let k := (k.runq.foldl (fun (k : Core) e => k.addQwait e.acct (toRef e.held rate)) k).closeStores rate
  let cmds (q : EngineQ) : EngineQ :=
    { q with queue := q.queue.map fun x => x.closeHeld rate, run := q.run.map fun r => r.closeHeld rate }
  let run (t : Seat) : Seat :=
    { t with work := t.work.map fun w => { w with ran := w.run rate, running := 0 } }
  let k : Core :=
    { k with
      inputs := k.inputs.map fun l => l.map fun m => m.closeHeld rate
      runq := k.runq.map fun e => e.closeHeld rate
      seats := k.seats.map run }
  ((k.modQ .mx cmds).modQ .cp cmds).modQ .sn cmds

/-- Mark the commands of an engine that are pending at a stop: queued, started and not retired, or held (R68, R71). -/
def EngineQ.markGap (q : EngineQ) : EngineQ :=
  let mark (x : Cmd) : Cmd := { x with gap := true }
  let run (r : Run) : Run := { r with cmd := mark r.cmd, tag := if r.fin.isSome then r.tag.setFlag 2 true else r.tag }
  { q with queue := q.queue.map mark, run := q.run.map run, heldRun := q.heldRun.map run }

/-- The engines of a core at a stop. -/
def Core.markEngines (k : Core) : Core :=
  ((k.modQ .mx EngineQ.markGap).modQ .cp EngineQ.markGap).modQ .sn EngineQ.markGap

/-- The seats of a partition. -/
def Part.seats (p : Part) : List SeatId := p.cores.flatMap fun c => (List.finRange 4).map fun i => ⟨c, i⟩

/-- The stop reaches every core of a partition, pending engine commands are marked (R68), and moves of its pages that have
not switched are abandoned (R349). -/
def State.stopPart (s : State) (id : Nat) : State :=
  match s.part? id with
  | none => if s.pkg.stops.contains id then s else { s with pkg := { s.pkg with stops := s.pkg.stops ++ [id] } }
  | some p =>
    if p.stop then s
    else
      let s := p.seats.foldl (fun (s : State) t => s.stopSeat t) s
      let s := p.cores.foldl (fun (s : State) c => s.modCore c Core.markEngines) s
      let roots := p.cores.map fun c => (s.core c).ptb
      let s := s.abandonMoves fun m => roots.contains m.root
      let regions := (p.cores.map s.regionOf).eraseDups
      let refs := regions.map fun r => (r, (s.region r).ref)
      s.modPart id fun p => { p with stop := true, quiet := false, stopRefs := refs }

/-- PSTOP_STOP (R403): cr.pstop is written with STOP 1. -/
def execPstopStop (id : Nat) (s : State) : Out State := .next (s.stopPart id)

/-! ## Quiescence (R403, R405, R460) -/

/-- Whether the oldest command of the scan engine is a group command that is over and has still to retire (R305). -/
def EngineQ.groupEnds (q : EngineQ) : Bool :=
  match q.run with
  | r :: _ => r.inst.isSome && q.mayRetire .sn
  | [] => false

/-- Whether a core of a stopped partition has nothing of it left to drain. -/
def State.coreDrained (s : State) (c : CoreId) : Bool :=
  let k := s.core c
  (k.inj[vnIndex .req]).isEmpty && (k.inj[vnIndex .rsp]).isEmpty && (k.inj[vnIndex .mc]).isEmpty &&
    k.flying.toList.all List.isEmpty && k.sb.isEmpty && !k.sn.q.groupEnds && k.cancelling.isEmpty &&
    k.seats.toList.all (fun t => t.outs.isEmpty) && !k.latchBusy && k.cp.q.run.all (fun r => r.waits.isEmpty) &&
    (List.finRange 5).all fun i => (s.nextIn c k.inputs[i] [] 0).isNone

/-- Whether everything of a stopped partition has drained. -/
def State.drained (s : State) (id : Nat) (p : Part) : Bool :=
  p.cores.all s.coreDrained && s.net.all (fun f => decide (f.msg.part.toNat ≠ id)) &&
    s.links.all (fun l => l.2.all fun x => !p.cores.contains x.core) &&
    s.seqrs.all (fun q => q.arriving.isEmpty && q.rset.all fun d => decide (Tab.get q.applied d q.list.length = q.list.length)) &&
    s.replies.all (fun r => !p.cores.contains r.seat.core) &&
    s.instances.all (fun i => !(decide (i.part = id) && decide (i.count ≤ i.got.length))) &&
    p.cores.all fun c => !(s.region (s.regionOf c)).busy

/-- Put a message among others in the order in which they reached their cores. -/
def byArrival (m : Msg) : List Msg → List Msg
  | [] => [m]
  | x :: r => if m.came ≤ x.came then m :: x :: r else x :: byArrival m r

/-- Messages that a stopped partition's cores refuse, in the order in which they reached those: its arrival list. -/
def State.takeArrivals (s : State) (id : Nat) (p : Part) : State :=
  let left := (p.cores.flatMap fun c => (s.core c).inputs.toList.flatten).foldr byArrival []
  let empty (s : State) (c : CoreId) : State := s.modCore c fun k => { k with inputs := Vector.replicate 5 [] }
  (p.cores.foldl empty s).modPart id fun p => { p with arrivals := p.arrivals ++ left }

/-- A copy command at quiescence keeps its progress (R403): a unit that has left for another package and is not
acknowledged, or whose source has been read in part, is taken again, and an open interval closes. -/
def EngineQ.rewind (rate : BitVec 32) (q : EngineQ) : EngineQ :=
  { q with run := q.run.map fun r =>
      if r.fin.isSome then r
      else
        { r.free rate with
          inst := none, reads := if r.snaps then r.reads else [], lost := if r.lost = 2 then 0 else r.lost } }

/-- The engines of a core at quiescence. -/
def Core.restEngines (k : Core) (rate : BitVec 32) : Core := k.modQ .cp (EngineQ.rewind rate)

/-- The seats and cores of a partition at quiescence: every open interval closes (R71, R403). -/
def State.restPart (s : State) (p : Part) : State :=
  let s := p.seats.foldl (fun (s : State) t => s.restSeat t) s
  p.cores.foldl (fun (s : State) c =>
    let rate := (s.region (s.regionOf c)).rate
    s.modCore c fun k => (k.closeWaits rate).restEngines rate) s

/-! ## Resumption (R71, R402, R412) -/

/-- A seat that held live work is given the gap. -/
def Seat.addGap (t : Seat) (gap : Word) : Seat :=
  if t.work.isSome then { t with gap := t.gap + gap, tag := t.tag.setFlag 2 true } else t

/-- Start a quiescent partition again: gaps are added, and the arrival list is offered to its cores ahead of new
traffic. -/
def State.resumePart (s : State) (id : Nat) (gap : CoreId → Word) : State :=
  match s.part? id with
  | none => s
  | some p =>
    let wake (s : State) (c : CoreId) : State :=
      let mine := p.arrivals.filter fun m => m.dst = c
      s.modCore c fun k =>
        { k with
          seats := k.seats.map fun t => t.addGap (gap c)
          inputs := k.inputs.set 0 (mine ++ k.inputs[(0 : Fin 5)])
          copiesDue := (k.inj[vnIndex .am]).length }
    (p.cores.foldl wake s).modPart id fun p => { p with stop := false, quiet := false, arrivals := [] }

/-- STOP is written 0 (R402): a partition that is quiescent resumes in place; the gap is what each core's region
measured (R71). An id without a partition has nothing to resume. -/
def State.resumeInPlace (s : State) (id : Nat) : State :=
  match s.part? id with
  | some p =>
    if p.quiet then
      s.resumePart id fun c => (s.region (s.regionOf c)).ref - p.stopRefs.get (s.regionOf c) 0
    else s
  | none => { s with pkg := { s.pkg with stops := s.pkg.stops.filter (· ≠ id) } }

/-- PSTOP_RESUME (R402). -/
def execPstopResume (id : Nat) (s : State) : Out State := .next (s.resumeInPlace id)

/-! ## Images (R406 to R412) -/

/-- The frames of a partition: of its TCMs, its scratchpads and its shared SRAM. -/
def Part.frames (p : Part) : List FrameId :=
  (p.cores.flatMap fun c => (List.range 8).map (FrameId.tcm c)) ++
    (p.clusters.flatMap fun k => (List.range 16).map (FrameId.scratch k)) ++
    p.dies.flatMap fun d => (if p.whole then List.range 256 else p.sram).map (FrameId.sram d)

/-- Mark every frame of a partition as owned by a context (R411), but for those that another context still owns (R414): one
that is unowned is claimed. -/
def State.ownFrames (s : State) (p : Part) (ctx : Nat) : State :=
  p.frames.foldl (fun (s : State) f => if s.owners.has f then s else s.claim ctx f) s

/-- Write every frame that a context owns to its image, so that none stays owned. -/
def State.saveEager (s : State) (ctx : Nat) : State :=
  let mine := (s.owners.filter fun o => o.2 = ctx).map (·.1)
  let put (s : State) (f : FrameId) : State :=
    let s := s.keepFrame f ctx
    { s with owners := s.owners.drop f }
  mine.foldl put s

/-- A message with the cores that it names moved, and its partition. -/
def Msg.move (f : CoreId → CoreId) (part : Nat) (m : Msg) : Msg :=
  { m with
    dst := f m.dst, rest := m.rest.map f, rect := m.rect.map fun x => (f x.1, f x.2), part := BitVec.ofNat 6 part
    kind := match m.kind with
      | .stolen r a v p => .stolen r a (f v) p
      | k => k }

/-- A core's state with the cores that it names moved. -/
def Core.move (k : Core) (f : CoreId → CoreId) (part : Nat) : Core :=
  { k with
    benchLead := k.benchLead.map f, inj := k.inj.map fun l => l.map (Msg.move f part)
    runq := k.runq.map fun e =>
      { e with
        msg := e.msg.move f part
        kind := match e.kind with
          | .stolen r a v p => .stolen r a (f v) p
          | x => x } }

/-- Lanes and predicate bits j cores up a bench's seat, as a member's image holds them (R326). -/
def Seat.lanesAt (t : Seat) (j : Nat) : Seat :=
  { t with
    v := t.v.map fun x => ((x >>> (512 * j)).setWidth 512).setWidth 8192
    p := t.p.map fun x => ((x >>> (64 * j)).setWidth 64).setWidth 1024 }

/-- A seat with the lanes and the predicate bits of a member j cores up put beside its own. -/
def Seat.withLanes (t x : Seat) (j : Nat) : Seat :=
  { t with
    v := Vector.zipWith (fun (a b : VReg) => a ||| (b <<< (512 * j))) t.v x.v
    p := Vector.zipWith (fun (a b : Pred) => a ||| (b <<< (64 * j))) t.p x.p }

/-- What the image of a core holds of the lanes of the bench that it is part of. -/
def State.splitLanes (s : State) (c : CoreId) : Core :=
  let k := s.core c
  match k.benchLead with
  | none => k
  | some l =>
    match (s.core l).bench with
    | none => k
    | some b =>
      match (List.range (shapeK b.shape)).find? fun j => member l b.shape j = c with
      | none => k
      | some j =>
        let x := ((s.core l).seats[(0 : Fin 4)]).lanesAt j
        k.modSeat 0 fun t => { t with v := x.v, p := x.p }

/-- A lead's seat takes the lanes of its members together again. -/
def State.joinLanes (s : State) (c : CoreId) : State :=
  match (s.core c).bench with
  | none => s
  | some b =>
    (List.range (shapeK b.shape - 1)).foldl (fun (s : State) j =>
      let x := (s.core (member c b.shape (j + 1))).seats[(0 : Fin 4)]
      s.modCore c fun k => k.modSeat 0 fun t => t.withLanes x (j + 1)) s

/-- The shortened form of a wide value: bits [63:29] in five bytes (R246). -/
def shorten (x : Word) : List Byte := natLe 5 (x.toNat / 2 ^ 29)

/-- The wide values of a list of shortened forms, the first n of them. -/
def lengthen : Nat → List Byte → List Word
  | 0, _ => []
  | n + 1, bs => if bs.isEmpty then [] else BitVec.ofNat 64 (leNat (bs.take 5) * 2 ^ 29) :: lengthen n (bs.drop 5)

/-- An engine without the names of stores, all of which have performed at quiescence. -/
def EngineQ.settled (q : EngineQ) : EngineQ :=
  let cmd (x : Cmd) : Cmd := { x with after := [] }
  let run (r : Run) : Run := { r with cmd := cmd r.cmd, acc := [], waits := [] }
  { q with queue := q.queue.map cmd, run := q.run.map run, heldRun := q.heldRun.map run }

/-- The image of a core: caches, what its place gives it and the account table are no part of it, so that its work adds to no
account any longer, and the energy fraction is not saved (R280, R420). What a quiescent core has drained is empty. -/
def Core.toImage (k : Core) : CoreImage :=
  { core := { k with
      utlb := [], icache := [], loopBuf := [], acct := Vector.replicate 16 Acct.reset, memb := 0, route := [], pid := 0
      sb := [], flying := Vector.replicate 4 []
      runq := k.runq.map fun e => { e with acct := 16 }
      inj := k.inj.map fun l => l.map fun m => { m with after := [] }
      dqHeld := k.dqHeld.map fun d => { d with after := [] }
      rq := k.rq.map fun e => { e with st := { e.st with after := [] } }
      seats := k.seats.map fun t =>
        { t with
          fraction := 0, work := t.work.map fun w => { w with acct := none }, outs := [], vprog := none, replaying := none
          gateLoad := [], gateStore := [] }
      mx := { k.mx with banks := Vector.replicate 4 [], q := k.mx.q.settled }
      sn := { k.sn with q := k.sn.q.settled }, cp := { k.cp with q := k.cp.q.settled } }
    banks := k.mx.banks.map fun l => l.flatMap shorten
    partials := k.mx.q.run.map fun r => r.acc.flatMap shorten }

/-- A core that its image is loaded into, in its new place. -/
def CoreImage.load (i : CoreImage) (old : Core) (part : Nat) : Core :=
  let acc (x : Run × List Byte) : Run := { x.1 with acc := lengthen 256 x.2 }
  { i.core with
    pid := BitVec.ofNat 6 part, memb := old.memb, route := old.route
    seats := Vector.zipWith (fun (t o : Seat) => { t with fraction := o.fraction }) i.core.seats old.seats
    mx := { i.core.mx with
      banks := i.banks.map (lengthen 256)
      q := { i.core.mx.q with run := (i.core.mx.q.run.zip i.partials).map acc } } }

/-- ctxsave: the image of the context on a quiescent partition, in virtual names; the partition's cores then hold nothing and
its frames are the context's (R411). It is written to the area at its base; an image that lay there can be named no more. -/
def State.ctxSave (s : State) (id : Nat) (p : Part) (ctx base : Nat) (eager : Bool) : State :=
  let s := s.ownFrames p ctx
  let held := match s.image? ctx with
    | some i => (i.frames, i.bad)
    | none => ([], [])
  let v := p.virtual
  let f := moveCore p v
  let cores := p.cores.filterMap fun c => (p.virt c).map fun x => (x, ((s.splitLanes c).move f 0).toImage)
  let image : Image :=
    { rows := p.rows, cols := p.cols, ndies := p.dies.length, levels := p.levels, det := p.det, horizon := p.horizon
      cores := cores, arrivals := p.arrivals.map (Msg.move f 0), instances := s.instances.filter fun i => i.part = id
      frames := held.1, bad := held.2, place := { v with arrivals := [], stopRefs := [], consumed := 0, next := none } }
  let away (x : Nat × Ctx) : Nat × Ctx :=
    if x.1 = ctx then
      (x.1, { x.2 with image := some image, state := .waiting, base := base, savedRef := (s.region 400).ref })
    else if x.2.base = base then (x.1, { x.2 with base := 2 ^ 64 })
    else x
  let s : State := { s with ctxs := s.ctxs.map away }
  let s := p.cores.foldl (fun (s : State) c => s.modCore c Core.vacate) s
  let s : State := { s with instances := s.instances.filter fun i => i.part ≠ id }
  let s := s.modPart id fun p => { p with ctx := none, arrivals := [] }
  (if eager then s.saveEager ctx else s).writeImage ctx

/-- Whether the benches of an image fit on a partition (R326). -/
def Image.benchesFit (i : Image) (p : Part) : Bool :=
  i.cores.all fun e =>
    match e.2.core.bench, p.coreAt e.1.1 e.1.2.1 e.1.2.2 with
    | some b, some c => (List.range (shapeK b.shape)).all fun j => (p.virt (member c b.shape j)).isSome
    | some _, none => false
    | none, _ => true

/-- The exit latency that a context's virtual device accepts is its partition's (R376). -/
def State.setTol (s : State) (id ctx : Nat) : State :=
  let v := s.vds.get (s.ctxs.get ctx Ctx.reset).vd VDev.reset
  { s with pkg := { s.pkg with lattol := s.pkg.lattol.set id v.tol } }

/-- The clusters of a partition that do not run are called (R377): a load reaches them. -/
def State.callClusters (s : State) (p : Part) : State :=
  let call (s : State) (k : ClusterId) : State :=
    if (s.cluster k).power = .run then s else s.modCluster k fun x => { x with called := true }
  p.clusters.foldl call s

/-- ctxload: an image onto a free partition of its shape; its frames are loaded at their first claims. Its arrival list keeps
its order, ahead of what arrives from now on. -/
def State.ctxLoad (s : State) (id : Nat) (p : Part) (ctx : Nat) (i : Image) (gap : Word) : State :=
  let f := moveCore i.place p
  let put (s : State) (e : (Nat × Nat × Nat) × CoreImage) : State :=
    match p.coreAt e.1.1 e.1.2.1 e.1.2.2 with
    | some c => s.modCore c fun old => (e.2.load old id).move f id
    | none => s
  let s := i.cores.foldl put s
  let s := p.cores.foldl (fun (s : State) c => s.joinLanes c) s
  let rest : Image := { i with cores := [], arrivals := [], instances := [] }
  let s := s.modCtx ctx fun x => { x with image := some rest, state := .running, part := id }
  let s : State := { s with instances := s.instances ++ i.instances.map fun x => { x with part := id } }
  let arrivals := i.arrivals.zipIdx.map fun m => { m.1.move f id with came := s.ids + m.2 }
  let s := ({ s with ids := s.ids + i.arrivals.length } : State).modPart id fun p =>
    { p with
      ctx := some ctx, levels := i.levels, det := i.det, horizon := i.horizon, arrivals := arrivals
      job := i.place.job, index := i.place.index, domain := i.place.domain, top := i.place.top, consumed := 0 }
  ((s.callClusters p).setTol id ctx).resumePart id fun _ => gap

/-- The image in the area at a base, with its context, which must be out. -/
def State.ctxAt (s : State) (base : Nat) : Option (Nat × Nat × Image) :=
  (s.readImage base).filter fun x => !s.ctxs.has x.1 || decide ((s.ctxs.get x.1 Ctx.reset).state ≠ .running)

/-- The context of an image in an area, which this package may not have held yet (R416). -/
def State.adopt (s : State) (ctx vd base : Nat) : State :=
  let x := s.ctxs.get ctx { Ctx.reset with vd := vd }
  { s with ctxs := s.ctxs.set ctx { x with base := base } }

/-- What the descriptor of ctxsave and ctxload gives, or a trap; the executing seat reads it as it loads, and claims its
frame (R413). -/
def State.ctxDesc (s : State) (a : Word) : Except (BitVec 6) (List Byte) :=
  match s.spot s.cur.core s.bench a with
  | .mem _ =>
    if 0x100000 ≤ a.toNat ∨ a.toNat % 64 ≠ 0 then .error cAlign
    else match (s.readsPayload 64 a.toNat).payload 64 a.toNat with
      | .ok bs => .ok bs
      | .error _ => .error cEcc
  | _ => .error cAlign

/-- Whether a reserved field of a descriptor is not zero. -/
def descReserved (bs : List Byte) (save : Bool) : Bool :=
  let zero (i n : Nat) : Bool := ((bs.drop i).take n).all fun b => decide (b = 0)
  decide (63 < (bs.getD 0 0).toNat) || decide (3 < (bs.getD 1 0).toNat) || !zero 2 2 || !zero 24 40 ||
    (save && !zero 16 8) || decide (leNat ((bs.drop 8).take 8) % 4096 ≠ 0)

/-- Write a status into the descriptor, and complete. -/
def State.ctxStatus (s : State) (f : Form) (a : Word) (st : Nat) : State :=
  let h := match s.spot s.cur.core s.bench a with
    | .mem h => h
    | _ => 0
  let s := ((s.claimHome s.cur.core h).writeCells (cellsFrom (h + 4) (natLe 4 st))).2
  s.complete f 1 .seq

/-- The checks of mode, privilege and descriptor, then what follows. -/
def State.ctxOp (s : State) (f : Form) (a : Reg) (save : Bool) (go : List Byte → State → Out State) : Out State :=
  let va := s.g a
  if !s.streaming then .next (s.raise cIllegal f.tval)
  else if s.me.priv ≠ 2 then .next (s.raise cPriv f.tval)
  else
    match s.ctxDesc va with
    | .error c => .next (s.raise c va)
    | .ok bs =>
      let s := s.readsPayload 64 va.toNat
      if descReserved bs save then .next (s.ctxStatus f va 5)
      else go bs s

/-- `ctxsave` (R410, R411). -/
def execCtxsave (a : Reg) (s : State) : Out State :=
  let f := w32 0 (.ctxsave a)
  s.ctxOp f a true fun bs s =>
    let id := (bs.getD 0 0).toNat
    let va := s.g a
    match s.part? id with
    | some p =>
      match p.quiet, p.ctx with
      | true, some ctx =>
        .next ((s.ctxSave id p ctx (leNat ((bs.drop 8).take 8)) ((bs.getD 1 0).getLsbD 0)).ctxStatus f va 0)
      | _, _ => .next (s.ctxStatus f va 1)
    | none => .next (s.ctxStatus f va 1)

/-- `ctxload` (R410, R412). -/
def execCtxload (a : Reg) (s : State) : Out State :=
  let f := w32 0 (.ctxload a)
  s.ctxOp f a false fun bs s =>
    let id := (bs.getD 0 0).toNat
    let va := s.g a
    match s.part? id with
    | none => .next (s.ctxStatus f va 1)
    | some p =>
      if p.ctx.isSome then .next (s.ctxStatus f va 1)
      else
        match s.ctxAt (leNat ((bs.drop 8).take 8)) with
        | none => .next (s.ctxStatus f va 2)
        | some (ctx, vd, i) =>
          if !i.place.sameShape p then .next (s.ctxStatus f va 3)
          else if !i.benchesFit p then .next (s.ctxStatus f va 4)
          else .next (((s.adopt ctx vd (leNat ((bs.drop 8).take 8))).ctxLoad id p ctx i
            (BitVec.ofNat 64 (leNat ((bs.drop 16).take 8)))).ctxStatus f va 0)

/-! ## The arbiter (R93, R94) -/

/-- cr.arbq of a queue. -/
def State.arb (s : State) (q : Nat) : BitVec 32 × BitVec 8 × BitVec 6 × Bool := s.pkg.arbq.get q (0, 0, 0, false)

/-- Set a queue's DEFICIT; the spec gives no value where 32 bits do not hold it. -/
def State.setDeficit (s : State) (q : Nat) (d : Int) : State :=
  let (_, w, p, e) := s.arb q
  if -(2 ^ 31) ≤ d ∧ d < 2 ^ 31 then
    { s with pkg := { s.pkg with arbq := s.pkg.arbq.set q (BitVec.ofInt 32 d, w, p, e) } }
  else
    { s with
      pkg := { s.pkg with arbq := s.pkg.arbq.set q (Config.freeDeficit s.frees, w, p, e) }, frees := s.frees + 1 }

/-- Whether an engine has a command to work on or held. -/
def EngineQ.hasWork (q : EngineQ) : Bool := !q.queue.isEmpty || !q.run.isEmpty || q.heldRun.isSome

/-- Whether a core has queued or resumable work: live seats, entries, messages that come or go, engine commands. -/
def Core.hasWork (k : Core) : Bool :=
  k.seats.toList.any (fun t => t.work.isSome) || !k.runq.isEmpty || k.inputs.toList.any (fun l => !l.isEmpty) ||
    k.inj.toList.any (fun l => !l.isEmpty) || !k.dqHeld.isEmpty || k.mx.q.hasWork || k.sn.q.hasWork || k.cp.q.hasWork

/-- Where the entry at the head of a ring lies. -/
def VDev.commandAt (v : VDev) : Nat := v.ring + 64 * (v.head.toNat % 2 ^ v.log2n)

/-- The command at the head of a virtual device's ring (R80, R81), if its drawer works and one is published. -/
def State.command (s : State) (vd : Nat) : Option (List Byte) :=
  let v := s.vds.get vd VDev.reset
  if s.vds.has vd && !v.failed && decide (v.head ≠ v.tail) then
    some (s.mem.bytes v.commandAt 64)
  else none

/-- The little-endian field of n bytes at byte i of a record. -/
def leField (b : List Byte) (i n : Nat) : Nat := leNat ((b.drop i).take n)

/-- Whether a LAUNCH or CANCEL of a context waits in its drawer. -/
def State.launchWaits (s : State) (q : Nat) : Bool :=
  match s.command (s.ctxs.get q Ctx.reset).vd with
  | some c =>
    !s.badIn (s.vds.get (s.ctxs.get q Ctx.reset).vd VDev.reset).commandAt 64 &&
      (decide (leField c 0 1 = 2) || decide (leField c 0 1 = 3)) && decide (leField c 8 8 = q)
  | none => false

/-- PENDING of a queue: its context has queued or resumable work. -/
def State.arbPending (s : State) (q : Nat) : Bool :=
  if s.ctxs.has q then
    let x := s.ctxs.get q Ctx.reset
    s.launchWaits q ||
    match x.state, x.image with
    | .running, _ =>
      match s.part? x.part with
      | some p =>
        p.cores.any (fun c => (s.core c).hasWork) || !p.arrivals.isEmpty ||
          s.net.any fun f => decide (f.msg.part.toNat = x.part)
      | none => false
    | _, some i => i.cores.any (fun e => e.2.core.hasWork) || !i.arrivals.isEmpty
    | _, none => false
  else false

/-- The queues that share a partition, in the order in which they are visited: from the one after r, and r last; where no
queue is resident, from the lowest number (DESIGN CHOICE, log entry 84). -/
def State.arbOrder (s : State) (part : Nat) (r : Option Nat) : List Nat :=
  let mine := (List.range 64).filter fun q =>
    let (_, w, p, e) := s.arb q
    e && decide (w ≠ 0) && decide (p.toNat = part)
  match r with
  | none => mine
  | some r => (mine.filter fun q => r < q) ++ mine.filter fun q => q ≤ r

/-- One round over the queues. -/
def State.arbRound (s : State) : List Nat → Option Nat × State
  | [] => (none, s)
  | q :: r =>
    if s.arbPending q then
      let (d, w, _, _) := s.arb q
      let quantum : Int := w.toNat * 4096
      let d' := min (d.toInt + quantum) (2 * quantum)
      let s := s.setDeficit q d'
      if 0 < d' then (some q, s) else s.arbRound r
    else (s.setDeficit q 0).arbRound r

/-- Rounds until a queue is selected; `fuel` bounds them, a DEFICIT of 32 bits being filled up by then. -/
def State.arbSelect (s : State) (order : List Nat) : Nat → Option Nat × State
  | 0 => (none, s)
  | fuel + 1 =>
    match s.arbRound order with
    | (some q, s) => (some q, s)
    | (none, s) => if order.any s.arbPending then s.arbSelect order fuel else (none, s)

/-- The gap of a context that the hardware switches in: the bureau's cr.ref since its save. -/
def State.awayFor (s : State) (ctx : Nat) : Word := (s.region 400).ref - (s.ctxs.get ctx Ctx.reset).savedRef

/-- Load a context that is out onto its partition, if it fits there. -/
def State.bringIn (s : State) (id q : Nat) : State :=
  match s.part? id, s.image? q with
  | some p, some i =>
    if p.ctx.isNone ∧ i.place.sameShape p ∧ (s.ctxs.get q Ctx.reset).state = .waiting then
      s.ctxLoad id p q i (s.awayFor q)
    else s
  | _, _ => s

/-- Switch a quiescent partition from the context that is resident there to another queue's. -/
def State.switchTo (s : State) (id q : Nat) : State :=
  match s.part? id with
  | some p =>
    match p.ctx with
    | some r =>
      ((s.ctxSave id p r ((s.ctxs.get r Ctx.reset).base) false).modPart id fun p => { p with next := none }).bringIn id q
    | none => s
  | none => s

/-- Run the procedure of R94 for a partition; a switch stops the running queue first, if it is not stopped already. Without a
selection the partition idles. -/
def State.arbitrate (s : State) (id : Nat) (p : Part) : State :=
  match s.arbSelect (s.arbOrder id p.ctx) (2 ^ 20) with
  | (none, s) => s.modPart id fun p => { p with idle := true }
  | (some q, s) =>
    let s := s.modPart id fun p => { p with idle := false }
    if p.ctx = some q then s
    else if p.ctx.isNone then s.bringIn id q
    else if p.quiet then s.switchTo id q
    else (s.stopPart id).modPart id fun p => { p with next := some q }

/-- SLICE_BOUNDARY (R94): at the boundary, one slice after the last, the running queue is charged the cluster-cycles of
the slice in which it held live work, and the partition is served. The event names the boundary by its reading of cr.ref
and does nothing before it. -/
def execSliceBoundary (id : Nat) (ref : Word) (s : State) : Out State :=
  match s.part? id with
  | none => .next s
  | some p =>
    let slice := s.pkg.slice.toNat
    if ((s.region 400).ref - p.sliceRef).toNat < slice || ref != p.sliceRef + BitVec.ofNat 64 slice then .next s
    else
      let s := match p.ctx with
        | some r => s.setDeficit r ((s.arb r).1.toInt - p.consumed)
        | none => s
      let s := s.modPart id fun p => { p with consumed := 0, sliceRef := ref }
      if p.next.isSome then .next s else .next (s.arbitrate id p)

/-- ARBITER_WAKE (R94): a partition that idles runs the procedure once a queue of it is PENDING. -/
def execArbiterWake (id : Nat) (s : State) : Out State :=
  match s.part? id with
  | none => .next s
  | some p =>
    if (p.idle || p.ctx.isNone) && p.next.isNone && (s.arbOrder id p.ctx).any s.arbPending then .next (s.arbitrate id p)
    else .next s

/-- QUIESCENCE (R403): the partition has drained. What its cores refuse becomes its arrival list, and QUIET is 1; a
switch of the arbiter then takes place. -/
def execQuiescence (id : Nat) (s : State) : Out State :=
  match s.part? id with
  | none => .next s
  | some p =>
    if !p.stop ∨ p.quiet ∨ !s.drained id p then .next s
    else
      let s := ((s.restPart p).takeArrivals id p).drainPorts
      let s := s.modPart id fun p => { p with quiet := true }
      .next (match p.next with
        | some q => s.switchTo id q
        | none => s)

/-! ## What a device sends to its host (R443) -/

/-- What a device has sent to its host. -/
def VDev.sent (v : VDev) : RdmaOut → VDev
  | .completion c => { v with completions := v.completions ++ [c] }
  | .response bs => { v with responses := v.responses ++ [bs] }
  | .nak n => { v with naks := v.naks ++ [n] }

/-- A device sends to its host at priority 3, or holds what it sends back in order while that is paused on its port: port 0
serves the devices of even number, port 1 the others (DESIGN CHOICE, log entry 91). -/
def State.rdmaOut (s : State) (vd : Nat) (x : RdmaOut) : State :=
  let v := s.vds.get vd VDev.reset
  let held := s.pkg.paused.contains (vd % 2, 3) || !v.unsent.isEmpty
  { s with vds := s.vds.set vd (if held then { v with unsent := v.unsent ++ [x] } else v.sent x) }

/-- The devices of a port send what they held back. -/
def State.resumeRdma (s : State) (port : Nat) : State :=
  let go (x : Nat × VDev) : Nat × VDev :=
    if x.1 % 2 = port then (x.1, x.2.unsent.foldl VDev.sent { x.2 with unsent := [] }) else x
  { s with vds := s.vds.map go }

/-! ## Re-partitioning and failed routers (R95, R430) -/

/-- Program entries of routers' own tables, for kinds 2 and 3 (R424). -/
def State.setRoutes (s : State) (l : List Route) : State :=
  (l.filter fun r => decide (2 ≤ r.kind.toNat)).foldl (fun (s : State) r =>
    s.modCore r.at_ fun k => { k with route := k.route.set (r.kind, r.dst) r.out }) s

/-- The routers that the tables of a kind lead through from one to a core. -/
def State.routeOf (s : State) (kind : BitVec 2) (dst : CoreId) : Nat → CoreId → List CoreId
  | 0, x => [x]
  | n + 1, x =>
    if x ≠ dst ∧ (s.core x).route.has (kind, dst) then
      x :: s.routeOf kind dst n (beside x ((s.core x).route.get (kind, dst) .north)).1
    else [x]

/-- Set a partition's bit in the membership of its routers, and of those that its routes of kinds 2 and 3 cross,
whenever those were programmed (R427). -/
def State.setMemb (s : State) (p : Part) (id : Nat) : State :=
  let crossed := p.cores.flatMap fun y => p.cores.flatMap fun x => s.routeOf 2 y 25600 x ++ s.routeOf 3 y 25600 x
  (p.cores ++ crossed).foldl (fun (s : State) c => s.modCore c fun k => { k with memb := k.memb ||| (1#64 <<< id) }) s

/-- Clear a partition's bit in the membership of every router. -/
def State.clearMemb (s : State) (id : Nat) : State :=
  { s with cores := s.cores.map fun e => (e.1, { e.2 with memb := e.2.memb &&& ~~~(1#64 <<< id) }) }

/-- Whether no partition covers a logical cluster that the retirement of a physical one would change (R380). -/
def State.mayRetire (s : State) (x : Nat × Nat × Nat) : Bool :=
  let used := s.pkg.retired.any fun y => decide (y.1 = x.1) && decide (y.2.2 = x.2.2)
  (List.range 40).all fun row =>
    let k : ClusterId := ⟨x.1, row, x.2.2⟩
    let touched := if used then physRow s.pkg.retired k = x.2.1 else x.2.1 ≤ row
    !(decide touched && s.parts.any fun p => p.2.clusters.contains k)

/-- The physical clusters of a region (R368). -/
def regionClusters (r : RegionId) : List (Nat × Nat × Nat) :=
  let rows := if r % 100 / 10 = 9 then 5 else 4
  (List.range rows).flatMap fun i => (List.range 4).map fun j => (r / 100, 4 * (r % 100 / 10) + i, 4 * (r % 10) + j)

/-- Retire physical clusters, those that may be: the map, cr.devstat, and a report once there is a hole (R380,
R381). -/
def State.retireClusters (s : State) (xs : List (Nat × Nat × Nat)) : State :=
  let add (s : State) (x : Nat × Nat × Nat) : State :=
    if s.pkg.retired.contains x ∨ !s.mayRetire x then s
    else { s with pkg := { s.pkg with retired := s.pkg.retired ++ [x] } }
  let t := xs.foldl add s
  if t.pkg.retired.length = s.pkg.retired.length then s
  else
    let columns := (t.pkg.retired.map fun x => (x.1, x.2.2)).eraseDups
    let holes := t.pkg.retired.length - columns.length
    let spared := (columns.filter fun x => (spareRow t.pkg.retired x.1 x.2).isSome).length
    let new := decide (holes ≠ 0) && decide (s.pkg.holes = 0)
    { t with pkg :=
      { t.pkg with
        holes := BitVec.ofNat 8 (Nat.min holes 255)
        spared := BitVec.ofNat 8 (Nat.min spared 160)
        replace := t.pkg.replace || decide (holes ≠ 0)
        reports := if new then t.pkg.reports + 1 else t.pkg.reports } }

/-- Retire clusters together, if all of them may be retired now. -/
def State.retireTogether (s : State) (xs : List (Nat × Nat × Nat)) : State :=
  let t := s.retireClusters xs
  if xs.all t.pkg.retired.contains then t else s

/-- Retire what is marked, regions and single clusters, where no partition is in the way: the lowest physical rows
first (R380). -/
def State.retireMarked (s : State) : State :=
  let regions := (s.regions.filter fun x => x.2.retire && decide (x.1 < 400)).map fun x => regionClusters x.1
  let units := regions ++ s.pkg.marked.map fun x => [x]
  let order := (List.range 41).flatMap fun row => units.filter fun u => (u.headD (0, 0, 0)).2.1 = row
  let t := order.foldl State.retireTogether s
  { t with pkg := { t.pkg with marked := t.pkg.marked.filter fun x => !t.pkg.retired.contains x } }

/-- Mark a cluster of a die for retirement alone, by its logical name, and retire it if that may be. -/
def State.markCluster (s : State) (k : ClusterId) : State :=
  if 4 ≤ k.die then s
  else
    let x := (k.die, physRow s.pkg.retired k, k.col)
    if s.pkg.marked.contains x then s.retireMarked
    else ({ s with pkg := { s.pkg with marked := s.pkg.marked ++ [x] } } : State).retireMarked

/-- Remove a partition that no context uses any longer. -/
def State.removePart (s : State) (id : Nat) (p : Part) : State :=
  let s := p.cores.foldl (fun (s : State) c => s.modCore c fun k => { k.vacate with pid := 0 }) (s.clearMemb id)
  ({ s with parts := s.parts.drop id } : State).retireMarked

/-- Whether another context, which has not been moved away, shares a partition. -/
def State.shared (s : State) (id ctx : Nat) : Bool :=
  s.ctxs.any fun x => decide (x.1 ≠ ctx) && decide (x.2.part = id) && decide (x.2.state ≠ .moved)

/-- A context that is off its partition leaves it: its frames go to its image, and the partition is removed unless another
context shares it. -/
def State.leavePart (s : State) (ctx : Nat) : State :=
  let x := s.ctxs.get ctx Ctx.reset
  let s := (s.saveEager ctx).modCtx ctx fun x => { x with state := .moved }
  match s.part? x.part with
  | some p => if s.shared x.part ctx ∨ p.ctx.isSome then s else s.removePart x.part p
  | none => s

/-- A context that is out resumes at a place of its shape, once that is free: on a partition that is made there, or, in
turns, on one that other contexts already share. -/
def State.settle (s : State) (ctx : Nat) (pl : Place) (i : Image) : State :=
  let id := pl.part.toNat
  let n := if i.place.whole then i.ndies else 0
  let q := partAt pl (i.rows / 4) (i.cols / 4) n i.place.sramMb
  match s.part? id with
  | some p =>
    if p.sameShape q ∧ p.dies = q.dies ∧ p.row = q.row ∧ p.col = q.col then
      let s := (s.modCtx ctx fun x => { x with part := id, state := .waiting }).setMemb p id
      if p.ctx.isNone then s.bringIn id ctx else s
    else s
  | none =>
    if !s.placeOk q n then s
    else
      let q : Part := { q with stop := true, quiet := true, sliceRef := (s.region 400).ref }
      let s := ({ s with parts := s.parts.set id q } : State).setMemb q id
      let s := q.cores.foldl (fun (s : State) c => s.modCore c fun k => { k with pid := BitVec.ofNat 6 id }) s
      s.ctxLoad id q ctx i (s.awayFor ctx)

/-- REPARTITION (R95): a context is pre-empted; once its partition is quiescent its image is saved, and it leaves its
partition; it resumes at another place of the same shape as soon as that is free, with the routes that are programmed
then. -/
def execRepartition (ctx : Nat) (pl : Place) (s : State) : Out State :=
  if !s.ctxs.has ctx then .next s
  else
    let x := s.ctxs.get ctx Ctx.reset
    match (s.part? x.part).filter fun p => p.ctx = some ctx with
    | some p =>
      if !p.quiet then .next ((s.stopPart x.part).modCtx ctx fun x => { x with state := .moved })
      else
        let s := (s.ctxSave x.part p ctx x.base true).leavePart ctx
        match s.image? ctx with
        | some i => .next ((s.setRoutes pl.routes).settle ctx pl i)
        | none => .next s
    | none =>
      let s := if x.state = .moved then s else s.leavePart ctx
      match s.image? ctx with
      | some i => .next ((s.setRoutes pl.routes).settle ctx pl i)
      | none => .next s

/-- End a context as UNLOAD ends it: its partition, its image, its frames and its messages go. -/
def State.endContext (s : State) (ctx : Nat) : State :=
  let x := s.ctxs.get ctx Ctx.reset
  let id := x.part
  let s : State := { s with
    ctxs := s.ctxs.drop ctx, owners := s.owners.filter fun o => o.2 ≠ ctx
    wqSpans := s.wqSpans.filter fun w => w.1.1 ≠ ctx }
  match s.part? id with
  | none => s
  | some p =>
    if p.ctx = some ctx then
      let mine (c : CoreId) : Bool := p.cores.contains c
      let s : State :=
        { s with
          net := s.net.filter fun f => f.msg.part.toNat ≠ id
          replies := s.replies.filter fun r => !mine r.seat.core
          deqs := s.deqs.filter fun d => !mine d.seat.core
          links := s.links.map fun l => (l.1, l.2.filter fun q => !mine q.core)
          instances := s.instances.filter fun i => i.part ≠ id }
      if s.shared id ctx then
        let s := p.cores.foldl (fun (s : State) c => s.modCore c Core.vacate) s
        s.modPart id fun p => { p with ctx := none, stop := true, quiet := true, arrivals := [], next := none, idle := true }
      else s.removePart id p
    else if x.state = .moved ∨ s.shared id ctx ∨ p.ctx.isSome then s
    else s.removePart id p

/-- ROUTER_FAILURE (R430): the contexts whose partition holds the router, or has a route through it, end; each one's
drawer writes an unsolicited completion, the cluster is marked for retirement, and routing is programmed anew, with the
membership of the partitions that are quiescent (R428). -/
def execRouterFailure (x : RouterLoss) (s : State) : Out State :=
  let c := x.at_
  let memb := (s.core c).memb
  let hit := s.ctxs.filter fun x =>
    match s.part? x.2.part with
    | some p => p.cores.contains c || memb.getLsbD x.2.part
    | none => false
  let tell (s : State) (x : Nat × Ctx) : State := (s.rdmaOut x.2.vd (.completion (0xFFFFFFFF, 7, 0))).endContext x.1
  let s := ((hit.foldl tell s).markCluster (clusterOf c)).setRoutes x.routes
  let idle := s.parts.filter fun p => p.2.quiet
  .next (idle.foldl (fun (s : State) p => s.setMemb p.2 p.1) s)

end Sys2Proof.Machine
end

