-- ==== Sys2Proof/Machine/Drawer.lean ====
section
/-!
DEFINITION. The drawers' commands and the host's RDMA operations on their rings (R20, R21, R78 to R91, R458).
-/

namespace Sys2Proof.Machine

/-! ## A drawer's view of paged memory -/

/-- Whether n bytes at an address lie inside one window of a virtual device. -/
def VDev.covers (v : VDev) (va : Word) (n : Nat) : Bool :=
  n = 0 || v.windows.any fun w => decide (w.1 ≤ va) && decide (va.toNat + n ≤ w.2.toNat)

/-- Read bytes inside one page of a virtual device's tables; none where no page is or a granule is bad. -/
def State.pageBytes (s : State) (v : VDev) (at_ n : Nat) : Option (List Byte) :=
  match s.walk (v.root ||| 1) (BitVec.ofNat 64 at_) with
  | .ok (pte, bits) =>
    let pa := leafPa pte + at_ % 2 ^ bits
    if s.badIn pa n then none else some (s.mem.bytes pa n)
  | .error _ => none

/-- Read n bytes for a drawer; none outside the windows or where a page does not answer. -/
def State.drawerRead (s : State) (v : VDev) (va : Word) (n : Nat) : Option (List Byte) :=
  if !v.covers va n then none
  else ((piecesOf va.toNat n).mapM fun p => s.pageBytes v p.1 p.2).map List.flatten

/-- What a drawer has read in its device's pages is corrected and counted where that was due (R350). -/
def State.drawerFix (s : State) (v : VDev) (l : List (Word × Nat)) : State :=
  if s.weak.isEmpty then s
  else
    (l.flatMap fun x => piecesOf x.1.toNat x.2).foldl (fun (s : State) p =>
      match s.walk (v.root ||| 1) (BitVec.ofNat 64 p.1) with
      | .ok (pte, bits) => s.correctDie (leafPa pte + p.1 % 2 ^ bits) p.2
      | .error _ => s) s

/-- Read a list of entries of a size. -/
def State.drawerList (s : State) (v : VDev) (va : Word) (count size : Nat) : Option (List (List Byte)) :=
  (s.drawerRead v va (count * size)).map fun bs => (List.range count).map fun i => (bs.drop (i * size)).take size

/-! ## Commands (R81, R82) -/

/-- Whether a message is a task entry of a launch record. -/
def Msg.isTaskEntry (m : Msg) : Bool :=
  match m.kind with
  | .launchTask _ _ => true
  | _ => false

/-- Whether a context of a virtual device has task entries that no core has accepted yet (R86): they wait at a core's local
input, or, once a stop has taken them from there, in an arrival list or an image. -/
def State.loading (s : State) (vd : Nat) : Bool :=
  (s.ctxs.any fun x => decide (x.2.vd = vd) && x.2.image.any fun i => i.arrivals.any Msg.isTaskEntry) ||
    s.parts.any fun x => (x.2.ctx.any fun c => decide ((s.ctxs.get c Ctx.reset).vd = vd)) &&
      (x.2.arrivals.any Msg.isTaskEntry || x.2.cores.any fun c => ((s.core c).inputs[(0 : Fin 5)]).any Msg.isTaskEntry)

/-- The remote key of a queue pair, and whether it is in error; a pair that was never set up is none (R444). -/
def VDev.pair (v : VDev) (q : Nat) : Option (BitVec 32 × Bool) :=
  if q = 0 then some (v.key, v.qpError) else if v.pairs.has q then some (v.pairs.get q (0, false)) else none

/-- The remote key of a queue pair. -/
def VDev.pairKey (v : VDev) (q : Nat) : BitVec 32 := ((v.pair q).getD (0, true)).1

/-- A queue pair is in error. -/
def VDev.failPair (v : VDev) (q : Nat) : VDev :=
  if q = 0 then { v with qpError := true } else { v with pairs := v.pairs.set q (v.pairKey q, true) }

/-- Whether queue pair n, of device n mod 16, takes requests. -/
def State.pairWorks (s : State) (n : Nat) : Bool :=
  s.vds.has (n % 16) && !(((s.vds.get (n % 16) VDev.reset).pair (n / 16)).getD (0, true)).2

/-- A command is over: a completion entry if it asks for one, and the next command. -/
def State.finishCommand (s : State) (vd : Nat) (c : List Byte) (status : Nat) (info : Word) : State :=
  let v := s.vds.get vd VDev.reset
  let s : State := { s with vds := s.vds.set vd { v with head := v.head + 1, load := none } }
  if leField c 1 1 % 2 = 1 then
    s.rdmaOut vd (.completion (BitVec.ofNat 32 (leField c 4 4), BitVec.ofNat 32 status, info))
  else s

/-- Whether a reserved field of a command is not zero. -/
def commandBad (c : List Byte) : Bool :=
  let code := leField c 0 1
  decide (1 < leField c 1 1) || decide (leField c 2 2 ≠ 0) || decide (leField c 33 3 ≠ 0) ||
    (decide (code ≠ 2) && decide (leField c 32 1 ≠ 0)) || (decide (code ≠ 1) && decide (63 < leField c 8 8))

/-- One more error of a drawer. -/
def VDev.err (v : VDev) : VDev := { v with errors := v.errors + 1 }

/-- A command whose entry cannot be read is passed over: it counts as an error of the drawer and has no completion (DESIGN
CHOICE, log entry 92). -/
def State.lostCommand (s : State) (vd : Nat) : State :=
  let v := s.vds.get vd VDev.reset
  ({ s with vds := s.vds.set vd { v.err with head := v.head + 1, load := none } } : State).countDie (dieOfHome v.commandAt) 0x26 1

/-- A drawer takes the command at the head of its ring, if it is of a code; QUERY's event takes unknown codes too. -/
def State.drawerTakes (s : State) (vd code : Nat) (go : VDev → List Byte → State) : Out State :=
  match s.command vd with
  | none => .next s
  | some c =>
    let x := leField c 0 1
    let unknown := decide (x = 0) || decide (5 < x)
    let v := s.vds.get vd VDev.reset
    let s := if s.pkg.asleep then s else s.correctDie v.commandAt 64
    if s.badIn v.commandAt 64 then .next (if s.pkg.asleep ∨ code ≠ 5 then s else s.lostCommand vd)
    else if s.pkg.asleep || !(decide (x = code) || (unknown && decide (code = 5))) then .next s
    else if unknown || commandBad c then .next (s.finishCommand vd c 5 0)
    else .next (go (s.vds.get vd VDev.reset) c)

/-- The context of a virtual device that a command names. -/
def State.namedCtx (s : State) (vd : Nat) (c : List Byte) : Option (Nat × Ctx) :=
  let n := leField c 8 8
  if s.ctxs.has n ∧ (s.ctxs.get n Ctx.reset).vd = vd then some (n, s.ctxs.get n Ctx.reset) else none

/-- The partition on which a context is resident and runs. -/
def State.resident (s : State) (n : Nat) (x : Ctx) : Option Part :=
  match s.part? x.part with
  | some p => if p.ctx = some n ∧ !p.stop ∧ x.state = .running then some p else none
  | none => none

/-! ## Launch records (R20, R21, R83 to R85) -/

/-- Height, width and number of dies of a record. -/
def recShape (b : List Byte) : Nat × Nat × Nat := (leField b 24 2, leField b 26 2, leField b 28 1)

/-- The rows and columns of cores, and the dies, of a record's partition. -/
def recSize (b : List Byte) : Nat × Nat × Nat :=
  let (h, w, n) := recShape b
  if n = 0 then (4 * h, 4 * w, 1) else (160, 160, n)

/-- The declared levels with their K. -/
def recLevels (b : List Byte) : List (BitVec 4 × Nat) :=
  (List.range (leField b 6 1)).map fun i => (BitVec.ofNat 4 (leField b (8 + i) 1), leField b (16 + i) 1)

/-- The levels of a record keep R20 and R21. -/
def recLevelsOk (b : List Byte) : Bool :=
  let n := leField b 6 1
  let code (i : Nat) : Nat := leField b (8 + i) 1
  let k (i : Nat) : Nat := leField b (16 + i) 1
  decide (1 ≤ n) && decide (n ≤ 8) && (List.range 8).all fun i =>
    if i < n then
      decide (code i ≤ 7) && decide (i = 0 ∨ code (i - 1) < code i) &&
        (if code i = 2 then [2, 4, 8, 16].contains (k i) else k i = 0)
    else decide (code i = 15) && decide (k i = 0)

/-- The shape fields name exactly one shape. -/
def recShapeOk (b : List Byte) : Bool :=
  let (h, w, n) := recShape b
  (decide (0 < h) && decide (0 < w) && decide (n = 0)) || (decide (h = 0) && decide (w = 0) && decide (1 ≤ n) && decide (n ≤ 4))

/-- The checks of R85 that the record's own 128 bytes decide. R83 bounds the class-table count at 64 and R85 does not list
it: a larger one is malformed (DESIGN CHOICE, log entry 69). -/
def recHeadOk (b : List Byte) : Bool :=
  let mode3 := leField b 30 1 / 64
  let msz := leField b 29 1
  decide (leField b 0 4 = 0x00005A4C) && decide (leField b 4 2 = 1) && recLevelsOk b && recShapeOk b &&
    decide (leField b 7 1 < 4) && decide (leField b 31 1 = 0) && decide (leField b 124 4 = 0) && decide (1 ≤ msz) &&
    decide (msz ≤ 8) && decide ((mode3 = 3) ↔ (leField b 7 1 % 2 = 1)) && decide (leField b 52 4 ≤ 64) &&
    decide (leField b 96 4 ≤ 16) && decide (leField b 72 4 ≤ 0x8000 - 0x400 * msz)

/-- The lists of a record as LOAD reads them. -/
structure Lists where
  classes : List (BitVec 128)
  tcm : List Byte
  tasks : List (List Byte)
  tmaps : List (BitVec 256)
  streams : List (List Byte)
  segs : List (List Byte)
deriving DecidableEq, Repr

/-- An address of a record. -/
def recAddr (b : List Byte) (i : Nat) : Word := BitVec.ofNat 64 (leField b i 8)

/-- Read the lists of a record. -/
def State.recLists (s : State) (v : VDev) (b : List Byte) : Option Lists := do
  let classes ← s.drawerList v (recAddr b 56) (leField b 52 4) 16
  let tcm ← s.drawerRead v (recAddr b 64) (leField b 72 4)
  let tasks ← s.drawerList v (recAddr b 80) (leField b 76 4) 32
  let tmaps ← s.drawerList v (recAddr b 88) (leField b 96 4) 32
  let streams ← s.drawerList v (recAddr b 104) (leField b 100 4) 32
  let segs ← s.drawerList v (recAddr b 112) (leField b 120 4) 32
  if v.covers (recAddr b 40) (leField b 48 4) then
    some ⟨classes.map fun x => BitVec.ofNat 128 (leNat x), tcm, tasks, tmaps.map fun x => BitVec.ofNat 256 (leNat x),
      streams, segs⟩
  else none

/-- The place, the seat and the class that a task or stream entry names. -/
def entryDest (e : List Byte) : (Nat × Nat × Nat) × Fin 4 × BitVec 6 :=
  let w : Word := BitVec.ofNat 64 (leField e 0 8)
  (((w.extractLsb' 16 2).toNat, (w.extractLsb' 8 8).toNat, (w.extractLsb' 0 8).toNat), (w.extractLsb' 18 2).toFin,
    w.extractLsb' 20 6)

/-- Whether an entry names a core of the partition and nothing outside its fields. -/
def entryOk (b e : List Byte) : Bool :=
  let (rows, cols, n) := recSize b
  let ((v, r, c), _, _) := entryDest e
  decide (v < n) && decide (r < rows) && decide (c < cols) && decide (leField e 0 8 < 2 ^ 26)

/-- The mode code of the seat-mode byte for a seat. -/
def recMode (b : List Byte) (i : Fin 4) : BitVec 2 := (BitVec.ofNat 8 (leField b 30 1)).extractLsb' (2 * i.val) 2

/-- A class entry that a record may give. -/
def classOk (msz : Nat) (x : BitVec 128) : Bool :=
  let kind := (x.extractLsb' 61 3).toNat
  decide (kind ≤ 4) && decide (x.extractLsb' 67 3 = 0) && decide (x.extractLsb' 48 2 = 0) && !x.getLsbD 0 &&
    !(decide (kind = 1) && x.getLsbD 66) &&
    (decide (kind ≠ 2) || ({ Core.reset with msz := BitVec.ofNat 4 msz } : Core).ringOk x)

/-- A segment entry that a record may give (R84). -/
def segOk (e : List Byte) : Bool :=
  let kind := leField e 0 8
  let end_ := leField e 8 8 + leField e 24 8
  (decide (kind = 1) && decide (end_ ≤ 2 ^ 18)) || (decide (kind = 2) && decide (end_ ≤ 2 ^ 28))

/-- A tensor-map entry that a record may give. -/
def tmapOk (x : BitVec 256) : Bool :=
  decide ((x.extractLsb' 248 8).toNat ≤ 15) && decide (x.extractLsb' 208 40 = 0) &&
    decide ((x.extractLsb' 200 8).toNat ≤ 2) && decide ((x.extractLsb' 192 8).toNat ≤ 11)

/-- Every core of the shape has a stream entry for a seat. -/
def streamsCover (b : List Byte) (streams : List (List Byte)) (i : Fin 4) : Bool :=
  let (rows, cols, n) := recSize b
  (List.range n).all fun v => (List.range rows).all fun r => (List.range cols).all fun c =>
    streams.any fun e => decide ((entryDest e).1 = (v, r, c)) && decide ((entryDest e).2.1 = i)

/-- The checks of R85 on the lists of a record. -/
def listsOk (b : List Byte) (l : Lists) : Bool :=
  let names := l.tmaps.map fun x => x.extractLsb' 248 8
  let streams (place : Nat × Nat × Nat) (i : Fin 4) : Bool :=
    l.streams.any fun e => decide ((entryDest e).1 = place) && decide ((entryDest e).2.1 = i)
  l.classes.all (classOk (leField b 29 1)) && l.segs.all segOk && l.tmaps.all tmapOk && decide names.Nodup &&
    (l.streams.all fun e => entryOk b e && decide ((entryDest e).2.2 = 0) && decide (leField e 16 8 < 8) &&
      decide (leField e 24 8 = 0)) &&
    (l.tasks.all fun e =>
      let (place, i, _) := entryDest e
      entryOk b e && decide (leField e 24 8 ≤ 256) && decide (recMode b i = 0) && !streams place i) &&
    (List.finRange 4).all fun i => decide (recMode b i ≠ 1) || streamsCover b l.streams i

/-! ## LOAD (R86, R92, R337) -/

/-- The MiB of shared SRAM that a record's segments fix for a rectangle. -/
def recSramMb (l : Lists) : Nat :=
  let end_ := (l.segs.filter fun e => leField e 0 8 = 2).foldl (fun n e => Nat.max n (leField e 8 8 + leField e 24 8)) 0
  Nat.max 1 ((end_ + 2 ^ 20 - 1) / 2 ^ 20)

/-- cr.win of a partition (R337). -/
def Part.winWord (p : Part) : Word :=
  BitVec.ofNat 64 (p.sramMb * 2 ^ 32 + (p.dies.length - 1) * 2 ^ 28 + (p.rows - 1) * 2 ^ 20 + (p.cols - 1) * 2 ^ 12)

/-- A core as LOAD leaves it before any stream seat enters: the router's registers and each seat's energy credit stay. The
code 0b11 leaves seats 0 to 2 parked, as they are (R23). -/
def Core.loaded (old : Core) (v : VDev) (b : List Byte) (l : Lists) (id : Nat) (win : Word) : Core :=
  let lo := leField b 40 8
  let hi := lo + leField b 48 4
  let tvec := recAddr b 32 &&& 0x0000FFFFFFFFF000
  let seat (t : Seat) : Seat :=
    { Seat.reset with credit := t.credit, fraction := t.fraction, tr := { Seat.reset.tr with tvec := tvec } }
  let mode (i : Fin 4) : BitVec 2 := if recMode b i = 1 ∨ (recMode b i = 3 ∧ i ≠ 3) then 0b10 else recMode b i
  let maps (k : Core) (x : BitVec 256) : Core :=
    if h : (x.extractLsb' 248 8).toNat < 16 then
      { k with tmaps := k.tmaps.set (x.extractLsb' 248 8).toNat (tmapWrite 0 x) h }
    else k
  let k : Core :=
    { Core.reset with
      seats := old.seats.map seat
      memb := old.memb
      route := old.route
      pid := BitVec.ofNat 6 id
      win := win
      ptb := v.root ||| 1
      cwlo := BitVec.ofNat 64 (lo / 2 ^ 16 * 2 ^ 16)
      cwhi := BitVec.ofNat 64 ((hi + 2 ^ 16 - 1) / 2 ^ 16 * 2 ^ 16)
      msz := BitVec.ofNat 4 (leField b 29 1)
      modes := Vector.ofFn mode
      launchModes := Vector.ofFn mode
      classes := Vector.ofFn fun i => classWrite 0 (l.classes.getD i.val 0) }
  l.tmaps.foldl maps k

/-- Write bytes at a range of a memory of a core's partition; `home` gives the place of an offset. -/
def State.copyIn (s : State) (c : CoreId) (home : Nat → Nat) (dst : Nat) (bs : List Byte) : State :=
  (piecesOf dst bs.length).foldl (fun (s : State) p =>
    let h := home p.1
    ((s.claimHome c h).writeCells (cellsFrom h ((bs.drop (p.1 - dst)).take p.2))).2) s

/-- Copy a segment to every cluster or die of a partition (R84). -/
def State.copySegment (s : State) (p : Part) (e bs : List Byte) : State :=
  let off := leField e 8 8
  if leField e 0 8 = 1 then
    p.clusters.foldl (fun (s : State) k =>
      s.copyIn (.grid k.die (4 * k.row) (4 * k.col)) (scratchHome k) off bs) s
  else
    p.dies.foldl (fun (s : State) d =>
      let home (o : Nat) : Nat :=
        sramHome d (if p.whole then o else p.sram.getD (o / 2 ^ 20) 0 * 2 ^ 20 + o % 2 ^ 20)
      s.copyIn (.grid d p.row p.col) home off bs) s

/-- The start and the mode of the seat that a stream entry names (R86 step 4). -/
def State.loadStream (s : State) (p : Part) (e : List Byte) : State :=
  let ((v, r, c), i, _) := entryDest e
  match p.coreAt v r c with
  | none => s
  | some core =>
    let w : BitVec 3 := BitVec.ofNat 3 (leField e 16 8)
    let chan : Option (Fin 4) := if w.getLsbD 2 then some (w.extractLsb' 0 2).toFin else none
    s.modCore core fun k =>
      { (k.modSeat i fun t => { t with sentry := recAddr e 8 &&& 0x0000FFFFFFFFFFFE, boundChan := chan }) with
        modes := k.modes.set i 0b01, launchModes := k.launchModes.set i 0b01 }

/-- The stream programs of a partition start, but for those of a bench's parked seats; the seat 0 of a bench's lead runs
the program that its entry names, as wide as the bench. -/
def State.startStreams (s : State) (p : Part) : State :=
  p.seats.foldl (fun (s : State) t =>
    if (s.core t.core).launchModes[t.seat] = 0b01 ∧ (s.core t.core).modes[t.seat] = 0b01 then s.setMode t 0b01 else s) s

/-- The code of the shape with K cores. -/
def shapeOf (k : Nat) : BitVec 2 := if k = 2 then 0 else if k = 4 then 1 else if k = 8 then 2 else 3

/-- Compose the benches of a level over every cluster of a partition (R21). -/
def State.loadBenches (s : State) (p : Part) (k : Nat) : State :=
  let shape := shapeOf k
  let lead : CoreId → Bool
    | .grid _ r c => decide (r % shapeRows shape = 0) && decide (c % shapeCols shape = 0)
    | .skoum _ => false
  let form (s : State) (c : CoreId) : State :=
    ({ s with cur := ⟨c, 0⟩ } : State).formBench shape true ((s.core c).modes[(0 : Fin 4)])
  { (p.cores.filter lead).foldl form s with cur := s.cur }

/-- Accept a task entry with its payload, or leave it at its core's local input. Of its routine address bits [47:1] are taken
(DESIGN CHOICE, log entry 82). -/
def State.loadTask (s : State) (p : Part) (id : Nat) (e bs : List Byte) : State :=
  let ((v, r, c), i, cls) := entryDest e
  match p.coreAt v r c with
  | none => s
  | some core =>
    let m : Msg :=
      { dst := core, cls := cls, grp := 0, part := BitVec.ofNat 6 id, tag := Tag.zero, data := bs,
        src := s.srcWord ⟨core, i⟩, seq := 0, work := 0, age := 0, vn := .req, key := ⟨0, 0, 0⟩,
        kind := .launchTask i (recAddr e 8 &&& 0x0000FFFFFFFFFFFE), rest := [],
        pkg := none, after := [], held := 0, heldDet := 0, qwait := 0, came := 0, rect := none }
    let k := s.core core
    if (k.inputs[(0 : Fin 5)]).isEmpty && k.fits m then s.enter core m
    else s.setCore core { k with inputs := k.inputs.set 0 (k.inputs[(0 : Fin 5)] ++ [m]) }

/-- Whether a partition of a record's shape finds a place somewhere: a free partition of the shape, or a free id and room for
a new one. -/
def State.placeFree (s : State) (b : List Byte) (l : Lists) : Bool :=
  let (h, w, n) := recShape b
  let mb := recSramMb l
  let others := s.parts.map (·.2)
  let frames (d : Nat) : List Nat := ((List.range 256).filter fun f => others.all fun q =>
    !(q.dies.contains d && (q.whole || q.sram.contains f))).take mb
  let at_ (d r c : Nat) : Place := ⟨0, [d], r, c, 0, frames d, []⟩
  let single (d r c : Nat) : Bool := s.placeOk (partAt (at_ d r c) h w n mb) (Nat.min n 1)
  (s.parts.any fun p => p.2.ctx.isNone && p.2.sameShape (partAt ⟨0, List.range (Nat.max n 1), 0, 0, 0, frames 0, []⟩ h w n mb)) ||
    ((List.range 64).any (fun i => !s.parts.has i) &&
      if n = 0 then
        (List.range 4).any fun d => (List.range (41 - h)).any fun r => (List.range (41 - w)).any fun c => single d r c
      else decide (n ≤ ((List.range 4).filter fun d => single d 0 0).length))

/-- The partition that LOAD uses: a new one that may lie at its place, or one of the same place that holds no
context at present. -/
def State.loadPart (s : State) (pl : Place) (b : List Byte) (l : Lists) : Option Part :=
  let (h, w, n) := recShape b
  let q := partAt pl h w n (recSramMb l)
  match s.part? pl.part.toNat with
  | none => if s.placeOk q n then some q else none
  | some p =>
    let same := decide (p.dies = q.dies ∧ p.row = q.row ∧ p.col = q.col ∧ p.rows = q.rows ∧ p.cols = q.cols ∧
      p.whole = q.whole ∧ p.sramMb = q.sramMb ∧ p.sram = q.sram)
    if same ∧ p.ctx.isNone then some q else none

/-- Load a record that has passed its checks (R86); `segs` and `payloads` hold the bytes of its lists' sources. -/
def State.loadRecord (s : State) (vd : Nat) (v : VDev) (pl : Place) (b : List Byte) (l : Lists) (q : Part)
    (segs payloads : List (List Byte)) : State :=
  let id := pl.part.toNat
  let p : Part :=
    { q with levels := recLevels b, det := decide (2 ≤ leField b 7 1), ctx := some pl.slot, job := v.job
             index := v.index, domain := v.domain, sliceRef := (s.region 400).ref }
  let s : State :=
    { s with
      parts := s.parts.set id p
      ctxs := s.ctxs.set pl.slot { Ctx.reset with vd := vd, part := id, state := .running }
      pkg := { s.pkg with lattol := s.pkg.lattol.set id v.tol, stops := s.pkg.stops.filter (· ≠ id) } }
  let s := ((s.callClusters p).setRoutes pl.routes).setMemb p id
  let s := p.cores.foldl (fun (s : State) c => s.modCore c fun k => k.loaded v b l id p.winWord) s
  let s := p.cores.foldl (fun (s : State) c => s.copyIn c (tcmHome c) 0 l.tcm) s
  let s := (l.segs.zip segs).foldl (fun (s : State) e => s.copySegment p e.1 e.2) s
  let s := l.streams.foldl (fun (s : State) e => s.loadStream p e) s
  let s := match (recLevels b).find? fun x => x.1 = 2 with
    | some x => s.loadBenches p x.2
    | none => s
  let s := s.startStreams p
  (l.tasks.zip payloads).foldl (fun (s : State) e => s.loadTask p id e.1 e.2) s

/-- What a LOAD reads in its device's pages: the record at an address, its lists, and the bytes of their sources. -/
def recReads (a : Word) (b : List Byte) (l : Lists) : List (Word × Nat) :=
  [(a, 128), (recAddr b 56, 16 * l.classes.length), (recAddr b 64, l.tcm.length), (recAddr b 80, 32 * l.tasks.length),
    (recAddr b 88, 32 * l.tmaps.length), (recAddr b 104, 32 * l.streams.length), (recAddr b 112, 32 * l.segs.length)] ++
    (l.tasks ++ l.segs).map fun e => (recAddr e 16, leField e 24 8)

/-- A LOAD from its record on: its status, or the state in which the record is loaded. None where the event's place or slot
is not free and others are: the bureau allocates what is free (R86), and status 2 says that nothing is. -/
def State.loadAt (s : State) (vd : Nat) (v : VDev) (pl : Place) (a : Word) : Option (Nat × State) :=
  if a.toNat % 64 ≠ 0 then some (5, s)
  else
    match s.drawerRead v a 128 with
    | none => some (3, s)
    | some b =>
      if !recHeadOk b then some (1, s)
      else
        match s.recLists v b with
        | none => some (3, s)
        | some l =>
          if !listsOk b l then some (1, s)
          else
            let segs := l.segs.mapM fun e => s.drawerRead v (recAddr e 16) (leField e 24 8)
            let payloads := l.tasks.mapM fun e => s.drawerRead v (recAddr e 16) (leField e 24 8)
            match segs, payloads with
            | some segs, some payloads =>
              match s.loadPart pl b l with
              | some q =>
                if pl.slot < 64 ∧ !s.ctxs.has pl.slot then
                  some (0, (s.loadRecord vd v pl b l q segs payloads).drawerFix v (recReads a b l))
                else if (List.range 64).all s.ctxs.has then some (2, s)
                else none
              | none => if (List.range 64).all s.ctxs.has ∨ !s.placeFree b l then some (2, s) else none
            | _, _ => some (3, s)

/-- A LOAD in progress completes once every core has accepted its tasks (R86). -/
def State.loadEnds (s : State) (vd : Nat) (c : List Byte) (slot : Nat) : State :=
  if s.loading vd then s else s.finishCommand vd c 0 (BitVec.ofNat 64 slot)

/-- LOAD (R86): the record is loaded; the event comes again until the command completes. -/
def execLoad (vd : Nat) (pl : Place) (s : State) : Out State :=
  s.drawerTakes vd 1 fun v c =>
    match v.load with
    | some slot => s.loadEnds vd c slot
    | none =>
      match s.loadAt vd v pl (BitVec.ofNat 64 (leField c 8 8)) with
      | some (0, s) =>
        ({ s with vds := s.vds.set vd { v with load := some pl.slot } } : State).loadEnds vd c pl.slot
      | some (st, s) => s.finishCommand vd c st 0
      | none => s

/-! ## LAUNCH (R88, R89, R458) -/

/-- The die and the key of a named address; none where it has neither (R89). -/
inductive Owner where
  | core (c : CoreId)
  | die (d k : Nat)
deriving DecidableEq, Repr

/-- What owns a named address. -/
def State.ownerKey (s : State) (v : VDev) (p : Part) (a : Word) : Option Owner :=
  let x := a.toNat
  if 0x010000000000 ≤ x ∧ x < 0x020000000000 then
    if x / 2 ^ 36 % 4 = 0 ∧ x % 2 ^ 20 < 0x8000 then
      (p.coreAt (x / 2 ^ 38 % 4) (x / 2 ^ 28 % 256) (x / 2 ^ 20 % 256)).map .core
    else none
  else if 0x020000000000 ≤ x ∧ x < 0x020040000000 then
    if x % 2 ^ 28 < p.sramMb * 2 ^ 20 then
      (p.dies[x / 2 ^ 28 % 4]?).map fun d => .die d (x % 2 ^ 28 / 2 ^ 12)
    else none
  else if 0x100000000000 ≤ x ∧ x < 2 ^ 48 ∧ v.covers a 1 then
    match s.walk (v.root ||| 1) a with
    | .ok (pte, _) => some (.die (leafPa pte / 2 ^ 39) (x / 2 ^ 12 % 2 ^ 24))
    | .error _ => none
  else none

/-- The core that a key names among a partition's cores on a die, or among all of them if it has none there. -/
def Part.ownerAt (p : Part) (d k : Nat) : Option CoreId :=
  let there := p.cores.filter fun c => dieOf c = d
  let cs := if there.isEmpty then p.cores else there
  cs[(k ^^^ (k / 2 ^ 13)) % Nat.max cs.length 1]?

/-- The owning core of a named address. -/
def State.ownerOf (s : State) (v : VDev) (p : Part) (a : Word) : Option CoreId :=
  match s.ownerKey v p a with
  | some (.core c) => some c
  | some (.die d k) => p.ownerAt d k
  | none => none

/-- Whether a class is of active kind and enabled. -/
def Core.launchable (k : Core) (cls : BitVec 6) : Bool := decide (k.kindOf cls = 3) && k.classBit cls 55

/-- In deterministic mode, whether a LAUNCH may leave the drawer, and the span that it takes. -/
def State.launchSpan (s : State) (id : Nat) (p : Part) : Option Nat :=
  if p.det then (if (s.openSpans id p).isEmpty then some (s.horizonOf id p + 1) else none) else some 0

/-- A LAUNCH on the partition where its context runs. Where the handler address and the class are both bad, the address is
found first (DESIGN CHOICE, log entry 69). -/
def State.launchOn (s : State) (vd : Nat) (v : VDev) (c : List Byte) (id : Nat) (p : Part) : State :=
  let handler := recAddr c 24
  let cls : BitVec 6 := BitVec.ofNat 6 (leField c 32 1)
  match s.ownerOf v p (recAddr c 16) with
  | none => s.finishCommand vd c 3 0
  | some owner =>
    let k := s.core owner
    if handler < k.cwlo ∨ k.cwhi ≤ handler ∨ handler.getLsbD 0 then s.finishCommand vd c 3 0
    else if !k.launchable cls then s.finishCommand vd c 4 0
    else
      match s.launchSpan id p with
      | none => s
      | some span =>
        let data := natLe 8 handler.toNat ++ (c.drop 40).take (leField c 36 4)
        let m : Msg :=
          { dst := owner, cls := cls, grp := 0, part := BitVec.ofNat 6 id, tag := { Tag.zero with span := sat48 span },
            data := data, src := 0, seq := 0, work := 0, age := 0, vn := .am, key := ⟨span, 0, 0⟩, kind := .launch,
            rest := [], pkg := none, after := [], held := 0, heldDet := 0, qwait := 0, came := 0, rect := none }
        ({ s with net := s.net ++ [⟨m, owner, 0, false⟩] } : State).finishCommand vd c 0 0

/-- LAUNCH (R88). It waits while its context does not run. -/
def execLaunch (vd : Nat) (s : State) : Out State :=
  s.drawerTakes vd 2 fun v c =>
    if 24 < leField c 36 4 ∨ 63 < leField c 32 1 then s.finishCommand vd c 5 0
    else
      match s.namedCtx vd c with
      | none => s.finishCommand vd c 6 0
      | some (n, x) =>
        match s.resident n x with
        | none => s
        | some p => s.launchOn vd v c x.part p

/-! ## CANCEL, UNLOAD and QUERY (R82, R91) -/

/-- Remove the messages of a partition that are on their way and whose group meets a test. -/
def State.cancelFlights (s : State) (id : Nat) (p : Part) (g : BitVec 32 → Bool) : State :=
  let hit (f : Flight) : Bool := decide (f.msg.part.toNat = id) && g f.msg.grp
  let stolen := s.net.filter fun f => hit f && f.msg.kind.isStolen
  let s : State := { s with net := s.net.filter fun f => !hit f }
  let s := stolen.foldl (fun (s : State) f => s.modCore f.msg.dst fun k => k.dropped f.msg) s
  p.cores.foldl (fun (s : State) c => s.modCore c fun k =>
    { k with inj := k.inj.map fun l => l.filter fun m => !g m.grp }) s

/-- Cancel groups in every core of a partition. -/
def State.cancelAll (s : State) (id : Nat) (p : Part) (g : BitVec 32 → Bool) : State :=
  (p.cores.foldl (fun (s : State) c => s.cancelAt c g none) s).cancelFlights id p g

/-- CANCEL (R91). The drawer holds one of a context that is not running until it runs (DESIGN CHOICE, log entry 83). -/
def execCancel (vd : Nat) (s : State) : Out State :=
  s.drawerTakes vd 3 fun _ c =>
    match s.namedCtx vd c with
    | none => s.finishCommand vd c 6 0
    | some (n, x) =>
      match s.resident n x with
      | none => s
      | some p => (s.cancelAll x.part p fun g => g = BitVec.ofNat 32 (leField c 36 4)).finishCommand vd c 0 0

/-- Whether a partition's stores and copies have all performed. -/
def State.storesOver (s : State) (p : Part) : Bool :=
  p.cores.all (fun c => (s.core c).sb.isEmpty) && s.links.all fun l => l.2.all fun x => !p.cores.contains x.core

/-- UNLOAD (R91): all work of the context ends; its partition and its slot are free once its stores have performed. -/
def execUnload (vd : Nat) (s : State) : Out State :=
  s.drawerTakes vd 4 fun _ c =>
    match s.namedCtx vd c with
    | none => s.finishCommand vd c 6 0
    | some (n, x) =>
      match s.part? x.part with
      | some p =>
        if p.ctx = some n then
          let s := s.cancelAll x.part p fun _ => true
          if s.storesOver p then (s.endContext n).finishCommand vd c 0 0 else s
        else (s.endContext n).finishCommand vd c 0 0
      | none => (s.endContext n).finishCommand vd c 0 0

/-- What QUERY tells of a context (R82). -/
def State.queryInfo (s : State) (n : Nat) (x : Ctx) : Word :=
  let state := if x.state = .moved then 3 else if (s.resident n x).isSome then 1 else 2
  let det := match s.part? x.part, x.image with
    | some p, none => p.det
    | _, some i => i.det
    | none, none => false
  BitVec.ofNat 64 (x.part + state * 2 ^ 8 + if det then 2 ^ 12 else 0)

/-- QUERY (R82), and any command of an unknown code. -/
def execQuery (vd : Nat) (s : State) : Out State :=
  s.drawerTakes vd 5 fun _ c =>
    match s.namedCtx vd c with
    | none => s.finishCommand vd c 6 0
    | some (n, x) => s.finishCommand vd c 0 (s.queryInfo n x)

/-! ## The ring (R79, R80) -/

/-- A command notification on a queue pair (R80): the new tail. -/
def State.ringTail (s : State) (n : Nat) (imm : BitVec 32) : State :=
  if !s.pairWorks n then s
  else
    let vd := n % 16
    let v := s.vds.get vd VDev.reset
    let v := if 2 ^ v.log2n < (imm - v.head).toNat then v.err else { v with tail := imm }
    { s with vds := s.vds.set vd v }

/-- A SEND on a queue pair to a ring (R80): whole entries written at the tail. A rejected one writes nothing and is
answered with a remote-invalid-request NAK; so is one of more than 64 entries (DESIGN CHOICE, log entry 81). -/
def State.ringSend (s : State) (pair : Nat) (payload : List Byte) : State :=
  if !s.pairWorks pair then s
  else
    let vd := pair % 16
    let v := s.vds.get vd VDev.reset
    let n := payload.length / 64
    if payload.length % 64 ≠ 0 ∨ n = 0 ∨ 64 < n ∨ 2 ^ v.log2n < (v.tail - v.head).toNat + n then
      ({ s with vds := s.vds.set vd v.err } : State).rdmaOut vd (.nak .invalidRequest)
    else
      let put (s : State) (i : Nat) : State :=
        let a := v.ring + 64 * ((v.tail.toNat + i) % 2 ^ v.log2n)
        (s.writeCells (cellsFrom a ((payload.drop (64 * i)).take 64))).2
      let s := (List.range n).foldl put s
      { s with vds := s.vds.set vd { v with tail := v.tail + BitVec.ofNat 32 n } }

/-- DRAWER_FAILURE (R79): the bureau resets the drawer, and its virtual device's ring stops. -/
def execDrawerFailure (n : Nat) (s : State) : Out State :=
  if 16 ≤ n then .next s
  else
    let s : State := { s with cores := s.cores.drop (.skoum (n + 1)), drawers := s.drawers.drop n }
    if s.vds.has n then .next { s with vds := s.vds.set n { s.vds.get n VDev.reset with failed := true, load := none } } else .next s

end Sys2Proof.Machine
end

