-- ==== Sys2Proof/Machine/Fiold.lean ====
section
/-!
DEFINITION. Links to the outside: Fiold frames and packets (R439 to R442), the host's RDMA accesses, congestion and
flow control (R443, R444), and the management channel (R376, R379, R442, R443).
-/

namespace Sys2Proof.Machine

/-! ## Fiold ports (R439 to R441) -/

/-- A Fiold port. -/
def State.fioldAt (s : State) (i : Nat) : FioldPort := s.fiold.get i FioldPort.reset

/-- The frames up to one that the other end has received are kept no longer. -/
def FioldPort.acked (p : FioldPort) (ack : BitVec 16) : FioldPort :=
  match p.kept.findIdx? (· = ack) with
  | some i => { p with kept := p.kept.drop (i + 1), replays := 0 }.refill
  | none => p

/-- The next live plane after one, upward and wrapping at 32. -/
def State.planeAfter (s : State) (i : Nat) : Option Nat :=
  ((List.range 31).map fun j => (i + 1 + j) % 32).find? fun j => (s.fioldAt j).up

/-- Take a link down: what its port holds unacknowledged goes to the next live plane, ahead of later traffic. -/
def State.linkDown (s : State) (i : Nat) : State :=
  let p := s.fioldAt i
  let s := s.modFiold i fun p => { p with up := false, kept := [], queued := 0, replays := 0 }
  match s.planeAfter i with
  | some j => s.modFiold j fun q => { q with queued := p.kept.length + p.queued + q.queued }.refill
  | none => s

/-- Replay the unacknowledged frames; the sixteenth replay in a row without progress takes the link down. -/
def State.replayFrames (s : State) (i : Nat) : State :=
  let p := s.fioldAt i
  if p.kept.isEmpty then s
  else if 15 ≤ p.replays then s.linkDown i
  else s.modFiold i fun p => { p with replays := p.replays + 1 }

/-- FIOLD_FRAME (R440): a frame is accepted in SEQ order with a right CRC; its ACK frees kept frames, and a NAK makes
the port replay. -/
def execFioldFrame (port : Nat) (f : FioldFrame) (s : State) : Out State :=
  let p := s.fioldAt port
  if 32 ≤ port ∨ !p.up ∨ s.pkg.bootFail then .next s
  else if !f.crcOk then .next (s.modFiold port fun p => { p with nak := true })
  else if f.seq ≠ p.ack + 1 then .next s
  else
    let s := s.modFiold port fun p => { p with ack := f.seq, nak := false }.acked f.ack
    .next (if f.nak then s.replayFrames port else s)

/-- FIOLD_REPLAY (R440). -/
def execFioldReplay (port : Nat) (s : State) : Out State :=
  if port < 32 ∧ (s.fioldAt port).up then .next (s.replayFrames port) else .next s

/-- FIOLD_HEARTBEAT (R440): an idle link sends a frame without flits. -/
def execFioldHeartbeat (port : Nat) (s : State) : Out State :=
  let p := s.fioldAt port
  if port < 32 ∧ p.up ∧ !s.pkg.bootFail ∧ p.queued = 0 ∧ p.kept.length < 64 then
    .next (s.modFiold port fun p => { p with queued := 1, heartbeats := p.heartbeats + 1 }.refill)
  else .next s

/-- FIOLD_LINK_DOWN (R440). -/
def execFioldLinkDown (port : Nat) (s : State) : Out State :=
  if port < 32 ∧ (s.fioldAt port).up then .next (s.linkDown port) else .next s

/-- How many packages of the job domains of this package's devices there are besides it. -/
def State.peers (s : State) : Nat := s.vds.foldl (fun n v => Nat.max n (v.2.domain - 1)) 0

/-- END_TO_END_HEARTBEAT (R440): one frame to every package of the domain on every live plane. -/
def execEndToEndHeartbeat (s : State) : Out State :=
  let n := s.peers
  let beat (s : State) (i : Nat) : State :=
    if (s.fioldAt i).up ∧ n ≠ 0 then
      s.modFiold i fun p => { p with queued := p.queued + n, heartbeats := p.heartbeats + n }.refill
    else s
  .next ((List.range 32).foldl beat s)

/-- PEER_LOST (R440): the bureau learns that no plane reaches a package. -/
def execPeerLost (pkg : Nat) (s : State) : Out State :=
  if s.pkg.lostPeers.contains pkg then .next s
  else .next { s with pkg := { s.pkg with lostPeers := s.pkg.lostPeers ++ [pkg] } }

/-! ## Fiold packets (R434, R435, R441, R442) -/

/-- The partition where a context of a job is resident. -/
def State.jobPart (s : State) (job : BitVec 16) : Option (Nat × Part) :=
  s.parts.find? fun x => x.2.ctx.isSome && decide (x.2.job = job)

/-- A context of a job that is out. -/
def State.jobImage (s : State) (job : BitVec 16) : Option (Nat × Image) :=
  s.ctxs.findSome? fun x =>
    match x.2.image with
    | some i => if i.place.job = job ∧ (s.runs x.1).isNone then some (x.1, i) else none
    | none => none

/-- A packet whose job the package does not hold is dropped and counted. -/
def State.dropPacket (s : State) : State := s.modDie 0 fun d => { d with tviol := sat32 (d.tviol.toNat + 1) }

/-- The core of a partition at the coordinates of a source or destination word. -/
def Part.coreOf (p : Part) (w : BitVec 20) : Option CoreId :=
  p.coreAt (w.extractLsb' 16 2).toNat (w.extractLsb' 8 8).toNat (w.extractLsb' 0 8).toNat

/-- A message from another package as it enters the network here, after a stay in the switch and the receiving port
(R426). -/
def arrivedMsg (part : Nat) (dst : CoreId) (spkg : BitVec 9) (vn : VNet) (routing : Word) (tag : BitVec 128)
    (acct : Word) (grp : BitVec 32) (payload : List Byte) (stay : Nat) : Msg :=
  { dst := dst, cls := routing.extractLsb' 18 6, grp := grp, part := BitVec.ofNat 6 part, tag := Tag.ofBits tag,
    data := payload, src := acct.extractLsb' 0 20, seq := acct.extractLsb' 20 8, work := acct.extractLsb' 52 12,
    age := Nat.min ((acct.extractLsb' 28 24).toNat + stay) (2 ^ 24 - 1), vn := vn,
    key := ⟨(Tag.ofBits tag).span.toNat, (acct.extractLsb' 0 20) ++ 0#12, 0⟩, kind := .plain, rest := [],
    pkg := some spkg, after := [], held := 0, heldDet := 0, qwait := 0, came := 0, rect := none }

/-- Deliver a message to its job's context: into the network, or into the arrival list of a context at a stop. Its
residence in the switch and the port is a free value. -/
def State.packetMessage (s : State) (job : BitVec 16) (spkg : BitVec 9) (vn : VNet) (routing : Word) (tag : BitVec 128)
    (acct : Word) (grp : BitVec 32) (payload : List Byte) : State :=
  let at_ (p : Part) : Option CoreId := p.coreOf ((routing.extractLsb' 0 18).setWidth 20)
  let stay := (Config.freeResidence s.frees).toNat
  let s : State := { s with frees := s.frees + 1 }
  let msg (id : Nat) (c : CoreId) : Msg := arrivedMsg id c spkg vn routing tag acct grp payload stay
  match s.jobPart job with
  | some (id, p) =>
    match at_ p with
    | some c =>
      if p.quiet then
        let (n, s) := s.fresh
        s.modPart id fun p => { p with arrivals := p.arrivals ++ [{ msg id c with came := n }] }
      else { s with net := s.net ++ [⟨msg id c, c, 0, false⟩] }
    | none => s.dropPacket
  | none =>
    match s.jobImage job with
    | some (ctx, i) =>
      match at_ i.place with
      | some c =>
        let (n, s) := s.fresh
        (s.modCtx ctx fun x => { x with image := x.image.map fun i =>
          { i with arrivals := i.arrivals ++ [{ msg (s.ctxs.get ctx Ctx.reset).part c with came := n }] } }).writeImage ctx
      | none => s.dropPacket
    | none =>
      let value : Word := 0#24 ++ acct.extractLsb' 20 8 ++ 0#8 ++ routing.extractLsb' 0 24
      s.dropPacket.replyAcross job 0 spkg (acct.extractLsb' 0 20) cTenant value (acct.extractLsb' 52 12) grp

/-- Write cells of an access from outside at a home through a leaf: the update that a replicated page takes, whose
replicas it waits for, or nothing. A discarded write is counted by the home's die (R350). -/
def State.outsidePut (s : State) (home : Nat) (pte : Option TlbEntry) (cells : List (Nat × Byte)) : (Bool × List Nat) × State :=
  if pte.any TlbEntry.repl then
    match pte with
    | some e => let (id, s) := s.fresh; ((true, [id]), s.arriveUpdate ⟨id, e, none, false, false, cells⟩)
    | none => ((true, []), s)
  else
    match s.writeCells cells with
    | (true, s) => ((true, []), s)
    | (false, s) => ((false, []), s.countDie (dieOfHome home) 0x26 1)

/-- Perform the pieces of a unit from another package: whether none was discarded, and the updates that it waits for. -/
def State.unitPut (s : State) (c : CoreId) : List CpWrite → (Bool × List Nat) × State
  | [] => ((true, []), s)
  | w :: r =>
    let (x, s) := (s.claimHome c w.home).outsidePut w.home w.pte (cellsFrom w.home w.bytes)
    let (y, s) := s.unitPut c r
    ((x.1 && y.1, x.2 ++ y.2), s)

/-- What follows waits for updates of replicated pages, if there are any. -/
def State.settling (s : State) (vd : Option Nat) (ids : List Nat) (ack : Option (BitVec 9 × FioldPacket)) : State :=
  { s with pkg := { s.pkg with arrivals := s.pkg.arrivals ++ [.settle vd ids ack] } }

/-- Answer a packet, over a live plane. -/
def State.answerAcross (s : State) (spkg : BitVec 9) (q : FioldPacket) : State :=
  match s.planeFor 0 spkg.toNat with
  | some plane => s.toFiold plane spkg.toNat q
  | none => s

/-- A unit from another package: its write performs with its pusher's privilege, and it is acknowledged, by every replica of
a replicated page. Answers whether it was taken: one for a context that is out or stopped, and one that meets a walk, a
cluster asleep or a moving page, waits. -/
def State.packetUnit (s : State) (job : BitVec 16) (spkg : BitVec 9) (cmd : BitVec 16) (idx : BitVec 32) (va : Word)
    (src : BitVec 20) (data : List Byte) (priv : BitVec 2) : Bool × State :=
  match s.jobPart job with
  | none =>
    if (s.jobImage job).isSome then (false, s) else (true, s.dropPacket.replyAcross job 0 spkg src cTenant 0 0 0)
  | some (_, p) =>
    match p.cores with
    | [] => (true, s)
    | c :: _ =>
      let ack (s : State) (st : Nat) : State :=
        s.answerAcross spkg (.ack job (BitVec.ofNat 9 p.index) cmd idx src (BitVec.ofNat 8 st))
      if p.quiet then (false, s)
      else if !remoteRangeOk va.toNat data.length then (true, ack s 8)
      else
        match s.cpTargets c priv (cutBytes va.toNat data) with
        | (.error (some (st, _)), s) => (true, ack s st)
        | (.error none, s) => (false, s)
        | (.ok ws, t) =>
          if ws.any fun w => (match w.pte with
              | some e => t.moving e
              | none => false) then (false, s)
          else
            let (x, t) := t.unitPut c ws
            let st := if x.1 then 0 else 6
            (true, if x.2.isEmpty then ack t st
              else t.settling none x.2 (some (spkg, .ack job (BitVec.ofNat 9 p.index) cmd idx src (BitVec.ofNat 8 st))))

/-- A read request from another package, answered with the bytes or a status; it waits as a unit does. -/
def State.packetRead (s : State) (job : BitVec 16) (spkg : BitVec 9) (cmd : BitVec 16) (idx : BitVec 32) (va : Word)
    (n : Nat) (src : BitVec 20) (priv : BitVec 2) : Bool × State :=
  match s.jobPart job with
  | none =>
    if (s.jobImage job).isSome then (false, s) else (true, s.dropPacket.replyAcross job 0 spkg src cTenant 0 0 0)
  | some (_, p) =>
    match p.cores with
    | [] => (true, s)
    | c :: _ =>
      let answer (s : State) (st : Nat) (bs : List Byte) : State :=
        s.answerAcross spkg (.response job (BitVec.ofNat 9 p.index) cmd idx src (BitVec.ofNat 8 st) bs)
      if p.quiet then (false, s)
      else if !remoteRangeOk va.toNat n then (true, answer s 7 [])
      else
        match s.cpLines c priv (piecesOf va.toNat n) with
        | (.error (some (st, _)), s) => (true, answer s st [])
        | (.error none, s) => (false, s)
        | (.ok ls, s) =>
          let s := ls.foldl (fun (s : State) l => (s.claimHome c l.home).cpCount c l.pte) s
          if ls.any fun l => s.badIn l.readAt l.n then (true, answer (s.count c none 0x26 1) 6 [])
          else
            (true, answer (ls.foldl (fun (s : State) l => s.correct c l.readAt l.n) s) 0
              (ls.flatMap fun l => s.mem.bytes l.readAt l.n))

/-- The core and the running command that an answer from another package belongs to. -/
def State.answered (s : State) (job : BitVec 16) (cmd : BitVec 16) (idx : BitVec 32) (dst : BitVec 20) :
    Option (CoreId × Run) :=
  match s.jobPart job with
  | none => none
  | some (_, p) =>
    match p.coreOf dst with
    | none => none
    | some c =>
      match (s.core c).running .cp unitCodes with
      | some r =>
        if BitVec.ofNat 16 r.cmd.pushNo = cmd ∧ r.inst.any (fun k => decide (BitVec.ofNat 32 k = idx)) then some (c, r)
        else none
      | none => none

/-- An answer for no command here: without a context of its job it is dropped as any packet is, with TENANT to the core
whose coordinates it carries (R442). -/
def State.unclaimed (s : State) (job : BitVec 16) (spkg : BitVec 9) (core : BitVec 20) : State :=
  if (s.jobPart job).isNone ∧ (s.jobImage job).isNone then s.dropPacket.replyAcross job 0 spkg core cTenant 0 0 0 else s

/-- An acknowledgement ends the unit that waits for it, or faults the command. -/
def State.packetAck (s : State) (job : BitVec 16) (cmd : BitVec 16) (idx : BitVec 32) (dst : BitVec 20)
    (spkg : BitVec 9) (st : BitVec 8) : State :=
  match s.answered job cmd idx dst with
  | none => s.unclaimed job spkg dst
  | some (c, r) =>
    let (total, off, _, d) := s.cpWhere c r
    if st = 0 then
      s.modRun c .cp unitCodes fun r =>
        let r := { r with step := r.step + 1, inst := none }
        if r.step < total then r else r.cpDone
    else s.cpFault c unitCodes off st.toNat d

/-- A response gives the unit that waits for it its bytes, or faults the command; a COPY that reads its source before it
writes keeps what it has been given. -/
def State.packetResponse (s : State) (job : BitVec 16) (cmd : BitVec 16) (idx : BitVec 32) (dst : BitVec 20)
    (spkg : BitVec 9) (st : BitVec 8) (data : List Byte) : State :=
  match s.answered job cmd idx dst with
  | none => s.unclaimed job spkg dst
  | some (c, r) =>
    let (_, off, src, _) := s.cpWhere c r
    let k := r.inst.getD 0
    if r.snaps then
      if st = 0 then s.modRun c .cp unitCodes fun r =>
        { r with inst := none, lost := 0, reads := r.reads.take k ++ (0, src, some data) :: r.reads.drop (k + 1) }
      else if k = r.reads.length then s.modRun c .cp unitCodes fun r =>
        { r with inst := none, lost := 0, reads := r.reads ++ [(0, src, some [])] }
      else s.cpFault c unitCodes off st.toNat src
    else if st = 0 then s.modRun c .cp unitCodes fun r => { r with inst := none, lost := 1, bytes := data }
    else s.cpFault c unitCodes off st.toNat src

/-- A reply to a send across packages goes to the seat that sent; it waits while its job's context is out. -/
def State.packetReply (s : State) (job : BitVec 16) (dst : BitVec 20) (cause : BitVec 6) (value : Word) (work : BitVec 12)
    (grp : BitVec 32) : Bool × State :=
  match s.jobPart job with
  | none => if (s.jobImage job).isSome then (false, s) else (true, s.dropPacket)
  | some (_, p) =>
    match p.coreOf dst with
    | some c => (true, { s with replies := s.replies ++ [⟨⟨c, (dst.extractLsb' 18 2).toFin⟩, cause, value, work, grp⟩] })
    | none => (true, s)

/-- A packet from another package (R442), and whether it was taken. -/
def State.packetIn (s : State) (p : FioldPacket) : Bool × State :=
  match p with
  | .message job spkg vn routing tag acct grp payload => (true, s.packetMessage job spkg vn routing tag acct grp payload)
  | .unit job spkg cmd idx va src data priv => s.packetUnit job spkg cmd idx va src data priv
  | .ack job spkg cmd idx dst st => (true, s.packetAck job cmd idx dst spkg st)
  | .read job spkg cmd idx va n src priv => s.packetRead job spkg cmd idx va n src priv
  | .response job spkg cmd idx dst st data => (true, s.packetResponse job cmd idx dst spkg st data)
  | .reply job _ dst cause value work grp => s.packetReply job dst cause value work grp

/-! ## RDMA accesses of a host (R443, R444) -/

/-- The partitions on which contexts of a virtual device are resident. -/
def State.residentsOf (s : State) (vd : Nat) : List Part :=
  (s.parts.filter fun x => match x.2.ctx with
    | some c => decide ((s.ctxs.get c Ctx.reset).vd = vd)
    | none => false).map (·.2)

/-- Whether a virtual device has a context loaded. -/
def State.loadedFor (s : State) (vd : Nat) : Bool := s.ctxs.any fun x => decide (x.2.vd = vd)

/-- Whether a context of a virtual device is out. -/
def State.someOut (s : State) (vd : Nat) : Bool := s.ctxs.any fun x => decide (x.2.vd = vd) && (s.runs x.1).isNone

/-- Where a window's address leads on a partition. -/
def State.windowAt (s : State) (p : Part) (a : Word) : Option Nat :=
  match p.cores with
  | c :: _ =>
    match s.spot c none a with
    | .mem h => some h
    | _ => none
  | [] => none

/-- Where a window's address leads on the partitions where contexts of a virtual device are resident. -/
def State.windowOf (s : State) (vd : Nat) (a : Word) : Option Nat :=
  if a.toNat < 0x100000 then none else (s.residentsOf vd).findSome? fun p => s.windowAt p a

/-- Whether an access of a host to a window waits for a context, which is out. -/
def State.hostWaits (s : State) (vd : Nat) (va : Word) : Bool :=
  s.someOut vd && (s.windowOf vd va).isNone && decide (0x100000 ≤ va.toNat ∧ va.toNat < 0x100000000000)

/-- Where an access of a host to a piece inside a line goes: a home with its leaf, if it is permitted. A write reaches the
device's paged memory whether or not a context is loaded, a read only while one is (R444). -/
def State.hostReach (s : State) (vd : Nat) (v : VDev) (a : Word) (w : Access) : Option (Nat × Option TlbEntry) :=
  if 0x100000000000 ≤ a.toNat ∧ a.toNat < 2 ^ 48 then
    if w = .load ∧ !s.loadedFor vd then none
    else match s.walk (v.root ||| 1) a with
    | .ok (pte, bits) =>
      let e : TlbEntry := ⟨none, v.root ||| 1, pageBase a bits, bits, pte⟩
      if permits pte 0 w then some (e.pa a, some e) else none
    | .error _ => none
  else (s.windowOf vd a).map fun h => (h, none)

/-- A host's access claims its frame for the context of its device that is resident there. -/
def State.claimFor (s : State) (vd h : Nat) : State :=
  match (s.residentsOf vd).find? fun p => (frameOf h).any p.holdsFrame with
  | some p =>
    match p.cores with
    | c :: _ => s.claimHome c h
    | [] => s
  | none => s

/-- Where every piece of a host's access goes, or none if one is refused. -/
def State.hostPieces (s : State) (vd : Nat) (v : VDev) (va : Word) (n : Nat) (w : Access) :
    Option (List ((Nat × Nat) × Nat × Option TlbEntry)) :=
  if !v.covers va n then none
  else (piecesOf va.toNat n).mapM fun p => (s.hostReach vd v (BitVec.ofNat 64 p.1) w).map fun r => (p, r)

/-- A remote-access-error NAK on a queue pair, which is then in error. -/
def State.nak (s : State) (n : Nat) : State :=
  ({ s with vds := s.vds.set (n % 16) ((s.vds.get (n % 16) VDev.reset).failPair (n / 16)) } : State).rdmaOut (n % 16)
    (.nak .accessError)

/-- Whether a piece of a host's write lies in a page that is moving (R348). -/
def State.pieceMoving (s : State) (p : (Nat × Nat) × Nat × Option TlbEntry) : Bool :=
  match p.2.2 with
  | some e => s.moving e
  | none => false

/-- An RDMA write of the host on a queue pair (R444), and whether it was taken: one that meets a cluster asleep or a moving
page waits, and so does one to a window of a context that is out. What follows on the queue pair waits until every replica of
a page has it (R366). -/
def State.hostWrite (s : State) (n : Nat) (key : BitVec 32) (va : Word) (data : List Byte) : Bool × State :=
  let vd := n % 16
  let v := s.vds.get vd VDev.reset
  if !s.pairWorks n then (true, s)
  else if v.pairKey (n / 16) = key ∧ v.covers va data.length ∧ s.hostWaits vd va then (false, s)
  else
    match s.hostPieces vd v va data.length .store with
    | none => (true, s.nak n)
    | some ps =>
      if key ≠ v.pairKey (n / 16) then (true, s.nak n)
      else if ps.any fun p => !s.homeUp p.2.1 then (false, ps.foldl (fun (s : State) p => s.callHome p.2.1) s)
      else if ps.any s.pieceMoving then (false, s)
      else
        let put (x : List Nat × State) (p : (Nat × Nat) × Nat × Option TlbEntry) : List Nat × State :=
          let y := (x.2.claimFor vd p.2.1).outsidePut p.2.1 p.2.2
            (cellsFrom p.2.1 ((data.drop (p.1.1 - va.toNat)).take p.1.2))
          (x.1 ++ y.1.2, y.2)
        let (ids, s) := ps.foldl put ([], s)
        (true, if ids.isEmpty then s else s.settling (some n) ids none)

/-- An RDMA read of the host on a queue pair (R444), and whether it was taken: the response holds the bytes as they are. -/
def State.hostRead (s : State) (n : Nat) (key : BitVec 32) (va : Word) (len : Nat) : Bool × State :=
  let vd := n % 16
  let v := s.vds.get vd VDev.reset
  if !s.pairWorks n then (true, s)
  else if v.pairKey (n / 16) = key ∧ v.covers va len ∧ s.hostWaits vd va then (false, s)
  else
    match s.hostPieces vd v va len .load with
    | none => (true, s.nak n)
    | some ps =>
      if key ≠ v.pairKey (n / 16) then (true, s.nak n)
      else if ps.any fun p => !s.homeUp p.2.1 then (false, ps.foldl (fun (s : State) p => s.callHome p.2.1) s)
      else
        let s := ps.foldl (fun (s : State) p => s.claimFor vd p.2.1) s
        match ps.find? fun p => s.badIn p.2.1 p.1.2 with
        | some p => (true, (s.countDie (dieOfHome p.2.1) 0x26 1).nak n)
        | none =>
          let bs := ps.flatMap fun p => s.mem.bytes p.2.1 p.1.2
          let s := ps.foldl (fun (s : State) p => s.correctDie p.2.1 p.1.2) s
          (true, s.rdmaOut vd (.response bs))

/-! ## Arrivals (R378) -/

/-- An arrival that reaches a package awake, and whether it was taken. -/
def State.arriveNow (s : State) : Arriving → Bool × State
  | .packet p => s.packetIn p
  | .write vd key va data => s.hostWrite vd key va data
  | .read vd key va n => s.hostRead vd key va n
  | .notify vd imm => (true, s.ringTail vd imm)
  | .send vd payload => (true, s.ringSend vd payload)
  | .settle _ ids ack =>
    if ids.any s.pending then (false, s)
    else (true, match ack with
      | some a => s.answerAcross a.1 a.2
      | none => s)

/-- The queue pair that a request came on. -/
def Arriving.vd : Arriving → Option Nat
  | .packet _ => none
  | .settle vd _ _ => vd
  | .write vd .. | .read vd .. | .notify vd _ | .send vd _ => some vd

/-- The arrivals that wait are tried in order; one that cannot be taken yet stays, and with it what follows it on its queue
pair (R80, R366). -/
def State.tryArrivals (s : State) : State :=
  let wait (s : State) (a : Arriving) : State := { s with pkg := { s.pkg with arrivals := s.pkg.arrivals ++ [a] } }
  let take (s : State) (a : Arriving) : State :=
    if a.vd.isSome ∧ s.pkg.arrivals.any fun b => b.vd = a.vd then wait s a
    else
      match s.arriveNow a with
      | (true, s) => s
      | (false, s) => wait s a
  s.pkg.arrivals.foldl take { s with pkg := { s.pkg with arrivals := [] } }

/-- An arrival: it is held while the package sleeps, and else takes its turn after those that wait. -/
def State.arrive (s : State) (a : Arriving) : State :=
  let s : State := { s with pkg := { s.pkg with arrivals := s.pkg.arrivals ++ [a] } }
  if s.pkg.asleep then s else s.tryArrivals

/-- FIOLD_PACKET (R442); a package whose boot has halted takes none (R385). -/
def execFioldPacket (p : FioldPacket) (s : State) : Out State :=
  .next (if s.pkg.bootFail then s else s.arrive (.packet p))

/-- RDMA_WRITE (R444). -/
def execRdmaWrite (vd : Nat) (key : BitVec 32) (va : Word) (data : List Byte) (s : State) : Out State :=
  .next (s.arrive (.write vd key va data))

/-- RDMA_READ (R444). -/
def execRdmaRead (vd : Nat) (key : BitVec 32) (va : Word) (n : Nat) (s : State) : Out State :=
  .next (s.arrive (.read vd key va n))

/-- RDMA_WRITE_WITH_IMMEDIATE (R80). -/
def execRdmaWriteWithImmediate (vd : Nat) (imm : BitVec 32) (s : State) : Out State := .next (s.arrive (.notify vd imm))

/-- RDMA_SEND (R80). -/
def execRdmaSend (vd : Nat) (payload : List Byte) (s : State) : Out State := .next (s.arrive (.send vd payload))

/-- CONGESTION_NOTIFICATION (R444): an ECN-marked packet is answered with a notification packet, and a notification
lowers the port's send rate to a value that the spec does not give (log entry 3). -/
def execCongestionNotification (port : Nat) (ecn : Bool) (s : State) : Out State :=
  if 2 ≤ port ∨ s.pkg.bootFail ∨ s.pkg.ethDown.contains port then .next s
  else if ecn then .next { s with pkg := { s.pkg with cnps := s.pkg.cnps.set port (s.pkg.cnps.get port 0 + 1) } }
  else
    .next { s with
      pkg := { s.pkg with sendRate := s.pkg.sendRate.set port (Config.freeRate s.frees) }, frees := s.frees + 1 }

/-- PRIORITY_FLOW_CONTROL (R443): priorities 3 and 7 pause and resume. What the devices of a port hold back leaves it in
order when its priority resumes. -/
def execPriorityFlowControl (port : Nat) (prio : BitVec 3) (pause : Bool) (s : State) : Out State :=
  if 2 ≤ port ∨ s.pkg.bootFail ∨ s.pkg.ethDown.contains port ∨ (prio ≠ 3 ∧ prio ≠ 7) then .next s
  else
    let others := s.pkg.paused.filter fun x => x ≠ (port, prio)
    let s : State := { s with pkg := { s.pkg with paused := if pause then others ++ [(port, prio)] else others } }
    .next (if !pause ∧ prio = 3 then s.resumeRdma port else s)

/-! ## The management channel (R376, R379, R442, R443) -/

/-- Change a virtual device. -/
def State.modVd (s : State) (vd : Nat) (f : VDev → VDev) : State :=
  { s with vds := s.vds.set vd (f (s.vds.get vd VDev.reset)) }

/-- MANAGEMENT_FRAME (R443): the Skoum complex sets up a virtual device's ring and keys, its job and its tolerance, or
is asked for a re-plan. -/
def execManagementFrame (m : Mgmt) (s : State) : Out State :=
  if s.pkg.bootFail then .next s
  else
  match m with
  | .device vd ring log2n root compl key windows =>
    if 16 ≤ vd ∨ log2n < 6 ∨ 16 < log2n ∨ ring % 4096 ≠ 0 then .next s
    else
      .next (s.modVd vd fun v =>
        { v with
          ring := ring, log2n := log2n, root := root, compl := compl, key := key, windows := windows, head := 0
          tail := 0, failed := false, qpError := false, load := none })
  | .queuePair n key =>
    if n < 16 ∨ !s.vds.has (n % 16) then .next s
    else .next (s.modVd (n % 16) fun v => { v with pairs := v.pairs.set (n / 16) (key, false) })
  | .job vd job index size =>
    if 16 ≤ vd ∨ size = 0 ∨ 288 < size ∨ size ≤ index then .next s
    else .next (s.modVd vd fun v => { v with job := job, index := index, domain := size })
  | .tolerance vd ns =>
    if 16 ≤ vd then .next s
    else
      let s := s.modVd vd fun v => { v with tol := ns }
      let mine := (s.parts.filter fun x => x.2.ctx.any fun c => decide ((s.ctxs.get c Ctx.reset).vd = vd)).map (·.1)
      .next { s with pkg := { s.pkg with lattol := mine.foldl (fun (t : Tab Nat (BitVec 32)) i => t.set i ns) s.pkg.lattol } }
  | .replan => .next { s with pkg := { s.pkg with replanAsked := true } }

end Sys2Proof.Machine
end

