-- ==== Sys2Proof/Machine/Upset.lean ====
section
/-!
DEFINITION. What reaches the machine from outside without a row of its own: an upset of a memory granule (R350),
and a program put where the next step fetches it (log entry 11).
-/

namespace Sys2Proof.Machine

/-- Whether a load or an operation of an instruction that has completed is on its way to a granule (log entry 67). -/
def State.awaited (s : State) (g : Nat) : Bool :=
  s.links.any fun l => l.2.any fun p =>
    match p.kind with
    | .request .load _ addrs => addrs.any fun a => decide (granuleOf a = g)
    | .request (.amo _ _ _ _) _ _ => decide (granuleOf p.base = g)
    | .request _ _ _ => true
    | _ => false

/-- A granule takes an error, correctable or not (R350). -/
def State.upset (s : State) (g : Nat) (correctable : Bool) : State :=
  let g := granuleOf g
  if s.bad.contains g || (!correctable && s.awaited g) then s
  else if correctable then (if s.weak.contains g then s else { s with weak := g :: s.weak })
  else { s with bad := g :: s.bad, weak := s.weak.filter fun x => x ≠ g }

/-- Where a placed program lies: the first page of the paged window. -/
def codeVa : Word := 0x100000000000

/-- The frame of that page. -/
def codePa : Nat := 0x10000

/-- The root of its tables, as cr.ptb holds it, enabled. -/
def codeRoot : Word := 0x1001

/-- The leaf that maps it: readable, writable, executable and a user's (R341). -/
def codeLeaf : Word := 0x1003F

/-- The tables that lead to it, each entry with its place (R340, R341). -/
def codeTables : List (Nat × Word) :=
  [(0x1000 + 8 * 32, 0x200001), (0x2000, 0x300001), (0x3000, 0x400001), (0x4000, codeLeaf)]

/-- The partition that runs it: one cluster of die 0. -/
def codePart : Part where
  dies := [0]
  row := 0
  col := 0
  rows := 4
  cols := 4
  whole := false
  levels := []
  sramMb := 0
  sram := []
  det := false
  horizon := 0
  top := 0
  ctx := none
  job := 0
  index := 0
  domain := 1
  consumed := 0
  sliceRef := 0
  idle := false
  stop := false
  quiet := false
  stopRefs := []
  arrivals := []
  next := none

/-- The seat that runs it: a task at user privilege with the full energy credit. -/
def codeSeat (t : Seat) : Seat :=
  { t with
    pc := codeVa, credit := 0x4000, priv := 0, inTrap := false, hold := none, vprog := none, outs := [],
    handed := none, replaying := none, pend := Pending.none, modePend := none, gateLoad := [], gateStore := [],
    work := some ⟨.task, 0, [], none, 0, none, 0, 0⟩ }

/-- Place the bytes of an instruction where the next step fetches, with all that running it takes; the routers of the
partition serve it (R427). -/
def State.placeProgram (s : State) (code : List Byte) : State :=
  let c : CoreId := .grid 0 0 0
  let k := s.core c
  let seats := (k.seats.map fun t => { t with work := none }).set 0 (codeSeat k.seats[(0 : Fin 4)])
  let k : Core :=
    { k with
      seats := seats, lastSeat := 3, modes := Vector.replicate 4 0, pid := 0, ptb := codeRoot, cwlo := codeVa,
      cwhi := codeVa + 0x10000, utlb := [⟨none, codeRoot, codeVa, 16, codeLeaf⟩], bench := none, benchLead := none,
      sb := [], rq := [], icache := [], loopBuf := [] }
  let mem := codeTables.foldl (fun (m : Memory) e => m.writeAll (cellsFrom e.1 (natLe 8 e.2.toNat))) s.mem
  let routers (t : Tab CoreId Core) (x : CoreId) : Tab CoreId Core :=
    let k := t.get x (s.core x)
    t.set x { k with memb := k.memb ||| 1 }
  { s with
    banks := [], cores := codePart.cores.foldl routers (s.cores.set c k), parts := s.parts.set 0 codePart,
    mem := mem.writeAll (cellsFrom codePa code),
    bad := s.bad.filter fun g => g ≠ codePa, weak := s.weak.filter fun g => g ≠ codePa,
    clusters := s.clusters.set ⟨0, 0, 0⟩ { s.cluster ⟨0, 0, 0⟩ with power := .run }, agenda := [], cur := ⟨c, 0⟩ }

end Sys2Proof.Machine
end

