-- ==== Sys2Proof/Machine/Regions.lean ====
section
/-!
DEFINITION. Clock regions, power states, ageing and boot (R62, R279, R329 to R331, R368 to R386).
-/

namespace Sys2Proof.Machine

/-! ## Frequency steps (R62, R331, R370, R371, R386) -/

/-- The clusters of a region, by logical place. -/
def State.clustersOf (s : State) (r : RegionId) : List ClusterId :=
  if 400 ≤ r then []
  else ((List.range 40).flatMap fun i => (List.range 40).map fun j => (⟨r / 100, i, j⟩ : ClusterId)).filter fun k =>
    regionOfCluster s.pkg.retired k = r

/-- The die of a region. -/
def dieOfRegion (r : RegionId) : Nat := if 400 ≤ r then 0 else r / 100

/-- Count an event in every core of a region, and in the clusters and the die that sum them (R373). -/
def State.countRegion (s : State) (r : RegionId) (code k : Nat) : State :=
  let mine (c : CoreId) : Bool := decide (s.regionOf c = r)
  let cores := s.cores.map fun e =>
    if mine e.1 then (e.1, { e.2 with ev := addCounts e.2.ev e.2.evsel code none k }) else e
  let clusters := s.clusters.map fun e =>
    if regionOfCluster s.pkg.retired e.1 = r then
      (e.1, { e.2 with cxev := addCounts e.2.cxev e.2.cxsel code none (16 * k) })
    else e
  let n := if 400 ≤ r then 17 else 16 * (s.clustersOf r).length
  ({ s with cores := cores, clusters := clusters } : State).countDie (dieOfRegion r) code (n * k)

/-- A seat at a region's stop: its open interval splits, and the stop is charged unless it is blocked, asleep or
without live work (R62). -/
def Seat.atRegionStop (t : Seat) (rate : BitVec 32) (chg : Nat) : Seat :=
  match t.hold with
  | none => if t.work.isSome then { t with tag := t.tag.charge 7 chg } else t
  | some h =>
    let tag := if 1 ≤ h.kind ∧ h.kind ≤ 9 then t.tag.charge h.kind (toRef h.cycles rate) else t.tag
    let tag := if t.work.isSome ∧ !h.blocked ∧ !h.asleep then tag.charge 7 chg else tag
    { t with hold := some { h with cycles := 0 }, tag := tag }

/-- A core at a region's stop; `charged` tells whether its partition runs. -/
def Core.atRegionStop (k : Core) (rate : BitVec 32) (chg : Nat) (charged : Bool) : Core :=
  let chg := if charged then chg else 0
  let k := k.closeWaits rate
  let cmds (q : EngineQ) : EngineQ := { q with queue := q.queue.map fun x => { x with tag := x.tag.charge 7 chg } }
  let k : Core := { k with seats := k.seats.map fun t => t.atRegionStop rate chg }
  ((k.modQ .mx cmds).modQ .cp cmds).modQ .sn cmds

/-- cr.rate for a frequency in MHz (R371). -/
def rateFor (freq : BitVec 11) : BitVec 32 := BitVec.ofNat 32 (roundDiv (850 * 2 ^ 24) freq.toNat)

/-- A region stops and restarts at a rate (R331). Where a partition is stopping for pre-emption, the gap begins after it
(R419). -/
def State.stopRegion (s : State) (r : RegionId) (rate : BitVec 32) (chg : Nat) : State :=
  let old := (s.region r).rate
  let quiet (c : CoreId) : Bool := match s.partOf c with
    | some p => p.quiet
    | none => false
  let cores := s.cores.map fun e =>
    if s.regionOf e.1 = r then (e.1, e.2.atRegionStop old chg (!quiet e.1)) else e
  let s : State := { s with cores := cores }
  let s := (s.modRegion r fun x => { x with ref := x.ref + BitVec.ofNat 64 chg, rate := rate }).countRegion r 0x05 1
  let now := (s.region r).ref
  let late (x : Nat × Part) : Nat × Part :=
    if x.2.stop ∧ !x.2.quiet ∧ x.2.stopRefs.has r then (x.1, { x.2 with stopRefs := x.2.stopRefs.set r now }) else x
  { s with parts := s.parts.map late }

/-- A write of FREQ (R370): one that changes it requests a step, or a further step while one is in progress. -/
def Region.setFreq (x : Region) (freq : BitVec 11) : Region :=
  if freq.toNat < 425 ∨ 1275 < freq.toNat ∨ freq = x.freq then x
  else if x.busy then { x with freq := freq, target := some freq }
  else { x with freq := freq, busy := true, going := freq, stopChg := x.chg }

/-- A write of VOLT. -/
def Region.setVolt (x : Region) (volt : BitVec 12) : Region :=
  if volt.toNat < 650 ∨ 950 < volt.toNat then x else { x with volt := volt }

/-- A step is over; a kept target starts a further one. -/
def Region.stepped (x : Region) : Region :=
  match x.target with
  | some f => { x with going := f, target := none, stopChg := x.chg }
  | none => { x with busy := false }

/-- RCTL_FREQ_WRITE (R370). -/
def execRctlFreqWrite (r : RegionId) (freq : BitVec 11) (s : State) : Out State :=
  .next (s.modRegion r fun x => x.setFreq freq)

/-- RCTL_VOLT_WRITE (R370). -/
def execRctlVoltWrite (r : RegionId) (volt : BitVec 12) (s : State) : Out State :=
  .next (s.modRegion r fun x => x.setVolt volt)

/-- REGION_STEP (R331): the step that was requested. In SLEEP it waits for the wake (R386). -/
def execRegionStep (r : RegionId) (s : State) : Out State :=
  let x := s.region r
  if !x.busy ∨ s.pkg.asleep then .next s
  else .next ((s.stopRegion r (rateFor x.going) x.stopChg.toNat).modRegion r Region.stepped)

/-- CLOCK_STRETCH (R369): one period is stretched, and counted. -/
def execClockStretch (r : RegionId) (s : State) : Out State := .next (s.countRegion r 0x04 1)

/-! ## Boot (R380, R381, R385) -/

/-- The clusters found retired, lowest physical rows first. -/
def bootMap (f : BootFacts) : List (Nat × Nat × Nat) :=
  (List.range 41).flatMap fun r =>
    f.retired.eraseDups.filter fun x => decide (x.2.1 = r) && decide (x.1 < 4) && decide (x.2.2 < 40)

/-- Every region as it stands before stage 4 has measured it. -/
def unmeasured : Tab Nat Region := (List.range 401).map fun r => (r, { Region.reset r with fmaxv := 0, valid := false })

/-- Bring the links up (R385): one that fails is reported and left down. -/
def State.bringUp (s : State) (f : BootFacts) : State :=
  let fs := f.fiold.eraseDups.filter fun i => decide (i < 32)
  let es := f.ethernet.eraseDups.filter fun i => decide (i < 2)
  let s := fs.foldl (fun (s : State) i => s.modFiold i fun p => { p with up := false }) s
  { s with pkg := { s.pkg with ethDown := es, reports := s.pkg.reports + fs.length + es.length } }

/-- A module reset and its boot: the state of reset, with the map of retired clusters, the routes and the links, or a halt
at the stage that fails, which leaves REPLACE as it was (R381). `cause` is recorded for the management channel. -/
def State.boot (s : State) (f : BootFacts) (cause : Nat) : State :=
  let t : State := { State.reset with agenda := s.agenda, ids := s.ids, frees := s.frees }
  let fails := f.fails.filter fun k => decide (1 ≤ k.toNat) && decide (k.toNat ≤ 4)
  match fails with
  | some k =>
    { t with
      regions := if k.toNat ≤ 3 then unmeasured else []
      fiold := (List.range 32).map fun i => (i, { FioldPort.reset with up := false })
      pkg := { t.pkg with
        stage := k, bootFail := true, ethDown := [0, 1], resetCause := cause, replace := s.pkg.replace, reports := s.pkg.reports } }
  | none =>
    let t : State := { t with pkg := { t.pkg with resetCause := cause, reports := s.pkg.reports } }
    ((t.retireClusters (bootMap f)).setRoutes f.routes).bringUp f

/-- MODULE_RESET (R385). -/
def execModuleReset (f : BootFacts) (s : State) : Out State := .next (s.boot f 0)

/-! ## Temperature and ageing (R379, R384, R386) -/

/-- THERMAL_THROTTLE (R384): a region above 100 °C steps down by 85 MHz, and on until it reads 95 °C or is at
425 MHz. It stays hot until it reads 95 °C (R386). -/
def execThermalThrottle (r : RegionId) (temp : Nat) (s : State) : Out State :=
  let x := s.region r
  if 100 < temp ∨ (x.hot ∧ 95 < temp) then
    let f : BitVec 11 := BitVec.ofNat 11 (Nat.max 425 (x.freq.toNat - 85))
    .next (s.modRegion r fun x => { x.setFreq f with hot := true })
  else .next (s.modRegion r fun x => { x with hot := false })

/-- THERMAL_RESET (R384): above 115 °C the module resets without saving. -/
def execThermalReset (_r : RegionId) (temp : Nat) (f : BootFacts) (s : State) : Out State :=
  if 115 < temp then .next (s.boot f 1) else .next s

/-- REPLAN (R379): FMAXV is measured across one step of the region, which is then given its VOLT and FREQ, or marked
for retirement. It waits for a step in progress, and while the region is throttled (R386). -/
def execReplan (r : RegionId) (p : PlanFacts) (s : State) : Out State :=
  let x := s.region r
  if x.busy ∨ x.hot ∨ s.pkg.asleep then .next s
  else
    let s := s.stopRegion r x.rate x.chg.toNat
    let s := s.modRegion r fun x =>
      { (x.setVolt p.volt).setFreq p.freq with
        fmaxv := p.fmaxv, valid := true, retire := x.retire || decide (p.fmaxv.toNat < 425) }
    let s : State := { s with pkg := { s.pkg with replanAsked := false } }
    .next s.retireMarked

/-- REPLACE_REPORT (R381). -/
def execReplaceReport (s : State) : Out State :=
  if s.pkg.replace then .next { s with pkg := { s.pkg with reports := s.pkg.reports + 1 } } else .next s

/-! ## Power states (R375 to R378) -/

/-- Whether a ring of a core holds a record (R40). -/
def State.ringWaits (s : State) (c : CoreId) : Bool :=
  let k := s.core c
  (List.finRange 64).any fun i =>
    let x := k.classes[i]
    decide ((x.extractLsb' 61 3) = 2) && k.ringOk x &&
      let h := engineHome c ((x.extractLsb' 82 14).toNat * 64)
      decide (s.mem.dword h ≠ s.mem.dword (h + 8))

/-- Whether a core is idle (R375). -/
def State.coreIdle (s : State) (c : CoreId) : Bool :=
  let k := s.core c
  let q (x : EngineQ) : Bool := x.queue.isEmpty && x.run.isEmpty && !x.held
  k.seats.toList.all (fun t => t.work.isNone) && k.runq.isEmpty && k.chans.toList.all List.isEmpty &&
    k.nchans.toList.all List.isEmpty && !s.ringWaits c && q k.mx.q && q k.sn.q && q k.cp.q && k.sb.isEmpty && k.rq.isEmpty

/-- The cores of a cluster. -/
def clusterCores (k : ClusterId) : List CoreId :=
  (List.range 4).flatMap fun i => (List.range 4).map fun j => .grid k.die (4 * k.row + i) (4 * k.col + j)

/-- Whether a cluster is idle. -/
def State.clusterIdle (s : State) (k : ClusterId) : Bool := (clusterCores k).all s.coreIdle

/-- The exit latency that a cluster's partition accepts, in ns (R376). -/
def State.tolerance (s : State) (k : ClusterId) : Nat :=
  match s.parts.find? fun p => p.2.clusters.contains k with
  | some p => (s.pkg.lattol.get p.1 0).toNat
  | none => 0xFFFFFFFF

/-- The next power state, with its dwell and its exit latency in ns. -/
def Power.deeper : Power → Option (Power × Nat × Nat)
  | .run => some (.gated, 2000, 300)
  | .gated => some (.retain, 100000, 12000)
  | .retain => some (.off, 2000000, 250000)
  | .off => none

/-- POWER_STATE_ENTRY (R375): a cluster that has been idle for the dwell enters the next state, if its partition
accepts that state's exit latency. -/
def execPowerStateEntry (cl : ClusterId) (idleNs : Nat) (s : State) : Out State :=
  match (s.cluster cl).power.deeper with
  | some (p, dwell, exit_) =>
    if s.clusterIdle cl ∧ dwell ≤ idleNs ∧ exit_ ≤ s.tolerance cl then
      .next (s.modCluster cl fun k => { k with power := p })
    else .next s
  | none => .next s

/-- Whether something wakes an idle cluster (R377): an access has reached it, or a message or a ring delivery arrives for
one of its cores. -/
def State.wakes (s : State) (cl : ClusterId) : Bool :=
  (s.cluster cl).called || (clusterCores cl).any fun c =>
    s.incoming c || (s.core c).inputs.toList.any fun l => l.any fun m => decide (m.dst = c) || m.rest.contains c

/-- CLUSTER_WAKE (R377). -/
def execClusterWake (cl : ClusterId) (s : State) : Out State :=
  if (s.cluster cl).power ≠ .run ∧ s.wakes cl then .next (s.modCluster cl fun k => { k with power := .run, called := false })
  else .next s

/-- Whether a core belongs to a cluster of a die. -/
def inGrid : CoreId → Bool
  | .grid _ _ _ => true
  | .skoum _ => false

/-- Whether the package may sleep (R378): every cluster of every die is idle, nothing crosses the package, every partition
accepts the exit latency, and no arrival and no command of a ring waits. -/
def State.maySleep (s : State) : Bool :=
  s.cores.all (fun e => !inGrid e.1 ||
      (s.coreIdle e.1 && e.2.inputs.toList.all List.isEmpty && e.2.inj.toList.all List.isEmpty)) &&
    s.net.isEmpty && s.links.all (fun l => l.2.isEmpty) && s.pkg.arrivals.isEmpty &&
    s.vds.all (fun v => decide (v.2.head = v.2.tail)) &&
    s.parts.all fun p => decide (20000000 ≤ (s.pkg.lattol.get p.1 0).toNat)

/-- PACKAGE_SLEEP (R378). -/
def execPackageSleep (s : State) : Out State :=
  if s.maySleep then .next { s with pkg := { s.pkg with asleep := true } } else .next s

/-- PACKAGE_WAKE (R378): an arrival wakes the package, and those that wait are taken; steps requested in SLEEP take their
new rate without a charge (R386). Awake, the arrivals that wait are tried again. -/
def execPackageWake (s : State) : Out State :=
  if s.pkg.arrivals.isEmpty then .next s
  else if !s.pkg.asleep then .next s.tryArrivals
  else
    let wake (e : RegionId × Region) : RegionId × Region :=
      if e.2.busy then
        let f := e.2.target.getD e.2.going
        (e.1, { e.2 with rate := rateFor f, going := f, busy := false, target := none })
      else e
    .next ({ s with regions := s.regions.map wake, pkg := { s.pkg with asleep := false } } : State).tryArrivals

/-! ## Upsets (R350, R380) -/

/-- A granule takes an error; a cluster whose uncorrectable errors reach the threshold is retired alone, as soon as it may
be. -/
def State.strike (s : State) (g : Nat) (correctable limit : Bool) : State :=
  let t := s.upset g correctable
  match clusterOfHome g with
  | some k => if limit ∧ !correctable then t.markCluster k else t
  | none => t

end Sys2Proof.Machine
end

