-- ==== Sys2Proof/Machine/Trace.lean ====
section
/-!
DEFINITION. The trace hardware (R447 to R451) and the local cycle of a region (R28, R60, R165, R279, R330, R373, R374,
R420).
-/

namespace Sys2Proof.Machine

/-! ## Trace (R447 to R451) -/

/-- FLUSH seals the open segment. -/
def State.flushTrace (s : State) : State := s.drainPorts.sealSegment

/-- A write of EN: setting it starts the segments' sequence anew, clearing it seals the open segment. -/
def State.setTrace (s : State) (en : Bool) : State :=
  if en then
    if s.trace.en then s else { s with trace := { s.trace with en := true, nextSeq := 0 } }
  else
    let s := s.flushTrace
    { s with trace := { s.trace with en := false } }

/-- TRCTL_FLUSH (R447). -/
def execTrctlFlush (s : State) : Out State := .next s.flushTrace

/-- TRCTL_EN_WRITE (R447). -/
def execTrctlEnWrite (en : Bool) (s : State) : Out State := .next (s.setTrace en)

/-- SEGMENT_WRITE_COMPLETE (R449): the drive has written the oldest unsent segment. Its slot takes the records that wait for
one. -/
def execSegmentWriteComplete (seq : Nat) (s : State) : Out State :=
  match s.trace.sealed with
  | g :: r =>
    if g.seq = seq then
      let t := s.trace
      .next ({ s with trace := { t with sealed := r, written := t.written + 1, slot := some (t.slot.getD g.slot) } }).pourTrace
    else .next s
  | [] => .next s

/-- The period of SAMPLE that a core's region is in (R447). -/
def State.samplePeriod (s : State) (c : CoreId) : Nat := (s.region (s.regionOf c)).ref.toNat / (s.trace.sample.toNat * 65536)

/-- Whether a core's counters have still to be sampled in its region's period (R450): on a bench only the lead's are. -/
def State.unsampled (s : State) (c : CoreId) : Bool :=
  s.trace.en && s.traces c 2 && decide (s.trace.sample ≠ 0) && (s.partOf c).isSome && !(s.core c).follows c &&
    decide (s.trace.samples.get c 0 ≠ s.samplePeriod c + 1)

/-- A sample of a core's counters. -/
def State.sampleCore (s : State) (c : CoreId) : State :=
  let k := s.core c
  ({ s with trace := { s.trace with samples := s.trace.samples.set c (s.samplePeriod c + 1) } } : State).record (coreIndex c)
    (s.traceRec 0x03 ⟨c, 0⟩ (k.ev.toList.flatMap (fun x => natLe 8 x.toNat) ++
      k.evsel.toList.map fun x => x.extractLsb' 0 8))

/-- COUNTER_SAMPLE (R450): a sample of a core's counters, once a period. -/
def execCounterSample (c : CoreId) (s : State) : Out State := .next (if s.unsampled c then s.sampleCore c else s)

/-! ## The local cycle -/

/-- One cycle of the energy governor for a seat that spans k cores (R279). -/
def Seat.govern (t : Seat) (cap : BitVec 24) (rate : BitVec 16) (k : Nat) : Seat :=
  let sum : Int := t.credit.toInt * 256 + t.fraction.toNat + (rate.toNat * k : Nat)
  let top : Int := (cap.toNat * k : Nat)
  if top * 256 ≤ sum then { t with credit := BitVec.ofInt 32 top, fraction := 0 }
  else { t with credit := BitVec.ofInt 32 (sum / 256), fraction := BitVec.ofInt 8 (sum % 256) }

/-- One cycle of a seat's open hold and of its running work. -/
def Seat.passes (t : Seat) : Seat :=
  { t with
    hold := t.hold.map fun h => { h with cycles := h.cycles + 1, since := h.since + 1 }
    work := t.work.map fun w => { w with running := w.running + 1 } }

/-- The wait kinds of a core's seats, with the seats. -/
def Core.seatWaits (k : Core) : List (Nat × Fin 4) :=
  (List.finRange 4).filterMap fun i =>
    match (k.seats[i]).hold with
    | some h => if 1 ≤ h.kind ∧ h.kind ≤ 9 then some (h.kind, i) else none
    | none => none

/-- Age the heads of a router input's networks that are held: before their release in deterministic mode, or because
they are refused. A hold that is over, or whose reason has changed, is a closed interval, charged on its own
(R59, R61). -/
def holdHeads (rate : BitVec 32) (may leaves : Msg → Bool) : List Msg → List VNet → List Msg
  | [], _ => []
  | m :: r, seen =>
    let m' : Msg :=
      if seen.contains m.vn || leaves m then m.closeHeld rate
      else if may m then
        let m := if m.heldDet = 0 then m else m.closeHeld rate
        { m with held := m.held + 1 }
      else
        let m := if m.held = 0 then m else m.closeHeld rate
        { m with heldDet := m.heldDet + 1 }
    m' :: holdHeads rate may leaves r (m.vn :: seen)

/-- The router inputs of a core after a cycle. -/
def State.agedInputs (s : State) (c : CoreId) : Vector (List Msg) 5 :=
  (s.core c).inputs.map fun l =>
    holdHeads (s.region (s.regionOf c)).rate (fun m => s.mayAccept c m.key) (fun m => s.up c && s.leaves c m) l []

/-- The heads of the networks of a router input. -/
def headsOf : List Msg → List VNet → List Msg
  | [], _ => []
  | m :: r, seen => if seen.contains m.vn then headsOf r seen else m :: headsOf r (m.vn :: seen)

/-- Whether R28 refuses some arrival of a core whose cluster runs. -/
def State.refusesNow (s : State) (c : CoreId) : Bool :=
  s.up c && (s.core c).inputs.toList.any fun l => (headsOf l []).any fun m => s.mayAccept c m.key && !s.leaves c m

/-- Whether an entry waits for selection: it is eligible to some seat of the core. -/
def State.entryWaits (s : State) (c : CoreId) (e : Entry) : Bool := (List.finRange 4).any fun i => s.eligible c i e

/-- The run queue of a core after a cycle: eligible entries wait for selection, and the interval of one that is no
longer eligible closes (R59, R61). -/
def State.agedRunq (s : State) (c : CoreId) : List Entry :=
  (s.core c).runq.map fun e =>
    if s.entryWaits c e then { e with held := e.held + 1 } else e.closeHeld (s.region (s.regionOf c)).rate

/-- The charges of kind 2 that close in a cycle, in the account table. -/
def State.agedAcct (s : State) (c : CoreId) : Vector Acct 16 :=
  ((s.core c).runq.foldl (fun (k : Core) e =>
    if s.entryWaits c e then k else k.addQwait e.acct (toRef e.held (s.region (s.regionOf c)).rate)) (s.core c)).acct

/-- The command queue of an engine after a cycle: all that wait there are held, but for a head that waits only for its
pusher's stores (R258), whose interval closes (R59). -/
def State.agedQueue (s : State) (rate : BitVec 32) (q : EngineQ) : List Cmd :=
  match q.queue with
  | [] => []
  | x :: r =>
    let x' := if q.run.isEmpty && x.after.any s.unplayed then x.closeHeld rate else { x with held := x.held + 1 }
    x' :: r.map fun y => { y with held := y.held + 1 }

/-- The commands under way after a cycle: the next unit of a copy command may be held (R60, R348). -/
def State.agedRuns (s : State) (rate : BitVec 32) (q : EngineQ) : List Run :=
  q.run.map fun r => r.aged rate (r.holdKind s.moving)

/-- How often the parts of a core's waiting lists were held in a cycle. -/
def heldMore {α : Type} (f : α → Nat) (before after : List α) : List α :=
  ((before.zip after).filter fun x => decide (f x.1 < f x.2)).map (·.1)

/-- The waits of a core in a cycle by kind (R60), with the seat that waits: seats, the pushers of queued commands and of
held copies, the seats of buffered stores, and messages and run-queue entries, which have no seat. -/
def State.cycleWaits (s : State) (c : CoreId) : List (Nat × Option (Fin 4)) :=
  let k := s.core c
  let rate := (s.region (s.regionOf c)).rate
  let cmds (q : EngineQ) : List (Nat × Option (Fin 4)) :=
    ((heldMore Cmd.held q.queue (s.agedQueue rate q)).map fun x => (1, some x.seat)) ++
      (q.run.filter fun r => r.holdKind s.moving ≠ 0).map fun r => (r.holdKind s.moving, some r.cmd.seat)
  let why := s.storeHolds c
  let stores := k.sb.zipIdx.filterMap fun e =>
    let w := if e.2 = 0 then why.1 else why.2
    if w = 0 then none else some (w, some e.1.seat)
  let inputs (f : Msg → Nat) (kind : Nat) : List (Nat × Option (Fin 4)) :=
    (heldMore f k.inputs.toList.flatten (s.agedInputs c).toList.flatten).map fun _ => (kind, none)
  k.seatWaits.map (fun w => (w.1, some w.2)) ++ stores ++ cmds k.mx.q ++ cmds k.cp.q ++ cmds k.sn.q ++
    inputs Msg.held 2 ++ inputs Msg.heldDet 9 ++
    (heldMore Entry.held k.runq (s.agedRunq c)).map fun _ => (2, none)

/-- Count a wait of one local cycle; one that has no seat is not counted where a seat is asked for. -/
def addWait {n : Nat} (ev : Vector Word n) (sel : Vector (BitVec 12) n) (w : Nat × Option (Fin 4)) : Vector Word n :=
  match w.2 with
  | some i => addCounts ev sel (0x10 + w.1) (some i) 1
  | none => addCounts ev (sel.map fun x => if x.getLsbD 11 then 0 else x) (0x10 + w.1) none 1

/-- How many cores a seat of a core spans. -/
def Core.spanOf (k : Core) (i : Fin 4) : Nat :=
  match k.bench with
  | some b => if i = 0 then shapeK b.shape else 1
  | none => 1

/-- A local cycle of a core that is not stopped. -/
def State.cycleCore (s : State) (c : CoreId) (x : Region) : Core :=
  let k := (s.core c).holdStores x.rate (s.storeHolds c)
  let seat (i : Fin 4) : Seat := ((k.seats[i]).govern x.cap x.erate (k.spanOf i)).passes.watch
  let ev := (s.cycleWaits c).foldl (fun ev w => addWait ev k.evsel w) k.ev
  let ev := if s.refusesNow c then addCounts ev k.evsel 0x07 none 1 else ev
  { k with
    seats := Vector.ofFn seat, ev := ev, inputs := s.agedInputs c, runq := s.agedRunq c, acct := s.agedAcct c
    stealWait := k.stealWait - 1
    mx := { k.mx with q := { k.mx.q with queue := s.agedQueue x.rate k.mx.q } }
    cp := { k.cp with q := { k.cp.q with queue := s.agedQueue x.rate k.cp.q, run := s.agedRuns x.rate k.cp.q } }
    sn := { k.sn with q := { k.sn.q with queue := s.agedQueue x.rate k.sn.q } } }

/-- The cores of a region: the seventeen of the Skoum complex, or those of its clusters. -/
def State.coresOf (s : State) (r : RegionId) : List CoreId :=
  if 400 ≤ r then (List.range 17).map CoreId.skoum else (s.clustersOf r).flatMap clusterCores

/-- Add to the counters of a core's cluster and die what its cycle counts there. -/
def State.countWaits (s : State) (c : CoreId) : State :=
  let k := clusterOf c
  let add (s : State) (code : Nat) : State := (s.countCluster k code 1).countDie (dieOf c) code 1
  let s' := (s.cycleWaits c).foldl (fun (s : State) w => add s (0x10 + w.1)) s
  if s.refusesNow c then add s' 0x07 else s'

/-- One local cycle of the counters of a region (R330). -/
def Region.tick (x : Region) : Region :=
  let sum := x.fraction.toNat + x.rate.toNat
  { x with cyc := x.cyc + 1, ref := x.ref + BitVec.ofNat 64 (sum / 2 ^ 24), fraction := BitVec.ofNat 24 sum }

/-- The region that a bank's memory belongs to. -/
def State.regionOfBank (s : State) (b : Nat) : RegionId :=
  let id := b / 32
  match clusterOfHome (if 2 ^ 28 ≤ id then id * 2 ^ 15 else id * 2 ^ 18) with
  | some k => regionOfCluster s.pkg.retired k
  | none => 400

/-- The banks of a region are free again, and the conflicts in its scratchpads are counted (R374). -/
def State.freeBanks (s : State) (r : RegionId) : State :=
  let met := (s.clusters.filter fun k => k.2.clash && decide (regionOfCluster s.pkg.retired k.1 = r)).map (·.1)
  let s := met.foldl (fun (s : State) k =>
    ((s.modCluster k fun x => { x with clash := false }).countCluster k 0x24 1).countDie k.die 0x24 1) s
  { s with banks := s.banks.filter fun b => decide (s.regionOfBank b ≠ r) }

/-- The clusters of a region in which some seat of a running partition holds live work, each with the partition. -/
def State.workingClusters (s : State) (r : RegionId) : List (Nat × ClusterId) :=
  ((s.cores.filter fun e => e.2.seats.toList.any (fun t => t.work.isSome) && inGrid e.1 && decide (s.regionOf e.1 = r) &&
    !s.stopped e.1).map fun e => (e.2.pid.toNat, clusterOf e.1)).eraseDups

/-- Add the cluster-cycles of a cycle, in reference cycles, to what the running queues have consumed (R94). -/
def State.spend (s : State) (r : RegionId) (ref : Nat) : State :=
  let busy := s.workingClusters r
  let add (x : Nat × Part) : Nat × Part :=
    if x.2.ctx.isSome then
      (x.1, { x.2 with consumed := x.2.consumed + ref * (busy.filter fun b => b.1 = x.1).length })
    else x
  { s with parts := s.parts.map add }

/-- The cores of a region that have no sample of the period that ends are sampled (R450). -/
def State.sampleRegion (s : State) (r : RegionId) : State :=
  ((s.coresOf r).filter s.unsampled).foldl (fun (s : State) c => s.sampleCore c) s

/-- LOCAL_CYCLE (R330): CYC and REF advance, local cycles are counted, and the cores that are not stopped pass a
cycle: credit, watchdogs and the intervals that are open. The banks of the region are free again. -/
def execLocalCycle (r : RegionId) (s : State) : Out State :=
  let x := s.region r
  let live := (s.coresOf r).filter fun c => !s.stopped c
  let cores := live.map fun c => (c, s.cycleCore c x)
  let t := live.foldl (fun (t : State) c => t.countWaits c) s
  let t : State := { t with cores := cores ++ t.cores.filter fun e => !live.contains e.1 }
  let t := (t.spend r ((x.tick.ref - x.ref).toNat)).freeBanks r
  let t := if s.trace.sample = 0 ∨ x.ref.toNat / (s.trace.sample.toNat * 65536) = x.tick.ref.toNat / (s.trace.sample.toNat * 65536)
    then t else t.sampleRegion r
  let t := (t.modRegion r Region.tick).countRegion r 0x01 1
  .next t.drainPorts

end Sys2Proof.Machine
end

