-- ==== Sys2Proof/Machine/ControlRegs.lean ====
section
/-!
DEFINITION. The control registers (R126, R127, R156 to R161): what each number reads as, what a write of it does,
and the four instructions that reach them. The field maps are those of the rules named at each part.
-/

namespace Sys2Proof.Machine

/-! ## Levels (R20 to R22) -/

/-- The rows and columns of cores in a unit of a domain from CORE to DIE, for a partition of `rows` by `cols`. -/
def unitSize (rows cols code k : Nat) : Nat × Nat :=
  if code ≤ 1 then (1, 1)
  else if code = 2 then (if k = 2 then (1, 2) else if k = 4 then (2, 2) else if k = 8 then (2, 4) else (4, 4))
  else if code = 3 then (4, 4)
  else if code = 4 then (16, 16)
  else (rows, cols)

/-- How many units of one size an enclosing unit holds on one die, and which of them holds row `r` and column
`c`. -/
def unitsIn (rows cols r c : Nat) (outer inner : Nat × Nat) : Nat × Nat :=
  let r0 := r / outer.1 * outer.1
  let c0 := c / outer.2 * outer.2
  let per := (Nat.min outer.2 (cols - c0) + inner.2 - 1) / inner.2
  (((Nat.min outer.1 (rows - r0) + inner.1 - 1) / inner.1) * per, (r - r0) / inner.1 * per + (c - c0) / inner.2)

/-- EXTENT and INDEX of a level of a partition, as seat `i` at (v, r, c) sees it; `outer` holds the levels beyond
it. -/
def Part.extent (p : Part) (v r c i : Nat) (code k : Nat) (outer : List (Nat × Nat)) : Nat × Nat :=
  let e := outer.headD (8, 0)
  let below := outer.any fun x => x.1 = 2
  if code ≤ 1 ∧ below then (1, 0)
  else if code = 7 then (1, 0)
  else if code = 6 then (if e.1 = 7 then (p.domain, p.index) else (1, 0))
  else
    let own := unitsIn p.rows p.cols r c (unitSize p.rows p.cols e.1 e.2) (unitSize p.rows p.cols code k)
    let die : Nat × Nat := if e.1 ≤ 5 then own else (own.1 * p.dies.length, own.2 + own.1 * v)
    let pkg : Nat × Nat := if e.1 = 7 then (die.1 * p.domain, die.2 + die.1 * p.index) else die
    if code = 0 then (4 * pkg.1, 4 * pkg.2 + i) else pkg

/-- cr.lv0 to cr.lv7 (R22). -/
def State.levelReg (s : State) (t : SeatId) (n : Nat) : Word :=
  let none_ : Word := 0#32 ++ 0xF#4 ++ 0#28
  match s.partOf t.core with
  | none => none_
  | some p =>
    let levels := p.levels.map fun x => (x.1.toNat, x.2)
    match levels[n]? with
    | none => none_
    | some (code, k) =>
      let (v, r, c) := s.virt t.core
      let x := p.extent v r c t.seat.val code k (levels.drop (n + 1))
      BitVec.ofNat 32 x.1 ++ BitVec.ofNat 4 code ++ BitVec.ofNat 28 x.2

/-! ## Reading -/

/-- The registers of a region, 0x400 to 0x403 and 0xC10 to 0xC13 (R279, R329, R370, R371, R379); MARGIN is given. -/
def Region.readCr (x : Region) (margin : BitVec 16) (num : BitVec 12) : Option Word :=
  if num = 0x400 then some x.cyc
  else if num = 0x401 then some x.ref
  else if num = 0x402 then some (x.rate.setWidth 64)
  else if num = 0x403 then some (x.chg.setWidth 64)
  else if num = 0xC10 then some ((x.cap ++ 0#8 ++ x.erate).setWidth 64)
  else if num = 0xC11 then some ((BitVec.ofBool x.busy ++ 0#4 ++ x.freq ++ 0#4 ++ x.volt).setWidth 64)
  else if num = 0xC12 then some (x.chg.setWidth 64)
  else if num = 0xC13 then
    some ((x.fmaxv ++ margin ++ 0#14 ++ BitVec.ofBool x.retire ++ BitVec.ofBool x.valid).setWidth 64)
  else none

/-- The firmware registers of a die, a cluster and the router (R349, R373, R382, R427, R428). -/
def State.readUnit (s : State) (c : CoreId) (num : BitVec 12) : Option Word :=
  let d := s.die (dieOf c)
  let x := s.cluster (clusterOf c)
  let n := num.toNat
  if num = 0xC20 then some ((d.thresh ++ d.window ++ 0#15 ++ BitVec.ofBool d.migEn).setWidth 64)
  else if num = 0xC21 then some d.pool64
  else if num = 0xC22 then some d.pool2m
  else if num = 0xC30 then some ((d.lpart ++ d.tviol).setWidth 64)
  else if num = 0xC31 then some (s.core c).memb
  else if num = 0xC32 then some ((s.core c).pid.setWidth 64)
  else if 0xC80 ≤ n ∧ n ≤ 0xC87 then some (Vector.reg x.cxev (n - 0xC80))
  else if 0xC88 ≤ n ∧ n ≤ 0xC8F then some (Vector.reg x.cxsel (n - 0xC88))
  else if 0xCA0 ≤ n ∧ n ≤ 0xCBF then some (Vector.reg d.dxev (n - 0xCA0))
  else if 0xCC0 ≤ n ∧ n ≤ 0xCDF then some (Vector.reg d.dxsel (n - 0xCC0))
  else none

/-- cr.arbq of a queue (R93). -/
def State.arbReg (s : State) (q : Nat) : Word :=
  let (deficit, weight, part, en) := s.arb q
  deficit ++ 0#16 ++ weight ++ part ++ BitVec.ofBool (s.arbPending q) ++ BitVec.ofBool en

/-- cr.pstop of a partition id (R402); of an id without a partition, see log entry 93 (DESIGN CHOICE). -/
def State.stopReg (s : State) (id : Nat) : Word :=
  match s.part? id with
  | some p => (BitVec.ofBool p.quiet ++ BitVec.ofBool p.stop).setWidth 64
  | none => if s.pkg.stops.contains id then 3 else 0

/-- The firmware registers of the package (R93, R94, R376, R381, R402, R424, R447, R451). -/
def State.readPkg (s : State) (num : BitVec 12) : Option Word :=
  let n := num.toNat
  let g := s.pkg
  if num = 0xC01 then some (g.slice.setWidth 64)
  else if num = 0xC02 then
    some ((g.holes ++ g.spared ++ g.stage ++ 0#6 ++ BitVec.ofBool g.bootFail ++ BitVec.ofBool g.replace).setWidth 64)
  else if num = 0xC38 then some (s.trace.base ||| s.trace.log2n.setWidth 64)
  else if num = 0xC39 then some ((s.trace.sample ++ 0#31 ++ BitVec.ofBool s.trace.en).setWidth 64)
  else if num = 0xC3A then some (s.trace.lost.setWidth 64)
  else if 0xC40 ≤ n ∧ n ≤ 0xC7F then some (s.arbReg (n - 0xC40))
  else if 0xD00 ≤ n ∧ n ≤ 0xD3F then some ((g.lattol.get (n - 0xD00) 0).setWidth 64)
  else if 0xD40 ≤ n ∧ n ≤ 0xD7F then some (s.stopReg (n - 0xD40))
  else if 0xD80 ≤ n ∧ n ≤ 0xDFF then some (g.rkmap.get (n - 0xD80) 0)
  else if 0xE00 ≤ n ∧ n ≤ 0xE3F then some ((g.trsel.get (n - 0xE00) 0).setWidth 64)
  else none

/-- What a control register holds, as a seat reaches it at firmware privilege; none for a number that no register
has (R126). On a bench cr.prio reads 0 (R160). -/
def State.readCr (s : State) (t : SeatId) (num : BitVec 12) : Option Word :=
  if 0x020 ≤ num.toNat ∧ num.toNat ≤ 0x027 then some (s.levelReg t (num.toNat - 0x020))
  else if num = 0x003 ∧ t.seat = 0 ∧ (s.core t.core).bench.isSome then some 0
  else
    ((((((s.seat t).readCr num).or ((s.core t.core).readCr num)).or ((s.core t.core).readEngine num)).or
      ((s.region (s.regionOf t.core)).readCr (Config.freeMargin s.frees) num)).or (s.readUnit t.core num)).or
      (s.readPkg num)

/-! ## Fields (R156, R157) -/

/-- The bits of the SV fields of a register below 0x800. -/
def svBits (num : BitVec 12) : Word :=
  if num = 0x004 ∨ num = 0x301 ∨ num = 0x302 then 0xFFFFFFFF
  else if num = 0x005 ∨ num = 0x00A ∨ num = 0x305 then 0xFFFFFFFFFFFFFFFF
  else if num = 0x008 then 0x1033F
  else if num = 0x009 ∨ num = 0x028 then 0xFFFFFFFFFFFE
  else if num = 0x00B then 0xFFFFFFFFF000
  else if num = 0x00C ∨ num = 0x101 ∨ num = 0x303 then 0xFFFF
  else if num = 0x100 then 0xFF
  else if num = 0x102 then 0xF
  else if num = 0x103 then 0x7801
  else if num = 0x209 ∨ num = 0x211 then 0x6
  else if num = 0x218 then 0x4
  else if num = 0x300 then 0xFFFFFFFFFFFF
  else 0

/-- The bits of the W1C field of a register. -/
def w1cBits (num : BitVec 12) : Word := if num = 0x209 ∨ num = 0x211 then 0x8 else 0

/-! ## Writing: `x` is the value for the writable fields, `m` the bits that the instruction reaches -/

/-- A write to the registers of a seat. `fw` tells whether it is made at firmware privilege. -/
def Seat.writeCr (t : Seat) (fw : Bool) (num : BitVec 12) (x : Word) : Seat :=
  if num = 0x000 then
    if 4 < (x.extractLsb' 0 3).toNat then t else { t with frm := x.extractLsb' 0 3 }
  else if num = 0x001 then { t with fflags := x.extractLsb' 0 5 }
  else if num = 0x002 then { t with grp := x.extractLsb' 0 32 }
  else if num = 0x004 then { t with credit := x.extractLsb' 0 32 }
  else if num = 0x005 then { t with wdReload := x.extractLsb' 32 32, wdCount := x.extractLsb' 0 32 }
  else if num = 0x008 then
    let p := x.extractLsb' 8 2
    { t with
      tr := { t.tr with
        imp := x.getLsbD 16
        ppriv := if p = 3 ∨ (p = 2 ∧ !fw) then t.tr.ppriv else p
        cause := x.extractLsb' 0 6 } }
  else if num = 0x009 then { t with tr := { t.tr with epc := x &&& 0xFFFFFFFFFFFE } }
  else if num = 0x00A then { t with tr := { t.tr with tval := x } }
  else if num = 0x00B then { t with tr := { t.tr with tvec := x &&& 0xFFFFFFFFF000 } }
  else if num = 0x00C then { t with tr := { t.tr with trlost := x.extractLsb' 0 16 } }
  else if num = 0x028 then { t with sentry := x &&& 0xFFFFFFFFFFFE }
  else if num = 0x300 then { t with tag := { t.tag with span := x.extractLsb' 0 48 }.fix }
  else if num = 0x301 then { t with tag := { t.tag with wait := x.extractLsb' 0 32 }.fix }
  else if num = 0x302 then { t with tag := { t.tag with last := x.extractLsb' 0 32 } }
  else if num = 0x303 then
    { t with tag := { t.tag with flags := (t.tag.flags &&& 0xFE03) ||| (x.extractLsb' 0 16 &&& 0x01FC) } }
  else if num = 0x304 then { t with chlim := x.extractLsb' 0 48, armed := true }
  else if num = 0x305 then { t with gap := x }
  else t

/-- Whether a mode may be written to a seat's field (R23). -/
def modeOk (i : Fin 4) (m : BitVec 2) : Bool := decide (m ≠ 0b11) || decide (i = 3)

/-- A write to cr.seats: each field that it reaches becomes a pending mode (R25), with the span that a stream entry
carries in deterministic mode (R458). -/
def Core.writeModes (k : Core) (x m : Word) (span : BitVec 48) : Core :=
  let put (k : Core) (i : Fin 4) : Core :=
    let v := x.extractLsb' (2 * i.val) 2
    if m.extractLsb' (2 * i.val) 2 = 0 ∨ !modeOk i v then k
    else k.modSeat i fun t => { t with modePend := some v, modeSpan := span }
  (List.finRange 4).foldl put k

/-- A field of cr.nwin: a value of 9 to 15 is written as 8 (R39). -/
def windowField (x : Word) (i : Nat) : BitVec 4 :=
  let v := x.extractLsb' (4 * i) 4
  if 8 < v.toNat then 8 else v

/-- The units that count an event (R374). -/
inductive CountUnit where
  | core | cluster | die
deriving DecidableEq, Repr

/-- Whether R374 gives a code for a unit. -/
def eventOk (u : CountUnit) (e : Nat) : Bool :=
  decide (e ≤ 7) || decide (9 ≤ e ∧ e ≤ 0xD) || decide (0x11 ≤ e ∧ e ≤ 0x19) || [0x20, 0x25, 0x26, 0x28].contains e ||
    match u with
    | .core => decide (e = 8)
    | .cluster => [8, 0x21, 0x24].contains e
    | .die => [0x21, 0x22, 0x23, 0x24, 0x27].contains e

/-- A write to a selector (R373). -/
def selWrite (u : CountUnit) (old : BitVec 12) (x : Word) : BitVec 12 :=
  let e := x.extractLsb' 0 8
  let seatf : BitVec 1 := if u = .core then x.extractLsb' 11 1 else 0
  seatf ++ x.extractLsb' 8 3 ++ (if eventOk u e.toNat then e else old.extractLsb' 0 8)

/-- Set an entry of a vector of registers, if there is one. -/
def Vector.setReg {α : Type} {n : Nat} (v : Vector α n) (i : Nat) (f : α → α) : Vector α n :=
  if h : i < n then v.set i (f v[i]) else v

/-- A write to the registers of a core. -/
def Core.writeCr (k : Core) (num : BitVec 12) (x m : Word) (span : BitVec 48) : Core :=
  let n := num.toNat
  if num = 0x100 then k.writeModes x m span
  else if num = 0x101 then
    { k with nwin := windowField x 3 ++ windowField x 2 ++ windowField x 1 ++ windowField x 0 }
  else if num = 0x102 then
    let v := x.extractLsb' 0 4
    if v = 0 ∨ 8 < v.toNat ∨ !k.granules.isEmpty then k else { k with msz := v }
  else if num = 0x103 then { k with dqb := x.extractLsb' 11 4, dqen := x.getLsbD 0 }
  else if 0x110 ≤ n ∧ n ≤ 0x113 then { k with ev := Vector.setReg k.ev (n - 0x110) fun _ => x }
  else if 0x118 ≤ n ∧ n ≤ 0x11B then { k with evsel := Vector.setReg k.evsel (n - 0x118) fun o => selWrite .core o x }
  else if num = 0x820 then { k with ptb := x &&& 0x1FFFFFFF001 }
  else if num = 0x821 then { k with cwlo := x &&& 0xFFFFFFFF0000 }
  else if num = 0x822 then { k with cwhi := x &&& 0xFFFFFFFF0000 }
  else if num = 0xC31 then { k with memb := x }
  else if num = 0xC32 then { k with pid := x.extractLsb' 0 6 }
  else k

/-- A write to a scale register (R264): CONST, and MODE unless it is 3. -/
def scaleWrite (mode : BitVec 2) (x : Word) : BitVec 8 × BitVec 2 :=
  (x.extractLsb' 8 8, if x.extractLsb' 0 2 = 3 then mode else x.extractLsb' 0 2)

/-- A write to a format register (R263). -/
def fmtWrite (fmt : BitVec 8) (x : Word) : BitVec 8 := if 11 < (x.extractLsb' 0 8).toNat then fmt else x.extractLsb' 0 8

/-- A write to cr.snop (R284): KIND keeps its value on 5 to 7. -/
def snopWrite (old : BitVec 16) (x : Word) : BitVec 16 :=
  let v := x.extractLsb' 0 16 &&& 0xFEF7
  if 4 < (x.extractLsb' 0 3).toNat then (v &&& 0xFFF8) ||| (old &&& 0x7) else v

/-- A write to the MX registers 0x200 to 0x208 (R263 to R265). -/
def Mx.writeCr (k : Mx) (num : BitVec 12) (x : Word) : Mx :=
  if num = 0x200 then { k with afmt := fmtWrite k.afmt x }
  else if num = 0x201 then { k with bfmt := fmtWrite k.bfmt x }
  else if num = 0x202 then { k with cfmt := fmtWrite k.cfmt x }
  else if num = 0x203 then { k with aconst := (scaleWrite k.amode x).1, amode := (scaleWrite k.amode x).2 }
  else if num = 0x204 then { k with bconst := (scaleWrite k.bmode x).1, bmode := (scaleWrite k.bmode x).2 }
  else if num = 0x205 then { k with tsel := x.extractLsb' 0 1 }
  else if num = 0x206 then { k with olist := x.extractLsb' 0 32 }
  else if num = 0x207 then { k with olim := x.extractLsb' 0 16 }
  else if num = 0x208 then { k with ocnt := x.extractLsb' 0 16 }
  else k

/-- SKIP and RETRY of a status register: one of them, written 1 while the engine is held (R275, R304, R435). -/
def State.heldWrite (s : State) (c : CoreId) (e : Engine) (x : Word) : State :=
  if !((s.core c).q e).held ∨ (x.getLsbD 2 ∧ x.getLsbD 1 ∧ e ≠ .cp) then s
  else if x.getLsbD 2 then (if e = .sn then s.skipSn c else s.skipHeld c e)
  else if x.getLsbD 1 ∧ e ≠ .cp then s.retryHeld c e
  else s

/-- A write to the registers of the engines. -/
def State.writeEngine (s : State) (c : CoreId) (num : BitVec 12) (x : Word) : State :=
  if num = 0x209 then
    (s.modMx c fun m => { m with ovf := m.ovf && !x.getLsbD 3 }).heldWrite c .mx x
  else if num = 0x210 then s.modSn c fun n => { n with snop := snopWrite n.snop x }
  else if num = 0x211 then
    (s.modSn c fun n => { n with mism := n.mism && !x.getLsbD 3 }).heldWrite c .sn x
  else if num = 0x218 then s.heldWrite c .cp x
  else s.modMx c fun m => m.writeCr num x

/-- A write to the registers of a region (R279, R370, R371). -/
def Region.writeCr (r : Region) (num : BitVec 12) (x : Word) : Region :=
  if num = 0xC10 then { r with cap := x.extractLsb' 24 24, erate := x.extractLsb' 0 16 }
  else if num = 0xC11 then (r.setVolt (x.extractLsb' 0 12)).setFreq (x.extractLsb' 16 11)
  else if num = 0xC12 then { r with chg := x.extractLsb' 0 32 }
  else r

/-- A write to the registers of a die and of a cluster (R349, R373, R382, R428). -/
def State.writeUnit (s : State) (c : CoreId) (num : BitVec 12) (x : Word) : State :=
  let n := num.toNat
  let die (f : Die → Die) : State := s.modDie (dieOf c) f
  let clu (f : Cluster → Cluster) : State := s.modCluster (clusterOf c) f
  if num = 0xC20 then die fun d =>
    { d with thresh := x.extractLsb' 32 16, window := x.extractLsb' 16 16, migEn := x.getLsbD 0 }
  else if num = 0xC21 then die fun d => { d with pool64 := x &&& 0x1FFFFFFF01F }
  else if num = 0xC22 then die fun d => { d with pool2m := x &&& 0x1FFFFFFF01F }
  else if num = 0xC30 then die fun d => { d with lpart := x.extractLsb' 32 6, tviol := x.extractLsb' 0 32 }
  else if 0xC80 ≤ n ∧ n ≤ 0xC87 then clu fun k => { k with cxev := Vector.setReg k.cxev (n - 0xC80) fun _ => x }
  else if 0xC88 ≤ n ∧ n ≤ 0xC8F then
    clu fun k => { k with cxsel := Vector.setReg k.cxsel (n - 0xC88) fun o => selWrite .cluster o x }
  else if 0xCA0 ≤ n ∧ n ≤ 0xCBF then die fun d => { d with dxev := Vector.setReg d.dxev (n - 0xCA0) fun _ => x }
  else if 0xCC0 ≤ n ∧ n ≤ 0xCDF then
    die fun d => { d with dxsel := Vector.setReg d.dxsel (n - 0xCC0) fun o => selWrite .die o x }
  else s

/-- A write to cr.pstop (R402): 1 stops the partition, 0 resumes it in place. -/
def State.writeStop (s : State) (id : Nat) (stop : Bool) : State := if stop then s.stopPart id else s.resumeInPlace id

/-- A write to the firmware registers of the package. -/
def State.writePkg (s : State) (num : BitVec 12) (x : Word) : State :=
  let n := num.toNat
  let g := s.pkg
  if num = 0xC01 then { s with pkg := { g with slice := x.extractLsb' 0 32 } }
  else if num = 0xC02 then
    { s with
      pkg :=
        { g with
          holes := x.extractLsb' 24 8, spared := x.extractLsb' 16 8, stage := x.extractLsb' 8 8
          bootFail := x.getLsbD 1, replace := x.getLsbD 0 } }
  else if num = 0xC38 then { s with trace := { s.trace with base := x &&& 0x1FFFFF00000, log2n := x.extractLsb' 0 5 } }
  else if num = 0xC39 then
    let s := if x.getLsbD 1 then s.flushTrace else s
    let s : State := { s with trace := { s.trace with sample := x.extractLsb' 32 16 } }
    s.setTrace (x.getLsbD 0)
  else if num = 0xC3A then { s with trace := { s.trace with lost := x.extractLsb' 0 32 } }
  else if 0xC40 ≤ n ∧ n ≤ 0xC7F then
    { s with
      pkg := { g with arbq := g.arbq.set (n - 0xC40) ((s.arb (n - 0xC40)).1, x.extractLsb' 8 8, x.extractLsb' 2 6, x.getLsbD 0) } }
  else if 0xD00 ≤ n ∧ n ≤ 0xD3F then { s with pkg := { g with lattol := g.lattol.set (n - 0xD00) (x.extractLsb' 0 32) } }
  else if 0xD40 ≤ n ∧ n ≤ 0xD7F then s.writeStop (n - 0xD40) (x.getLsbD 0)
  else if 0xD80 ≤ n ∧ n ≤ 0xDFF then { s with pkg := { g with rkmap := g.rkmap.set (n - 0xD80) x } }
  else if 0xE00 ≤ n ∧ n ≤ 0xE3F then { s with pkg := { g with trsel := g.trsel.set (n - 0xE00) (x.extractLsb' 0 4) } }
  else s

/-- The chapter of a register: where it lies. -/
inductive CrPlace where
  | seat | core | engine | region | unit | pkg
deriving DecidableEq, Repr

/-- Where a register lies. -/
def crPlace (num : BitVec 12) : CrPlace :=
  let n := num.toNat
  if n < 0x100 ∨ (0x300 ≤ n ∧ n < 0x400) then .seat
  else if n < 0x200 ∨ (0x820 ≤ n ∧ n ≤ 0x822) ∨ num = 0xC31 ∨ num = 0xC32 then .core
  else if n < 0x300 then .engine
  else if n < 0x800 ∨ (0xC10 ≤ n ∧ n ≤ 0xC13) then .region
  else if (0xC20 ≤ n ∧ n ≤ 0xC30) ∨ (0xC80 ≤ n ∧ n ≤ 0xCDF) then .unit
  else .pkg

/-- A write of a register through a seat: `x` goes to the writable fields, of which the instruction reaches those in
`m`. -/
def State.writeCr (s : State) (t : SeatId) (fw : Bool) (num : BitVec 12) (x m : Word) : State :=
  match crPlace num with
  | .seat =>
    (if num = 0x300 then s.noteSpan t else s).modSeat t fun y => y.writeCr fw num x
  | .core =>
    let span : BitVec 48 := if (s.det? t.core).isSome then sat48 ((s.seat t).tag.span.toNat + 1) else 0
    s.modCore t.core fun k => k.writeCr num x m span
  | .engine => s.writeEngine t.core num x
  | .region => s.modRegion (s.regionOf t.core) fun r => r.writeCr num x
  | .unit => s.writeUnit t.core num x
  | .pkg => s.writePkg num x

/-! ## The interlock (R266, R284) -/

/-- Whether a write of a register waits: an MX command is unstarted or an STC runs, or an SN command is unstarted. -/
def Core.crWaits (k : Core) (num : BitVec 12) : Bool :=
  let unstarted (q : EngineQ) : Bool := q.queue.any fun x => !x.dropped
  if 0x200 ≤ num.toNat ∧ num.toNat ≤ 0x208 then unstarted k.mx.q || (k.running .mx [8]).isSome
  else if num = 0x210 then unstarted k.sn.q
  else false

/-! ## The instructions (R127, R156, R157) -/

/-- Whether a number names a register. -/
def State.assigned (s : State) (num : BitVec 12) : Bool := (s.readCr s.cur num).isSome

/-- `crr` (R156). -/
def execCrr (r : BitVec 12) (d : Reg) (s : State) : Out State :=
  let f := w32 0 (.crr r d)
  let s' := s.closeHold s.cur
  if s.me.priv = 0 ∧ 0x800 ≤ r.toNat then .next (s.raise cPriv f.tval)
  else if s.me.priv ≠ 2 ∧ 0xC00 ≤ r.toNat then .next ((s'.setG d 0).complete f 1 .seq)
  else
    match s'.readCr s.cur r with
    | none => .next (s.raise cIllegal f.tval)
    | some x =>
      let s' : State := if r = 0xC13 then { s' with frees := s'.frees + 1 } else s'
      .next ((s'.setG d x).complete f 1 .seq)

/-- What the three writing instructions share: the checks of R127 and R157, the interlock, and the write. `sens` are
the bits of gD that decide PRIV, `m` those that the instruction reaches, and `val` gives the new value from the old. -/
def State.crWrite (s : State) (f : Form) (r : BitVec 12) (sens m : Word) (val : Word → Word) : Out State :=
  let s' := s.closeHold s.cur
  let priv := s.me.priv
  if (priv = 0 ∧ 0x800 ≤ r.toNat) ∨ (priv ≠ 2 ∧ 0xC00 ≤ r.toNat) then .next (s.raise cPriv f.tval)
  else
    match s'.readCr s.cur r with
    | none => .next (s.raise cIllegal f.tval)
    | some old =>
      if priv = 0 ∧ svBits r &&& sens ≠ 0 then .next (s.raise cPriv f.tval)
      else if s.here.crWaits r then .next (s.stall 1)
      else .next ((s'.writeCr s.cur (decide (priv = 2)) r (val (old &&& ~~~(w1cBits r))) m).complete f 1 .seq)

/-- `crw` (R156). -/
def execCrw (r : BitVec 12) (d : Reg) (s : State) : Out State :=
  s.crWrite (w32 0 (.crw r d)) r (BitVec.allOnes 64) (BitVec.allOnes 64) fun _ => s.g d

/-- `crset` (R156). -/
def execCrset (r : BitVec 12) (d : Reg) (s : State) : Out State :=
  s.crWrite (w32 0 (.crset r d)) r (s.g d) (s.g d) fun old => old ||| s.g d

/-- `crclr` (R156). -/
def execCrclr (r : BitVec 12) (d : Reg) (s : State) : Out State :=
  s.crWrite (w32 0 (.crclr r d)) r (s.g d) (s.g d) fun old => old &&& ~~~(s.g d)

/-! ## The writes as events -/

/-- MX_REGISTER_WRITE (R266): a write of 0x200 to 0x208 applies once the interlock lets it. -/
def execMxRegisterWrite (c : CoreId) (num : BitVec 12) (val : Word) (s : State) : Out State :=
  if num.toNat < 0x200 ∨ 0x208 < num.toNat ∨ (s.core c).crWaits num then .next s
  else .next (s.modMx c fun m => m.writeCr num val)

/-- SNOP_WRITE (R284). -/
def execSnopWrite (c : CoreId) (val : Word) (s : State) : Out State :=
  if (s.core c).crWaits 0x210 then .next s else .next (s.modSn c fun n => { n with snop := snopWrite n.snop val })

/-- CHLIM_WRITE (R72): the write arms the seat's CHAIN check, which is pending at the next boundary where the span
already exceeds the limit. -/
def execChlimWrite (t : SeatId) (val : Word) (s : State) : Out State :=
  .next (s.modSeat t fun x => ({ x with chlim := val.extractLsb' 0 48, armed := true } : Seat).checkChain)

/-- REGISTER_WRITE (R156): a write of a control register, as crw at firmware privilege makes it. -/
def execRegisterWrite (t : SeatId) (num : BitVec 12) (val : Word) (s : State) : Out State :=
  if (s.readCr t num).isNone ∨ (s.core t.core).crWaits num then .next s
  else .next ((s.writeCr t true num val (BitVec.allOnes 64)).modSeat t Seat.checkChain)

end Sys2Proof.Machine
end

