-- ==== Sys2Proof/Machine/Float.lean ====
section
/-!
DEFINITION. The floating-point instructions on the g registers (R142 to R150) and their 16-bit aliases (R121).
-/

namespace Sys2Proof.Machine

/-- The format that the width bit names (R110). -/
def fmtOf (w : BitVec 1) : Fmt := if w = 0 then .f32 else .f64

/-- A floating-point source: an f32 takes the low half of its register (R144). -/
def fsrc (w : BitVec 1) (x : Word) : Nat := if w = 0 then x.toNat % 2 ^ 32 else x.toNat

/-- The rounding direction of the executing seat (R142). -/
def State.rm (s : State) : Rm := Rm.of s.me.frm

/-- Set flags of the executing seat (R143). -/
def State.setFlags (s : State) (f : BitVec 5) : State := s.modMe fun t => { t with fflags := t.fflags ||| f }

/-- An instruction that writes a result to one g register and raises flags. -/
def State.fpu (s : State) (f : Form) (d : Reg) (r : FRes) (cost : Nat) : Out State :=
  .next (((s.setG d (BitVec.ofNat 64 r.bits)).setFlags r.flags).complete f cost .seq)

/-- A comparison's result: one if it holds. -/
def cmpRes (x : Bool × BitVec 5) : FRes := ⟨if x.1 then 1 else 0, x.2⟩

/-- The span cost of a division or square root (R144). -/
def divCost (w : BitVec 1) : Nat := if w = 0 then 12 else 20

/-- fcvt by its code (R150). -/
def cvtRes (w : BitVec 1) (rm : Rm) (x : Word) (c : BitVec 5) : FRes :=
  let k := fmtOf w
  let res (r : Int × BitVec 5) : FRes := ⟨(r.1 % 2 ^ 64).toNat, r.2⟩
  if c = 0 then res (k.toInt rm (fsrc w x) (-(2 ^ 63)) (2 ^ 63 - 1))
  else if c = 1 then res (k.toInt rm (fsrc w x) 0 (2 ^ 64 - 1))
  else if c = 2 then k.ofInt rm x.toInt
  else if c = 3 then k.ofInt rm x.toNat
  else (fmtOf (1 - w)).convert k rm (fsrc w x)

/-- `fadd` (R147). -/
def execFadd (w : BitVec 1) (d a b : Reg) (s : State) : Out State :=
  s.fpu (w32 1 (.fadd w d a b)) d ((fmtOf w).add s.rm (fsrc w (s.g a)) (fsrc w (s.g b))) 4

/-- `fsub` (R147). -/
def execFsub (w : BitVec 1) (d a b : Reg) (s : State) : Out State :=
  s.fpu (w32 1 (.fsub w d a b)) d ((fmtOf w).sub s.rm (fsrc w (s.g a)) (fsrc w (s.g b))) 4

/-- `fmul` (R147). -/
def execFmul (w : BitVec 1) (d a b : Reg) (s : State) : Out State :=
  s.fpu (w32 1 (.fmul w d a b)) d ((fmtOf w).mul s.rm (fsrc w (s.g a)) (fsrc w (s.g b))) 4

/-- `fdiv` (R147). -/
def execFdiv (w : BitVec 1) (d a b : Reg) (s : State) : Out State :=
  s.fpu (w32 1 (.fdiv w d a b)) d ((fmtOf w).div s.rm (fsrc w (s.g a)) (fsrc w (s.g b))) (divCost w)

/-- `fma` (R147). -/
def execFma (w : BitVec 1) (d a b : Reg) (s : State) : Out State :=
  s.fpu (w32 1 (.fma w d a b)) d ((fmtOf w).fma s.rm (fsrc w (s.g a)) (fsrc w (s.g b)) (fsrc w (s.g d))) 4

/-- `fmin` (R148). -/
def execFmin (w : BitVec 1) (d a b : Reg) (s : State) : Out State :=
  s.fpu (w32 1 (.fmin w d a b)) d ((fmtOf w).minmax false (fsrc w (s.g a)) (fsrc w (s.g b))) 2

/-- `fmax` (R148). -/
def execFmax (w : BitVec 1) (d a b : Reg) (s : State) : Out State :=
  s.fpu (w32 1 (.fmax w d a b)) d ((fmtOf w).minmax true (fsrc w (s.g a)) (fsrc w (s.g b))) 2

/-- `fcmpEq` (R148). -/
def execFcmpEq (w : BitVec 1) (d a b : Reg) (s : State) : Out State :=
  s.fpu (w32 1 (.fcmpEq w d a b)) d (cmpRes ((fmtOf w).cmpEq (fsrc w (s.g a)) (fsrc w (s.g b)))) 2

/-- `fcmpLt` (R148). -/
def execFcmpLt (w : BitVec 1) (d a b : Reg) (s : State) : Out State :=
  s.fpu (w32 1 (.fcmpLt w d a b)) d (cmpRes ((fmtOf w).cmpLt (fsrc w (s.g a)) (fsrc w (s.g b)))) 2

/-- `fcmpLe` (R148). -/
def execFcmpLe (w : BitVec 1) (d a b : Reg) (s : State) : Out State :=
  s.fpu (w32 1 (.fcmpLe w d a b)) d (cmpRes ((fmtOf w).cmpLe (fsrc w (s.g a)) (fsrc w (s.g b)))) 2

/-- `fsgn` (R149). -/
def execFsgn (w : BitVec 1) (d a b : Reg) (s : State) : Out State :=
  s.fpu (w32 1 (.fsgn w d a b)) d ⟨(fmtOf w).withSign (fsrc w (s.g a)) ((fmtOf w).neg? (fsrc w (s.g b))), 0⟩ 2

/-- `fsgnN` (R149). -/
def execFsgnN (w : BitVec 1) (d a b : Reg) (s : State) : Out State :=
  s.fpu (w32 1 (.fsgnN w d a b)) d ⟨(fmtOf w).withSign (fsrc w (s.g a)) (!(fmtOf w).neg? (fsrc w (s.g b))), 0⟩ 2

/-- `fsgnX` (R149). -/
def execFsgnX (w : BitVec 1) (d a b : Reg) (s : State) : Out State :=
  s.fpu (w32 1 (.fsgnX w d a b)) d ⟨(fmtOf w).withSign (fsrc w (s.g a))
    ((fmtOf w).neg? (fsrc w (s.g a)) != (fmtOf w).neg? (fsrc w (s.g b))), 0⟩ 2

/-- `fsqrt` (R147). -/
def execFsqrt (w : BitVec 1) (d a : Reg) (s : State) : Out State :=
  s.fpu (w32 1 (.fsqrt w d a)) d ((fmtOf w).sqrt s.rm (fsrc w (s.g a))) (divCost w)

/-- `fclass` (R148). -/
def execFclass (w : BitVec 1) (d a : Reg) (s : State) : Out State :=
  s.fpu (w32 1 (.fclass w d a)) d ⟨2 ^ (fmtOf w).classBit (fsrc w (s.g a)), 0⟩ 2

/-- `fcvt` (R150); a code above 4 raises ILLEGAL (R110). -/
def execFcvt (w : BitVec 1) (d a : Reg) (c : BitVec 5) (s : State) : Out State :=
  if 4 < c.toNat then .next (s.raise cIllegal (Instr.fcvt w d a c).tval)
  else s.fpu (w32 1 (.fcvt w d a c)) d (cvtRes w s.rm (s.g a) c) 4

/-! ## The 16-bit aliases (R121) -/

/-- The parcel of `fadd.f32 gD, gD, gA`. -/
def execFaddF3216 (d a : Reg) (s : State) : Out State :=
  s.fpu (w16 (.faddF3216 d a)) d (Fmt.f32.add s.rm (fsrc 0 (s.g d)) (fsrc 0 (s.g a))) 4

/-- The parcel of `fadd.f64 gD, gD, gA`. -/
def execFaddF6416 (d a : Reg) (s : State) : Out State :=
  s.fpu (w16 (.faddF6416 d a)) d (Fmt.f64.add s.rm (fsrc 1 (s.g d)) (fsrc 1 (s.g a))) 4

/-- The parcel of `fsub.f32 gD, gD, gA`. -/
def execFsubF3216 (d a : Reg) (s : State) : Out State :=
  s.fpu (w16 (.fsubF3216 d a)) d (Fmt.f32.sub s.rm (fsrc 0 (s.g d)) (fsrc 0 (s.g a))) 4

/-- The parcel of `fsub.f64 gD, gD, gA`. -/
def execFsubF6416 (d a : Reg) (s : State) : Out State :=
  s.fpu (w16 (.fsubF6416 d a)) d (Fmt.f64.sub s.rm (fsrc 1 (s.g d)) (fsrc 1 (s.g a))) 4

/-- The parcel of `fmul.f32 gD, gD, gA`. -/
def execFmulF3216 (d a : Reg) (s : State) : Out State :=
  s.fpu (w16 (.fmulF3216 d a)) d (Fmt.f32.mul s.rm (fsrc 0 (s.g d)) (fsrc 0 (s.g a))) 4

/-- The parcel of `fmul.f64 gD, gD, gA`. -/
def execFmulF6416 (d a : Reg) (s : State) : Out State :=
  s.fpu (w16 (.fmulF6416 d a)) d (Fmt.f64.mul s.rm (fsrc 1 (s.g d)) (fsrc 1 (s.g a))) 4

end Sys2Proof.Machine
end

