-- ==== Sys2Proof/Machine/Network.lean ====
section
/-!
DEFINITION. Messages between injection and arrival (R212, R213, R396, R422 to R429, R441, R442): one event for a
header at a router, and SYS replies.
-/

namespace Sys2Proof.Machine

/-! ## Injection (R212) -/

/-- The routing word of a message (R425); on MC it names the rectangle by its first core, its rows and its columns. -/
def State.routingWord (s : State) (m : Msg) : Word :=
  let at_ (d : CoreId) : Nat × Nat × Nat := match s.part? m.part.toNat with
    | some p => (p.virt d).getD (0, 0, 0)
    | none => (0, 0, 0)
  let low (d : CoreId) : BitVec 39 :=
    let (v, r, c) := at_ d
    BitVec.ofNat 9 m.data.length ++ m.part ++ m.cls ++ coordWord v r c
  match m.rect.filter fun _ => decide (m.vn = .mc) with
  | some (x, y) =>
    BitVec.ofNat 8 ((at_ y).2.1 - (at_ x).2.1) ++ BitVec.ofNat 8 ((at_ y).2.2 - (at_ x).2.2) ++ 0#9 ++ low x
  | none => 0#15 ++ m.pkg.getD 0 ++ BitVec.ofBool m.pkg.isSome ++ low m.dst

/-- The accounting word. -/
def Msg.acctWord (m : Msg) : Word := m.work ++ BitVec.ofNat 24 m.age ++ m.seq ++ m.src

/-- The value of TENANT (R396). -/
def State.tenantValue (s : State) (m : Msg) : Word :=
  0#24 ++ m.seq ++ 0#8 ++ m.cls ++ (s.routingWord m).extractLsb' 0 18

/-- A router drops a message of a partition that is none of its own (R428). -/
def State.reject (s : State) (x : CoreId) (m : Msg) : State :=
  let s := s.modDie (dieOf x) fun d => { d with tviol := sat32 (d.tviol.toNat + 1), lpart := m.part }
  let s := if m.kind.isStolen then s.modCore m.dst fun k => k.dropped m else s
  s.sysReplyTo m cTenant (s.tenantValue m)

/-- The flits of a message: its header and its payload in pieces of 32 bytes (R425). -/
def Msg.flits (m : Msg) : Nat := 1 + (m.data.length + 31) / 32

/-- Whether two headers stand in one queue: the same network's buffer of one router input, with the crossing FIFO
before it. -/
def Flight.sameQueue (f g : Flight) : Bool :=
  decide (f.at_ = g.at_) && decide (f.from_ = g.from_) && decide (f.msg.vn = g.msg.vn)

/-- The flits of the headers of a list that stand in the queue of a flight, in its FIFO or in its buffer. -/
def Flight.ahead (f : Flight) (l : List Flight) : Nat :=
  ((l.filter fun g => f.sameQueue g && g.fifo == f.fifo).map fun g => g.msg.flits).sum

/-- Whether a header that leaves a router finds room. A crossing FIFO of 8 flits takes a message that fits beside those it
holds, and one of 9 flits once it is empty (R332). An input's buffer of MC holds 9 flits, those of packets that its core has
yet to accept among them (R429). -/
def State.hasRoom (s : State) (f : Flight) : Bool :=
  if f.fifo then decide (f.ahead s.net = 0) || decide (f.ahead s.net + f.msg.flits ≤ 8)
  else
    let here := ((s.core f.at_).inputs[f.from_]).filter fun m => decide (m.vn = .mc)
    !decide (f.msg.vn = .mc) || decide (f.ahead s.net + (here.map Msg.flits).sum + f.msg.flits ≤ 9)

/-- Put a message into the network at a core's router, which has room for it. One for another package passes that router and
goes to Fiold, if a plane reaches it (R441); its age there and in the sending port is a free value (R426). -/
def State.depart (s : State) (c : CoreId) (m : Msg) : Option State :=
  match m.pkg with
  | none =>
    let f : Flight := ⟨m, c, 0, false⟩
    if s.hasRoom f then some { s with net := s.net ++ [f] } else none
  | some pkg =>
    let p := s.cpPart c
    if !((s.core c).memb.getLsbD m.part.toNat) then some (s.reject c { m with pkg := none })
    else
      (s.planeFor (p.index_ c + p.index_ m.dst) pkg.toNat).map fun plane =>
        let m := { m with age := Nat.min (m.age + (Config.freeResidence s.frees).toNat) (2 ^ 24 - 1) }
        let q : FioldPacket := .message p.job (BitVec.ofNat 9 p.index) m.vn (s.routingWord m) m.tag.bits m.acctWord m.grp m.data
        ({ s with frees := s.frees + 1 } : State).toFiold plane pkg.toNat q

/-- Replace the injection queue of a network. -/
def State.setInj (s : State) (c : CoreId) (vn : VNet) (l : List Msg) : State :=
  s.modCore c fun k => { k with inj := k.inj.set (vnIndex vn) l }

/-- MESSAGE_INJECT (R212): the head of an injection queue enters the network once the sender's earlier stores have
performed. A sendg leaves by its copies, the last of which frees its entry; those that a stop recorded go first (R404). -/
def execMessageInject (c : CoreId) (vn : VNet) (s : State) : Out State :=
  match (s.core c).inj[vnIndex vn] with
  | [] => .next s
  | m :: r =>
    if m.after.any s.pending ∨ (vn = .am ∧ !m.rest.isEmpty) ∨ (vn ≠ .am ∧ (s.core c).copiesDue ≠ 0) then .next s
    else
      match s.depart c m with
      | some s => .next ((s.setInj c vn r).modCore c fun k => if vn = .am then { k with copiesDue := k.copiesDue - 1 } else k)
      | none => .next s

/-- SENDG_COPY (R212): the next copy of the sendg at the head of AM, in row-major order; none while the partition is
stopped (R404). -/
def execSendgCopy (c : CoreId) (s : State) : Out State :=
  match (s.core c).inj[vnIndex .am] with
  | [] => .next s
  | m :: r =>
    if m.after.any s.pending ∨ s.stopped c then .next s
    else
      match s.depart c { m with rest := [] }, m.rest with
      | some s, d :: ds => .next (s.setInj c .am ({ m with dst := d, rest := ds } :: r))
      | some s, [] => .next ((s.setInj c .am r).modCore c fun k => { k with copiesDue := k.copiesDue - 1 })
      | none, _ => .next s

/-! ## Routing (R424, R426, R428, R429) -/

/-- The route kind of a message: kind 0 on MC, else what its partition's map gives for its class. -/
def State.routeKind (s : State) (m : Msg) : BitVec 2 :=
  if m.vn = .mc then 0
  else
    let map := s.pkg.rkmap.get (2 * m.part.toNat + m.cls.toNat / 32) 0
    BitVec.ofNat 2 (map.toNat / 4 ^ (m.cls.toNat % 32) % 4)

/-- The next output from a router toward a core of its die, along the row first or the column first. -/
def nextDir (rowFirst : Bool) : CoreId → CoreId → Option Dir
  | .grid _ r c, .grid _ r' c' =>
    let along : Option Dir := if c < c' then some .east else if c' < c then some .west else none
    let across : Option Dir := if r < r' then some .south else if r' < r then some .north else none
    if rowFirst then (match along with | some d => some d | none => across)
    else match across with | some d => some d | none => along
  | _, _ => none

/-- The next output of a kind; kinds 2 and 3 ask the router's table, and take kind 0's path where it holds nothing. -/
def State.output (s : State) (kind : BitVec 2) (x dst : CoreId) : Option Dir :=
  if kind = 1 then nextDir false x dst
  else if kind = 0 then nextDir true x dst
  else if (s.core x).route.has (kind, dst) then some ((s.core x).route.get (kind, dst) .north)
  else nextDir true x dst

/-- Flights of one message from a router toward the destinations of one output: into the crossing FIFO where the link
joins two regions (R332). -/
def State.toward (s : State) (m : Msg) (x : CoreId) (dests : List CoreId) (d : Dir) : List Flight :=
  let kind := s.routeKind m
  match dests.filter fun y => decide (dieOf y = dieOf x) && decide (s.output kind x y = some d) with
  | [] => []
  | y :: ys =>
    let (n, i) := beside x d
    [⟨{ m with dst := y, rest := ys }, n, i, decide (s.regionOf n ≠ s.regionOf x)⟩]

/-- What leaves a router: a header for each output that its destinations need, and one for each core of another die,
which it reaches over a die-to-die link, whose FIFO it passes (R332), and through its local input. -/
def State.branches (s : State) (m : Msg) (x : CoreId) (dests : List CoreId) : List Flight :=
  let far := (dests.filter fun y => dieOf y ≠ dieOf x).map fun y =>
    (⟨{ m with dst := y, rest := [] }, y, 0, true⟩ : Flight)
  far ++ [Dir.north, Dir.east, Dir.south, Dir.west].flatMap (s.toward m x dests)

/-- Whether the header at place i of the network may move: none of its queue is ahead of it (R332, R356), and no message
of its network that R28 refuses stands at the core's input before it (R28). -/
def State.headOfQueue (s : State) (i : Nat) (f : Flight) : Bool :=
  ((s.net.take i).all fun g => !(f.sameQueue g && g.fifo == f.fifo)) &&
    (f.fifo ||
      ((s.core f.at_).inputs[f.from_]).all fun m => decide (m.vn ≠ f.msg.vn))

/-- HEADER_FORWARD (R332, R428): the i-th header of the network, if it is the first of its queue. From a crossing FIFO
it enters its router. At its router, where it has spent some cycles, in the FIFO too, it is checked, ages, and is
delivered to the core, sent on, or both, once every output that it needs has room. -/
def execHeaderForward (i cycles : Nat) (s : State) : Out State :=
  match s.net[i]? with
  | none => .next s
  | some f =>
    let x := f.at_
    let m := f.msg
    let rest := s.net.eraseIdx i
    let outs := s.branches m x ((m.dst :: m.rest).filter fun y => y ≠ x)
    if !s.headOfQueue i f then .next s
    else if f.fifo then
      let g : Flight := { f with fifo := false }
      if s.hasRoom g then .next { s with net := rest ++ [g] } else .next s
    else if !((s.core x).memb.getLsbD m.part.toNat) then .next (({ s with net := rest } : State).reject x m)
    else if !outs.all ({ s with net := rest } : State).hasRoom then .next s
    else
      let s : State := { s with net := rest }
      let age := Nat.min (m.age + toRef cycles (s.region (s.regionOf x)).rate) (2 ^ 24 - 1)
      let m := { m with age := age }
      let dests := m.dst :: m.rest
      let s := s.count x none 0x28 m.flits
      let s := if dests.contains x then
          let (n, s) := s.fresh
          s.modCore x fun k =>
            { k with inputs := k.inputs.set f.from_ (k.inputs[f.from_] ++ [{ m with dst := x, rest := [], came := n }]) }
        else s
      .next { s with net := s.net ++ s.branches m x (dests.filter fun y => y ≠ x) }

/-! ## SYS replies (R396) -/

/-- One more reply lost. -/
def Seat.loseReply (t : Seat) : Seat :=
  { t with tr := { t.tr with trlost := BitVec.ofNat 16 (Nat.min (t.tr.trlost.toNat + 1) 0xFFFF) } }

/-- SYS_REPLY (R396): a reply reaches its seat and becomes pending, or is dropped: four are pending already, or the
work that it belongs to has ended. -/
def execSysReply (i : Nat) (s : State) : Out State :=
  match s.replies[i]? with
  | none => .next s
  | some r =>
    let s : State := { s with replies := s.replies.eraseIdx i }
    let t := s.seat r.seat
    if t.work.isNone ∨ t.starts ≠ r.work then
      .next ((s.record (coreIndex r.seat.core) (s.traceRec 0x06 r.seat (natLe 8 r.cause.toNat ++ natLe 8 r.value.toNat ++
        natLe 4 r.grp.toNat ++ natLe 4 r.work.toNat))).modSeat r.seat Seat.loseReply)
    else if 4 ≤ t.pend.replies.length then .next (s.modSeat r.seat Seat.loseReply)
    else .next (s.modSeat r.seat fun t => { t with pend := { t.pend with replies := t.pend.replies ++ [(r.cause, r.value)] } })

end Sys2Proof.Machine
end

