-- ==== Sys2Proof/Machine/Operands.lean ====
section
/-!
DEFINITION. The operands of the vector instructions (R168 to R170, R125): widths, elements, predicates, and
channels as sources.
-/

namespace Sys2Proof.Machine

/-! ## Widths and elements (R168) -/

/-- The vector width of the executing seat in bytes: 64 on a core, 64 * K on a bench. -/
def State.vbytes (s : State) : Nat := 64 * s.k

/-- The element size of an integer type code (R107). -/
def intSize (ty : BitVec 2) : Nat := 2 ^ ty.toNat

/-- The format of a floating-point type code (R107). -/
def vfmt (ty : BitVec 2) : Fmt := if ty = 0 then .f16 else if ty = 1 then .bf16 else if ty = 2 then .f32 else .f64

/-- The element size of a floating-point type code. -/
def fpSize (ty : BitVec 2) : Nat := if ty.toNat ≤ 1 then 2 else if ty = 2 then 4 else 8

/-- The first count elements of n bytes. -/
def elemsOf (n : Nat) : Nat → Nat → List Nat
  | 0, _ => []
  | count + 1, x => x % 256 ^ n :: elemsOf n count (x / 256 ^ n)

/-- Elements of n bytes side by side, the first lowest. -/
def packElems (n : Nat) : List Nat → Nat
  | [] => 0
  | e :: r => e % 256 ^ n + 256 ^ n * packElems n r

/-- Element i of n bytes. -/
def elemAt (n i : Nat) (x : Nat) : Nat := x / 256 ^ (n * i) % 256 ^ n

/-- Whether element i of n bytes is active under a predicate. -/
def active (p : Pred) (n i : Nat) : Bool := p.getLsbD (n * i)

/-- The elements of a result: the new element where the predicate is set, and the old one elsewhere. Bytes beyond
the given elements keep their values. -/
def merge (n : Nat) (p : Pred) (old : VReg) (new : List Nat) : VReg :=
  let olds := elemsOf n new.length old.toNat
  let outs := (List.range new.length).map fun i => if active p n i then new.getD i 0 else olds.getD i 0
  let top := old.toNat / 256 ^ (n * new.length)
  BitVec.ofNat 8192 (packElems n outs + 256 ^ (n * new.length) * top)

/-- A v register of the executing seat. -/
def State.vr (s : State) (r : BitVec 5) : VReg := s.me.v[r.toNat]'r.isLt

/-- Write a v register of the executing seat. -/
def State.setV (s : State) (r : BitVec 5) (x : VReg) : State :=
  s.modMe fun t => { t with v := t.v.set r.toNat x r.isLt }

/-- A predicate of the executing seat; p0 reads all true over the width (R107, R125). -/
def State.pr (s : State) (p : BitVec 3) : Pred :=
  if p = 0 then BitVec.ofNat 1024 (2 ^ s.vbytes - 1) else s.me.p[p.toNat]'p.isLt

/-- Write a predicate of the executing seat; a write to p0 is discarded (R125). -/
def State.setP (s : State) (p : BitVec 3) (x : Pred) : State :=
  if p = 0 then s else s.modMe fun t => { t with p := t.p.set p.toNat x p.isLt }

/-- The low bits of a field of five that name a predicate. -/
def predName (r : BitVec 5) : BitVec 3 := r.extractLsb' 0 3

/-- Ones in the n byte lanes of element i. -/
def laneOnes (n i : Nat) : Nat := (2 ^ n - 1) * 2 ^ (n * i)

/-- A predicate with the lanes of the active elements set to the results. -/
def mergePred (n : Nat) (p : Pred) (old : Pred) (new : List Bool) : Pred :=
  let touched := (List.range new.length).foldl (fun m i => if active p n i then m ||| laneOnes n i else m) 0
  let ones := (List.range new.length).foldl
    (fun m i => if active p n i && new.getD i false then m ||| laneOnes n i else m) 0
  (old &&& ~~~BitVec.ofNat 1024 touched) ||| BitVec.ofNat 1024 ones

/-! ## Channels as sources (R38, R39, R170) -/

/-- Where a beat of m0 to m3 stands, in the message area of its core. -/
def State.beatHome (s : State) (c : CoreId) (b : Beat) : Nat :=
  tcmHome c (0x8000 - 0x400 * (s.core c).msz.toNat + 64 * b.granule)

/-- The bytes of a beat. -/
def State.beatBits (s : State) (c : CoreId) (b : Beat) : Nat := leNat (s.mem.bytes (s.beatHome c b) 64)

/-- Beats are read once their frames are their context's (R413). -/
def State.claimBeats (s : State) (c : CoreId) (l : List Beat) : State :=
  l.foldl (fun (s : State) b => s.claimHome c (s.beatHome c b)) s

/-- Reserve the first `n` free items of a list; none if there are fewer. -/
def reserve {α : Type} (taken : α → Option (Fin 4)) (mark : α → α) : Nat → List α → Option (List α × List α)
  | 0, l => some (l, [])
  | _ + 1, [] => none
  | n + 1, x :: r =>
    if (taken x).isNone then
      (reserve taken mark n r).map fun (l, got) => (mark x :: l, x :: got)
    else (reserve taken mark (n + 1) r).map fun (l, got) => (x :: l, got)

/-- The items that a seat's instruction has reserved, or those that it reserves now if its turn has come: it keeps its
own however long it is held (R170). -/
def take {α : Type} (taken : α → Option (Fin 4)) (mark : α → α) (i : Fin 4) (ready : Bool) (n : Nat) (l : List α) :
    Option (List α × List α) :=
  let mine := l.filter fun x => taken x = some i
  if !mine.isEmpty then some (l, mine) else if ready then reserve taken mark n l else none

/-- What reading a vector source gives: its bits, or how the instruction ends or waits instead. -/
inductive Source where
  | bits (x : Nat)
  | stop (s : State)
deriving DecidableEq, Repr

/-- Whether a seat's turn to read channel m has come: no other seat blocked on it before (R49). -/
def Core.turn (k : Core) (m : Fin 8) (i : Fin 4) : Bool :=
  match k.readers[m] with
  | x :: _ => decide (x = i)
  | [] => true

/-- A read of channel m that cannot be served yet: a stream seat blocks in its turn, and a handler seat raises
ILLEGAL (R26). -/
def State.blockOn (s : State) (f : Form) (m : Fin 8) : State :=
  if s.streaming then
    (s.modHere fun k =>
      { k with readers := k.readers.set m (if k.readers[m].contains s.cur.seat then k.readers[m]
          else k.readers[m] ++ [s.cur.seat]) }).block
  else s.raise cIllegal f.tval

/-- A seat is served by channel m: it no longer waits. -/
def Core.served (k : Core) (m : Fin 8) (i : Fin 4) : Core :=
  { k with readers := k.readers.set m (k.readers[m].filter fun x => x ≠ i) }

/-- The vb operand of a V form: a v register, or with c = 1 the oldest beats or vector of a channel, which are
reserved for the instruction from its first read (R170). -/
def State.vbOf (s : State) (f : Form) (v : VForm) : Source × State :=
  if v.c = 0 then (.bits (s.vr v.vb).toNat, s)
  else
    let i := s.cur.seat
    let all : Fin 8 := (v.vb.extractLsb' 0 3).toFin
    let m : Fin 4 := (v.vb.extractLsb' 0 2).toFin
    let ready := !s.streaming || s.here.turn all i
    if v.vb.getLsbD 2 then
      if s.bench.isSome then (.stop (s.raise cBench 0), s)
      else
        match take Prod.snd (fun x => (x.1, some i)) i ready 1 s.here.nchans[m] with
        | some (l, got) =>
          (.bits ((got.headD (0, none)).1).toNat,
            s.modHere fun k => ({ k with nchans := k.nchans.set m l } : Core).served all i)
        | none => (.stop (s.blockOn f all), s)
    else
      match take Beat.taken (fun b => { b with taken := some i }) i ready s.k s.here.chans[m] with
      | some (l, got) =>
        let s := s.claimBeats s.cur.core got
        (.bits (packElems 64 (got.map (s.beatBits s.cur.core))),
          s.modHere fun k => ({ k with chans := k.chans.set m l } : Core).served all i)
      | none => (.stop (s.blockOn f all), s)

/-- Consume the beats and vectors reserved for the executing seat, as its instruction completes: granules are
freed, and the tags of first beats are joined at no cost of their own (R38, R69). -/
def State.consume (s : State) (v : VForm) : State :=
  if v.c = 0 then s
  else
    let i := s.cur.seat
    let beats := s.here.chans.toList.flatMap fun l => l.filter fun b => decide (b.taken = some i)
    let tags := beats.filterMap fun b => b.first.map fun x => (x, b.key)
    let waited := s.waited
    let det := (s.det? s.cur.core).isSome
    let mine := s.keyFor 0
    let s := s.modHere fun k =>
      { (k.free (beats.map (·.granule))) with
        chans := k.chans.map fun l => l.filter fun b => !decide (b.taken = some i)
        nchans := k.nchans.map fun l => l.filter fun x => !decide (x.2 = some i) }
    let s := s.closeHold s.cur
    let join (a : Tag × Key) (x : (Tag × BitVec 32) × Key) : Tag × Key :=
      if (if det then a.2.lt x.2 else waited) then (chainJoin x.1 [a.1] 0, x.2)
      else (chainJoin (a.1, a.1.last) [x.1.1] 0, a.2)
    s.modMe fun t => { t with tag := (tags.foldl join (t.tag, mine)).1 }

end Sys2Proof.Machine
end

