-- ==== Sys2Proof/Machine/Vector.lean ====
section
/-!
DEFINITION. The vector instructions that reach no memory (R171 to R184).
-/

namespace Sys2Proof.Machine

/-! ## Element by element -/

/-- Two's complement of n bytes. -/
def wrapInt (n : Nat) (i : Int) : Nat := (i % (256 ^ n : Nat)).toNat

/-- An integer result raises no flag. -/
def plain (x : Nat) : FRes := ⟨x, 0⟩

/-- The flags of the active elements together (R174). -/
def flagsOf (n : Nat) (p : Pred) (rs : List FRes) : BitVec 5 :=
  (List.range rs.length).foldl (fun f i => if active p n i then f ||| (rs.getD i ⟨0, 0⟩).flags else f) 0

/-- An instruction that computes every active element of n bytes from those of va, vb and the old vd. -/
def State.vmap (s : State) (f : Form) (v : VForm) (n cost : Nat) (g : Nat → Nat → Nat → FRes) : Out State :=
  match s.vbOf f v with
  | (.stop s, _) => .next s
  | (.bits b, s) =>
    let count := s.vbytes / n
    let xs := elemsOf n count (s.vr v.va).toNat
    let ys := elemsOf n count b
    let zs := elemsOf n count (s.vr v.vd).toNat
    let rs := (List.range count).map fun i => g (xs.getD i 0) (ys.getD i 0) (zs.getD i 0)
    let p := s.pr v.p
    let old := s.vr v.vd
    .next ((((s.consume v).setV v.vd (merge n p old (rs.map (·.bits)))).setFlags (flagsOf n p rs)).complete f cost .seq)

/-- The dot product of four signed parts of a lane (R171). -/
def dot4 (n : Nat) (x y z : Nat) : Nat :=
  let m := n / 4
  let t := (List.range 4).foldl (fun (a : Int) k => a + signedOf m (elemAt m k x) * signedOf m (elemAt m k y)) 0
  wrapInt n ((z : Int) + t)

/-- The dot product of two floating-point parts of a lane with one rounding (R175). -/
def fdot2 (k src : Fmt) (rm : Rm) (x y z : Nat) : FRes :=
  let m := src.width / 8
  let a (i : Nat) := elemAt m i x
  let b (i : Nat) := elemAt m i y
  k.fused rm [(src, a 0), (src, a 1), (src, b 0), (src, b 1), (k, z)]
    [(src.dec (a 0)).mul (src.dec (b 0)), (src.dec (a 1)).mul (src.dec (b 1)), some (k.dec z)]

/-! ## Integer arithmetic and logic (R171, R172) -/

/-- `vadd` (R171). -/
def execVadd (f : VForm) (s : State) : Out State :=
  s.vmap (w32 1 (.vadd f)) f (intSize f.ty) 1 fun x y _ => plain (x + y)

/-- `vsub` (R171). -/
def execVsub (f : VForm) (s : State) : Out State :=
  let n := intSize f.ty
  s.vmap (w32 1 (.vsub f)) f n 1 fun x y _ => plain (wrapInt n ((x : Int) - y))

/-- `vmul` (R171). -/
def execVmul (f : VForm) (s : State) : Out State :=
  s.vmap (w32 1 (.vmul f)) f (intSize f.ty) 1 fun x y _ => plain (x * y)

/-- `vmadd` (R171). -/
def execVmadd (f : VForm) (s : State) : Out State :=
  s.vmap (w32 1 (.vmadd f)) f (intSize f.ty) 1 fun x y z => plain (x * y + z)

/-- `vmsub` (R171). -/
def execVmsub (f : VForm) (s : State) : Out State :=
  let n := intSize f.ty
  s.vmap (w32 1 (.vmsub f)) f n 1 fun x y z => plain (wrapInt n ((z : Int) - (x * y : Nat)))

/-- `vmin` (R171). -/
def execVmin (f : VForm) (s : State) : Out State :=
  let n := intSize f.ty
  s.vmap (w32 1 (.vmin f)) f n 1 fun x y _ => plain (if signedOf n x ≤ signedOf n y then x else y)

/-- `vmax` (R171). -/
def execVmax (f : VForm) (s : State) : Out State :=
  let n := intSize f.ty
  s.vmap (w32 1 (.vmax f)) f n 1 fun x y _ => plain (if signedOf n y ≤ signedOf n x then x else y)

/-- `vabs` (R171). -/
def execVabs (f : VForm) (s : State) : Out State :=
  let n := intSize f.ty
  s.vmap (w32 1 (.vabs f)) f n 1 fun x _ _ => plain (signedOf n x).natAbs

/-- `vneg` (R171). -/
def execVneg (f : VForm) (s : State) : Out State :=
  let n := intSize f.ty
  s.vmap (w32 1 (.vneg f)) f n 1 fun x _ _ => plain (wrapInt n (-signedOf n x))

/-- `vdot` (R171). -/
def execVdot (f : VForm) (s : State) : Out State :=
  let n := intSize f.ty
  s.vmap (w32 2 (.vdot f)) f n 6 fun x y z => plain (dot4 n x y z)

/-- `vand` (R172). -/
def execVand (f : VForm) (s : State) : Out State :=
  s.vmap (w32 1 (.vand f)) f (intSize f.ty) 1 fun x y _ => plain (x &&& y)

/-- `vor` (R172). -/
def execVor (f : VForm) (s : State) : Out State :=
  s.vmap (w32 1 (.vor f)) f (intSize f.ty) 1 fun x y _ => plain (x ||| y)

/-- `vxor` (R172). -/
def execVxor (f : VForm) (s : State) : Out State :=
  s.vmap (w32 1 (.vxor f)) f (intSize f.ty) 1 fun x y _ => plain (x ^^^ y)

/-- `vshl` (R172). -/
def execVshl (f : VForm) (s : State) : Out State :=
  let n := intSize f.ty
  s.vmap (w32 1 (.vshl f)) f n 1 fun x y _ => plain (x * 2 ^ (y % (8 * n)))

/-- `vshr` (R172). -/
def execVshr (f : VForm) (s : State) : Out State :=
  let n := intSize f.ty
  s.vmap (w32 1 (.vshr f)) f n 1 fun x y _ => plain (x / 2 ^ (y % (8 * n)))

/-- `vsra` (R172). -/
def execVsra (f : VForm) (s : State) : Out State :=
  let n := intSize f.ty
  s.vmap (w32 1 (.vsra f)) f n 1 fun x y _ => plain (wrapInt n (signedOf n x / 2 ^ (y % (8 * n))))

/-! ## Floating-point arithmetic (R174, R175, R181) -/

/-- `vaddFp` (R174). -/
def execVaddFp (f : VForm) (s : State) : Out State :=
  s.vmap (w32 2 (.vaddFp f)) f (fpSize f.ty) 4 fun x y _ => (vfmt f.ty).add s.rm x y

/-- `vsubFp` (R174). -/
def execVsubFp (f : VForm) (s : State) : Out State :=
  s.vmap (w32 2 (.vsubFp f)) f (fpSize f.ty) 4 fun x y _ => (vfmt f.ty).sub s.rm x y

/-- `vmulFp` (R174). -/
def execVmulFp (f : VForm) (s : State) : Out State :=
  s.vmap (w32 2 (.vmulFp f)) f (fpSize f.ty) 4 fun x y _ => (vfmt f.ty).mul s.rm x y

/-- `vmaddFp` (R174). -/
def execVmaddFp (f : VForm) (s : State) : Out State :=
  s.vmap (w32 2 (.vmaddFp f)) f (fpSize f.ty) 4 fun x y z => (vfmt f.ty).fma s.rm x y z

/-- `vmsubFp` (R174). -/
def execVmsubFp (f : VForm) (s : State) : Out State :=
  s.vmap (w32 2 (.vmsubFp f)) f (fpSize f.ty) 4 fun x y z => (vfmt f.ty).fmsub s.rm x y z

/-- `vminFp` (R174). -/
def execVminFp (f : VForm) (s : State) : Out State :=
  s.vmap (w32 2 (.vminFp f)) f (fpSize f.ty) 4 fun x y _ => (vfmt f.ty).minmax false x y

/-- `vmaxFp` (R174). -/
def execVmaxFp (f : VForm) (s : State) : Out State :=
  s.vmap (w32 2 (.vmaxFp f)) f (fpSize f.ty) 4 fun x y _ => (vfmt f.ty).minmax true x y

/-- `vabsFp` (R174). -/
def execVabsFp (f : VForm) (s : State) : Out State :=
  s.vmap (w32 2 (.vabsFp f)) f (fpSize f.ty) 2 fun x _ _ => plain ((vfmt f.ty).withSign x false)

/-- `vnegFp` (R174). -/
def execVnegFp (f : VForm) (s : State) : Out State :=
  s.vmap (w32 2 (.vnegFp f)) f (fpSize f.ty) 2 fun x _ _ => plain ((vfmt f.ty).withSign x (!(vfmt f.ty).neg? x))

/-- `vdotFp` (R175). -/
def execVdotFp (f : VForm) (s : State) : Out State :=
  s.vmap (w32 3 (.vdotFp f)) f (fpSize f.ty) 6 fun x y z => fdot2 (vfmt f.ty) (if f.ty = 3 then .f32 else .bf16) s.rm x y z

/-- `vsf` (R181, R182). -/
def execVsf (f : VForm) (s : State) : Out State :=
  s.vmap (w32 3 (.vsf f)) f (fpSize f.ty) 8 fun x _ _ => (vfmt f.ty).special s.rm (f.vb.extractLsb' 0 3) x

/-! ## Comparisons (R176) -/

/-- An integer comparison by its condition: eq, ne, lt, le. -/
def icmp (n : Nat) (cond : BitVec 2) (x y : Nat) : Bool × BitVec 5 :=
  let a := signedOf n x
  let b := signedOf n y
  (if cond = 0 then decide (a = b) else if cond = 1 then decide (a ≠ b)
    else if cond = 2 then decide (a < b) else decide (a ≤ b), 0)

/-- A floating-point comparison by its condition. -/
def fcmp (k : Fmt) (cond : BitVec 2) (x y : Nat) : Bool × BitVec 5 :=
  if cond = 0 then k.cmpEq x y
  else if cond = 1 then (!(k.cmpEq x y).1, (k.cmpEq x y).2)
  else if cond = 2 then k.cmpLt x y
  else k.cmpLe x y

/-- A comparison of active elements into a predicate. -/
def State.vcompare (s : State) (f : Form) (v : VForm) (n cost : Nat) (g : Nat → Nat → Bool × BitVec 5) : Out State :=
  match s.vbOf f v with
  | (.stop s, _) => .next s
  | (.bits b, s) =>
    let count := s.vbytes / n
    let xs := elemsOf n count (s.vr v.va).toNat
    let ys := elemsOf n count b
    let rs := (List.range count).map fun i => g (xs.getD i 0) (ys.getD i 0)
    let p := s.pr v.p
    let new := mergePred n p (s.pr (predName v.vd)) (rs.map (·.1))
    .next ((((s.consume v).setP (predName v.vd) new).setFlags
      (flagsOf n p (rs.map fun r => ⟨0, r.2⟩))).complete f cost .seq)

/-- `vcmp` with an integer type. -/
def execVcmp (f : VForm) (s : State) : Out State :=
  s.vcompare (w32 1 (.vcmp f)) f (intSize f.ty) 1 (icmp (intSize f.ty) (f.vd.extractLsb' 3 2))

/-- `vcmp` with a floating-point type. -/
def execVcmpFp (f : VForm) (s : State) : Out State :=
  s.vcompare (w32 2 (.vcmpFp f)) f (fpSize f.ty) 2 (fcmp (vfmt f.ty) (f.vd.extractLsb' 3 2))

/-! ## Reductions (R177) -/

/-- One level of the tree: neighbours are combined; an absent element leaves its partner as it is. -/
def pairUp (op : Nat → Nat → FRes) : List (Option FRes) → List (Option FRes)
  | some x :: some y :: r =>
    some ⟨(op x.bits y.bits).bits, x.flags ||| y.flags ||| (op x.bits y.bits).flags⟩ :: pairUp op r
  | some x :: none :: r => some x :: pairUp op r
  | none :: y :: r => y :: pairUp op r
  | l => l

/-- The tree over 2^k elements. -/
def treeOf (op : Nat → Nat → FRes) : Nat → List (Option FRes) → List (Option FRes)
  | 0, l => l
  | k + 1, l => treeOf op k (pairUp op l)

/-- A reduction of the active elements of va into element 0 of vd. -/
def State.vreduce (s : State) (f : Form) (v : VForm) (n : Nat) (op : Nat → Nat → FRes) (identity : Nat) : Out State :=
  let count := s.vbytes / n
  let p := s.pr v.p
  let xs := elemsOf n count (s.vr v.va).toNat
  let ts := (List.range count).map fun i => if active p n i then some (plain (xs.getD i 0)) else none
  let r := ((treeOf op count.log2 ts).headD none).getD (plain identity)
  let old := s.vr v.vd
  let new := merge n (BitVec.allOnes 1024) old [r.bits]
  .next (((s.setV v.vd new).setFlags r.flags).complete f 6 .seq)

/-- `vredAdd` with an integer type. -/
def execVredAdd (f : VForm) (s : State) : Out State :=
  let n := intSize f.ty
  s.vreduce (w32 2 (.vredAdd f)) f n (fun x y => plain ((x + y) % 256 ^ n)) 0

/-- `vredMax` with an integer type. -/
def execVredMax (f : VForm) (s : State) : Out State :=
  let n := intSize f.ty
  s.vreduce (w32 2 (.vredMax f)) f n (fun x y => plain (if signedOf n y ≤ signedOf n x then x else y)) (256 ^ n / 2)

/-- `vredMin` with an integer type. -/
def execVredMin (f : VForm) (s : State) : Out State :=
  let n := intSize f.ty
  s.vreduce (w32 2 (.vredMin f)) f n (fun x y => plain (if signedOf n x ≤ signedOf n y then x else y)) (256 ^ n / 2 - 1)

/-- `vredAddFp` with a floating-point type. -/
def execVredAddFp (f : VForm) (s : State) : Out State :=
  let k := vfmt f.ty
  s.vreduce (w32 2 (.vredAddFp f)) f (fpSize f.ty) (k.add s.rm) 0

/-- `vredMaxFp` with a floating-point type. -/
def execVredMaxFp (f : VForm) (s : State) : Out State :=
  let k := vfmt f.ty
  s.vreduce (w32 2 (.vredMaxFp f)) f (fpSize f.ty) (k.minmax true) (k.sign true k.infCode)

/-- `vredMinFp` with a floating-point type. -/
def execVredMinFp (f : VForm) (s : State) : Out State :=
  let k := vfmt f.ty
  s.vreduce (w32 2 (.vredMinFp f)) f (fpSize f.ty) (k.minmax false) k.infCode

/-! ## Permutes (R173) -/

/-- `vsel`: the predicate selects, and every element is written. -/
def execVsel (f : VForm) (s : State) : Out State :=
  let fm := w32 1 (.vsel f)
  match s.vbOf fm f with
  | (.stop s, _) => .next s
  | (.bits b, s) =>
    let n := intSize f.ty
    let count := s.vbytes / n
    let xs := elemsOf n count (s.vr f.va).toNat
    let ys := elemsOf n count b
    let p := s.pr f.p
    let rs := (List.range count).map fun i => if active p n i then xs.getD i 0 else ys.getD i 0
    let old := s.vr f.vd
    .next (((s.consume f).setV f.vd (merge n (BitVec.allOnes 1024) old rs)).complete fm 1 .seq)

/-- `vbcast`. -/
def execVbcast (f : VForm) (s : State) : Out State :=
  let n := intSize f.ty
  let x := (s.g f.va).toNat % 256 ^ n
  .next ((s.setV f.vd (merge n (s.pr f.p) (s.vr f.vd) (List.replicate (s.vbytes / n) x))).complete
    (w32 1 (.vbcast f)) 1 .seq)

/-- `vperm`: va is the table and vb the index. -/
def execVperm (f : VForm) (s : State) : Out State :=
  let fm := w32 1 (.vperm f)
  match s.vbOf fm f with
  | (.stop s, _) => .next s
  | (.bits b, s) =>
    let n := intSize f.ty
    let count := s.vbytes / n
    let xs := elemsOf n count (s.vr f.va).toNat
    let ys := elemsOf n count b
    let rs := ys.map fun y => xs.getD (y % count) 0
    let old := s.vr f.vd
    .next (((s.consume f).setV f.vd (merge n (s.pr f.p) old rs)).complete fm 1 .seq)

/-- `vshift`: a positive gB moves elements toward element 0, and elements from beyond the ends are zero. -/
def execVshift (f : VForm) (s : State) : Out State :=
  let n := intSize f.ty
  let count := s.vbytes / n
  let xs := elemsOf n count (s.vr f.va).toNat
  let d := (s.g f.vb).toInt
  let rs := (List.range count).map fun (i : Nat) =>
    let j : Int := i + d
    if 0 ≤ j ∧ j < count then xs.getD j.toNat 0 else 0
  .next ((s.setV f.vd (merge n (s.pr f.p) (s.vr f.vd) rs)).complete (w32 1 (.vshift f)) 1 .seq)

/-! ## Conversions (R178 to R180) -/

/-- A conversion: the sizes of its source and destination, and its effect on one element. -/
structure Conv where
  src : Nat
  dst : Nat
  op : Nat → FRes

/-- Floating point to floating point. -/
def convFp (d s : Fmt) (rm : Rm) : Conv := ⟨s.width / 8, d.width / 8, d.vconvert s rm⟩

/-- Floating point to a signed integer of n bytes. -/
def convToInt (n : Nat) (k : Fmt) (rm : Rm) : Conv :=
  ⟨k.width / 8, n, fun x =>
    let r := k.toInt rm x (-(256 ^ n / 2 : Nat)) ((256 ^ n / 2 : Nat) - 1)
    ⟨wrapInt n r.1, r.2⟩⟩

/-- A signed integer of n bytes to floating point. -/
def convOfInt (n : Nat) (k : Fmt) (rm : Rm) : Conv := ⟨n, k.width / 8, fun x => k.ofInt rm (signedOf n x)⟩

/-- An integer narrowing, which clamps and then sets OF. -/
def convClamp (src dst : Nat) : Conv :=
  ⟨src, dst, fun x =>
    let i := signedOf src x
    let hi : Int := (256 ^ dst / 2 : Nat) - 1
    let lo : Int := -(256 ^ dst / 2 : Nat)
    if hi < i then ⟨wrapInt dst hi, flagOF⟩ else if i < lo then ⟨wrapInt dst lo, flagOF⟩ else plain (wrapInt dst i)⟩

/-- The conversion of a code of R178. -/
def convOf (rm : Rm) (c : BitVec 5) : Option Conv :=
  match c.toNat with
  | 0 => some (convFp .f16 .f32 rm)
  | 1 => some (convFp .bf16 .f32 rm)
  | 2 => some (convFp .f32 .f16 rm)
  | 3 => some (convFp .f32 .bf16 rm)
  | 4 => some (convFp .f64 .f32 rm)
  | 5 => some (convFp .f32 .f64 rm)
  | 6 => some (convFp .e4m3 .f32 rm)
  | 7 => some (convFp .e5m2 .f32 rm)
  | 8 => some (convFp .f32 .e4m3 rm)
  | 9 => some (convFp .f32 .e5m2 rm)
  | 10 => some (convToInt 4 .f32 rm)
  | 11 => some (convOfInt 4 .f32 rm)
  | 12 => some (convToInt 8 .f64 rm)
  | 13 => some (convOfInt 8 .f64 rm)
  | 14 => some ⟨1, 4, fun x => plain (wrapInt 4 (signedOf 1 x))⟩
  | 15 => some ⟨1, 4, plain⟩
  | 16 => some (convClamp 4 1)
  | 17 => some (convClamp 4 2)
  | 18 => some ⟨2, 4, fun x => plain (wrapInt 4 (signedOf 2 x))⟩
  | _ => none

/-- `vcvt`: the part q of R179 is in ty. A code above 18, or a part at or above the ratio, raises ILLEGAL. -/
def execVcvt (f : VForm) (s : State) : Out State :=
  let fm := w32 1 (.vcvt f)
  match convOf s.rm f.vb with
  | none => .next (s.raise cIllegal fm.tval)
  | some c =>
    let wide := Nat.max c.src c.dst
    if wide / Nat.min c.src c.dst ≤ f.ty.toNat then .next (s.raise cIllegal fm.tval)
    else
      let count := s.vbytes / wide
      let part := f.ty.toNat * count
      let from_ := if c.dst < c.src then 0 else if c.src < c.dst then part else 0
      let lo := if c.dst < c.src then part else 0
      let xs := elemsOf c.src (s.vbytes / c.src) (s.vr f.va).toNat
      let rs := (List.range count).map fun i => c.op (xs.getD (i + from_) 0)
      let olds := elemsOf c.dst (s.vbytes / c.dst) (s.vr f.vd).toNat
      let all := (List.range (s.vbytes / c.dst)).map fun j =>
        if lo ≤ j ∧ j < lo + count then rs.getD (j - lo) ⟨0, 0⟩ else ⟨olds.getD j 0, 0⟩
      let p := s.pr f.p
      .next (((s.setV f.vd (merge c.dst p (s.vr f.vd) (all.map (·.bits)))).setFlags
        (flagsOf c.dst p all)).complete fm 4 .seq)

/-! ## Predicates and width (R183, R184) -/

/-- An instruction that writes a predicate. -/
def State.pwrite (s : State) (f : Form) (d : BitVec 5) (x : Pred) : Out State :=
  .next ((s.setP (predName d) x).complete f 1 .seq)

/-- All the bits of a predicate over the executing seat's width. -/
def State.allLanes (s : State) : Pred := s.pr 0

/-- `pand`. -/
def execPand (f : VForm) (s : State) : Out State :=
  s.pwrite (w32 0 (.pand f)) f.vd (s.pr (predName f.va) &&& s.pr (predName f.vb))

/-- `por`. -/
def execPor (f : VForm) (s : State) : Out State :=
  s.pwrite (w32 0 (.por f)) f.vd (s.pr (predName f.va) ||| s.pr (predName f.vb))

/-- `pxor`. -/
def execPxor (f : VForm) (s : State) : Out State :=
  s.pwrite (w32 0 (.pxor f)) f.vd (s.pr (predName f.va) ^^^ s.pr (predName f.vb))

/-- `pnot`. -/
def execPnot (f : VForm) (s : State) : Out State :=
  s.pwrite (w32 0 (.pnot f)) f.vd (~~~s.pr (predName f.va) &&& s.allLanes)

/-- `pcount`. -/
def execPcount (f : VForm) (s : State) : Out State :=
  let n := intSize f.ty
  let p := s.pr (predName f.va)
  s.alu (w32 0 (.pcount f)) f.vd (BitVec.ofNat 64 ((List.range (s.vbytes / n)).filter (active p n)).length) 1

/-- `pfirst`: the lowest active element, or their number if there is none. -/
def execPfirst (f : VForm) (s : State) : Out State :=
  let n := intSize f.ty
  let p := s.pr (predName f.va)
  s.alu (w32 0 (.pfirst f)) f.vd (BitVec.ofNat 64 ((List.range (s.vbytes / n)).findIdx (active p n))) 1

/-- `vbound`. -/
def execVbound (f : VForm) (s : State) : Out State :=
  let n := intSize f.ty
  let a := (s.g f.va).toNat
  let b := (s.g f.vb).toNat
  let x := (List.range (s.vbytes / n)).foldl (fun m i => if a + i < b then m ||| laneOnes n i else m) 0
  s.pwrite (w32 0 (.vbound f)) f.vd (BitVec.ofNat 1024 x)

/-- `vwidth`. -/
def execVwidth (f : VForm) (s : State) : Out State :=
  s.alu (w32 0 (.vwidth f)) f.vd (BitVec.ofNat 64 (s.vbytes / intSize f.ty)) 1

end Sys2Proof.Machine
end

