-- ==== Sys2Proof/Machine/VectorMem.lean ====
section
/-!
DEFINITION. The vector instructions that reach memory (R185 to R190, R201). All elements are checked first; then
the accesses follow one at a time, so that other agents act between them, and the seat waits (log entry 9).
-/

namespace Sys2Proof.Machine

/-! ## Elements and their checks (R185, R188, R189) -/

/-- An active element: its number, what its bounds give, and cr.tval of a WINDOW under OOB 2. -/
structure VElem where
  i : Nat
  el : Elem
  tval : Word
deriving DecidableEq, Repr

/-- The active elements of an instruction with elements of n bytes. -/
def State.vactive (s : State) (p : BitVec 3) (n : Nat) : List Nat :=
  (List.range (s.vbytes / n)).filter fun i => active (s.pr p) n i

/-- Elements at consecutive addresses (R185). -/
def State.vseq (s : State) (v : VForm) (n : Nat) : List VElem :=
  (s.vactive v.p n).map fun i => ⟨i, .at_ (s.g v.va + (s.g v.vb + BitVec.ofNat 64 i) * BitVec.ofNat 64 n), 0⟩

/-- Elements of a row through a tensor map (R188). -/
def State.vrow (s : State) (v : VForm) (load : Bool) : Nat × List VElem :=
  let m := s.tmap (v.vb.extractLsb' 0 4)
  let n := fmtSize m.fmt
  let x := ((s.g v.va).extractLsb' 0 32).toInt
  let y := ((s.g v.va).extractLsb' 32 32).toInt
  (n, (s.vactive v.p n).map fun i => ⟨i, m.elem (x + i) y load, coordPair (x + i) y⟩)

/-- Elements at indexed addresses (R185). -/
def State.vidx (s : State) (v : VForm) (n : Nat) (idx : Nat) : List VElem :=
  (s.vactive v.p n).map fun i => ⟨i, .at_ (s.g v.va + BitVec.ofNat 64 (elemAt n i idx * n)), 0⟩

/-- What the checks of the elements give: the elements to access, with the largest load cost so far; a wait for a
translation; or a trap. -/
inductive Checked where
  | ok (cost : Nat)
  | wait
  | trap (cause : BitVec 6) (tval : Word)
deriving DecidableEq, Repr

/-- Check the elements in ascending order, each wholly before the next (R189). -/
def State.vcheck (s : State) (n : Nat) (a : Access) (cost : Nat) : List VElem → Checked × State
  | [] => (.ok cost, s)
  | e :: r =>
    match e.el with
    | .out => (.trap cWindow e.tval, s)
    | .at_ va =>
      match s.reach va n a with
      | (.trap c t, s) => (.trap c t, s)
      | (.wait, s) => (.wait, s)
      | (.mem _ readAt _, s) => s.vcheck n a (Nat.max cost (s.loadCost s.cur.core va readAt)) r
      | (_, s) => s.vcheck n a cost r
    | _ => s.vcheck n a cost r

/-- The elements that reach memory, with their addresses. -/
def toAccess (es : List VElem) : List (Nat × Word) :=
  es.filterMap fun e =>
    match e.el with
    | .at_ va => some (e.i, va)
    | _ => none

/-- Zeros in the elements that read as zero. -/
def zeroElems (n : Nat) (es : List VElem) (v : VReg) : VReg :=
  es.foldl (fun v e => if e.el = .zero then setElem n e.i 0 v else v) v

/-- The accesses of a run of elements (R190): consecutive elements of one 64-byte line are one access, or each
element is its own. -/
def accesses (each : Bool) : List (Nat × Word) → List (List (Nat × Word))
  | [] => []
  | e :: r =>
    match accesses each r with
    | (x :: g) :: rest =>
      if !each && decide (e.2.toNat / 64 = x.2.toNat / 64) then (e :: x :: g) :: rest else [e] :: (x :: g) :: rest
    | rest => [e] :: rest

/-! ## Loads -/

/-- Whether an access of the executing seat's vector load is under way on another die. -/
def State.lanesOut (s : State) : Bool :=
  s.me.outs.any fun o =>
    match o.dest with
    | .lanes _ _ _ => true
    | _ => false

/-- Complete a vector load that has all its data. -/
def State.vloadDone (s : State) (f : Form) (v : VForm) (vp : VProg) : State :=
  ((((s.consume v).setV v.vd vp.data).modMe fun t => { t with vprog := none })).complete f vp.cost .seq

/-- Keep a vector load with what it has so far, or complete it after its last access, once nothing is under way. -/
def State.vloadPut (s : State) (f : Form) (v : VForm) (vp : VProg) : State :=
  if vp.todo.isEmpty && !s.lanesOut then s.vloadDone f v vp
  else (s.modMe fun t => { t with vprog := some vp }).holdMe 10 false false

/-- Go on with a vector load: perform its next access, and complete after the last. A line on another die is asked for,
and the accesses after it follow. -/
def State.vloadGo (s : State) (f : Form) (v : VForm) (each : Bool) (vp : VProg) : State :=
  let n := vp.n
  match accesses each vp.todo with
  | [] => if s.lanesOut then s.holdMe 10 false false else s.vloadDone f v vp
  | g :: rest =>
    let va := (g.headD (0, 0)).2
    let line := va.toNat / 64 * 64
    let len := ((g.getLast?).getD (0, va)).2.toNat - va.toNat + n
    let vp' : VProg := { vp with todo := rest.flatten }
    match s.reach va n .load with
    | (.trap c t, s) => s.raise c t
    | (.wait, s) => (s.modMe fun t => { t with vprog := some vp }).stall 4
    | (.paged, s) => s.raise cLoadFault va
    | (.engine _ _, s) => s.vloadPut f v { vp' with data := fillElems n g [] vp.data }
    | (.classes o, s) =>
      let bs := overlay (s.forwarded noHome (BitVec.ofNat 64 line) 64) (s.here.classBytes (o / 64 * 64) 64)
      s.vloadPut f v { vp' with data := fillElems n g bs vp.data }
    | (.tmaps o, s) => s.vloadPut f v { vp' with data := fillElems n g (s.here.tmapBytes (o / 64 * 64) 64) vp.data }
    | (.mem home readAt pte, s) =>
      if (match pte with
          | some e => e.repl && (s.replWait home readAt || s.replLinked home)
          | none => false) then (s.modMe fun t => { t with vprog := some vp }).stall 4
      else
        s.atHome vp.cost home fun s => s.onBanks readAt len fun s =>
          let s := s.claimHome s.cur.core home
          let s := match pte with
            | some e => s.countPage s.cur.core e
            | none => s
          let fw := s.forwarded (home - va.toNat % 64) (BitVec.ofNat 64 line) 64
          let from_ := readAt - va.toNat % 64
          let need := (g.flatMap fun e => (List.range n).map fun j => e.2.toNat % 64 + j).filter fun j =>
            (fw.getD j none).isNone
          if dieOfHome readAt = dieOf s.cur.core ∨ need.isEmpty then
            if need.any fun j => s.badIn (from_ + j) 1 then s.raise cEcc va
            else
              let bytes := overlay fw (s.mem.bytes from_ 64)
              let s := s.countInput.correctAt s.cur.core (need.map fun j => from_ + j)
              s.vloadPut f v { vp' with data := fillElems n g bytes vp.data }
          else
            let (id, s) := s.countInput.fresh
            let p := { s.packet id home va 64 vp.cost pte (.request .load s.cur (need.map fun j => from_ + j)) with
              base := from_ }
            let s := s.sendPacket (dieOf s.cur.core) (dieOfHome readAt) p
            let s := s.keepOut ⟨id, s.me.pc, va, .lanes n g fw, vp.cost, none, false, false⟩
            (s.modMe fun t => { t with vprog := some vp' }).holdMe 10 false false

/-- A vector load: its checks at the first attempt, and then its accesses. -/
def State.vload (s : State) (f : Form) (v : VForm) (n : Nat) (each : Bool) (extra : Nat) (es : List VElem) :
    State :=
  match s.me.vprog with
  | some vp => s.vloadGo f v each vp
  | none =>
    match s.vcheck n .load 2 es with
    | (.trap c t, s) => s.raise c t
    | (.wait, s) => s.stall 4
    | (.ok cost, s) => s.vloadGo f v each ⟨false, n, toAccess es, zeroElems n es (s.vr v.vd),
        if es.isEmpty then 2 else cost + extra, [], 0, 0⟩

/-! ## Stores -/

/-- One access of a vector store as a line and its bytes. -/
def lineBytes (n : Nat) (g : List (Nat × Word)) (data : VReg) : List (Option Byte) :=
  g.foldl (fun l e =>
    let bs := natLe n (elemAt n e.1 data.toNat)
    let o := e.2.toNat % 64
    l.take o ++ (bs.map some ++ l.drop (o + n))) (List.replicate 64 none)

/-- The runs of bytes that a line writes, with the offset of each. -/
def lineRuns (l : List (Option Byte)) : List (Nat × Byte) :=
  (List.range 64).filterMap fun j => (l.getD j none).map fun b => (j, b)

/-- Whether some access of a vector store goes to the tensor maps. -/
def State.reachesMaps (s : State) (gs : List (List (Nat × Word))) : Bool :=
  gs.any fun g =>
    match s.spot s.cur.core s.bench (g.headD (0, 0)).2 with
    | .tmaps _ => true
    | _ => false

/-- Place the accesses of a vector store in the store buffer, or wait for room; an access to the tensor maps is
not buffered (R187). `done` holds what has been placed so far and the counts before it. -/
def State.vplace (s : State) (f : Form) (v : VForm) (n : Nat) (data : VReg) (done : List Nat × BitVec 16 × BitVec 32) :
    List (List (Nat × Word)) → State
  | [] => ((s.consume v).modMe fun t => { t with vprog := none }).complete f 1 .seq
  | g :: rest =>
    let va := (g.headD (0, 0)).2
    let line := BitVec.ofNat 64 (va.toNat / 64 * 64)
    let bytes := lineBytes n g data
    let wait (s : State) : State :=
      (if done.1.isEmpty then s
        else s.modMe fun t => { t with vprog := some ⟨true, n, (g :: rest).flatten, data, 1, done.1, done.2.1, done.2.2⟩ }).stall 4
    match s.spot s.cur.core s.bench va with
    | .tmaps o =>
      if (s.unperformed s.cur).isEmpty then
        (s.modHere fun k => (lineRuns bytes).foldl (fun k b => k.writeTmaps (o / 64 * 64 + b.1) [b.2]) k).vplace
          f v n data done rest
      else wait s
    | _ =>
      if 16 ≤ s.slots s.cur.core then wait s
      else
        let (id, s) := s.append line bytes true false [] 1
        s.vplace f v n data (done.1 ++ [id], done.2) rest

/-- A vector store: its checks at the first attempt, and then its entries. Entries that the buffer can hold together are
placed together, once there is room for all; only a store with more of them, or one that reaches the tensor maps, places
them as room appears (log entry 9). -/
def State.vstore (s : State) (f : Form) (v : VForm) (n : Nat) (each : Bool) (es : List VElem) : State :=
  match s.me.vprog with
  | some vp => s.vplace f v vp.n vp.data (vp.placed, vp.seq0, vp.inputs0) (accesses each vp.todo)
  | none =>
    match s.vcheck n .store 1 es with
    | (.trap c t, s) => s.raise c t
    | (.wait, s) => s.stall 4
    | (.ok _, s) =>
      let gs := accesses each (toAccess es)
      if gs.length ≤ 16 ∧ 16 < s.slots s.cur.core + gs.length ∧ !s.reachesMaps gs then s.stall 4
      else s.vplace f v n (s.vr v.vd) ([], s.me.storeSeq, s.me.inputs) gs

/-- The engine that a vst pushes to: exactly the 64 bytes at its window's base are active (R201). -/
def State.pushTarget (s : State) (n : Nat) (es : List VElem) : Option Engine :=
  if es.map VElem.i = List.range (64 / n) then
    match es with
    | ⟨_, .at_ va, _⟩ :: _ =>
      match s.spot s.cur.core s.bench va with
      | .engine e 0 => some e
      | _ => none
    | _ => none
  else none

/-! ## The instructions -/

/-- `vld` (R185). -/
def execVld (f : VForm) (s : State) : Out State :=
  let n := intSize f.ty
  .next (s.vload (w32 1 (.vld f)) f n false 0 (s.vseq f n))

/-- `vst` (R185, R201). -/
def execVst (f : VForm) (s : State) : Out State :=
  let w := w32 1 (.vst f)
  let n := intSize f.ty
  let es := s.vseq f n
  match s.me.vprog, s.pushTarget n es with
  | none, some e =>
    if (s.here.storesOf s.cur.seat).isEmpty then .next (s.pushOp w e ((s.vr f.vd).setWidth 512) 1)
    else .next (s.stall 4)
  | _, _ => .next (s.vstore w f n false es)

/-- `vldt` (R188). -/
def execVldt (f : VForm) (s : State) : Out State :=
  .next (s.vload (w32 1 (.vldt f)) f (s.vrow f true).1 false 0 (s.vrow f true).2)

/-- `vstt` (R188). -/
def execVstt (f : VForm) (s : State) : Out State :=
  .next (s.vstore (w32 1 (.vstt f)) f (s.vrow f false).1 false (s.vrow f false).2)

/-- `vgath` (R185). -/
def execVgath (f : VForm) (s : State) : Out State :=
  let w := w32 2 (.vgath f)
  let n := intSize f.ty
  match s.me.vprog with
  | some vp => .next (s.vloadGo w f true vp)
  | none =>
    match s.vbOf w f with
    | (.stop s, _) => .next s
    | (.bits b, s) => .next (s.vload w f n true 2 (s.vidx f n b))

/-- `vscat` (R185). -/
def execVscat (f : VForm) (s : State) : Out State :=
  let w := w32 2 (.vscat f)
  let n := intSize f.ty
  match s.me.vprog with
  | some _ => .next (s.vstore w f n true [])
  | none =>
    match s.vbOf w f with
    | (.stop s, _) => .next s
    | (.bits b, s) => .next (s.vstore w f n true (s.vidx f n b))

/-- `vldb` (R185): one element for every active lane. -/
def execVldb (f : VForm) (s : State) : Out State :=
  let n := intSize f.ty
  let va := s.g f.va + s.g f.vb * BitVec.ofNat 64 n
  .next (s.vload (w32 1 (.vldb f)) f n false 0 ((s.vactive f.p n).map fun i => ⟨i, .at_ va, 0⟩))

end Sys2Proof.Machine
end

