-- ==== Sys2Proof/Machine/Dispatch.lean ====
section
/-!
DEFINITION. One arm per constructor of Instr: the meaning of each instruction, engine command and event.
-/

namespace Sys2Proof.Machine

/-- What an instruction, an engine command or an event does to the state. -/
def exec (i : Instr) (s : State) : Host.Outcome State Fault Refusal :=
  match i with
  | .add d a b => Sys2Proof.Machine.execAdd d a b s
  | .sub d a b => Sys2Proof.Machine.execSub d a b s
  | .and d a b => Sys2Proof.Machine.execAnd d a b s
  | .or d a b => Sys2Proof.Machine.execOr d a b s
  | .xor d a b => Sys2Proof.Machine.execXor d a b s
  | .andn d a b => Sys2Proof.Machine.execAndn d a b s
  | .orn d a b => Sys2Proof.Machine.execOrn d a b s
  | .min d a b => Sys2Proof.Machine.execMin d a b s
  | .max d a b => Sys2Proof.Machine.execMax d a b s
  | .minz d a b => Sys2Proof.Machine.execMinz d a b s
  | .maxz d a b => Sys2Proof.Machine.execMaxz d a b s
  | .sll d a b => Sys2Proof.Machine.execSll d a b s
  | .srl d a b => Sys2Proof.Machine.execSrl d a b s
  | .sra d a b => Sys2Proof.Machine.execSra d a b s
  | .rol d a b => Sys2Proof.Machine.execRol d a b s
  | .ror d a b => Sys2Proof.Machine.execRor d a b s
  | .slt d a b => Sys2Proof.Machine.execSlt d a b s
  | .sltz d a b => Sys2Proof.Machine.execSltz d a b s
  | .div d a b => Sys2Proof.Machine.execDiv d a b s
  | .divz d a b => Sys2Proof.Machine.execDivz d a b s
  | .rem d a b => Sys2Proof.Machine.execRem d a b s
  | .remz d a b => Sys2Proof.Machine.execRemz d a b s
  | .mul d a b => Sys2Proof.Machine.execMul d a b s
  | .mulh d a b => Sys2Proof.Machine.execMulh d a b s
  | .mulhz d a b => Sys2Proof.Machine.execMulhz d a b s
  | .clz d a => Sys2Proof.Machine.execClz d a s
  | .ctz d a => Sys2Proof.Machine.execCtz d a s
  | .popc d a => Sys2Proof.Machine.execPopc d a s
  | .sext d a w => Sys2Proof.Machine.execSext d a w s
  | .zext d a w => Sys2Proof.Machine.execZext d a w s
  | .bext d a b => Sys2Proof.Machine.execBext d a b s
  | .bins d a b => Sys2Proof.Machine.execBins d a b s
  | .addi d a imm => Sys2Proof.Machine.execAddi d a imm s
  | .andi d a imm => Sys2Proof.Machine.execAndi d a imm s
  | .ori d a imm => Sys2Proof.Machine.execOri d a imm s
  | .xori d a imm => Sys2Proof.Machine.execXori d a imm s
  | .slti d a imm => Sys2Proof.Machine.execSlti d a imm s
  | .slli d a sh => Sys2Proof.Machine.execSlli d a sh s
  | .srli d a sh => Sys2Proof.Machine.execSrli d a sh s
  | .srai d a sh => Sys2Proof.Machine.execSrai d a sh s
  | .lui d imm => Sys2Proof.Machine.execLui d imm s
  | .addpc d imm => Sys2Proof.Machine.execAddpc d imm s
  | .fadd w d a b => Sys2Proof.Machine.execFadd w d a b s
  | .fsub w d a b => Sys2Proof.Machine.execFsub w d a b s
  | .fmul w d a b => Sys2Proof.Machine.execFmul w d a b s
  | .fdiv w d a b => Sys2Proof.Machine.execFdiv w d a b s
  | .fsqrt w d a => Sys2Proof.Machine.execFsqrt w d a s
  | .fma w d a b => Sys2Proof.Machine.execFma w d a b s
  | .fmin w d a b => Sys2Proof.Machine.execFmin w d a b s
  | .fmax w d a b => Sys2Proof.Machine.execFmax w d a b s
  | .fcmpEq w d a b => Sys2Proof.Machine.execFcmpEq w d a b s
  | .fcmpLt w d a b => Sys2Proof.Machine.execFcmpLt w d a b s
  | .fcmpLe w d a b => Sys2Proof.Machine.execFcmpLe w d a b s
  | .fclass w d a => Sys2Proof.Machine.execFclass w d a s
  | .fsgn w d a b => Sys2Proof.Machine.execFsgn w d a b s
  | .fsgnN w d a b => Sys2Proof.Machine.execFsgnN w d a b s
  | .fsgnX w d a b => Sys2Proof.Machine.execFsgnX w d a b s
  | .fcvt w d a c => Sys2Proof.Machine.execFcvt w d a c s
  | .bEq a b off => Sys2Proof.Machine.execBEq a b off s
  | .bNe a b off => Sys2Proof.Machine.execBNe a b off s
  | .bLt a b off => Sys2Proof.Machine.execBLt a b off s
  | .bGe a b off => Sys2Proof.Machine.execBGe a b off s
  | .j off => Sys2Proof.Machine.execJ off s
  | .jal off => Sys2Proof.Machine.execJal off s
  | .jalr d a => Sys2Proof.Machine.execJalr d a s
  | .loopRd d sel => Sys2Proof.Machine.execLoopRd d sel s
  | .loopWr a sel => Sys2Proof.Machine.execLoopWr a sel s
  | .loopLeave n => Sys2Proof.Machine.execLoopLeave n s
  | .loopArm l a imm => Sys2Proof.Machine.execLoopArm l a imm s
  | .loopArmi l n imm => Sys2Proof.Machine.execLoopArmi l n imm s
  | .ldBs d a b => Sys2Proof.Machine.execLdBs d a b s
  | .ldBz d a b => Sys2Proof.Machine.execLdBz d a b s
  | .ldHs d a b => Sys2Proof.Machine.execLdHs d a b s
  | .ldHz d a b => Sys2Proof.Machine.execLdHz d a b s
  | .ldWs d a b => Sys2Proof.Machine.execLdWs d a b s
  | .ldWz d a b => Sys2Proof.Machine.execLdWz d a b s
  | .ldD d a b => Sys2Proof.Machine.execLdD d a b s
  | .stB d a b => Sys2Proof.Machine.execStB d a b s
  | .stH d a b => Sys2Proof.Machine.execStH d a b s
  | .stW d a b => Sys2Proof.Machine.execStW d a b s
  | .stD d a b => Sys2Proof.Machine.execStD d a b s
  | .ldAcq d a b => Sys2Proof.Machine.execLdAcq d a b s
  | .stRel d a b => Sys2Proof.Machine.execStRel d a b s
  | .pf a b => Sys2Proof.Machine.execPf a b s
  | .ldWsImm d a imm => Sys2Proof.Machine.execLdWsImm d a imm s
  | .ldWzImm d a imm => Sys2Proof.Machine.execLdWzImm d a imm s
  | .ldDImm d a imm => Sys2Proof.Machine.execLdDImm d a imm s
  | .stWImm d a imm => Sys2Proof.Machine.execStWImm d a imm s
  | .stDImm d a imm => Sys2Proof.Machine.execStDImm d a imm s
  | .tld n d a b => Sys2Proof.Machine.execTld n d a b s
  | .tst n d a b => Sys2Proof.Machine.execTst n d a b s
  | .amoAdd w ord d a b => Sys2Proof.Machine.execAmoAdd w ord d a b s
  | .amoAnd w ord d a b => Sys2Proof.Machine.execAmoAnd w ord d a b s
  | .amoOr w ord d a b => Sys2Proof.Machine.execAmoOr w ord d a b s
  | .amoXor w ord d a b => Sys2Proof.Machine.execAmoXor w ord d a b s
  | .amoMin w ord d a b => Sys2Proof.Machine.execAmoMin w ord d a b s
  | .amoMax w ord d a b => Sys2Proof.Machine.execAmoMax w ord d a b s
  | .amoMinz w ord d a b => Sys2Proof.Machine.execAmoMinz w ord d a b s
  | .amoMaxz w ord d a b => Sys2Proof.Machine.execAmoMaxz w ord d a b s
  | .amoSwap w ord d a b => Sys2Proof.Machine.execAmoSwap w ord d a b s
  | .amoFadd w ord d a b => Sys2Proof.Machine.execAmoFadd w ord d a b s
  | .cas w ord d a b => Sys2Proof.Machine.execCas w ord d a b s
  | .fenceAcq x => Sys2Proof.Machine.execFenceAcq x s
  | .fenceRel x => Sys2Proof.Machine.execFenceRel x s
  | .fenceSc x => Sys2Proof.Machine.execFenceSc x s
  | .send d a c => Sys2Proof.Machine.execSend d a c s
  | .sendg d a c => Sys2Proof.Machine.execSendg d a c s
  | .sendc d a c => Sys2Proof.Machine.execSendc d a c s
  | .msend d a c => Sys2Proof.Machine.execMsend d a c s
  | .qput q a => Sys2Proof.Machine.execQput q a s
  | .qget d q => Sys2Proof.Machine.execQget d q s
  | .qtry d a q => Sys2Proof.Machine.execQtry d a q s
  | .qcnt d q => Sys2Proof.Machine.execQcnt d q s
  | .nsend a b => Sys2Proof.Machine.execNsend a b s
  | .wfm d a => Sys2Proof.Machine.execWfm d a s
  | .clen a => Sys2Proof.Machine.execClen a s
  | .cldis a => Sys2Proof.Machine.execCldis a s
  | .clpend d => Sys2Proof.Machine.execClpend d s
  | .spawn d c => Sys2Proof.Machine.execSpawn d c s
  | .fork d a imm => Sys2Proof.Machine.execFork d a imm s
  | .join a imm => Sys2Proof.Machine.execJoin a imm s
  | .claim d a b => Sys2Proof.Machine.execClaim d a b s
  | .enq d a b => Sys2Proof.Machine.execEnq d a b s
  | .deq d a => Sys2Proof.Machine.execDeq d a s
  | .deqTry d a x => Sys2Proof.Machine.execDeqTry d a x s
  | .prio a c => Sys2Proof.Machine.execPrio a c s
  | .mxpush a => Sys2Proof.Machine.execMxpush a s
  | .cppush a => Sys2Proof.Machine.execCppush a s
  | .snpush a => Sys2Proof.Machine.execSnpush a s
  | .epop d e => Sys2Proof.Machine.execEpop d e s
  | .dwait n imm => Sys2Proof.Machine.execDwait n imm s
  | .drd d n a => Sys2Proof.Machine.execDrd d n a s
  | .compose d x => Sys2Proof.Machine.execCompose d x s
  | .benchq d => Sys2Proof.Machine.execBenchq d s
  | .chrd d sel => Sys2Proof.Machine.execChrd d sel s
  | .chmerge a b => Sys2Proof.Machine.execChmerge a b s
  | .chmergeLast a b => Sys2Proof.Machine.execChmergeLast a b s
  | .chadd a => Sys2Proof.Machine.execChadd a s
  | .chwr a b => Sys2Proof.Machine.execChwr a b s
  | .acrd d a x => Sys2Proof.Machine.execAcrd d a x s
  | .trap a b => Sys2Proof.Machine.execTrap a b s
  | .brk n => Sys2Proof.Machine.execBrk n s
  | .sfqPop d a => Sys2Proof.Machine.execSfqPop d a s
  | .tlbinv a k => Sys2Proof.Machine.execTlbinv a k s
  | .ctxsave a => Sys2Proof.Machine.execCtxsave a s
  | .ctxload a => Sys2Proof.Machine.execCtxload a s
  | .crr r d => Sys2Proof.Machine.execCrr r d s
  | .crw r d => Sys2Proof.Machine.execCrw r d s
  | .crset r d => Sys2Proof.Machine.execCrset r d s
  | .crclr r d => Sys2Proof.Machine.execCrclr r d s
  | .vadd f => Sys2Proof.Machine.execVadd f s
  | .vsub f => Sys2Proof.Machine.execVsub f s
  | .vmul f => Sys2Proof.Machine.execVmul f s
  | .vmadd f => Sys2Proof.Machine.execVmadd f s
  | .vmsub f => Sys2Proof.Machine.execVmsub f s
  | .vmin f => Sys2Proof.Machine.execVmin f s
  | .vmax f => Sys2Proof.Machine.execVmax f s
  | .vabs f => Sys2Proof.Machine.execVabs f s
  | .vneg f => Sys2Proof.Machine.execVneg f s
  | .vdot f => Sys2Proof.Machine.execVdot f s
  | .vcmp f => Sys2Proof.Machine.execVcmp f s
  | .vredAdd f => Sys2Proof.Machine.execVredAdd f s
  | .vredMax f => Sys2Proof.Machine.execVredMax f s
  | .vredMin f => Sys2Proof.Machine.execVredMin f s
  | .vaddFp f => Sys2Proof.Machine.execVaddFp f s
  | .vsubFp f => Sys2Proof.Machine.execVsubFp f s
  | .vmulFp f => Sys2Proof.Machine.execVmulFp f s
  | .vmaddFp f => Sys2Proof.Machine.execVmaddFp f s
  | .vmsubFp f => Sys2Proof.Machine.execVmsubFp f s
  | .vminFp f => Sys2Proof.Machine.execVminFp f s
  | .vmaxFp f => Sys2Proof.Machine.execVmaxFp f s
  | .vabsFp f => Sys2Proof.Machine.execVabsFp f s
  | .vnegFp f => Sys2Proof.Machine.execVnegFp f s
  | .vdotFp f => Sys2Proof.Machine.execVdotFp f s
  | .vcmpFp f => Sys2Proof.Machine.execVcmpFp f s
  | .vredAddFp f => Sys2Proof.Machine.execVredAddFp f s
  | .vredMaxFp f => Sys2Proof.Machine.execVredMaxFp f s
  | .vredMinFp f => Sys2Proof.Machine.execVredMinFp f s
  | .vand f => Sys2Proof.Machine.execVand f s
  | .vor f => Sys2Proof.Machine.execVor f s
  | .vxor f => Sys2Proof.Machine.execVxor f s
  | .vshl f => Sys2Proof.Machine.execVshl f s
  | .vshr f => Sys2Proof.Machine.execVshr f s
  | .vsra f => Sys2Proof.Machine.execVsra f s
  | .vsel f => Sys2Proof.Machine.execVsel f s
  | .vbcast f => Sys2Proof.Machine.execVbcast f s
  | .vperm f => Sys2Proof.Machine.execVperm f s
  | .vshift f => Sys2Proof.Machine.execVshift f s
  | .vcvt f => Sys2Proof.Machine.execVcvt f s
  | .vsf f => Sys2Proof.Machine.execVsf f s
  | .pand f => Sys2Proof.Machine.execPand f s
  | .por f => Sys2Proof.Machine.execPor f s
  | .pxor f => Sys2Proof.Machine.execPxor f s
  | .pnot f => Sys2Proof.Machine.execPnot f s
  | .pcount f => Sys2Proof.Machine.execPcount f s
  | .pfirst f => Sys2Proof.Machine.execPfirst f s
  | .vbound f => Sys2Proof.Machine.execVbound f s
  | .vwidth f => Sys2Proof.Machine.execVwidth f s
  | .vld f => Sys2Proof.Machine.execVld f s
  | .vst f => Sys2Proof.Machine.execVst f s
  | .vldt f => Sys2Proof.Machine.execVldt f s
  | .vstt f => Sys2Proof.Machine.execVstt f s
  | .vgath f => Sys2Proof.Machine.execVgath f s
  | .vscat f => Sys2Proof.Machine.execVscat f s
  | .vldb f => Sys2Proof.Machine.execVldb f s
  | .sub16 d a => Sys2Proof.Machine.execSub16 d a s
  | .addi16 d imm => Sys2Proof.Machine.execAddi16 d imm s
  | .and16 d a => Sys2Proof.Machine.execAnd16 d a s
  | .or16 d a => Sys2Proof.Machine.execOr16 d a s
  | .xor16 d a => Sys2Proof.Machine.execXor16 d a s
  | .mov16 d a => Sys2Proof.Machine.execMov16 d a s
  | .andi16 d imm => Sys2Proof.Machine.execAndi16 d imm s
  | .srli16 d imm => Sys2Proof.Machine.execSrli16 d imm s
  | .ldD16 d a => Sys2Proof.Machine.execLdD16 d a s
  | .stD16 d a => Sys2Proof.Machine.execStD16 d a s
  | .ldWz16 d a => Sys2Proof.Machine.execLdWz16 d a s
  | .ldBz16 d a => Sys2Proof.Machine.execLdBz16 d a s
  | .stB16 d a => Sys2Proof.Machine.execStB16 d a s
  | .amoAddD16 d a => Sys2Proof.Machine.execAmoAddD16 d a s
  | .sendc16 d imm => Sys2Proof.Machine.execSendc16 d imm s
  | .slt16 d a => Sys2Proof.Machine.execSlt16 d a s
  | .sll16 d a => Sys2Proof.Machine.execSll16 d a s
  | .srl16 d a => Sys2Proof.Machine.execSrl16 d a s
  | .sra16 d a => Sys2Proof.Machine.execSra16 d a s
  | .srai16 d imm => Sys2Proof.Machine.execSrai16 d imm s
  | .mul16 d a => Sys2Proof.Machine.execMul16 d a s
  | .min16 d a => Sys2Proof.Machine.execMin16 d a s
  | .max16 d a => Sys2Proof.Machine.execMax16 d a s
  | .bLt16 d imm => Sys2Proof.Machine.execBLt16 d imm s
  | .bGe16 d imm => Sys2Proof.Machine.execBGe16 d imm s
  | .j16 off => Sys2Proof.Machine.execJ16 off s
  | .jalr16 d a => Sys2Proof.Machine.execJalr16 d a s
  | .ldDG416 d imm => Sys2Proof.Machine.execLdDG416 d imm s
  | .stDG416 d imm => Sys2Proof.Machine.execStDG416 d imm s
  | .ldDG316 d imm => Sys2Proof.Machine.execLdDG316 d imm s
  | .andn16 d a => Sys2Proof.Machine.execAndn16 d a s
  | .faddF3216 d a => Sys2Proof.Machine.execFaddF3216 d a s
  | .fsubF3216 d a => Sys2Proof.Machine.execFsubF3216 d a s
  | .fmulF3216 d a => Sys2Proof.Machine.execFmulF3216 d a s
  | .faddF6416 d a => Sys2Proof.Machine.execFaddF6416 d a s
  | .fsubF6416 d a => Sys2Proof.Machine.execFsubF6416 d a s
  | .fmulF6416 d a => Sys2Proof.Machine.execFmulF6416 d a s
  | .dwait16 n imm => Sys2Proof.Machine.execDwait16 n imm s
  | .epop16 d e => Sys2Proof.Machine.execEpop16 d e s
  | .qput16 q a => Sys2Proof.Machine.execQput16 q a s
  | .qget16 d q => Sys2Proof.Machine.execQget16 d q s
  | .chrd16 d sel => Sys2Proof.Machine.execChrd16 d sel s
  | .sdrain => Sys2Proof.Machine.execSdrain s
  | .ifence => Sys2Proof.Machine.execIfence s
  | .exit => Sys2Proof.Machine.execExit s
  | .release => Sys2Proof.Machine.execRelease s
  | .eret => Sys2Proof.Machine.execEret s
  | .svc => Sys2Proof.Machine.execSvc s
  | .sfqReplay => Sys2Proof.Machine.execSfqReplay s
  | .grpcancel => Sys2Proof.Machine.execGrpcancel s
  | .exit16 => Sys2Proof.Machine.execExit16 s
  | .ldcb c => Sys2Proof.Machine.execLdcb c s
  | .ldb c => Sys2Proof.Machine.execLdb c s
  | .swpb c => Sys2Proof.Machine.execSwpb c s
  | .rotb c => Sys2Proof.Machine.execRotb c s
  | .mma c => Sys2Proof.Machine.execMma c s
  | .mmav c => Sys2Proof.Machine.execMmav c s
  | .zero c => Sys2Proof.Machine.execZero c s
  | .ldc c => Sys2Proof.Machine.execLdc c s
  | .stc c => Sys2Proof.Machine.execStc c s
  | .scanl c => Sys2Proof.Machine.execScanl c s
  | .tjoin c => Sys2Proof.Machine.execTjoin c s
  | .scanc c => Sys2Proof.Machine.execScanc c s
  | .tbar c => Sys2Proof.Machine.execTbar c s
  | .tred c => Sys2Proof.Machine.execTred c s
  | .copy c => Sys2Proof.Machine.execCopy c s
  | .copy2d c => Sys2Proof.Machine.execCopy2d c s
  | .gather c => Sys2Proof.Machine.execGather c s
  | .scatter c => Sys2Proof.Machine.execScatter c s
  | .mcast c => Sys2Proof.Machine.execMcast c s
  | .fill c => Sys2Proof.Machine.execFill c s
  | .resume c => Sys2Proof.Machine.execResume c s
  | .engineCommandRetire c e => Sys2Proof.Machine.execEngineCommandRetire c e s
  | .groupClose part j => Sys2Proof.Machine.execGroupClose part j s
  | .mxstatRetry c => Sys2Proof.Machine.execMxstatRetry c s
  | .mxstatSkip c => Sys2Proof.Machine.execMxstatSkip c s
  | .mxstatOvfClear c => Sys2Proof.Machine.execMxstatOvfClear c s
  | .snstatRetry c => Sys2Proof.Machine.execSnstatRetry c s
  | .snstatSkip c => Sys2Proof.Machine.execSnstatSkip c s
  | .snstatMismClear c => Sys2Proof.Machine.execSnstatMismClear c s
  | .cpstatSkip c => Sys2Proof.Machine.execCpstatSkip c s
  | .mxRegisterWrite c num val => Sys2Proof.Machine.execMxRegisterWrite c num val s
  | .snopWrite c val => Sys2Proof.Machine.execSnopWrite c val s
  | .chlimWrite t val => Sys2Proof.Machine.execChlimWrite t val s
  | .registerWrite t num val => Sys2Proof.Machine.execRegisterWrite t num val s
  | .modeChange t => Sys2Proof.Machine.execModeChange t s
  | .acceptMessage c inp => Sys2Proof.Machine.execAcceptMessage c inp s
  | .selectEntry c => Sys2Proof.Machine.execSelectEntry c s
  | .stealRequest c => Sys2Proof.Machine.execStealRequest c s
  | .channelDelivery c m => Sys2Proof.Machine.execChannelDelivery c m s
  | .ringDelivery c cls => Sys2Proof.Machine.execRingDelivery c cls s
  | .nsendArrival c dir => Sys2Proof.Machine.execNsendArrival c dir s
  | .creditReturn c dir => Sys2Proof.Machine.execCreditReturn c dir s
  | .queueWake c q => Sys2Proof.Machine.execQueueWake c q s
  | .wfmWake t => Sys2Proof.Machine.execWfmWake t s
  | .sendfull t => Sys2Proof.Machine.execSendfull t s
  | .messageInject c vn => Sys2Proof.Machine.execMessageInject c vn s
  | .sendgCopy c => Sys2Proof.Machine.execSendgCopy c s
  | .headerForward j cycles => Sys2Proof.Machine.execHeaderForward j cycles s
  | .sysReply j => Sys2Proof.Machine.execSysReply j s
  | .sysReplyTrap t => Sys2Proof.Machine.execSysReplyTrap t s
  | .storeDrain c => Sys2Proof.Machine.execStoreDrain c s
  | .linkDelivery src dst j => Sys2Proof.Machine.execLinkDelivery src dst j s
  | .loadReturn t j => Sys2Proof.Machine.execLoadReturn t j s
  | .deqServe j => Sys2Proof.Machine.execDeqServe j s
  | .pageWalk die => Sys2Proof.Machine.execPageWalk die s
  | .sequenceUpdate j => Sys2Proof.Machine.execSequenceUpdate j s
  | .applyUpdate page die => Sys2Proof.Machine.execApplyUpdate page die s
  | .migrationStart die j => Sys2Proof.Machine.execMigrationStart die j s
  | .migrationSwitch die j => Sys2Proof.Machine.execMigrationSwitch die j s
  | .frameClaim f ctx => Sys2Proof.Machine.execFrameClaim f ctx s
  | .storeFault t => Sys2Proof.Machine.execStoreFault t s
  | .eccStoreAtHome t => Sys2Proof.Machine.execEccStoreAtHome t s
  | .engineFault t => Sys2Proof.Machine.execEngineFault t s
  | .outlierFull t => Sys2Proof.Machine.execOutlierFull t s
  | .watchdogExpiry t => Sys2Proof.Machine.execWatchdogExpiry t s
  | .watchdog t => Sys2Proof.Machine.execWatchdog t s
  | .chain t => Sys2Proof.Machine.execChain t s
  | .load vd pl => Sys2Proof.Machine.execLoad vd pl s
  | .launch vd => Sys2Proof.Machine.execLaunch vd s
  | .cancel vd => Sys2Proof.Machine.execCancel vd s
  | .unload vd => Sys2Proof.Machine.execUnload vd s
  | .query vd => Sys2Proof.Machine.execQuery vd s
  | .rdmaWriteWithImmediate vd imm => Sys2Proof.Machine.execRdmaWriteWithImmediate vd imm s
  | .rdmaSend vd payload => Sys2Proof.Machine.execRdmaSend vd payload s
  | .rdmaWrite vd key va data => Sys2Proof.Machine.execRdmaWrite vd key va data s
  | .rdmaRead vd key va n => Sys2Proof.Machine.execRdmaRead vd key va n s
  | .congestionNotification port ecn => Sys2Proof.Machine.execCongestionNotification port ecn s
  | .managementFrame m => Sys2Proof.Machine.execManagementFrame m s
  | .sliceBoundary part ref => Sys2Proof.Machine.execSliceBoundary part ref s
  | .arbiterWake part => Sys2Proof.Machine.execArbiterWake part s
  | .repartition ctx pl => Sys2Proof.Machine.execRepartition ctx pl s
  | .drawerFailure n => Sys2Proof.Machine.execDrawerFailure n s
  | .moduleReset f => Sys2Proof.Machine.execModuleReset f s
  | .rctlFreqWrite r freq => Sys2Proof.Machine.execRctlFreqWrite r freq s
  | .rctlVoltWrite r volt => Sys2Proof.Machine.execRctlVoltWrite r volt s
  | .regionStep r => Sys2Proof.Machine.execRegionStep r s
  | .clockStretch r => Sys2Proof.Machine.execClockStretch r s
  | .thermalThrottle r temp => Sys2Proof.Machine.execThermalThrottle r temp s
  | .thermalReset r temp f => Sys2Proof.Machine.execThermalReset r temp f s
  | .replan r p => Sys2Proof.Machine.execReplan r p s
  | .powerStateEntry cl idleNs => Sys2Proof.Machine.execPowerStateEntry cl idleNs s
  | .clusterWake cl => Sys2Proof.Machine.execClusterWake cl s
  | .packageSleep => Sys2Proof.Machine.execPackageSleep s
  | .packageWake => Sys2Proof.Machine.execPackageWake s
  | .pstopStop part => Sys2Proof.Machine.execPstopStop part s
  | .quiescence part => Sys2Proof.Machine.execQuiescence part s
  | .pstopResume part => Sys2Proof.Machine.execPstopResume part s
  | .routerFailure x => Sys2Proof.Machine.execRouterFailure x s
  | .fioldFrame port f => Sys2Proof.Machine.execFioldFrame port f s
  | .fioldReplay port => Sys2Proof.Machine.execFioldReplay port s
  | .fioldHeartbeat port => Sys2Proof.Machine.execFioldHeartbeat port s
  | .fioldLinkDown port => Sys2Proof.Machine.execFioldLinkDown port s
  | .endToEndHeartbeat => Sys2Proof.Machine.execEndToEndHeartbeat s
  | .peerLost pkg => Sys2Proof.Machine.execPeerLost pkg s
  | .fioldPacket p => Sys2Proof.Machine.execFioldPacket p s
  | .trctlFlush => Sys2Proof.Machine.execTrctlFlush s
  | .trctlEnWrite en => Sys2Proof.Machine.execTrctlEnWrite en s
  | .segmentWriteComplete seq => Sys2Proof.Machine.execSegmentWriteComplete seq s
  | .counterSample c => Sys2Proof.Machine.execCounterSample c s
  | .horizonUpdate part => Sys2Proof.Machine.execHorizonUpdate part s
  | .localCycle r => Sys2Proof.Machine.execLocalCycle r s
  | .replaceReport => Sys2Proof.Machine.execReplaceReport s
  | .priorityFlowControl port prio pause => Sys2Proof.Machine.execPriorityFlowControl port prio pause s
  | .scrub g => Sys2Proof.Machine.execScrub g s
  | .countingWindow die => Sys2Proof.Machine.execCountingWindow die s

end Sys2Proof.Machine
end

