-- ==== Sys2Proof/Machine/Names.lean ====
section
/-!
DEFINITION. The g registers that an instruction names, as operand or destination: it does not issue while the value
of an earlier load or atomic for one of them has not returned (R60, R353).
-/

namespace Sys2Proof.Machine

/-- The g registers that an instruction names, those that its description adds included. -/
def gRegs : Instr → List Reg
  | .add d a b | .sub d a b | .and d a b | .or d a b | .xor d a b | .andn d a b | .orn d a b | .min d a b |
    .max d a b | .minz d a b | .maxz d a b | .sll d a b | .srl d a b | .sra d a b | .rol d a b |
    .ror d a b | .slt d a b | .sltz d a b | .div d a b | .divz d a b | .rem d a b | .remz d a b |
    .mul d a b | .mulh d a b | .mulhz d a b | .bext d a b | .bins d a b | .fadd _ d a b | .fsub _ d a b |
    .fmul _ d a b | .fdiv _ d a b | .fma _ d a b | .fmin _ d a b | .fmax _ d a b | .fcmpEq _ d a b |
    .fcmpLt _ d a b | .fcmpLe _ d a b | .fsgn _ d a b | .fsgnN _ d a b | .fsgnX _ d a b | .ldBs d a b |
    .ldBz d a b | .ldHs d a b | .ldHz d a b | .ldWs d a b | .ldWz d a b | .ldD d a b | .stB d a b |
    .stH d a b | .stW d a b | .stD d a b | .ldAcq d a b | .stRel d a b | .tld _ d a b | .tst _ d a b |
    .amoAdd _ _ d a b | .amoAnd _ _ d a b | .amoOr _ _ d a b | .amoXor _ _ d a b | .amoMin _ _ d a b |
    .amoMax _ _ d a b | .amoMinz _ _ d a b | .amoMaxz _ _ d a b | .amoSwap _ _ d a b | .amoFadd _ _ d a b |
    .cas _ _ d a b | .claim d a b | .enq d a b => [d, a, b]
  | .clz d a | .ctz d a | .popc d a | .sext d a _ | .zext d a _ | .addi d a _ | .andi d a _ | .ori d a _ |
    .xori d a _ | .slti d a _ | .slli d a _ | .srli d a _ | .srai d a _ | .fsqrt _ d a | .fclass _ d a |
    .fcvt _ d a _ | .jalr d a | .ldWsImm d a _ | .ldWzImm d a _ | .ldDImm d a _ | .stWImm d a _ |
    .stDImm d a _ | .send d a _ | .sendg d a _ | .sendc d a _ | .msend d a _ | .qtry d a _ | .wfm d a |
    .fork d a _ | .deq d a | .deqTry d a _ | .drd d _ a | .acrd d a _ | .sfqPop d a | .sub16 d a |
    .and16 d a | .or16 d a | .xor16 d a | .mov16 d a | .ldD16 d a | .stD16 d a | .ldWz16 d a | .ldBz16 d a |
    .stB16 d a | .amoAddD16 d a | .slt16 d a | .sll16 d a | .srl16 d a | .sra16 d a | .mul16 d a |
    .min16 d a | .max16 d a | .jalr16 d a | .andn16 d a | .faddF3216 d a | .fsubF3216 d a | .fmulF3216 d a |
    .faddF6416 d a | .fsubF6416 d a | .fmulF6416 d a => [d, a]
  | .lui d _ | .addpc d _ | .loopRd d _ | .qget d _ | .qcnt d _ | .clpend d | .spawn d _ | .epop d _ |
    .compose d _ | .benchq d | .chrd d _ | .crr _ d | .crw _ d | .crset _ d | .crclr _ d | .addi16 d _ |
    .andi16 d _ | .srli16 d _ | .srai16 d _ | .bLt16 d _ | .bGe16 d _ | .epop16 d _ | .qget16 d _ |
    .chrd16 d _ => [d]
  | .bEq a b _ | .bNe a b _ | .bLt a b _ | .bGe a b _ | .pf a b | .chmerge a b | .chmergeLast a b |
    .chwr a b | .trap a b => [a, b]
  | .jal .. => [1]
  | .loopWr a _ | .loopArm _ a _ | .qput _ a | .clen a | .cldis a | .join a _ | .prio a _ | .chadd a |
    .tlbinv a _ | .ctxsave a | .ctxload a | .qput16 _ a => [a]
  | .nsend _ b => [b]
  | .vbcast f | .vldt f | .vstt f | .vgath f | .vscat f => [f.va]
  | .vshift f => [f.vb]
  | .pcount f | .pfirst f | .vwidth f => [f.vd]
  | .vbound f | .vld f | .vst f | .vldb f => [f.va, f.vb]
  | .sendc16 d _ => [d, 6]
  | .ldDG416 d _ | .stDG416 d _ => [d, 4]
  | .ldDG316 d _ => [d, 3]
  | .j .. | .loopLeave .. | .loopArmi .. | .fenceAcq .. | .fenceRel .. | .fenceSc .. | .mxpush .. |
    .cppush .. | .snpush .. | .dwait .. | .brk .. | .vadd .. | .vsub .. | .vmul .. | .vmadd .. | .vmsub .. |
    .vmin .. | .vmax .. | .vabs .. | .vneg .. | .vdot .. | .vcmp .. | .vredAdd .. | .vredMax .. |
    .vredMin .. | .vaddFp .. | .vsubFp .. | .vmulFp .. | .vmaddFp .. | .vmsubFp .. | .vminFp .. |
    .vmaxFp .. | .vabsFp .. | .vnegFp .. | .vdotFp .. | .vcmpFp .. | .vredAddFp .. | .vredMaxFp .. |
    .vredMinFp .. | .vand .. | .vor .. | .vxor .. | .vshl .. | .vshr .. | .vsra .. | .vsel .. | .vperm .. |
    .vcvt .. | .vsf .. | .pand .. | .por .. | .pxor .. | .pnot .. | .j16 .. | .dwait16 .. | .sdrain |
    .ifence | .exit | .release | .eret | .svc | .sfqReplay | .grpcancel | .exit16 | .ldcb .. | .ldb .. |
    .swpb .. | .rotb .. | .mma .. | .mmav .. | .zero .. | .ldc .. | .stc .. | .scanl .. | .tjoin .. |
    .scanc .. | .tbar .. | .tred .. | .copy .. | .copy2d .. | .gather .. | .scatter .. | .mcast .. |
    .fill .. | .resume .. | .engineCommandRetire .. | .groupClose .. | .mxstatRetry .. | .mxstatSkip .. |
    .mxstatOvfClear .. | .snstatRetry .. | .snstatSkip .. | .snstatMismClear .. | .cpstatSkip .. |
    .mxRegisterWrite .. | .snopWrite .. | .chlimWrite .. | .registerWrite .. | .modeChange .. |
    .acceptMessage .. | .selectEntry .. | .stealRequest .. | .channelDelivery .. | .ringDelivery .. |
    .nsendArrival .. | .creditReturn .. | .queueWake .. | .wfmWake .. | .sendfull .. | .messageInject .. |
    .sendgCopy .. | .headerForward .. | .sysReply .. | .sysReplyTrap .. | .storeDrain .. |
    .linkDelivery .. | .loadReturn .. | .deqServe .. | .pageWalk .. | .sequenceUpdate .. | .applyUpdate .. |
    .migrationStart .. | .migrationSwitch .. | .frameClaim .. | .storeFault .. | .eccStoreAtHome .. |
    .engineFault .. | .outlierFull .. | .watchdogExpiry .. | .watchdog .. | .chain .. | .load .. |
    .launch .. | .cancel .. | .unload .. | .query .. | .rdmaWriteWithImmediate .. | .rdmaSend .. |
    .rdmaWrite .. | .rdmaRead .. | .congestionNotification .. | .managementFrame .. | .sliceBoundary .. |
    .arbiterWake .. | .repartition .. | .drawerFailure .. | .moduleReset .. | .rctlFreqWrite .. |
    .rctlVoltWrite .. | .regionStep .. | .clockStretch .. | .thermalThrottle .. | .thermalReset .. |
    .replan .. | .powerStateEntry .. | .clusterWake .. | .packageSleep | .packageWake | .pstopStop .. |
    .quiescence .. | .pstopResume .. | .routerFailure .. | .fioldFrame .. | .fioldReplay .. |
    .fioldHeartbeat .. | .fioldLinkDown .. | .endToEndHeartbeat | .peerLost .. | .fioldPacket .. |
    .trctlFlush | .trctlEnWrite .. | .segmentWriteComplete .. | .counterSample .. | .horizonUpdate .. |
    .localCycle .. | .replaceReport | .priorityFlowControl .. | .scrub .. | .countingWindow .. => []

/-- What an earlier acquire or fence may hold an instruction for (R198, R202, R208): its loads, or its stores, its
atomics and its sends. -/
inductive Reaches where
  | load | store | other
deriving DecidableEq, Repr

/-- What an instruction reaches. -/
def reaches : Instr → Reaches
  | .ldBs .. | .ldBz .. | .ldHs .. | .ldHz .. | .ldWs .. | .ldWz .. | .ldD .. | .ldAcq .. | .ldWsImm .. |
    .ldWzImm .. | .ldDImm .. | .tld .. | .vld .. | .vldt .. | .vgath .. | .vldb .. | .ldD16 .. |
    .ldWz16 .. | .ldBz16 .. | .ldDG416 .. | .ldDG316 .. => .load
  | .stB .. | .stH .. | .stW .. | .stD .. | .stWImm .. | .stDImm .. | .stRel .. | .tst .. | .vst .. |
    .vstt .. | .vscat .. | .stD16 .. | .stB16 .. | .stDG416 .. | .amoAdd .. | .amoAnd .. | .amoOr .. |
    .amoXor .. | .amoMin .. | .amoMax .. | .amoMinz .. | .amoMaxz .. | .amoSwap .. | .amoFadd .. | .cas .. |
    .amoAddD16 .. | .claim .. | .enq .. | .deq .. | .deqTry .. | .join .. | .send .. | .sendg .. |
    .sendc .. | .msend .. | .sendc16 .. | .spawn .. | .sfqPop .. => .store
  | .add .. | .sub .. | .and .. | .or .. | .xor .. | .andn .. | .orn .. | .min .. | .max .. | .minz .. |
    .maxz .. | .sll .. | .srl .. | .sra .. | .rol .. | .ror .. | .slt .. | .sltz .. | .div .. | .divz .. |
    .rem .. | .remz .. | .mul .. | .mulh .. | .mulhz .. | .clz .. | .ctz .. | .popc .. | .sext .. |
    .zext .. | .bext .. | .bins .. | .addi .. | .andi .. | .ori .. | .xori .. | .slti .. | .slli .. |
    .srli .. | .srai .. | .lui .. | .addpc .. | .fadd .. | .fsub .. | .fmul .. | .fdiv .. | .fsqrt .. |
    .fma .. | .fmin .. | .fmax .. | .fcmpEq .. | .fcmpLt .. | .fcmpLe .. | .fclass .. | .fsgn .. |
    .fsgnN .. | .fsgnX .. | .fcvt .. | .bEq .. | .bNe .. | .bLt .. | .bGe .. | .j .. | .jal .. | .jalr .. |
    .loopRd .. | .loopWr .. | .loopLeave .. | .loopArm .. | .loopArmi .. | .pf .. | .fenceAcq .. |
    .fenceRel .. | .fenceSc .. | .fork .. | .qput .. | .qget .. | .qtry .. | .qcnt .. | .nsend .. | .wfm .. |
    .clen .. | .cldis .. | .clpend .. | .prio .. | .mxpush .. | .cppush .. | .snpush .. | .epop .. |
    .dwait .. | .drd .. | .compose .. | .benchq .. | .chrd .. | .chmerge .. | .chmergeLast .. | .chadd .. |
    .chwr .. | .acrd .. | .trap .. | .brk .. | .tlbinv .. | .ctxsave .. | .ctxload .. | .crr .. | .crw .. |
    .crset .. | .crclr .. | .vadd .. | .vsub .. | .vmul .. | .vmadd .. | .vmsub .. | .vmin .. | .vmax .. |
    .vabs .. | .vneg .. | .vdot .. | .vcmp .. | .vredAdd .. | .vredMax .. | .vredMin .. | .vaddFp .. |
    .vsubFp .. | .vmulFp .. | .vmaddFp .. | .vmsubFp .. | .vminFp .. | .vmaxFp .. | .vabsFp .. |
    .vnegFp .. | .vdotFp .. | .vcmpFp .. | .vredAddFp .. | .vredMaxFp .. | .vredMinFp .. | .vand .. |
    .vor .. | .vxor .. | .vshl .. | .vshr .. | .vsra .. | .vsel .. | .vbcast .. | .vperm .. | .vshift .. |
    .vcvt .. | .vsf .. | .pand .. | .por .. | .pxor .. | .pnot .. | .pcount .. | .pfirst .. | .vbound .. |
    .vwidth .. | .sub16 .. | .addi16 .. | .and16 .. | .or16 .. | .xor16 .. | .mov16 .. | .andi16 .. |
    .srli16 .. | .slt16 .. | .sll16 .. | .srl16 .. | .sra16 .. | .srai16 .. | .mul16 .. | .min16 .. |
    .max16 .. | .bLt16 .. | .bGe16 .. | .j16 .. | .jalr16 .. | .andn16 .. | .faddF3216 .. | .fsubF3216 .. |
    .fmulF3216 .. | .faddF6416 .. | .fsubF6416 .. | .fmulF6416 .. | .dwait16 .. | .epop16 .. | .qput16 .. |
    .qget16 .. | .chrd16 .. | .sdrain | .ifence | .exit | .release | .eret | .svc | .sfqReplay |
    .grpcancel | .exit16 | .ldcb .. | .ldb .. | .swpb .. | .rotb .. | .mma .. | .mmav .. | .zero .. |
    .ldc .. | .stc .. | .scanl .. | .tjoin .. | .scanc .. | .tbar .. | .tred .. | .copy .. | .copy2d .. |
    .gather .. | .scatter .. | .mcast .. | .fill .. | .resume .. | .engineCommandRetire .. |
    .groupClose .. | .mxstatRetry .. | .mxstatSkip .. | .mxstatOvfClear .. | .snstatRetry .. |
    .snstatSkip .. | .snstatMismClear .. | .cpstatSkip .. | .mxRegisterWrite .. | .snopWrite .. |
    .chlimWrite .. | .registerWrite .. | .modeChange .. | .acceptMessage .. | .selectEntry .. |
    .stealRequest .. | .channelDelivery .. | .ringDelivery .. | .nsendArrival .. | .creditReturn .. |
    .queueWake .. | .wfmWake .. | .sendfull .. | .messageInject .. | .sendgCopy .. | .headerForward .. |
    .sysReply .. | .sysReplyTrap .. | .storeDrain .. | .linkDelivery .. | .loadReturn .. | .deqServe .. |
    .pageWalk .. | .sequenceUpdate .. | .applyUpdate .. | .migrationStart .. | .migrationSwitch .. |
    .frameClaim .. | .storeFault .. | .eccStoreAtHome .. | .engineFault .. | .outlierFull .. |
    .watchdogExpiry .. | .watchdog .. | .chain .. | .load .. | .launch .. | .cancel .. | .unload .. |
    .query .. | .rdmaWriteWithImmediate .. | .rdmaSend .. | .rdmaWrite .. | .rdmaRead .. |
    .congestionNotification .. | .managementFrame .. | .sliceBoundary .. | .arbiterWake .. |
    .repartition .. | .drawerFailure .. | .moduleReset .. | .rctlFreqWrite .. | .rctlVoltWrite .. |
    .regionStep .. | .clockStretch .. | .thermalThrottle .. | .thermalReset .. | .replan .. |
    .powerStateEntry .. | .clusterWake .. | .packageSleep | .packageWake | .pstopStop .. | .quiescence .. |
    .pstopResume .. | .routerFailure .. | .fioldFrame .. | .fioldReplay .. | .fioldHeartbeat .. |
    .fioldLinkDown .. | .endToEndHeartbeat | .peerLost .. | .fioldPacket .. | .trctlFlush |
    .trctlEnWrite .. | .segmentWriteComplete .. | .counterSample .. | .horizonUpdate .. | .localCycle .. |
    .replaceReport | .priorityFlowControl .. | .scrub .. | .countingWindow .. => .other

/-- The same of what the decoder reads. -/
def decodedReaches : Decoded → Reaches
  | .instr i => reaches i
  | _ => .other

/-- The g registers of what the decoder reads. -/
def decodedRegs : Decoded → List Reg
  | .instr i => gRegs i
  | .qput16 _ a => [a]
  | .qget16 d _ => [d]
  | .chrd16 d _ => [d]

end Sys2Proof.Machine
end

