-- ==== Sys2Proof/Machine/Issue.lean ====
section
/-!
DEFINITION. One issue of a core (R24, R41, R60, R99, R103, R280, R283, R353, R395, R456): which seat is
tried, what comes before its instruction, and the instruction itself.
-/

namespace Sys2Proof.Machine

/-- Run what the decoder read: exec of it. The three parcels that Lean's runtime cannot build are called directly. -/
def Decoded.run : Decoded → State → Out State
  | .instr i, s => exec i s
  | .qput16 q a, s => execQput16 q a s
  | .qget16 d q, s => execQget16 d q s
  | .chrd16 d sel, s => execChrd16 d sel s

/-- The seats of a core that may issue, in the order that they are tried: those with live work, from the seat after the
one that issued last; at a stop only those whose instruction completes, and on a bench's lead seat 0 alone (R24). -/
def State.turns (s : State) (c : CoreId) : List (Fin 4) :=
  let k := s.core c
  let order : List (Fin 4) := [k.lastSeat + 1, k.lastSeat + 2, k.lastSeat + 3, k.lastSeat]
  order.filter fun i => (k.seats[i]).work.isSome && (!s.stopped c || k.finishing c i) && (k.bench.isNone || decide (i = 0))

/-- Whether an earlier load or atomic of the seat that has not returned will write one of the registers. -/
def Seat.awaits (t : Seat) (rs : List Reg) : Bool :=
  t.outs.any fun o => !o.whole &&
    match o.dest with
    | .load d _ _ _ => decide (d ≠ 0) && rs.contains d
    | .amo d _ => decide (d ≠ 0) && rs.contains d
    | .pair d b _ => (decide (d ≠ 0) && rs.contains d) || (decide (b ≠ 0) && rs.contains b)
    | _ => false

/-- Whether earlier accesses hold an instruction at issue for what it reaches. -/
def State.gated (s : State) (r : Reaches) : Bool :=
  match r with
  | .load => s.me.gateLoad.any s.pending
  | .store => s.me.gateStore.any s.pending
  | .other => false

/-- The energy class of an instruction, in bits [3:2] of its word; a parcel has E0 (R106, R120). -/
def energyOf : Decoded → Nat
  | .instr i => if i.len = 4 then (i.tval.extractLsb' 2 2).toNat else 0
  | _ => 0

/-- The form of what the decoder read. -/
def formOf (i : Decoded) : Form :=
  match i with
  | .instr x => ⟨x.len, energyOf i, x.tval⟩
  | _ => ⟨2, 0, 0⟩

/-- Whether a request is a join's or a deq's, whose own instruction goes on with its answer. -/
def Dest.atHome : Dest → Bool
  | .join _ => true
  | .pair _ _ .deq => true
  | _ => false

/-- The engine that an instruction pushes to. -/
def State.pushedTo (s : State) : Decoded → Option Engine
  | .instr (.mxpush _) => some .mx
  | .instr (.cppush _) => some .cp
  | .instr (.snpush _) => some .sn
  | .instr (.vst f) => s.pushTarget (intSize f.ty) (s.vseq f (intSize f.ty))
  | _ => none

/-- A push that its queue holds waits for the queue before it waits for energy (R283). -/
def State.pushHeld (s : State) (i : Decoded) : Bool :=
  match s.pushedTo i with
  | some e => (s.here.q e).held || decide (2 ≤ (s.here.q e).queue.length)
  | none => false

/-- The instruction at the executing seat's address: what holds it, or its meaning. -/
def State.issueInstr (s : State) : Out State :=
  match s.fetch with
  | (.wait, s) => .next (s.stall 4)
  | (.trap c v, s) => .next (s.raise c v)
  | (.ok i, s) =>
    if s.me.awaits (decodedRegs i) then .next (s.holdMe 10 false false)
    else if s.gated (decodedReaches i) then .next (s.stall 4)
    else
      match s.me.waitsFor with
      | some o =>
        if o.dest.atHome then Decoded.run i s else .next (s.whenBack (formOf i) o)
      | none =>
        if energyOf i ≠ 0 ∧ s.me.credit.toInt ≤ 0 ∧ !s.pushHeld i then .next (s.stall 5)
        else Decoded.run i s

/-- Whether the executing seat has run past the last parcel of its carried code (R41). -/
def State.pastCode (s : State) : Bool :=
  match s.me.work with
  | some w => decide (w.kind = .carried) && decide (s.me.pc = w.codeEnd)
  | none => false

/-- One attempt of the executing seat where no boundary cause is pending: the end of carried code, or its instruction. -/
def State.attempt (s : State) : Out State :=
  if !s.mayIssue then .next (s.stall 9)
  else if s.pastCode then .next (s.exitOp ⟨2, 0, 0⟩)
  else s.issueInstr

/-- Whether an attempt ended in a precise trap of the executing seat's instruction: cr.epc names it (R391). BRK, SVC and
`trap` come after completion, and STORE_FAULT at a fence is a boundary cause. -/
def State.precise (s t : State) : Bool :=
  let r := t.me.tr
  t.me.inTrap && !r.imp && decide (r.epc = s.me.pc) && decide (r.cause.toNat < 13)

/-- A precise trap of the instruction at a seat's boundary, which comes before every pending cause (R395). -/
def State.preciseTrap (s : State) : Option State :=
  match s.attempt with
  | .next t => if s.precise t then some t else none
  | _ => none

/-- One attempt of the executing seat: a pending boundary cause, unless the instruction at the boundary raises a precise
trap (R395); otherwise the end of carried code, or the instruction. -/
def State.issueSeat (s : State) : Out State :=
  match s.atBoundary s.cur, s.firstCause s.cur with
  | true, some c => .next (s.preciseTrap.getD (if s.causeWaits s.cur c then s.stall 4 else s.takeCause s.cur c))
  | _, _ => s.attempt

/-- The seat whose boundary cause an event takes. -/
def causeSeat : Instr → Option SeatId
  | .storeFault t | .eccStoreAtHome t | .engineFault t | .outlierFull t | .sysReplyTrap t | .watchdog t | .chain t => some t
  | _ => none

/-- An event of the agenda: one that takes a seat's boundary cause has no effect where the instruction there raises a
precise trap, which comes first (R395). -/
def State.event (s : State) (i : Instr) : Out State :=
  match causeSeat i with
  | some t =>
    if s.atBoundary t && (s.firstCause t).isSome && (({ s with cur := t } : State).preciseTrap).isSome then .next s else exec i s
  | none => exec i s

/-- The attempts of a core's seats in turn: a seat that stalls or blocks is not ready and gives its cycle to the
next (R24). -/
def State.issueFrom (c : CoreId) : List (Fin 4) → State → Out State
  | [], s => .next s
  | i :: r, s =>
    match ({ s with cur := ⟨c, i⟩ } : State).issueSeat with
    | .next t => if (t.seat ⟨c, i⟩).hold.isSome then State.issueFrom c r t else .next t
    | o => o

/-- One issue of a core (R24); a core without live work or with its cluster not running does nothing. -/
def State.issue (s : State) (c : CoreId) : Out State :=
  if s.up c then State.issueFrom c (s.turns c) s else .next s

end Sys2Proof.Machine
end

