-- ==== Sys2Proof/Machine/Step.lean ====
section
/-!
DEFINITION. One step of the machine (R355): the first move of the agenda, or one issue attempt of the core that
issued last; and how an instruction is placed where the next step fetches it.
-/

namespace Sys2Proof.Machine

/-- One step. A move of the agenda that names no event, or one whose condition does not hold, changes nothing but
the agenda (log entry 1). -/
def step (s : State) : Host.Outcome State Fault Refusal :=
  match s.agenda with
  | [] => s.issue s.cur.core
  | m :: rest =>
    let s : State := { s with agenda := rest }
    match m with
    | .event i => if (encode i).isSome then .next s else s.event i
    | .issue c => s.issue c
    | .upset g ok limit => .next (s.strike g ok limit)

/-- The core, partition, page and seat of a placed instruction (log entry 11): partition 0 of one cluster, its core
(0, 0, 0) with seat 0 running a task at the start of the paged window, one page of 64 KiB mapped there from the
frame at 0x10000, and the energy credit that the reset governor gives. -/
def State.withFetchWord (s : State) (nbits w : Nat) : State := s.placeProgram (natLe 4 (w % 2 ^ nbits))

end Sys2Proof.Machine
end

