-- ==== Sys2Proof/Safety.lean ====
section
/-!
DEFINITION. What counts as a safe run, and the words that the claims are stated in: what a step leaves alone, and
what an instruction that completes does besides its own effect.
-/

namespace Sys2Proof.Machine

/-- Memory keeps its one canonical form: equal memories are equal lists. -/
abbrev State.memOk (s : State) : Prop := s.mem.wf = true

/-! ## What is left alone -/

/-- A seat without what every completing instruction changes: where it goes on (R102, R98), its chain tag (R55), its
energy credit (R280), its hold, and the pending CHAIN (R72). -/
def Seat.still (x : Seat) : Seat :=
  { x with pc := 0, loops := Vector.replicate 6 0, tag := Tag.zero, credit := 0, hold := none,
           pend := { x.pend with chain := false } }

/-- A core without its seats, the seat that issued last (R24) and its event counters (R373). -/
def Core.base (k : Core) : Core :=
  { k with seats := Vector.replicate 4 Seat.reset, lastSeat := 0, ev := Vector.replicate 4 0 }

/-- A cluster without its event counters. -/
def Cluster.base (k : Cluster) : Cluster := { k with cxev := Vector.replicate 8 0 }

/-- A die without its event counters. -/
def Die.base (d : Die) : Die := { d with dxev := Vector.replicate 32 0 }

/-- The package without its cores, clusters and dies. -/
def State.base (s : State) : State := { s with cores := [], clusters := [], dies := [] }

/-- Nothing but the executing seat, the turn of its core and event counters may differ between two states. -/
structure State.Kept (s t : State) : Prop where
  /-- Everything that is no core, cluster or die: memory, buffers, partitions, registers of regions and package. -/
  base : t.base = s.base
  /-- Every byte of memory. -/
  mem : ∀ a, t.mem.read a = s.mem.read a
  /-- Every other core. -/
  cores : ∀ c, c ≠ s.cur.core → t.core c = s.core c
  /-- Everything of the executing core that is no seat. -/
  here : t.here.base = s.here.base
  /-- Every other seat of the executing core. -/
  seats : ∀ i : Fin 4, i ≠ s.cur.seat → t.here.seats[i] = s.here.seats[i]
  /-- Every cluster and die, but for counters. -/
  clusters : ∀ k, (t.cluster k).base = (s.cluster k).base
  dies : ∀ d, (t.die d).base = (s.die d).base

/-! ## What completes -/

/-- The executing seat's tag once the interval that is open is charged (R60, R61, R63). -/
def State.charged (s : State) : Tag :=
  match s.me.hold with
  | none => s.me.tag
  | some h =>
    if 1 ≤ h.kind ∧ h.kind ≤ 9 then
      s.me.tag.charge h.kind (toRef h.cycles (s.region (s.regionOf s.cur.core)).rate)
    else s.me.tag

/-- From u, which holds the instruction's own effect, its completion leads to t: the open interval is charged and
then the cost is added to the span (R55), the debit is taken (R280), the seat stands at `pc` with `loops`, and CHAIN
becomes pending where R72 says so. Nothing else happens. -/
structure State.Went (u t : State) (loops : Vector Word 6) (pc : Word) (units cost : Nat) : Prop extends u.Kept t where
  still : t.me.still = u.me.still
  loops : t.me.loops = loops
  pc : t.me.pc = pc
  tag : t.me.tag = u.charged.add cost
  credit : t.me.credit = u.me.credit - BitVec.ofNat 32 units
  hold : t.me.hold = none
  chain : t.me.pend.chain =
    (u.me.pend.chain || (u.me.armed && decide (u.me.chlim.toNat < (u.charged.add cost).span.toNat)))

/-- The same, where execution goes on after an instruction of `len` bytes, through the end tests of the hardware
loops (R98). -/
abbrev State.Ran (u t : State) (len units cost : Nat) : Prop :=
  u.Went t (u.me.endTests u.me.pc (u.me.pc + BitVec.ofNat 64 len)).1.loops
    (u.me.endTests u.me.pc (u.me.pc + BitVec.ofNat 64 len)).2 units cost

/-- The same, where execution goes on at a target: a transfer of R98. -/
abbrev State.Jumped (u t : State) (target : Word) (units cost : Nat) : Prop :=
  u.Went t (u.me.transfer target).loops target units cost

/-- The executing seat takes a trap from s (R162, R393): the open interval is charged; cause, value and return
address are saved with the privilege; the seat enters trap state at supervisor privilege or above and stands at its
handler's vector; what it had reserved or begun is given up. Nothing else happens. -/
structure State.Trapped (s t : State) (cause : BitVec 6) (epc tval : Word) (imp : Bool) : Prop where
  base : t.base = s.base
  mem : ∀ a, t.mem.read a = s.mem.read a
  cores : ∀ c, c ≠ s.cur.core → t.core c = s.core c
  here : t.here.base = (s.here.unreserve s.cur.seat).base
  seats : ∀ i : Fin 4, i ≠ s.cur.seat → t.here.seats[i] = s.here.seats[i]
  clusters : ∀ k, (t.cluster k).base = (s.cluster k).base
  dies : ∀ d, (t.die d).base = (s.die d).base
  me : t.me =
    { s.me with
      tag := s.charged
      tr := { s.me.tr with imp := imp, ppriv := s.me.priv, cause := cause, epc := epc &&& 0xFFFFFFFFFFFE, tval := tval }
      priv := if s.me.priv = 0 then 1 else s.me.priv
      inTrap := true
      pc := s.me.tr.tvec + 64 * cause.setWidth 64
      hold := none
      vprog := none
      outs := s.me.outs.filter fun o => !o.isLanes
      handed := none }

/-- An instruction takes a precise trap from s (R391): cr.epc names it, and it has no effect of its own. -/
def State.Takes (s : State) (i : Instr) (cause : BitVec 6) (tval : Word) : Prop :=
  ∃ t, exec i s = .next t ∧ s.Trapped t cause s.me.pc tval false

/-- An instruction completes from s and then takes a trap: cr.epc is where execution would have gone on (R163). The
cycle counts for the seat's watchdog, which stays pending if its count ends (R167). -/
def State.DoesAndTraps (s : State) (i : Instr) (len cost : Nat) (cause : BitVec 6) (tval : Word) : Prop :=
  ∃ u t, exec i s = .next t ∧ s.Ran u len 0 cost ∧ (u.modMe Seat.watch).Trapped t cause u.me.pc tval false

/-- An instruction completes from s: its own effect is that of u, and it goes on to the next instruction. -/
def State.Does (s : State) (i : Instr) (u : State) (len units cost : Nat) : Prop :=
  ∃ t, exec i s = .next t ∧ u.Ran t len units cost

/-- An instruction completes from s: its own effect is that of u, and it transfers to a target. -/
def State.Jumps (s : State) (i : Instr) (u : State) (target : Word) (cost : Nat) : Prop :=
  ∃ t, exec i s = .next t ∧ u.Jumped t target 0 cost

/-! ## When an access can be performed now -/

/-- A home may serve an access of the executing seat to n bytes at `at_` now: no router on the way drops it (R428), the
cluster that holds it runs (R377), no other access of this local cycle has a bank of theirs (R261, R339), and in
deterministic mode the ordered point it passes serves the seat's key (R454). -/
def State.openTo (s : State) (cost home at_ n : Nat) (point : Option Nat) : Prop :=
  s.barred s.cur.core home = none ∧ s.homeUp home = true ∧ s.meets at_ n = false ∧
    ∀ p q, s.det? s.cur.core = some p → point = some q → s.mayServe p q (s.keyFor cost) = true

/-- The state in which an access to n bytes at `at_` of its own die meets its home: their banks are taken for this local
cycle (R339), the frame is claimed (R413) and the page counted (R348). -/
def State.entering (s : State) (home at_ n : Nat) (pte : Option TlbEntry) : State :=
  let s := (s.touch at_ n).claimHome s.cur.core home
  match pte with
  | some e => s.countPage s.cur.core e
  | none => s

/-- The frame of a home belongs to the context of the executing core, if both exist (R413). -/
def State.owns (s : State) (home : Nat) : Prop :=
  ∀ f p x, frameOf home = some f → s.partOf s.cur.core = some p → p.ctx = some x →
    s.owners.has f = true ∧ s.owners.get f 0 = x

/-- The frames that the n bytes from a home on lie in belong to the context of a core, if both exist (R413): an access for
the core to them claims nothing. -/
def State.holds (s : State) (c : CoreId) (h n : Nat) : Prop :=
  ∀ a p x f, h ≤ a → a ≤ h + (n - 1) → s.partOf c = some p → p.ctx = some x → frameOf a = some f →
    s.owners.has f = true ∧ s.owners.get f 0 = x

/-- An engine of a core reads the n bytes at an address of its TCM or scratchpad as memory holds them: their frames are its
context's, no granule has an error (R350), and no store of the core waits (R355). -/
def State.engineReads (s : State) (c : CoreId) (a n : Nat) : Prop :=
  s.holds c (engineHome c a) n ∧ s.bad = [] ∧ s.weak = [] ∧ (s.core c).sb = []

/-- The copy engine of a core reads the n bytes at an address of its TCM or scratchpad as memory holds them, and at once. -/
def State.cpReads (s : State) (c : CoreId) (a n : Nat) : Prop :=
  inTcmOrScratch a n 1 = true ∧ dieOfHome (engineHome c a) = dieOf c ∧ s.barred c (engineHome c a) = none ∧
    s.homeUp (engineHome c a) = true ∧ s.scratchClash c (engineHome c a) n = false ∧ s.engineReads c a n

/-- The copy engine of a core writes the n bytes at an address of its TCM or scratchpad at once. -/
def State.cpWrites (s : State) (c : CoreId) (a n : Nat) : Prop :=
  inTcmOrScratch a n 1 = true ∧ dieOfHome (engineHome c a) = dieOf c ∧ s.barred c (engineHome c a) = none ∧
    s.homeUp (engineHome c a) = true ∧ s.scratchClash c (engineHome c a) n = false ∧ s.holds c (engineHome c a) n ∧ s.bad = []

/-- The address that a GATHER or SCATTER indexes: the index of four bytes at `at_` times 2^e, from a base on this package. -/
def State.cpIndexed (s : State) (c : CoreId) (base : Word) (at_ e : Nat) : Word :=
  base + BitVec.ofNat 64 (leNat (s.mem.bytes (engineHome c at_) 4) * 2 ^ e)

/-- The source of a unit, in the own TCM or scratchpad, gives these bytes at once. -/
def State.cpGives (s : State) (c : CoreId) : CpSource → List Byte → Prop
  | .bytes l, bs => bs = l
  | .range a n, bs => a.pkg = none ∧ s.cpReads c a.va.toNat n ∧ bs = s.mem.bytes (engineHome c a.va.toNat) n
  | .indexed base at_ e, bs =>
    let a := (s.cpIndexed c base at_ e).toNat
    s.engineReads c at_ 4 ∧ base.getLsbD 63 = false ∧ s.cpReads c a (2 ^ e) ∧ bs = s.mem.bytes (engineHome c a) (2 ^ e)

/-- Nothing of the executing seat's own stores holds up an instruction that waits for them as a fence does (R202), or
as a release does (R198, R203), which waits for its loads and atomics too. -/
def State.quiet (s : State) (release : Bool) : Prop :=
  (s.hasRecord = true → s.me.inTrap = true) ∧
    if release then s.unperformed s.cur = [] ∧ s.me.outs = [] else s.here.storesOf s.cur.seat = []

/-- No store of these cells reaches the leaf of a page that is moving (R348). -/
def State.movesLeave (s : State) (cells : List (Nat × Byte)) : Prop :=
  ∀ d ∈ [0, 1, 2, 3], ∀ m ∈ (s.die d).moves, ∀ b ∈ cells, b.1 < m.pteAt ∨ m.pteAt + 8 ≤ b.1

/-- A leaf that is not replicated, and whose page is not moving; or no leaf. -/
def State.settled (s : State) (pte : Option TlbEntry) : Prop :=
  ∀ e, pte = some e → e.repl = false ∧ s.moving e = false

/-- The executing seat's access to n bytes at an address goes to a home on its own die, and nothing holds it up or stops
it: the address is aligned, the seat runs no carried code, no router drops it, the home's cluster runs, no other access
of this local cycle has a bank, the partition is in no deterministic mode, no granule has an error, nothing of the seat
or of its store buffer is under way, no deq waits, and the frame is the context's own. -/
structure State.Free (s : State) (va : Word) (n home : Nat) : Prop where
  aligned : va.toNat % n = 0
  spot : s.spot s.cur.core s.bench va = .mem home
  near : dieOfHome home = dieOf s.cur.core
  plain : s.carriedStart = none
  routed : s.barred s.cur.core home = none
  up : s.homeUp home = true
  banks : s.banks = []
  mode : s.det? s.cur.core = none
  good : s.bad = [] ∧ s.weak = []
  quiet : s.here.sb = [] ∧ s.here.rq = [] ∧ s.unperformed s.cur = [] ∧ s.me.outs = [] ∧ s.crossing s.cur = false
  frame : s.holds s.cur.core home n
  lone : s.deqs = []

/-! ## Commands of the engines -/

/-- The head command of an engine of a core may start (R224, R258, R277): it is x, and no cancel has dropped it. -/
def State.heads (s : State) (c : CoreId) (e : Engine) (x : Cmd) : Prop :=
  s.startable c e = some x ∧ x.dropped = false

/-- The command x as it starts: the interval that it waited at the head is charged (R60, R68). -/
def State.begun (s : State) (c : CoreId) (x : Cmd) : Cmd :=
  { x with tag := x.tag.charge 1 (toRef x.held (s.region (s.regionOf c)).rate), held := 0 }

/-- What an event of an engine of core c leaves alone: every other core but those in `also`, the seats of c, and the
state outside cores, TLBs and memory. -/
structure State.EngineKept (s t : State) (c : CoreId) (also : List CoreId) : Prop where
  cores : ∀ d, d ≠ c → d ∉ also → t.core d = s.core d
  seats : (t.core c).seats = (s.core c).seats
  nets : t.net = s.net ∧ t.parts = s.parts ∧ t.links = s.links ∧ t.instances = s.instances

/-- From s to t the head command x of an engine of core c starts and is over at once, with a cost: it leaves the
queue and stands as the newest of those under way, with status 0. -/
def State.EngineDone (s t : State) (c : CoreId) (e : Engine) (x : Cmd) (cost : Nat) : Prop :=
  ∃ r : Run, r.cmd = s.begun c x ∧ r.fin = some (0, 0) ∧ r.tag = (s.begun c x).endTag cost ∧
    ((t.core c).q e).run = ((s.core c).q e).run ++ [r] ∧ ((t.core c).q e).queue = ((s.core c).q e).queue.drop 1

/-- From s to t the head command x starts and is under way. -/
def State.EngineStarts (s t : State) (c : CoreId) (e : Engine) (x : Cmd) (is : Run → Prop) : Prop :=
  ∃ r : Run, r.cmd = s.begun c x ∧ r.fin = none ∧ r.step = 0 ∧ is r ∧
    ((t.core c).q e).run = ((s.core c).q e).run ++ [r] ∧ ((t.core c).q e).queue = ((s.core c).q e).queue.drop 1

/-- From s to t the running command r of a core's engine becomes one that meets `is`. -/
def State.EngineSteps (s t : State) (c : CoreId) (e : Engine) (r : Run) (is : Run → Prop) : Prop :=
  ∃ r' before after, ((s.core c).q e).run = before ++ r :: after ∧ ((t.core c).q e).run = before ++ r' :: after ∧
    r'.cmd = r.cmd ∧ is r' ∧ ((t.core c).q e).queue = ((s.core c).q e).queue

/-! ## Events -/

/-- From s to t nothing but core c, and event counters, may differ. -/
structure State.AtCore (s t : State) (c : CoreId) : Prop where
  base : t.base = s.base
  cores : ∀ d, d ≠ c → t.core d = s.core d
  clusters : ∀ k, (t.cluster k).base = (s.cluster k).base
  dies : ∀ d, (t.die d).base = (s.die d).base

/-- From s to t nothing but one seat, and event counters, may differ. -/
structure State.AtSeat (s t : State) (x : SeatId) : Prop extends s.AtCore t x.core where
  here : (t.core x.core).base = (s.core x.core).base
  seats : ∀ i : Fin 4, i ≠ x.seat → (t.core x.core).seats[i] = (s.core x.core).seats[i]

/-- From s to t the core c has changed as an engine of it does: its shared part is q, the done counters are as
`done` gives them, and the seats, the message side and the store side of the core are as they were. -/
structure State.EngineIs (s t : State) (c : CoreId) (e : Engine) (q : EngineQ) (done : Vector DoneCounter 8) : Prop where
  q : (t.core c).q e = q
  others : ∀ e', e' ≠ e → (t.core c).q e' = (s.core c).q e'
  done : (t.core c).done = done
  rest : (t.core c).runq = (s.core c).runq ∧ (t.core c).sb = (s.core c).sb ∧ (t.core c).chans = (s.core c).chans ∧
    (t.core c).mx.banks = (s.core c).mx.banks ∧ (t.core c).mx.cur = (s.core c).mx.cur ∧
    (t.core c).sn.carry = (s.core c).sn.carry

/-- The package without its cores, clusters, dies, memory with its errors, owners and images, and trace. -/
def State.side (s : State) : State :=
  { s.base with mem := [], bad := [], weak := [], owners := [], ctxs := [], trace := State.reset.trace }

/-- From s to t nothing but the cores in `cs`, memory, trace records and event counters may differ. -/
structure State.AtCores (s t : State) (cs : List CoreId) : Prop where
  side : t.side = s.side
  cores : ∀ d, d ∉ cs → t.core d = s.core d
  clusters : ∀ k, (t.cluster k).base = (s.cluster k).base
  dies : ∀ d, (t.die d).base = (s.die d).base

end Sys2Proof.Machine
end

