-- ==== Sys2Proof/Certificates/Slice0/Obligations.lean ====
section
/-!
DEFINITION. The statements for the provers. Each docstring names the rules that it formalises. `s.Does i u len
units cost` says that exec i s answers a next state in which the instruction has completed: its own effect is the
difference between s and u, execution goes on after `len` bytes, `units` of energy are taken and `cost` is added to
the span, and everything else is as it was (Safety.lean).
-/

open Sys2Proof Sys2Proof.Machine

/-! ## The integer instructions -/

/-- R125: g0 reads zero and a write to it is discarded; a write to another g register is what it reads afterwards,
and nothing else changes. R137, the register forms that add, combine bits and choose. R137, shifts and rotates, whose
amount is gB modulo 64: bit i of each result. -/
def Obligations.IntegerOperations : Prop :=
  (∀ (s : State) (d q : Reg) (x : Word),
     s.g 0 = 0 ∧ (s.setG d x).g q = (if q = d ∧ d ≠ 0 then x else s.g q) ∧ s.Kept (s.setG d x) ∧
       (s.setG d x).me = { s.me with g := (s.setG d x).me.g } ∧ (d = 0 → (s.setG d x).me = s.me)) ∧
  (∀ (s : State) (d a b : Reg),
     s.Does (.add d a b) (s.setG d (BitVec.ofNat 64 ((s.g a).toNat + (s.g b).toNat))) 4 0 1 ∧
     s.Does (.sub d a b) (s.setG d (BitVec.ofInt 64 ((s.g a).toInt - (s.g b).toInt))) 4 0 1 ∧
     s.Does (.and d a b) (s.setG d (s.g a &&& s.g b)) 4 0 1 ∧
     s.Does (.or d a b) (s.setG d (s.g a ||| s.g b)) 4 0 1 ∧
     s.Does (.xor d a b) (s.setG d (s.g a ^^^ s.g b)) 4 0 1 ∧
     s.Does (.andn d a b) (s.setG d (s.g a &&& ~~~s.g b)) 4 0 1 ∧
     s.Does (.orn d a b) (s.setG d (s.g a ||| ~~~s.g b)) 4 0 1 ∧
     s.Does (.min d a b) (s.setG d (if (s.g a).toInt ≤ (s.g b).toInt then s.g a else s.g b)) 4 0 1 ∧
     s.Does (.max d a b) (s.setG d (if (s.g a).toInt ≤ (s.g b).toInt then s.g b else s.g a)) 4 0 1 ∧
     s.Does (.minz d a b) (s.setG d (if (s.g a).toNat ≤ (s.g b).toNat then s.g a else s.g b)) 4 0 1 ∧
     s.Does (.maxz d a b) (s.setG d (if (s.g a).toNat ≤ (s.g b).toNat then s.g b else s.g a)) 4 0 1 ∧
     s.Does (.slt d a b) (s.setG d (if (s.g a).toInt < (s.g b).toInt then 1 else 0)) 4 0 1 ∧
     s.Does (.sltz d a b) (s.setG d (if (s.g a).toNat < (s.g b).toNat then 1 else 0)) 4 0 1) ∧
  (∀ (s : State) (d a b : Reg),
     let x := s.g a
     let n := (s.g b).toNat % 64
     (∃ r : Word, (∀ i < 64, r.getLsbD i = (decide (n ≤ i) && x.getLsbD (i - n))) ∧
       s.Does (.sll d a b) (s.setG d r) 4 0 1) ∧
     (∃ r : Word, (∀ i < 64, r.getLsbD i = (decide (i + n < 64) && x.getLsbD (i + n))) ∧
       s.Does (.srl d a b) (s.setG d r) 4 0 1) ∧
     (∃ r : Word, (∀ i < 64, r.getLsbD i = x.getLsbD (if i + n < 64 then i + n else 63)) ∧
       s.Does (.sra d a b) (s.setG d r) 4 0 1) ∧
     (∃ r : Word, (∀ i < 64, r.getLsbD i = x.getLsbD ((i + 64 - n) % 64)) ∧
       s.Does (.rol d a b) (s.setG d r) 4 0 1) ∧
     (∃ r : Word, (∀ i < 64, r.getLsbD i = x.getLsbD ((i + n) % 64)) ∧
       s.Does (.ror d a b) (s.setG d r) 4 0 1))

/-- R137 and R138: products with their high halves, and division, which truncates toward zero, with its corner cases.
R137 and R139: counts of bits, extensions of the widths that R109 codes, and bit fields. -/
def Obligations.ProductsAndBitFields : Prop :=
  (∀ (s : State) (d a b : Reg),
     let x := s.g a
     let y := s.g b
     s.Does (.mul d a b) (s.setG d (BitVec.ofNat 64 (x.toNat * y.toNat))) 4 1 3 ∧
     s.Does (.mulh d a b) (s.setG d (BitVec.ofInt 64 (x.toInt * y.toInt / 2 ^ 64))) 4 1 3 ∧
     s.Does (.mulhz d a b) (s.setG d (BitVec.ofNat 64 (x.toNat * y.toNat / 2 ^ 64))) 4 1 3 ∧
     (∃ q : Word, (y = 0 → q = 0xFFFFFFFFFFFFFFFF) ∧
       (x.toInt = -2 ^ 63 → y.toInt = -1 → q = x) ∧
       (y ≠ 0 → ¬(x.toInt = -2 ^ 63 ∧ y.toInt = -1) → q.toInt = x.toInt.tdiv y.toInt) ∧
       s.Does (.div d a b) (s.setG d q) 4 1 20) ∧
     (∃ r : Word, (y = 0 → r = x) ∧ (x.toInt = -2 ^ 63 → y.toInt = -1 → r = 0) ∧
       (y ≠ 0 → r.toInt = x.toInt.tmod y.toInt) ∧ s.Does (.rem d a b) (s.setG d r) 4 1 20) ∧
     (∃ q : Word, (y = 0 → q = 0xFFFFFFFFFFFFFFFF) ∧ (y ≠ 0 → q.toNat = x.toNat / y.toNat) ∧
       s.Does (.divz d a b) (s.setG d q) 4 1 20) ∧
     (∃ r : Word, (y = 0 → r = x) ∧ (y ≠ 0 → r.toNat = x.toNat % y.toNat) ∧
       s.Does (.remz d a b) (s.setG d r) 4 1 20)) ∧
  (∀ (s : State) (d a b : Reg) (w : BitVec 5),
     let x := s.g a
     let y := s.g b
     let n := if w = 0 then 8 else if w = 1 then 16 else 32
     let lo := (y.extractLsb' 0 6).toNat
     let hi := Nat.min (lo + (y.extractLsb' 6 6).toNat) 63
     (∃ r : Word, (x = 0 → r = 64) ∧
       (x ≠ 0 → r.toNat < 64 ∧ x.getLsbD (63 - r.toNat) = true ∧ ∀ i, 63 - r.toNat < i → x.getLsbD i = false) ∧
       s.Does (.clz d a) (s.setG d r) 4 0 1) ∧
     (∃ r : Word, (x = 0 → r = 64) ∧
       (x ≠ 0 → r.toNat < 64 ∧ x.getLsbD r.toNat = true ∧ ∀ i < r.toNat, x.getLsbD i = false) ∧
       s.Does (.ctz d a) (s.setG d r) 4 0 1) ∧
     s.Does (.popc d a) (s.setG d (BitVec.ofNat 64 ((List.range 64).map fun i => (x.getLsbD i).toNat).sum)) 4 0 1 ∧
     (w.toNat ≤ 2 → s.Does (.sext d a w) (s.setG d ((x.extractLsb' 0 n).signExtend 64)) 4 0 1) ∧
     (w.toNat ≤ 2 → s.Does (.zext d a w) (s.setG d (BitVec.ofNat 64 (x.toNat % 2 ^ n))) 4 0 1) ∧
     (∃ r : Word, (∀ i < 64, r.getLsbD i = (decide (lo + i ≤ hi) && x.getLsbD (lo + i))) ∧
       s.Does (.bext d a b) (s.setG d r) 4 0 1) ∧
     (∃ r : Word, (∀ i < 64, r.getLsbD i = if lo ≤ i ∧ i ≤ hi then x.getLsbD (i - lo) else (s.g d).getLsbD i) ∧
       s.Does (.bins d a b) (s.setG d r) 4 0 1))

/-- R140 and R141: the immediate forms. R120 and R121: each 16-bit integer parcel has the effect of the instruction
that it stands for, with gD as its first source, two bytes of length and no energy. -/
def Obligations.ImmediatesAndParcels : Prop :=
  (∀ (s : State) (d a : Reg) (imm : BitVec 11) (sh : BitVec 6) (u : BitVec 16),
     let x := s.g a
     let i : Word := imm.signExtend 64
     s.Does (.addi d a imm) (s.setG d (BitVec.ofInt 64 (x.toInt + imm.toInt))) 4 0 1 ∧
     s.Does (.andi d a imm) (s.setG d (x &&& i)) 4 0 1 ∧
     s.Does (.ori d a imm) (s.setG d (x ||| i)) 4 0 1 ∧
     s.Does (.xori d a imm) (s.setG d (x ^^^ i)) 4 0 1 ∧
     s.Does (.slti d a imm) (s.setG d (if x.toInt < imm.toInt then 1 else 0)) 4 0 1 ∧
     s.Does (.slli d a sh) (s.setG d (BitVec.ofNat 64 (x.toNat * 2 ^ sh.toNat))) 4 0 1 ∧
     s.Does (.srli d a sh) (s.setG d (BitVec.ofNat 64 (x.toNat / 2 ^ sh.toNat))) 4 0 1 ∧
     s.Does (.srai d a sh) (s.setG d (BitVec.ofInt 64 (x.toInt / 2 ^ (sh.toNat)))) 4 0 1 ∧
     s.Does (.lui d u) (s.setG d (BitVec.ofInt 64 (u.toInt * 2 ^ 16))) 4 0 1 ∧
     s.Does (.addpc d u) (s.setG d (BitVec.ofInt 64 (s.me.pc.toInt + 2 * u.toInt))) 4 0 1) ∧
  (∀ (s : State) (d a : Reg) (i : BitVec 5),
     let x := s.g d
     let y := s.g a
     s.Does (.sub16 d a) (s.setG d (x - y)) 2 0 1 ∧
     s.Does (.and16 d a) (s.setG d (x &&& y)) 2 0 1 ∧
     s.Does (.or16 d a) (s.setG d (x ||| y)) 2 0 1 ∧
     s.Does (.xor16 d a) (s.setG d (x ^^^ y)) 2 0 1 ∧
     s.Does (.andn16 d a) (s.setG d (x &&& ~~~y)) 2 0 1 ∧
     s.Does (.mov16 d a) (s.setG d y) 2 0 1 ∧
     s.Does (.slt16 d a) (s.setG d (if x.toInt < y.toInt then 1 else 0)) 2 0 1 ∧
     s.Does (.sll16 d a) (s.setG d (BitVec.ofNat 64 (x.toNat * 2 ^ (y.toNat % 64)))) 2 0 1 ∧
     s.Does (.srl16 d a) (s.setG d (BitVec.ofNat 64 (x.toNat / 2 ^ (y.toNat % 64)))) 2 0 1 ∧
     s.Does (.sra16 d a) (s.setG d (BitVec.ofInt 64 (x.toInt / 2 ^ ((y.toNat % 64))))) 2 0 1 ∧
     s.Does (.mul16 d a) (s.setG d (BitVec.ofNat 64 (x.toNat * y.toNat))) 2 0 3 ∧
     s.Does (.min16 d a) (s.setG d (if x.toInt ≤ y.toInt then x else y)) 2 0 1 ∧
     s.Does (.max16 d a) (s.setG d (if x.toInt ≤ y.toInt then y else x)) 2 0 1 ∧
     s.Does (.addi16 d i) (s.setG d (BitVec.ofInt 64 (x.toInt + i.toInt))) 2 0 1 ∧
     s.Does (.andi16 d i) (s.setG d (x &&& i.signExtend 64)) 2 0 1 ∧
     s.Does (.srli16 d i) (s.setG d (BitVec.ofNat 64 (x.toNat / 2 ^ i.toNat))) 2 0 1 ∧
     s.Does (.srai16 d i) (s.setG d (BitVec.ofInt 64 (x.toInt / 2 ^ (i.toNat)))) 2 0 1)

/-! ## The floating-point instructions -/

/-- R144 to R147: sums and products complete with one result. For finite sources it is the exact sum or product
rounded once by cr.frm; an infinite operand gives an infinity of its sign, or the default NaN with NV where two
infinities of opposite sign meet in a sum, or a zero and an infinity in a product; a NaN among the sources gives the
first one, quiet with its payload; and NV is raised for a signalling source, and by fma for zero times infinity.
R121: the 16-bit sums and products do to gD and gA what the long forms do to gD, gD and gA. -/
def Obligations.FloatSumsAndProducts : Prop :=
  (∀ (s : State) (w : BitVec 1) (d a b : Reg),
     let k := fmtOf w
     let f (x : Word) : Fl := k.dec (if w = 0 then x.toNat % 2 ^ 32 else x.toNat)
     let out (r : FRes) : State := (s.setG d (BitVec.ofNat 64 r.bits)).setFlags r.flags
     let inf (n : Bool) : FRes := ⟨k.sign n k.infCode, 0⟩
     let bad : FRes := ⟨k.defaultNan, flagNV⟩
     let sumOf (r : FRes) (x y : Fl) : Prop := (∀ n n', x = .inf n → y = .inf n' → r = if n = n' then inf n else bad) ∧
       (∀ n n' m e, x = .inf n → y = .num n' m e → r = inf n) ∧ (∀ n n' m e, x = .num n' m e → y = .inf n → r = inf n) ∧
       ∀ n m e n' m' e', x = .num n m e → y = .num n' m' e' →
       let e0 := min e e'
       let v : Int := (if n then -1 else 1) * (m * 2 ^ (e - e0).toNat : Nat) +
         (if n' then -1 else 1) * (m' * 2 ^ (e' - e0).toNat : Nat)
       (v ≠ 0 → r = k.round s.rm (decide (v < 0)) v.natAbs e0) ∧
         (v = 0 → n ≠ n' → r = ⟨k.sign (decide (s.rm = .rdn)) 0, 0⟩) ∧ (v = 0 → n = n' → r = ⟨k.sign n 0, 0⟩)
     let nanOf (r : FRes) (xs : List Fl) : Prop := (∀ n g f, xs.find? Fl.isNan = some (.nan n g f) →
       r.bits = k.sign n (k.maxCode + 1 + (f ||| 2 ^ (k.fbits - 1)))) ∧ (xs.any Fl.isSnan = true → r.flags.getLsbD 4 = true)
     (∃ r : FRes, sumOf r (f (s.g a)) (f (s.g b)) ∧ nanOf r [f (s.g a), f (s.g b)] ∧
       s.Does (.fadd w d a b) (out r) 4 1 4) ∧
     (∃ r : FRes, sumOf r (f (s.g a)) (f (s.g b)).negate ∧ nanOf r [f (s.g a), f (s.g b)] ∧
       s.Does (.fsub w d a b) (out r) 4 1 4) ∧
     (∃ r : FRes, (∀ n m e n' m' e', f (s.g a) = .num n m e → f (s.g b) = .num n' m' e' →
         r = k.round s.rm (n != n') (m * m') (e + e')) ∧
       (∀ n n', f (s.g a) = .inf n → f (s.g b) = .inf n' → r = inf (n != n')) ∧
       (∀ n n' m e, f (s.g a) = .inf n ∧ f (s.g b) = .num n' m e ∨ f (s.g a) = .num n' m e ∧ f (s.g b) = .inf n →
         r = if m = 0 then bad else inf (n != n')) ∧ nanOf r [f (s.g a), f (s.g b)] ∧
       s.Does (.fmul w d a b) (out r) 4 1 4) ∧
     (∃ r : FRes, (∀ n m e n' m' e', f (s.g a) = .num n m e → f (s.g b) = .num n' m' e' →
         sumOf r (.num (n != n') (m * m') (e + e')) (f (s.g d))) ∧
       (∀ n n', f (s.g a) = .inf n → f (s.g b) = .inf n' → sumOf r (.inf (n != n')) (f (s.g d))) ∧
       (∀ n n' m e, f (s.g a) = .inf n ∧ f (s.g b) = .num n' m e ∨ f (s.g a) = .num n' m e ∧ f (s.g b) = .inf n →
         (m ≠ 0 → sumOf r (.inf (n != n')) (f (s.g d))) ∧
         (m = 0 → r.flags.getLsbD 4 = true ∧ ((f (s.g d)).isNan = false → r = bad))) ∧ nanOf r [f (s.g a), f (s.g b), f (s.g d)] ∧
       s.Does (.fma w d a b) (out r) 4 1 4)) ∧
  (∀ (s : State) (d a : Reg),
     let f32 (g : Rm → Nat → Nat → FRes) : FRes := g s.rm ((s.g d).toNat % 2 ^ 32) ((s.g a).toNat % 2 ^ 32)
     let f64 (g : Rm → Nat → Nat → FRes) : FRes := g s.rm (s.g d).toNat (s.g a).toNat
     let out (r : FRes) : State := (s.setG d (BitVec.ofNat 64 r.bits)).setFlags r.flags
     s.Does (.faddF3216 d a) (out (f32 Fmt.f32.add)) 2 0 4 ∧ s.Does (.fsubF3216 d a) (out (f32 Fmt.f32.sub)) 2 0 4 ∧
     s.Does (.fmulF3216 d a) (out (f32 Fmt.f32.mul)) 2 0 4 ∧ s.Does (.faddF6416 d a) (out (f64 Fmt.f64.add)) 2 0 4 ∧
     s.Does (.fsubF6416 d a) (out (f64 Fmt.f64.sub)) 2 0 4 ∧ s.Does (.fmulF6416 d a) (out (f64 Fmt.f64.mul)) 2 0 4)

/-- R144 to R147: quotients and square roots complete, with the special cases of the table. A NaN among the sources
gives the first one, quiet with its payload, and NV for a signalling one. A quotient or root of finite numbers is carried to more than sixty bits, with an odd last bit where it is not exact, and rounded once. -/
def Obligations.FloatQuotientsAndRoots : Prop :=
  ∀ (s : State) (w : BitVec 1) (d a b : Reg),
    let k := fmtOf w
    let f (x : Word) : Fl := k.dec (if w = 0 then x.toNat % 2 ^ 32 else x.toNat)
    let out (r : FRes) : State := (s.setG d (BitVec.ofNat 64 r.bits)).setFlags r.flags
    let cost := if w = 0 then 12 else 20
    let nanOf (r : FRes) (xs : List Fl) : Prop := ∀ n g f, xs.find? Fl.isNan = some (.nan n g f) →
      r.bits = k.sign n (k.maxCode + 1 + (f ||| 2 ^ (k.fbits - 1))) ∧
        r.flags = if xs.any Fl.isSnan then flagNV else 0
    (∃ r : FRes,
      (∀ n m e n' e', f (s.g a) = .num n m e → f (s.g b) = .num n' 0 e' →
        r = if m = 0 then ⟨k.defaultNan, flagNV⟩ else ⟨k.sign (n != n') k.infCode, flagDZ⟩) ∧
      nanOf r [f (s.g a), f (s.g b)] ∧
      (∀ n e n' m' e', f (s.g a) = .num n 0 e → f (s.g b) = .num n' m' e' → m' ≠ 0 → r = ⟨k.sign (n != n') 0, 0⟩) ∧
      (∀ n n', f (s.g a) = .inf n → f (s.g b) = .inf n' → r = ⟨k.defaultNan, flagNV⟩) ∧
      (∀ n n' m' e', f (s.g a) = .inf n → f (s.g b) = .num n' m' e' → r = ⟨k.sign (n != n') k.infCode, 0⟩) ∧
      (∀ n m e n', f (s.g a) = .num n m e → f (s.g b) = .inf n' → r = ⟨k.sign (n != n') 0, 0⟩) ∧
      (∀ n m e n' m' e', f (s.g a) = .num n m e → m ≠ 0 → f (s.g b) = .num n' m' e' → m' ≠ 0 →
        ∃ j : Nat, 2 ^ 60 ≤ m * 2 ^ j / m' ∧ r = if m * 2 ^ j % m' = 0
          then k.round s.rm (n != n') (m * 2 ^ j / m') (e - e' - j)
          else k.round s.rm (n != n') (2 * (m * 2 ^ j / m') + 1) (e - e' - j - 1)) ∧
      s.Does (.fdiv w d a b) (out r) 4 1 cost) ∧
    (∃ r : FRes, nanOf r [f (s.g a)] ∧
      (∀ n e, f (s.g a) = .num n 0 e → r = ⟨k.sign n 0, 0⟩) ∧
      (∀ m e, f (s.g a) = .num true m e → m ≠ 0 → r = ⟨k.defaultNan, flagNV⟩) ∧
      (∀ m e, f (s.g a) = .num false m e → m ≠ 0 → ∃ j q : Nat, 2 ^ 60 ≤ q ∧ (e - j) % 2 = 0 ∧ q * q ≤ m * 2 ^ j ∧
        m * 2 ^ j < (q + 1) * (q + 1) ∧ r = if q * q = m * 2 ^ j then k.round s.rm false q ((e - j) / 2)
          else k.round s.rm false (2 * q + 1) ((e - j) / 2 - 1)) ∧
      (f (s.g a) = .inf false → r = ⟨k.infCode, 0⟩) ∧ (f (s.g a) = .inf true → r = ⟨k.defaultNan, flagNV⟩) ∧
      s.Does (.fsqrt w d a) (out r) 4 1 cost)

/-- R148 and R149: selection, comparison, classification and signs. -/
def Obligations.FloatChoices : Prop :=
  ∀ (s : State) (w : BitVec 1) (d a b : Reg),
    let k := fmtOf w
    let src (x : Word) : Nat := if w = 0 then x.toNat % 2 ^ 32 else x.toNat
    let x := src (s.g a)
    let y := src (s.g b)
    let p := k.dec x
    let q := k.dec y
    let top := 2 ^ (k.width - 1)
    let out (r : Nat) (fl : BitVec 5) : State := (s.setG d (BitVec.ofNat 64 r)).setFlags fl
    let sn : BitVec 5 := if p.isSnan ∨ q.isSnan then flagNV else 0
    let any : BitVec 5 := if p.isNan ∨ q.isNan then flagNV else 0
    let nan := p.isNan || q.isNan
    let pick (r : Nat) (less : Fl → Fl → Prop) : Prop := (p.isNan = true → q.isNan = true → r = k.defaultNan) ∧
      (p.isNan = true → q.isNan = false → r = y) ∧ (p.isNan = false → q.isNan = true → r = x) ∧
      (nan = false → (r = x ∨ r = y) ∧ (less p q → r = x) ∧ (less q p → r = y))
    (∃ r, pick r (fun u v => u.lt v = true ∨ (u.isZero = true ∧ v.isZero = true ∧ u.neg = true ∧ v.neg = false)) ∧
       s.Does (.fmin w d a b) (out r sn) 4 1 2) ∧
    (∃ r, pick r (fun u v => v.lt u = true ∨ (u.isZero = true ∧ v.isZero = true ∧ u.neg = false ∧ v.neg = true)) ∧
       s.Does (.fmax w d a b) (out r sn) 4 1 2) ∧
    s.Does (.fcmpEq w d a b) (out (if nan then 0 else (p.eq q).toNat) sn) 4 1 2 ∧
    s.Does (.fcmpLt w d a b) (out (if nan then 0 else (p.lt q).toNat) any) 4 1 2 ∧
    s.Does (.fcmpLe w d a b) (out (if nan then 0 else (p.lt q || p.eq q).toNat) any) 4 1 2 ∧
    (∃ c < 10, (p.isSnan = true → c = 8) ∧ (p.isNan = true → p.isSnan = false → c = 9) ∧
      (∀ n, p = .inf n → c = if n then 0 else 7) ∧ (∀ n e, p = .num n 0 e → c = if n then 3 else 4) ∧
      (∀ n m e, p = .num n m e → m ≠ 0 → c = if m < 2 ^ k.fbits then (if n then 2 else 5) else if n then 1 else 6) ∧
      s.Does (.fclass w d a) (out (2 ^ c) 0) 4 1 2) ∧
    s.Does (.fsgn w d a b) (out (x % top + (if y.testBit (k.width - 1) then top else 0)) 0) 4 1 2 ∧
    s.Does (.fsgnN w d a b) (out (x % top + (if y.testBit (k.width - 1) then 0 else top)) 0) 4 1 2 ∧
    s.Does (.fsgnX w d a b)
      (out (x % top + (if x.testBit (k.width - 1) = y.testBit (k.width - 1) then 0 else top)) 0) 4 1 2

/-- R150: conversions by each code. One to an integer in range raises NX where the value is no integer, and nothing
else. R145: rounding a number that the format holds gives its own pattern and raises no flag, in every direction. -/
def Obligations.FloatConversions : Prop :=
  (∀ (s : State) (w : BitVec 1) (d a : Reg),
     let k := fmtOf w
     let l := fmtOf (1 - w)
     let p := k.dec (if w = 0 then (s.g a).toNat % 2 ^ 32 else (s.g a).toNat)
     let out (v : Word) (fl : BitVec 5) : State := (s.setG d v).setFlags fl
     let signed := k.round s.rm (decide ((s.g a).toInt < 0)) (s.g a).toInt.natAbs 0
     let unsigned := k.round s.rm false (s.g a).toNat 0
     let toInteger (c : BitVec 5) (lo hi : Int) : Prop := ∃ (v : Int) (fl : BitVec 5),
       (p.isNan = true → v = hi ∧ fl = flagNV) ∧ (∀ n, p = .inf n → v = (if n then lo else hi) ∧ fl = flagNV) ∧
       (∀ n m e, p = .num n m e →
         let u : Int := if n then -(rint s.rm n m (-e) : Int) else rint s.rm n m (-e)
         (u < lo → v = lo ∧ fl = flagNV) ∧ (hi < u → v = hi ∧ fl = flagNV) ∧ 
         (lo ≤ u → u ≤ hi → v = u ∧ fl = if 0 ≤ e ∨ m % 2 ^ (-e).toNat = 0 then 0 else flagNX)) ∧
       s.Does (.fcvt w d a c) (out (BitVec.ofInt 64 v) fl) 4 1 4
     toInteger 0 (-2 ^ 63) (2 ^ 63 - 1) ∧ toInteger 1 0 (2 ^ 64 - 1) ∧
     s.Does (.fcvt w d a 2) (out (BitVec.ofNat 64 signed.bits) signed.flags) 4 1 4 ∧
     s.Does (.fcvt w d a 3) (out (BitVec.ofNat 64 unsigned.bits) unsigned.flags) 4 1 4 ∧
     (∃ r : FRes, (∀ n m e, p = .num n m e → r = l.round s.rm n m e) ∧ (∀ n, p = .inf n → r = ⟨l.sign n l.infCode, 0⟩) ∧
       (∀ n g f, p = .nan n g f → r.flags = (if g then flagNV else 0) ∧
         r.bits = l.sign n (l.maxCode + 1 + ((if w = 0 then f * 2 ^ 29 else f / 2 ^ 29) ||| 2 ^ (l.fbits - 1)))) ∧
       s.Does (.fcvt w d a 4) (out (BitVec.ofNat 64 r.bits) r.flags) 4 1 4)) ∧
  (∀ k ∈ [Fmt.f16, Fmt.bf16, Fmt.f32, Fmt.f64], ∀ (rm : Rm) (x : Nat), x < 2 ^ k.width →
     ∀ n m e, k.dec x = .num n m e → k.round rm n m e = ⟨x, 0⟩)

/-! ## Control flow, loops and traps -/

/-- R151 and R152: branches and jumps, long and short. A branch or jump that is taken goes to its own address plus
twice its offset; jal and jalr leave the return address; an odd jalr target raises ALIGN. -/
def Obligations.BranchesAndJumps : Prop :=
  ∀ (s : State) (d a b : Reg) (o : BitVec 11) (i5 : BitVec 5) (o21 : BitVec 21) (o10 : BitVec 10),
    let x := s.g a
    let y := s.g b
    let pc := s.me.pc
    let at_ (o : Int) : Word := BitVec.ofInt 64 (pc.toInt + 2 * o)
    let cond (i : Instr) (c : Bool) : Prop :=
      (c = true → s.Jumps i s (at_ o.toInt) 1) ∧ (c = false → s.Does i s 4 0 1)
    let cond16 (i : Instr) (c : Bool) : Prop :=
      (c = true → s.Jumps i s (at_ i5.toInt) 1) ∧ (c = false → s.Does i s 2 0 1)
    cond (.bEq a b o) (decide (x = y)) ∧ cond (.bNe a b o) (decide (x ≠ y)) ∧
    cond (.bLt a b o) (decide (x.toInt < y.toInt)) ∧ cond (.bGe a b o) (decide (y.toInt ≤ x.toInt)) ∧
    cond16 (.bLt16 d i5) (decide ((s.g d).toInt < 0)) ∧ cond16 (.bGe16 d i5) (decide (0 ≤ (s.g d).toInt)) ∧
    s.Jumps (.j o21) s (at_ o21.toInt) 1 ∧ s.Jumps (.j16 o10) s (at_ o10.toInt) 1 ∧
    s.Jumps (.jal o21) (s.setG 1 (pc + 4)) (at_ o21.toInt) 1 ∧
    (x.toNat % 2 = 0 → s.Jumps (.jalr d a) (s.setG d (pc + 4)) x 1 ∧ s.Jumps (.jalr16 d a) (s.setG d (pc + 2)) x 1) ∧
    (x.toNat % 2 = 1 → s.me.inTrap = false → s.Takes (.jalr d a) 2 x ∧ s.Takes (.jalr16 d a) 2 x)

/-- R97, R99, R100, R153 and R154: the loop registers. Codes 0 to 5 name lc0, ls0, le0, lc1, ls1 and le1. R97: a
setup with a count other than zero starts its body; with zero it goes on behind the end, once the parcel there is
fetched. With an end before the body it raises ILLEGAL. A setup, and a write of a start or an end, empties the loop
buffer. R154: loop.leave of an inactive level goes on behind itself, without an end test; of an active one it ends
the level, with the other if its range lies inside, and goes on behind its end, once the parcel there is fetched. -/
def Obligations.HardwareLoops : Prop :=
  (∀ (s : State) (d a : Reg) (sel : BitVec 5) (h : sel.toNat < 6),
     let v := s.g a
     let put (r : Vector Word 6) : State := s.modMe fun t => { t with loops := r }
     s.Does (.loopRd d sel) (s.setG d (s.me.loops[sel.toNat])) 4 0 1 ∧
     (sel.toNat % 3 = 0 → s.Does (.loopWr a sel) (put (s.me.loops.set sel.toNat v)) 4 0 1) ∧
     (sel.toNat % 3 = 1 → v.toNat % 2 = 0 →
       s.Does (.loopWr a sel) (put (s.me.loops.set sel.toNat v)).dropLoops 4 0 1) ∧
     (sel.toNat % 3 = 2 → v.toNat % 2 = 0 →
       let passed := if s.me.inTrap then v.toNat < s.me.tr.epc.toNat else v.toNat ≤ s.me.pc.toNat
       (¬passed → s.Does (.loopWr a sel) (put (s.me.loops.set sel.toNat v)).dropLoops 4 0 1) ∧
       (passed →
         s.Does (.loopWr a sel) (put ((s.me.loops.set sel.toNat v).set (sel.toNat - 2) 0)).dropLoops 4 0 1)) ∧
     (sel.toNat % 3 ≠ 0 → v.toNat % 2 = 1 → s.me.inTrap = false → s.Takes (.loopWr a sel) 2 v)) ∧
  (∀ (s : State) (l : BitVec 1) (a : Reg) (n : BitVec 5) (imm : BitVec 11),
     let j := if l = 1 then 3 else 0
     let le := BitVec.ofNat 64 (s.me.pc.toNat + 2 * imm.toNat)
     let armed (s : State) (c : Word) : State := (s.modMe fun t =>
       { t with loops := Vector.ofFn fun i => if i.val = j then c else if i.val = j + 1 then s.me.pc + 4
                 else if i.val = j + 2 then le else t.loops[i] }).dropLoops
     let setup (i : Instr) (c : Word) : Prop :=
       (c ≠ 0 → s.Does i (armed s c) 4 0 1) ∧
       (c = 0 → ∀ p u, s.fetchParcel le true = (.ok p, u) →
         let next := le + if p.toNat % 4 = 3 then 4 else 2
         ∃ t, exec i s = .next t ∧ (armed u 0).Went t ((armed u 0).me.endTests u.me.pc next).1.loops
           ((armed u 0).me.endTests u.me.pc next).2 0 1)
     (s.me.inTrap = false → 2 ≤ imm.toNat →
       setup (.loopArm l a imm) (s.g a) ∧ setup (.loopArmi l n imm) (n.setWidth 64)) ∧
     (s.me.inTrap = false → imm.toNat < 2 →
       s.Takes (.loopArm l a imm) 0 (Instr.loopArm l a imm).tval ∧
       s.Takes (.loopArmi l n imm) 0 (Instr.loopArmi l n imm).tval)) ∧
  (∀ (s : State) (n : BitVec 5), n.toNat ≤ 1 → s.me.inTrap = false →
     let j := if n = 1 then 3 else 0
     let o := 3 - j
     let r (t : Seat) (i : Nat) : Word := t.loops.toList.getD i 0
     (r s.me j = 0 → ∃ t, exec (.loopLeave n) s = .next t ∧ s.Went t s.me.loops (s.me.pc + 4) 0 1) ∧
     (r s.me j ≠ 0 → ∀ p u, s.fetchParcel (r s.me (j + 2)) true = (.ok p, u) →
       let inner := (r u.me (j + 1)).toNat ≤ (r u.me (o + 1)).toNat ∧ (r u.me (o + 2)).toNat ≤ (r u.me (j + 2)).toNat
       let v := u.modMe fun t =>
         { t with loops := Vector.ofFn fun i => if i.val = j ∨ (i.val = o ∧ inner) then 0 else t.loops[i] }
       s.Jumps (.loopLeave n) v (r s.me (j + 2) + if p.toNat % 4 = 3 then 4 else 2) 1))

/-- R101 and R163: the instructions that trap on purpose complete and then enter the trap. R164 and R393: eret leaves
trap state, restores the privilege and goes to cr.epc without an end test; outside trap state it raises ILLEGAL with
its word in cr.tval. -/
def Obligations.TrapsAndReturn : Prop :=
  (∀ (s : State) (n : BitVec 5) (a b : Reg), s.me.inTrap = false →
     s.DoesAndTraps .svc 4 1 14 0 ∧ s.DoesAndTraps (.brk n) 4 1 13 (BitVec.ofNat 64 n.toNat) ∧
     (let cause := BitVec.ofNat 6 (s.g a).toNat
      (32 ≤ cause.toNat ∨ s.me.priv ≠ 0 → s.DoesAndTraps (.trap a b) 4 1 cause (s.g b)) ∧
      (cause.toNat < 32 → s.me.priv = 0 → s.Takes (.trap a b) 1 (s.g a)))) ∧
  (∀ s : State,
     (s.me.inTrap = true → ∃ t, exec .eret s = .next t ∧
       (s.modMe fun x => { x with inTrap := false, priv := x.tr.ppriv }).Went t s.me.loops s.me.tr.epc 0 1) ∧
     (s.me.inTrap = false → s.Takes .eret 0 0x440003E3))

/-- R75 and R76: the chain instructions. A tag of 128 bits is span, wait, last and flags from the top (R51). chrd
reads the tag with its own cost in it; the others change it, each by its own rule. In deterministic mode the span that chwr
replaces counts among those reached since launch (R455). -/
def Obligations.ChainInstructions : Prop :=
  ∀ (s : State) (d a b : Reg) (sel : BitVec 5),
    let now := s.charged.add 1
    let u := s.closeHold s.cur
    let bits : BitVec 128 := now.span ++ now.wait ++ now.last ++ now.flags
    let val : Word := match sel.toNat with
      | 0 => bits.extractLsb' 0 64
      | 1 => bits.extractLsb' 64 64
      | 2 => BitVec.ofNat 64 now.span.toNat
      | 3 => BitVec.ofNat 64 now.wait.toNat
      | 4 => BitVec.ofNat 64 now.last.toNat
      | 5 => BitVec.ofNat 64 now.flags.toNat
      | _ => s.me.gap
    let x := Tag.ofBits (s.g b ++ s.g a)
    let old := s.charged
    let tagged (g : Tag) : State := u.modMe fun t => { t with tag := g }
    (sel.toNat ≤ 6 → s.Does (.chrd d sel) (u.setG d val) 4 0 1 ∧ s.Does (.chrd16 d sel) (u.setG d val) 2 0 1) ∧
    s.Does (.chadd a) (tagged (old.add (1 + (s.g a).toNat))) 4 0 0 ∧
    (∃ g : Tag, g.span = sat48 (Nat.max (old.span.toNat + 1) x.span.toNat) ∧ g.wait = old.wait ∧ g.last = old.last ∧
      g.gap = (old.gap || x.gap) ∧ s.Does (.chmerge a b) (tagged g) 4 0 0) ∧
    (∃ g : Tag, g.span = sat48 (Nat.max old.span.toNat x.span.toNat + 1) ∧ g.wait = x.wait ∧
      g.last = s.originWord s.cur 8 (s.me.seqs[8]) ∧ g.gap = (old.gap || x.gap) ∧ g.flags.getLsbD 8 = true ∧
      s.Does (.chmergeLast a b)
        (u.modMe fun t => { t with tag := g, seqs := t.seqs.set 8 (t.seqs[8] + 1) }) 4 0 0) ∧
    (s.me.priv ≠ 0 → ∃ g : Tag, g.span = x.span ∧ g.wait = x.wait ∧ g.last = x.last ∧
      (∀ i < 16, 2 ≤ i → g.flags.getLsbD i = (decide (i < 9) && x.flags.getLsbD i)) ∧
      g.flags.getLsbD 0 = decide (x.span = BitVec.allOnes 48) ∧ g.flags.getLsbD 1 = decide (x.wait = BitVec.allOnes 32) ∧
      s.Does (.chwr a b) ((u.noteSpan s.cur).modMe fun t => { t with tag := g }) 4 0 0) ∧
    (s.me.priv = 0 → s.me.inTrap = false → ∃ v, s.Takes (.chwr a b) 1 v)

/-! ## Registers and memory -/

/-- R194 to R196: the loads from memory of the own die, whose bytes come from the store buffer where it holds them and
else from their home; the value is extended to 64 bits. -/
def Obligations.Loads : Prop :=
  ∀ (s v : State) (d a b : Reg) (imm : BitVec 11) (k : BitVec 5) (home at_ : Nat) (pte : Option TlbEntry),
    let load (i : Instr) (va : Word) (n : Nat) (signed : Bool) (len units : Nat) : Prop :=
      s.carriedOk va n = true → s.reach va n .load = (.mem home at_ pte, v) →
      dieOfHome at_ = dieOf s.cur.core →
      (∀ e, pte = some e → e.repl = true → v.replWait home at_ = false ∧ v.replLinked home = false) →
      let cost := v.loadCost v.cur.core va at_
      v.openTo cost home at_ n (v.pointOf home) →
      let w := v.entering home at_ n pte
      let fw := w.forwarded home va n
      let byte (j : Nat) : Byte := (fw.getD j none).getD (w.mem.read (at_ + j))
      (∀ j < n, fw.getD j none = none → w.badIn (at_ + j) 1 = false) →
      let u := w.countInput.correct w.cur.core at_ n
      let x := ((List.range n).map fun j => (byte j).toNat * 256 ^ j).sum
      (∀ q, u.g q = s.g q) ∧ (s.owns home → ∀ c, u.mem.read c = s.mem.read c) ∧
      s.Does i (u.setG d (if signed && decide (256 ^ n ≤ 2 * x) then BitVec.ofInt 64 ((x : Int) - 256 ^ n)
        else BitVec.ofNat 64 x)) len units cost
    let va := s.g a + s.g b
    let vi := s.g a + imm.signExtend 64
    let off (r : Reg) : Word := s.g r + 8 * k.setWidth 64
    load (.ldBs d a b) va 1 true 4 1 ∧ load (.ldBz d a b) va 1 false 4 1 ∧ load (.ldHs d a b) va 2 true 4 1 ∧
    load (.ldHz d a b) va 2 false 4 1 ∧ load (.ldWs d a b) va 4 true 4 1 ∧ load (.ldWz d a b) va 4 false 4 1 ∧
    load (.ldD d a b) va 8 false 4 1 ∧ load (.ldAcq d a b) va 8 false 4 1 ∧ load (.ldWsImm d a imm) vi 4 true 4 1 ∧
    load (.ldWzImm d a imm) vi 4 false 4 1 ∧ load (.ldDImm d a imm) vi 8 false 4 1 ∧
    load (.ldD16 d a) (s.g a) 8 false 2 0 ∧ load (.ldWz16 d a) (s.g a) 4 false 2 0 ∧
    load (.ldBz16 d a) (s.g a) 1 false 2 0 ∧ load (.ldDG416 d k) (off 4) 8 false 2 0 ∧
    load (.ldDG316 d k) (off 3) 8 false 2 0

/-- R194 to R198: a store that its checks let through completes with an entry at the end of the store buffer, which
holds its address and its low bytes; memory changes when the entry drains. A release names every earlier store of
the seat, which must be over before its entry leaves, and waits at issue for the seat's loads and atomics, and for what
it has under way to other packages. -/
def Obligations.Stores : Prop :=
  ∀ (s : State) (d a b : Reg) (imm : BitVec 11) (k : BitVec 5),
    let stored (va : Word) (n : Nat) (after : List Nat) : State :=
      let e : SbEntry :=
        { id := s.ids, va := va, bytes := (natLe n (s.g d).toNat).map some, seat := s.cur.seat, grp := s.me.grp,
          seq := s.me.storeSeq, priv := s.me.priv, vec := false, after := after, extra := false, key := s.keyFor 1,
          doomed := false, starts := s.me.starts, why := 0, held := 0, bench := s.bench }
      ((({ s with ids := s.ids + 1 } : State).modHere fun k => { k with sb := k.sb ++ [e] }).modMe
        fun t => { t with storeSeq := t.storeSeq + 1 }).modMe fun t => { t with inputs := t.inputs + 1 }
    let store (i : Instr) (va : Word) (n : Nat) (after : List Nat) (len units : Nat) : Prop :=
      s.carriedOk va n = true → s.slots s.cur.core < 16 →
      (∃ r, s.reach va n .store = (r, s) ∧ (∀ c t, r ≠ .trap c t) ∧ ∀ o, r ≠ .tmaps o) →
      s.Does i (stored va n after) len units 1
    let va := s.g a + s.g b
    let vi := s.g a + imm.signExtend 64
    store (.stB d a b) va 1 [] 4 1 ∧ store (.stH d a b) va 2 [] 4 1 ∧ store (.stW d a b) va 4 [] 4 1 ∧
    store (.stD d a b) va 8 [] 4 1 ∧ store (.stWImm d a imm) vi 4 [] 4 1 ∧ store (.stDImm d a imm) vi 8 [] 4 1 ∧
    store (.stD16 d a) (s.g a) 8 [] 2 0 ∧ store (.stB16 d a) (s.g a) 1 [] 2 0 ∧
    store (.stDG416 d k) (s.g 4 + 8 * k.setWidth 64) 8 [] 2 0 ∧
    (s.me.outs = [] → s.crossing s.cur = false → store (.stRel d a b) va 8 (s.unperformed s.cur) 4 1)

/-- R195: an address that is no multiple of the size raises ALIGN, and one where nothing lies WINDOW, for every
scalar access. -/
def Obligations.AccessTraps : Prop :=
  ∀ (s : State) (d a b : Reg) (imm : BitVec 11) (k : BitVec 5) (w : BitVec 1) (ord : BitVec 2), s.me.inTrap = false →
    let access (i : Instr) (va : Word) (n : Nat) : Prop :=
      (va.toNat % n ≠ 0 → s.Takes i 2 va) ∧
        (va.toNat % n = 0 → s.spot s.cur.core s.bench va = .nowhere → s.Takes i 5 va)
    let va := s.g a + s.g b
    let vi := s.g a + imm.signExtend 64
    let off (r : Reg) : Word := s.g r + 8 * k.setWidth 64
    let n := if w = 1 then 4 else 8
    (access (.ldHs d a b) va 2 ∧ access (.ldHz d a b) va 2 ∧ access (.ldWs d a b) va 4 ∧ access (.ldWz d a b) va 4 ∧
      access (.ldD d a b) va 8 ∧ access (.ldAcq d a b) va 8 ∧ access (.ldBs d a b) va 1 ∧ access (.ldBz d a b) va 1 ∧
      access (.ldWsImm d a imm) vi 4 ∧ access (.ldWzImm d a imm) vi 4 ∧ access (.ldDImm d a imm) vi 8) ∧
    (access (.stB d a b) va 1 ∧ access (.stH d a b) va 2 ∧ access (.stW d a b) va 4 ∧ access (.stD d a b) va 8 ∧
      access (.stWImm d a imm) vi 4 ∧ access (.stDImm d a imm) vi 8 ∧ access (.stRel d a b) va 8) ∧
    (access (.ldD16 d a) (s.g a) 8 ∧ access (.ldWz16 d a) (s.g a) 4 ∧ access (.ldBz16 d a) (s.g a) 1 ∧
      access (.ldDG416 d k) (off 4) 8 ∧ access (.ldDG316 d k) (off 3) 8 ∧ access (.stD16 d a) (s.g a) 8 ∧
      access (.stB16 d a) (s.g a) 1 ∧ access (.stDG416 d k) (off 4) 8 ∧ access (.amoAddD16 d a) (s.g a) 8) ∧
    (access (.amoAdd w ord d a b) (s.g a) n ∧ access (.amoAnd w ord d a b) (s.g a) n ∧
      access (.amoOr w ord d a b) (s.g a) n ∧ access (.amoXor w ord d a b) (s.g a) n ∧
      access (.amoMin w ord d a b) (s.g a) n ∧ access (.amoMax w ord d a b) (s.g a) n ∧
      access (.amoMinz w ord d a b) (s.g a) n ∧ access (.amoMaxz w ord d a b) (s.g a) n ∧
      access (.amoSwap w ord d a b) (s.g a) n ∧ access (.amoFadd w ord d a b) (s.g a) n ∧
      access (.cas w ord d a b) (s.g a) n) ∧
    access (.claim d a b) (s.g a) 32 ∧ access (.enq d a b) (s.g a) 32 ∧ access (.deqTry d a b) (s.g a) 32

/-- R205 to R208: an atomic on a datum of the own die reads it, stores its result in its place, and leaves the old
value, sign-extended, in gD; cas stores only where the datum equals gD. An order with a release part waits for all
that the seat has under way, and every other order for its stores. -/
def Obligations.Atomics : Prop :=
  ∀ (s v : State) (w : BitVec 1) (ord : BitVec 2) (d a b : Reg) (home r : Nat) (pte : Option TlbEntry),
    let n := if w = 1 then 4 else 8
    let m := 256 ^ n
    let wide (x : Nat) : Int := if m ≤ 2 * x then (x : Int) - m else x
    let amo (i : Instr) (n len units : Nat) (release : Bool) (operand : Reg) (new : Nat → Nat → Option Nat) : Prop :=
      let va := s.g a
      s.carriedOk va n = true → s.reach va n .atomic = (.mem home r pte, v) →
      dieOfHome home = dieOf s.cur.core → v.settled pte → v.quiet release → (release = true → v.crossing v.cur = false) →
      let cost := v.loadCost v.cur.core va home + 4
      v.openTo cost home home n (some (homeId home)) →
      let e := v.entering home home n pte
      e.badIn home n = false →
      let old := leNat (e.mem.bytes home n)
      let c := e.correct e.cur.core home n
      let u : State := match new old ((s.g operand).toNat % 256 ^ n) with
        | some x => { c with mem := c.mem.writeAll (cellsFrom home (natLe n x)) }
        | none => c
      (∀ q, u.g q = s.g q) ∧
      (s.owns home → ∀ x, x < home ∨ home + n ≤ x → u.mem.read x = s.mem.read x) ∧
      s.Does i (u.countInput.setG d
        (BitVec.ofInt 64 (if 256 ^ n ≤ 2 * old then (old : Int) - 256 ^ n else old))) len units cost
    let rel := ord.getLsbD 1
    amo (.amoAdd w ord d a b) n 4 1 rel b (fun x y => some ((x + y) % m)) ∧
    amo (.amoAnd w ord d a b) n 4 1 rel b (fun x y => some (x &&& y)) ∧
    amo (.amoOr w ord d a b) n 4 1 rel b (fun x y => some (x ||| y)) ∧
    amo (.amoXor w ord d a b) n 4 1 rel b (fun x y => some (x ^^^ y)) ∧
    amo (.amoMin w ord d a b) n 4 1 rel b (fun x y => some (if wide x ≤ wide y then x else y)) ∧
    amo (.amoMax w ord d a b) n 4 1 rel b (fun x y => some (if wide x ≤ wide y then y else x)) ∧
    amo (.amoMinz w ord d a b) n 4 1 rel b (fun x y => some (if x ≤ y then x else y)) ∧
    amo (.amoMaxz w ord d a b) n 4 1 rel b (fun x y => some (if x ≤ y then y else x)) ∧
    amo (.amoSwap w ord d a b) n 4 1 rel b (fun _ y => some y) ∧
    amo (.amoFadd w ord d a b) n 4 1 rel b
      (fun x y => some (if w = 1 then Fmt.f32.add .rne x y else Fmt.f64.add .rne x y).bits) ∧
    amo (.cas w ord d a b) n 4 1 rel b (fun x y => if x = (s.g d).toNat % m then some y else none) ∧
    amo (.amoAddD16 d a) 8 2 0 false d (fun x y => some ((x + y) % 2 ^ 64))

/-- R46, R47, R205 to R208 and R219 to R221: every atomic, and every operation on an object, completes where nothing holds
it up: on a datum or an object of the own die that the address map names, it does what the rule gives to memory and to
its registers, and costs a load's cost and four more, a join three. -/
def Obligations.LocalObjects : Prop :=
  ∀ (s : State) (w : BitVec 1) (ord : BitVec 2) (d a b : Reg) (imm : BitVec 11) (home : Nat),
    let va := s.g a
    let n := if w = 1 then 4 else 8
    let m := 256 ^ n
    let sign (n x : Nat) : Int := if 256 ^ n ≤ 2 * x then (x : Int) - 256 ^ n else x
    let cost := s.loadCost s.cur.core va home + 4
    let got (mem : Memory) (k : Nat) : State := { s.touch home k with mem := mem }.countInput
    let amo (i : Instr) (n len units : Nat) (v : Nat) (new : Nat → Nat → Option Nat) : Prop := s.Free va n home →
      let old := leNat (s.mem.bytes home n)
      let mem := match new old (v % 256 ^ n) with
        | some x => s.mem.writeAll (cellsFrom home (natLe n x))
        | none => s.mem
      s.Does i ((got mem n).setG d (BitVec.ofInt 64 (sign n old))) len units cost
    let v := (s.g b).toNat
    let dw (o : Nat) : Nat := leNat (s.mem.bytes (home + o) 8)
    let wd (o : Nat) : Nat := leNat (s.mem.bytes (home + o) 4)
    let put (mem : Memory) (at_ x : Nat) : Memory := mem.writeAll (cellsFrom at_ (natLe 8 x))
    let queue (i at_ : Nat) : Prop := 4 ≤ wd 16 ∧ wd 16 ≤ 24 ∧ s.owns at_ ∧
      s.spot s.cur.core s.here.bench (va + BitVec.ofNat 64 (32 + 8 * (i % 2 ^ wd 16))) = .mem at_
    let taken : State := got (put s.mem home ((dw 0 + 1) % 2 ^ 64)) 32
    let entry (at_ : Nat) : Word := BitVec.ofNat 64 (leNat (s.mem.bytes at_ 8))
    amo (.amoAdd w ord d a b) n 4 1 v (fun x y => some ((x + y) % m)) ∧
    amo (.amoAnd w ord d a b) n 4 1 v (fun x y => some (x &&& y)) ∧
    amo (.amoOr w ord d a b) n 4 1 v (fun x y => some (x ||| y)) ∧
    amo (.amoXor w ord d a b) n 4 1 v (fun x y => some (x ^^^ y)) ∧
    amo (.amoMin w ord d a b) n 4 1 v (fun x y => some (if sign n x ≤ sign n y then x else y)) ∧
    amo (.amoMax w ord d a b) n 4 1 v (fun x y => some (if sign n x ≤ sign n y then y else x)) ∧
    amo (.amoMinz w ord d a b) n 4 1 v (fun x y => some (min x y)) ∧
    amo (.amoMaxz w ord d a b) n 4 1 v (fun x y => some (max x y)) ∧
    amo (.amoSwap w ord d a b) n 4 1 v (fun _ y => some y) ∧
    amo (.amoFadd w ord d a b) n 4 1 v
      (fun x y => some (if w = 1 then Fmt.f32.add .rne x y else Fmt.f64.add .rne x y).bits) ∧
    amo (.cas w ord d a b) n 4 1 v (fun x y => if x = (s.g d).toNat % m then some y else none) ∧
    amo (.amoAddD16 d a) 8 2 0 (s.g d).toNat (fun x y => some ((x + y) % 2 ^ 64)) ∧
    (s.Free va 32 home → home < 2 ^ 43 →
      (let left := dw 8 - dw 0
       let share := max (wd 24) 1 * max (wd 16) 1
       let k := if left = 0 then 0 else min left (max (max (wd 20) 1) ((left + share - 1) / share))
       let u := (got (if k = 0 then s.mem else put s.mem home ((dw 0 + k) % 2 ^ 64)) 32).modMe fun t =>
         { t with seqs := t.seqs.set 7 (t.seqs[7] + 1) }
       s.Does (.claim d a b) ((u.setG d (BitVec.ofNat 64 (dw 0))).setG b (BitVec.ofNat 64 k)) 4 1 cost) ∧
      (∀ at_, queue (dw 8) at_ → (BitVec.ofNat 64 (dw 8) - BitVec.ofNat 64 (dw 0) : Word).toNat < 2 ^ wd 16 →
        let u : State := got (put (put s.mem at_ v) (home + 8) ((dw 8 + 1) % 2 ^ 64)) 32
        s.Does (.enq d a b) (u.setG d 1) 4 1 cost) ∧
      (∀ at_, queue (dw 0) at_ → dw 0 ≠ dw 8 →
        s.Does (.deqTry d a b) ((taken.setG d (entry at_)).setG b 1) 4 1 cost ∧
        (s.streaming = true → s.Does (.deq d a) (taken.setG d (entry at_)) 4 1 cost))) ∧
    (s.Free (va + imm.signExtend 64) 32 home → s.bench = none → dw 0 = 1 →
      let field := Tag.ofBits (BitVec.ofNat 128 (leNat (s.mem.bytes (home + 16) 16)))
      let span := max s.charged.span.toNat field.span.toNat
      ∃ (g : Tag) (u : State), g.span = sat48 (span + 3) ∧ u.me.tag = g ∧
        u.mem = (put s.mem home 0).writeAll (cellsFrom (home + 16) (natLe 16 g.bits.toNat)) ∧
        s.Does (.join a imm) u 4 1 0)

/-- R186 and R200: an element of a tensor map. Inside the extents it is loaded from, or stored to, the address that
the strides give; outside them, the map's rule gives zero, the nearest element or WINDOW, and a store is dropped. -/
def Obligations.TensorElements : Prop :=
  ∀ (s : State) (n : BitVec 4) (d a b : Reg),
    let m := s.tmap n
    let x := (s.g a).toInt
    let y := (s.g b).toInt
    let inside : Prop := 0 ≤ x ∧ x < m.ext0 ∧ 0 ≤ y ∧ y < m.ext1
    let addr (x y : Int) : Word := BitVec.ofInt 64 (m.base.toInt + x * m.str0 + y * m.str1)
    let near (x : Int) (ext : Nat) : Int := max 0 (min x (ext - 1))
    let size := fmtSize m.fmt
    let loadsFrom (va : Word) : Prop := ∀ v home at_ pte, s.carriedOk va size = true →
      s.reach va size .load = (.mem home at_ pte, v) →
      dieOfHome at_ = dieOf s.cur.core →
      (∀ e, pte = some e → e.repl = true → v.replWait home at_ = false ∧ v.replLinked home = false) →
      v.openTo (v.loadCost v.cur.core va at_) home at_ size (v.pointOf home) →
      let w := v.entering home at_ size pte
      w.here.sb = [] → w.badIn at_ size = false →
      s.Does (.tld n d a b) (((w.countInput).correct w.cur.core at_ size).setG d
        (loadValue size (decide (m.fmt ≤ 3)) (w.mem.bytes at_ size))) 4 1 (v.loadCost v.cur.core va at_)
    let storesTo (va : Word) : Prop := s.carriedOk va size = true → s.slots s.cur.core < 16 →
      (∃ r, s.reach va size .store = (r, s) ∧ (∀ c t, r ≠ .trap c t) ∧ ∀ o, r ≠ .tmaps o) →
      s.Does (.tst n d a b) (s.append va ((natLe size (s.g d).toNat).map some) false false [] 1).2 4 1 1
    (inside → loadsFrom (addr x y) ∧ storesTo (addr x y)) ∧
    (¬inside → m.oob = 0 → s.Does (.tld n d a b) (s.setG d 0) 4 1 2 ∧ s.Does (.tst n d a b) s 4 1 1) ∧
    (¬inside → m.oob = 1 → s.Does (.tst n d a b) s 4 1 1 ∧
      (m.ext0 = 0 ∨ m.ext1 = 0 → s.Does (.tld n d a b) (s.setG d 0) 4 1 2) ∧
      (m.ext0 ≠ 0 → m.ext1 ≠ 0 → loadsFrom (addr (near x m.ext0) (near y m.ext1)))) ∧
    (¬inside → 2 ≤ m.oob → s.me.inTrap = false →
      let value := BitVec.ofInt 64 (y % 2 ^ 32 * 2 ^ 32 + x % 2 ^ 32)
      s.Takes (.tld n d a b) 5 value ∧ s.Takes (.tst n d a b) 5 value)

/-- R199 and R202 to R204: prefetch and the fences and drains complete once what they wait for is over, and change
nothing but what later accesses wait for; a release of scope .sys also waits for what the seat has under way to other
packages (R366); ifence empties the instruction cache and the loop buffer, on a bench those of its members. -/
def Obligations.FencesAndDrains : Prop :=
  ∀ (s : State) (a b : Reg) (scope : BitVec 5),
    let held (loads stores : List Nat) : State := s.modMe fun t =>
      { t with gateLoad := t.gateLoad ++ loads, gateStore := t.gateStore ++ stores }
    let own := s.me.outs.map (·.id)
    let all := own ++ if 4 ≤ scope.toNat then s.unperformed s.cur else []
    s.Does (.pf a b) s 4 1 1 ∧
    (scope.toNat ≤ 5 → s.quiet false → s.Does (.fenceAcq scope) (held own own) 4 0 1 ∧
      (scope ≠ 5 ∨ s.crossing s.cur = false →
        s.Does (.fenceRel scope) (held [] all) 4 0 1 ∧ s.Does (.fenceSc scope) (held all all) 4 0 1)) ∧
    (5 < scope.toNat → s.me.inTrap = false → s.Takes (.fenceAcq scope) 0 (Instr.fenceAcq scope).tval ∧
      s.Takes (.fenceRel scope) 0 (Instr.fenceRel scope).tval ∧ s.Takes (.fenceSc scope) 0 (Instr.fenceSc scope).tval) ∧
    ((s.hasRecord = true → s.me.inTrap = true) → s.unperformed s.cur = [] →
      s.Does .sdrain s 4 0 1 ∧ s.Does .ifence s.dropCode 4 0 1 ∧
      let members := match s.bench with
        | none => [s.cur.core]
        | some b => (List.range (shapeK b.shape)).map (member s.cur.core b.shape)
      ∀ c, s.dropCode.core c = if c ∈ members then { s.core c with icache := [], loopBuf := [] } else s.core c)

/-- R46, R47, R220 and R221: the operations on a guided counter or a work queue of the own die. The object's words
are at its home: a counter holds next, end, participants, minimum and divisor, a queue holds head, tail and the log
of its entries. No deq waits at the queue's home (R47: a waiting one is served first), and where the entry lies in
paged memory, its translation is there and its page is not moving. R16, R65 and R219: a join at a counter of the own
die. The last arriver goes on with the merged tag, whose span is the greatest of its arrivals' and three more; every
other arriver's work ends as exit ends it, after a cost of three. -/
def Obligations.ObjectsAndJoins : Prop :=
  (∀ (s v : State) (d a b : Reg) (home r : Nat) (pte : Option TlbEntry),
     let va := s.g a
     let cost := v.loadCost v.cur.core va home + 4
     let e := v.entering home home 32 pte
     let dw (o : Nat) : Nat := leNat (e.mem.bytes (home + o) 8)
     let w (o : Nat) : Nat := leNat (e.mem.bytes (home + o) 4)
     let put (s : State) (at_ x : Nat) : State := { s with mem := s.mem.writeAll (cellsFrom at_ (natLe 8 x)) }
     let word (x : Nat) : Word := BitVec.ofNat 64 x
     let object (release : Bool) (p : Prop) : Prop :=
       s.reach va 32 .atomic = (.mem home r pte, v) → home < 2 ^ 43 → dieOfHome home = dieOf s.cur.core →
       v.settled pte → v.quiet release → (release = true → v.crossing v.cur = false) →
       v.openTo cost home home 32 (some (homeId home)) → s.weak = [] → (∀ w ∈ s.deqs, w.home ≠ home) →
       e.badIn home 32 = false → p
     let left := dw 8 - dw 0
     let taken := if left = 0 then 0
       else min left (max (max (w 20) 1) ((left + (max (w 24) 1) * (max (w 16) 1) - 1) / ((max (w 24) 1) * (max (w 16) 1))))
     let entry (i : Nat) : Nat × Option TlbEntry := e.entryHome e.cur.core va home (i % 2 ^ w 16)
     let met := (v.touch home 32).claimHome v.cur.core home
     let free (op : HomeOp) : Prop := met.ringHeld met.cur.core op va home = (none, met)
     let sized : Prop := 4 ≤ w 16 ∧ w 16 ≤ 24
     let used := ((word (dw 8)) - (word (dw 0))).toNat
     object false (
       let u := if taken = 0 then e else put e home ((dw 0 + taken) % 2 ^ 64)
       s.Does (.claim d a b) ((((u.modMe fun t =>
         { t with seqs := t.seqs.set 7 (t.seqs[7] + 1) }).countInput).setG d (word (dw 0))).setG b (word taken)) 4 1 cost) ∧
     object true ((¬sized ∨ 2 ^ w 16 ≤ used → s.Does (.enq d a b) (e.countInput.setG d 0) 4 1 cost) ∧
       (sized → used < 2 ^ w 16 → free (.enq (s.g b)) →
         let (at_, leaf) := entry (dw 8)
         let x := e.touchEntry e.cur.core at_ leaf
         x.badIn at_ 8 = false → (∀ l, leaf = some l → l.repl = false) →
         let u := put (put x at_ (s.g b).toNat) (home + 8) ((dw 8 + 1) % 2 ^ 64)
         let u : State := match e.spanKey e.cur.core at_ with
           | some k => { u with wqSpans := u.wqSpans.set k (e.keyFor cost).span }
           | none => u
         s.Does (.enq d a b) (u.countInput.setG d 1) 4 1 cost)) ∧
     object false ((¬sized ∨ dw 0 = dw 8 → s.Does (.deqTry d a b) (e.countInput.setG b 0) 4 1 cost) ∧
       (sized → dw 0 ≠ dw 8 → free .deqTry → free .deq →
         let (at_, leaf) := entry (dw 0)
         let x := e.touchEntry e.cur.core at_ leaf
         x.badIn at_ 8 = false → e.det? e.cur.core = none →
         let u : State := put x home ((dw 0 + 1) % 2 ^ 64)
         s.Does (.deqTry d a b) ((u.countInput.setG d (word (leNat (x.mem.bytes at_ 8)))).setG b 1) 4 1 cost ∧
         (s.streaming = true → s.me.outs = [] →
           s.Does (.deq d a) (u.countInput.setG d (word (leNat (x.mem.bytes at_ 8)))) 4 1 cost)))) ∧
  (∀ (s v : State) (a : Reg) (imm : BitVec 11) (home r : Nat) (pte : Option TlbEntry),
     let va := s.g a + imm.signExtend 64
     s.bench = none → s.me.outs = [] → s.reach va 32 .atomic = (.mem home r pte, v) →
     dieOfHome home = dieOf s.cur.core → v.settled pte → v.quiet true →
     v.openTo 3 home home 32 (some (homeId home)) →
     let e := v.entering home home 32 pte
     e.badIn home 32 = false →
     let n := leNat (e.mem.bytes home 8)
     let field := Tag.ofBits (BitVec.ofNat 128 (leNat (e.mem.bytes (home + 16) 16)))
     let span := max e.charged.span.toNat field.span.toNat
     (n = 1 → ∃ (g : Tag) (u : State), g.span = sat48 (span + 3) ∧ g.wait = e.charged.wait ∧
       g.last = e.originWord e.cur 2 (e.me.seqs[2]) ∧ g.gap = (e.charged.gap || field.gap) ∧
       u.mem = (e.mem.writeAll (cellsFrom home (natLe 8 0))).writeAll (cellsFrom (home + 16) (natLe 16 g.bits.toNat)) ∧
       u.me.tag = g ∧ s.Does (.join a imm) u 4 1 0) ∧
     (2 ≤ n → ∃ (g : Tag) (u t : State), g.span = sat48 span ∧
       u.mem = (e.mem.writeAll (cellsFrom home (natLe 8 (n - 1)))).writeAll (cellsFrom (home + 16) (natLe 16 g.bits.toNat)) ∧
       u.Ran t 4 1 3 ∧ exec (.join a imm) s = .next (t.endWork t.cur) ∧ ((t.endWork t.cur).seat t.cur).work = none))

/-! ## Messages, queues and neighbours -/

/-- R15, R56, R211 and R212: a send that its checks let through, with room in its injection queue, puts one message
there: class, group, payload, destinations, and the running tag with the send's cost added. sendc also leaves 1 in
gD, and without room it leaves 0 and sends nothing. R15 and R211: a destination outside the partition raises WINDOW
with the destination word, and a payload that is not aligned to 8 bytes raises ALIGN. -/
def Obligations.Sends : Prop :=
  (∀ (s : State) (d a : Reg) (c : BitVec 6) (i5 : BitVec 5), s.quiet false →
     let sent (s : State) (m : Msg) (vn : Fin 4) : State :=
       (((s.closeHold s.cur).modMe fun t => { t with seqs := t.seqs.set 0 (t.seqs[0] + 1) }).modMe
         fun t => { t with inputs := t.inputs + 1 }).modHere fun k => { k with inj := k.inj.set vn (k.inj[vn] ++ [m]) }
     let is (m : Msg) (c : BitVec 6) (data : List Byte) (dests : List CoreId) (pkg : Option (BitVec 9)) (cost : Nat) : Prop :=
       m.cls = c ∧ m.data = data ∧ m.dst :: m.rest = dests ∧ m.pkg = pkg ∧ m.grp = s.me.grp ∧ m.part = s.here.pid ∧
         m.tag = s.charged.add cost ∧ m.src = s.srcWord s.cur ∧ m.seq = s.me.seqs[0] ∧ m.work = s.me.starts ∧
         m.kind = .plain
     let cost (dests : List CoreId) (len : Nat) (pkg : Option (BitVec 9)) : Nat :=
       let far := dests.foldl (fun m x => max m (s.hops s.cur.core x)) 0
       4 + far + (len + 31) / 32 + (if dests.any (fun x => dieOf x != dieOf s.cur.core) then 64 else 0) +
         (if pkg.isSome then 1500 else 0)
     let reg := natLe 8 (s.g d).toNat
     (∀ x, s.destOf (s.g a) = some x → s.here.inj[(0 : Fin 4)].length < 4 →
       ∃ m, is m c reg [x] none (cost [x] 8 none) ∧ s.Does (.send d a c) (sent s m 0) 4 1 (cost [x] 8 none)) ∧
     (∀ x, s.destOf (s.g a) = some x →
       (s.here.inj[(1 : Fin 4)].length < 4 → ∃ m, is m c reg [x] none (cost [x] 8 none) ∧
         s.Does (.sendc d a c) ((sent s m 1).setG d 1) 4 1 (cost [x] 8 none)) ∧
       (4 ≤ s.here.inj[(1 : Fin 4)].length → s.Does (.sendc d a c) (s.setG d 0) 4 1 (cost [x] 8 none))) ∧
     (∀ x, s.destOf (s.g 6) = some x →
       (s.here.inj[(1 : Fin 4)].length < 4 → ∃ m, is m (i5.setWidth 6) reg [x] none (cost [x] 8 none) ∧
         s.Does (.sendc16 d i5) ((sent s m 1).setG d 1) 2 0 (cost [x] 8 none)) ∧
       (4 ≤ s.here.inj[(1 : Fin 4)].length → s.Does (.sendc16 d i5) (s.setG d 0) 2 0 (cost [x] 8 none))) ∧
     (∀ dests pkg n at_ bs, descOf (s.g d) = some (n, at_) → at_ % 8 = 0 →
       let near : Bool := dieOfHome (s.payloadHome at_) = dieOf s.cur.core
       let v := (if near then s.touch (s.payloadHome at_) n else s).readsPayload n at_
       v.payload n at_ = .ok bs → (near = true → s.meets (s.payloadHome at_) n = false) →
       (s.rectOf (s.g a) true = some (dests, pkg) → s.here.inj[(2 : Fin 4)] = [] →
         ∃ m, is m c bs dests pkg (cost dests n pkg) ∧ s.Does (.sendg d a c) (sent v m 2) 4 1 (cost dests n pkg)) ∧
       (s.rectOf (s.g a) false = some (dests, pkg) → s.here.inj[(3 : Fin 4)].length < 4 →
         ∃ m, is m c bs dests pkg (cost dests n pkg) ∧ s.Does (.msend d a c) (sent v m 3) 4 1 (cost dests n pkg)))) ∧
  (∀ (s : State) (d a : Reg) (c : BitVec 6), s.me.inTrap = false →
     (s.destOf (s.g a) = none → s.Takes (.send d a c) 5 (s.g a) ∧ s.Takes (.sendc d a c) 5 (s.g a)) ∧
     (s.rectOf (s.g a) true = none → s.Takes (.sendg d a c) 5 (s.g a)) ∧
     (s.rectOf (s.g a) false = none → s.Takes (.msend d a c) 5 (s.g a)) ∧
     (∀ x y, s.rectOf (s.g a) true = some x → s.rectOf (s.g a) false = some y →
       (descOf (s.g d) = none → s.Takes (.sendg d a c) 5 (s.g d) ∧ s.Takes (.msend d a c) 5 (s.g d)) ∧
       (∀ n at_, descOf (s.g d) = some (n, at_) → at_ % 8 ≠ 0 →
         s.Takes (.sendg d a c) 2 (s.g d) ∧ s.Takes (.msend d a c) 2 (s.g d))))

/-- R43 and R209: the queue registers. qput appends gA and qget takes the oldest entry, where a slot or an entry is
the seat's; qtry and qcnt never wait. In handler mode qput and qget raise ILLEGAL where a stream seat would block.
R39 and R216: a neighbour send with a credit left puts lanes 0 to 511 of vA under way in the direction that gB's
field names. -/
def Obligations.QueuesAndNeighbours : Prop :=
  (∀ (s : State) (d a : Reg) (q : BitVec 3) (q5 : BitVec 5),
     let freed (s : State) : State := s.modMe fun t => { t with handed := none }
     let with_ (q : BitVec 3) (l : List Word) : State := s.modHere fun k => k.setQueue q l
     let low := q5.extractLsb' 0 3
     (s.mayPut q = true → s.Does (.qput q a) (freed (with_ q (s.here.queue q ++ [s.g a]))) 4 0 1 ∧
       s.Does (.qput16 q a) (freed (with_ q (s.here.queue q ++ [s.g a]))) 2 0 1) ∧
     (s.mayPut q = false → s.streaming = false → s.me.inTrap = false →
       s.Takes (.qput q a) 0 (Instr.qput q a).tval) ∧
     (∀ x r, s.here.queue q = x :: r → s.mayGet q = true → s.Does (.qget d q) ((freed (with_ q r)).setG d x) 4 0 1) ∧
     (∀ x r, s.here.queue low = x :: r → s.mayGet low = true →
       s.Does (.qget16 d q5) ((freed (with_ low r)).setG d x) 2 0 1) ∧
     (s.mayGet q = false → s.streaming = false → s.me.inTrap = false → s.Takes (.qget d q) 0 (Instr.qget d q).tval) ∧
     (∀ x r, s.here.queue q = x :: r → s.Does (.qtry d a q) (((with_ q r).setG d x).setG a 1) 4 0 1) ∧
     (s.here.queue q = [] → s.Does (.qtry d a q) (s.setG a 0) 4 0 1) ∧
     s.Does (.qcnt d q) (s.setG d (BitVec.ofNat 64 (s.here.queue q).length)) 4 0 1) ∧
  (∀ (s : State) (a b : Reg) (dir : Fin 4), b.toNat = dir.val → s.bench = none →
     ((s.neighbour s.cur.core dir).isSome = true → s.here.sent[dir] < (s.here.nwin.extractLsb' (4 * dir.val) 4).toNat →
       s.Does (.nsend a b) (s.modHere fun k =>
         { k with sent := k.sent.set dir (k.sent[dir] + 1)
                  flying := k.flying.set dir (k.flying[dir] ++ [((s.me.v[a.toNat]'a.isLt).setWidth 512)]) }) 4 1 1) ∧
     (s.neighbour s.cur.core dir = none ∨ s.here.nwin.extractLsb' (4 * dir.val) 4 = 0 → s.me.inTrap = false →
       s.Takes (.nsend a b) 5 (BitVec.ofNat 64 dir.val)))

/-- R18, R30, R214, R215 and R222: class masking, priority and waiting for a message. clen and cldis set and clear EN
of the classes that gA selects; clpend reads their PEND bits; prio writes the priority of a class. -/
def Obligations.ClassControl : Prop :=
  ∀ (s : State) (d a : Reg) (c : BitVec 6),
    let sel := s.g a
    let one (put : Bool) (x : BitVec 128) : BitVec 128 := if put then x ||| (1#128 <<< 55) else x &&& ~~~(1#128 <<< 55)
    let all (put : Bool) (k : Core) : Vector (BitVec 128) 64 :=
      Vector.ofFn fun i : Fin 64 => if sel.getLsbD i.val then one put k.classes[i] else k.classes[i]
    let masked (put : Bool) (k : Core) : Core := { k with classes := all put k }
    s.Does (.clen a) (s.modHere (masked true)) 4 0 1 ∧ s.Does (.cldis a) (s.modHere (masked false)) 4 0 1 ∧
    (∃ x : Word, (∀ i : Fin 64, x.getLsbD i.val = (s.here.classEntry i).getLsbD 54) ∧
      s.Does (.clpend d) (s.setG d x) 4 0 1) ∧
    (sel.toNat ≤ 7 → ∃ y : BitVec 128, y.extractLsb' 58 3 = sel.extractLsb' 0 3 ∧
      y.extractLsb' 0 58 = (s.here.classes[c.toNat]).extractLsb' 0 58 ∧
      y.extractLsb' 61 67 = (s.here.classes[c.toNat]).extractLsb' 61 67 ∧
      s.Does (.prio a c) (s.modHere fun k => { k with classes := k.classes.set c.toNat y }) 4 0 1) ∧
    (7 < sel.toNat → s.me.inTrap = false → s.Takes (.prio a c) 0 (Instr.prio a c).tval) ∧
    (let mark := match s.me.hold with
       | some h => if h.asleep then h.mark else s.here.accepted
       | none => s.here.accepted
     let msg := sel.getLsbD 39 && decide (mark < s.here.accepted)
     let chan := sel.getLsbD 38 && !(s.here.chans[(sel.extractLsb' 36 2).toNat]).isEmpty
     let cnt := sel.getLsbD 35 &&
       decide (((s.here.done[(sel.extractLsb' 32 3).toNat]).c - sel.extractLsb' 0 32).toNat < 2 ^ 31)
     s.streaming = true → sel.toNat < 2 ^ 40 → msg || chan || cnt →
       s.Does (.wfm d a) (s.setG d (BitVec.ofNat 64 (4 * msg.toNat + 2 * chan.toNat + cnt.toNat))) 4 0 1) ∧
    (s.streaming = false → s.me.inTrap = false → s.Takes (.wfm d a) 0 (Instr.wfm d a).tval)

/-! ## Tasks -/

/-- R28, R217: a spawn that its own core has room for, while no waiting spawn of a lower seat has, enters the core's
run queue as its next message, without a hop. R44 and R218: fork puts routine, class, argument and tag into the next
slot of the deque, in the core's TCM, and leaves 1, where no other access of the local cycle has the banks of that
slot; the class is cr.prio's, which is 0 on a bench; with the deque off or full it leaves 0 and does nothing else.
Which slot is next is the model's choice (DESIGN CHOICE, log entry 80). R37 and R223: exit completes, and the seat's
work ends: its granules are free, a stream seat parks, and nothing it had begun is left on the seat. -/
def Obligations.TaskFlow : Prop :=
  (∀ (s : State) (d : Reg) (c : BitVec 6), s.quiet false → s.det? s.cur.core = none →
     (∀ j < s.cur.seat, s.spawnFits s.cur.core j = false) → ∃ m : Msg, m.cls = c ∧ m.data = natLe 8 (s.g d).toNat ∧ m.dst = s.cur.core ∧ m.grp = s.me.grp ∧
       m.tag = s.charged.add 5 ∧ m.kind = .plain ∧
       (s.here.cancelling = [] → s.here.refuses m = none → s.here.fits m = true →
         let u := ((s.closeHold s.cur).modMe fun t => { t with seqs := t.seqs.set 0 (t.seqs[0] + 1) }).countInput
         ∃ e : Entry, e.msg.data = m.data ∧ e.msg.cls = c ∧ e.kind = .byClass ∧
           (u.enter s.cur.core m).here.runq = s.here.runq ++ [e] ∧ s.Does (.spawn d c) (u.enter s.cur.core m) 4 1 5)) ∧
  (∀ (s : State) (d a : Reg) (imm : BitVec 11),
     (s.here.dqen = false ∨ 64 ≤ s.here.dqHeld.length → s.Does (.fork d a imm) (s.setG d 0) 4 1 3) ∧
     (let h := tcmHome s.cur.core (s.here.dqb.toNat * 0x800 + 32 * ((s.here.dqTop + s.here.dqHeld.length) % 64))
      s.here.dqen = true → s.here.dqHeld.length < 64 → s.weak = [] → s.meets h 32 = false →
       let u := ((s.touch h 32).closeHold s.cur).modMe fun t => { t with seqs := t.seqs.set 1 (t.seqs[1] + 1) }
       let routine := (s.me.pc.toInt + 2 * imm.toInt) % 2 ^ 48
       let word : Nat := (routine - routine % 2).toNat + (if s.bench = none then s.me.prioCls.toNat else 0) * 2 ^ 48
       let tag : Tag := { s.charged.add 3 with last := s.originWord s.cur 1 (s.me.seqs[1]) }
       let bytes := natLe 8 word ++ natLe 8 (s.g a).toNat ++ natLe 16 tag.bits.toNat
       let x : DequeInfo := ⟨s.me.grp, u.keyFor 3, (s.here.storesOf s.cur.seat).map (·.id)⟩
       let w := u.claimHome s.cur.core h
       w.bad = [] →
       s.Does (.fork d a imm)
         ((({ w with mem := w.mem.writeAll (cellsFrom h bytes) } : State).modHere fun k =>
           { k with dqHeld := k.dqHeld ++ [x] }).countInput.setG d 1) 4 1 3)) ∧
  (∀ (s : State) (w : Work), s.bench = none → s.quiet false → s.me.work = some w →
     let ends (i : Instr) (len : Nat) : Prop := ∃ t, s.Ran t len 0 1 ∧ exec i s = .next (t.endWork s.cur) ∧
       let x := (t.endWork s.cur).seat s.cur
       let k := (t.endWork s.cur).core s.cur.core
       x.work = none ∧ x.hold = none ∧ x.outs = [] ∧ x.inTrap = false ∧
         x.priv = basePriv s.cur.core ∧ (∀ g ∈ w.granules, g ∉ k.granules) ∧
         k.modes[s.cur.seat] = (if w.kind = .stream then 0b10 else s.here.modes[s.cur.seat])
     ends .exit 4 ∧ ends .exit16 2)

/-! ## Engine queues, counters and benches -/

/-- R224 and R226: a push to an engine with room in its queue of two, held or not, puts the 64 bytes of lanes 0 to
511 of vA there as its newest command (a RESUME to a held copy engine resumes it), with the pusher's group, privilege
and tag; a command that names a done counter counts as issued there. R69 and R225: epop takes the oldest element of
an engine's output FIFO into gD and takes its tag in. Codes 0 to 2 name the engines; an engine from which nothing can
come raises ILLEGAL. R226 and R227: dwait goes on once its count of commands has completed; drd reads the completed
count and takes gA from both counts, at most what has completed. -/
def Obligations.EnginePushes : Prop :=
  (∀ (s : State) (a : Reg), s.det? s.cur.core = none →
     let img : BitVec 512 := (s.me.v[a.toNat]'a.isLt).setWidth 512
     let code := (img.extractLsb' 0 8).toNat
     let push (i : Instr) (e : Engine) (kind : Fin 9) : Prop :=
       (s.here.q e).queue.length < 2 → ¬(e = .cp ∧ code = 7 ∧ (s.here.q e).held = true) →
       ∃ (x : Cmd) (u : State), x.img = img ∧ x.seat = s.cur.seat ∧ x.grp = s.me.grp ∧ x.priv = s.me.priv ∧
         x.origin = s.originWord s.cur kind.val (s.me.seqs[kind]) ∧ x.tag = s.charged.add 1 ∧
         x.after = s.unplayedOf s.cur ∧ x.dropped = false ∧
         (u.here.q e).queue = (s.here.q e).queue ++ [x] ∧ (u.here.q e).run = (s.here.q e).run ∧ u.mem = s.mem ∧
         (∀ r, u.g r = s.g r) ∧
         (∀ n : Fin 8, u.here.done[n].c = s.here.done[n].c ∧ u.here.done[n].i =
           if img.getLsbD 8 ∧ (img.extractLsb' 16 8).toNat = n.val then s.here.done[n].i + 1 else s.here.done[n].i) ∧
         s.Does i u 4 1 1
     push (.mxpush a) .mx 3 ∧ push (.cppush a) .cp 4 ∧
       push (.snpush a) .sn (if code = 2 ∨ code = 4 ∨ code = 5 then 6 else 5)) ∧
  (∀ (s : State) (d : Reg) (c : BitVec 5) (e : Engine),
     (c = 0 ∧ e = .mx) ∨ (c = 1 ∧ e = .cp) ∨ (c = 2 ∧ e = .sn) →
     (∀ x t r, (s.here.q e).fifo = (x, t) :: r →
       let u := s.modHere fun k => (k.modQ e fun q => { q with fifo := r }).observePop e
       let key := (s.here.unseen.find? fun u => decide (u.fifo = some e)).map fun u => u.key
       let v := u.takeTag t key
       s.Does (.epop d c) (v.setG d x) 4 0 1 ∧ s.Does (.epop16 d c) (v.setG d x) 2 0 1 ∧
         v.me.tag.span = sat48 (max s.charged.span.toNat t.span.toNat)) ∧
     ((s.here.q e).fifo = [] → (s.here.q e).queue = [] → (s.here.q e).run = [] → s.me.inTrap = false →
       s.Takes (.epop d c) 0 (Instr.epop d c).tval)) ∧
  (∀ (s : State) (d a : Reg) (n : BitVec 3) (imm : BitVec 11) (i5 : BitVec 5),
     let x := s.here.done[n.toNat]
     let waits (i : Instr) (count len : Nat) : Prop := count ≤ x.i.toNat → count ≤ x.c.toNat →
       ∃ u : State, (∀ r, u.g r = s.g r) ∧ u.mem = s.mem ∧ u.here.done = s.here.done ∧
         (count = 0 → u.me.tag = s.me.tag) ∧ s.Does i u len 0 1
     waits (.dwait n imm) imm.toNat 4 ∧ waits (.dwait16 n i5) i5.toNat 2 ∧
     (x.i.toNat < imm.toNat → s.streaming = false → s.me.inTrap = false →
       s.Takes (.dwait n imm) 0 (Instr.dwait n imm).tval) ∧
     (∃ u : State, (∀ r, u.g r = s.g r) ∧ u.mem = s.mem ∧
       (u.here.done[n.toNat].c = x.c - BitVec.ofNat 32 (min (s.g a).toNat x.c.toNat)) ∧
       (u.here.done[n.toNat].i = x.i - BitVec.ofNat 32 (min (s.g a).toNat x.c.toNat)) ∧
       (∀ m : Fin 8, m.val ≠ n.toNat → u.here.done[m] = s.here.done[m]) ∧
       s.Does (.drd d n a) (u.setG d (x.c.setWidth 64)) 4 0 1))

/-- R307 to R314: a compose that passes its checks joins the member cores to a bench of its shape, whose seat keeps
the lanes of one core; release gives the members back; benchq reads how many cores the executing seat spans. A
bench or a missing one raises BENCH. -/
def Obligations.Benches : Prop :=
  ∀ (s : State) (d : Reg) (shape : BitVec 2),
    s.Does (.benchq d) (s.setG d (match s.bench with
      | some b => BitVec.ofNat 64 (2 ^ (b.shape.toNat + 1))
      | none => 1)) 4 1 1 ∧
    (s.bench = none → s.unperformed s.cur = [] → s.hasRecord = false →
      (∀ w, s.composeFails shape = some w → s.Does (.compose d shape) (s.setG d w) 4 1 40) ∧
      (s.composeFails shape = none → ∃ u : State, s.Does (.compose d shape) u 4 1 40 ∧ u.mem = s.mem ∧
        (∃ b : Bench, u.here.bench = some b ∧ b.shape = shape ∧ b.mode0 = s.here.modes[s.cur.seat]) ∧
        (∀ j < 2 ^ (shape.toNat + 1), (u.core (member s.cur.core shape j)).benchLead = some s.cur.core) ∧
        u.g d = 0 ∧ ∀ i : Fin 32, ∀ l, 64 ≤ l → (u.me.v[i].extractLsb' (8 * l) 8) = 0)) ∧
    (∀ b, s.bench = some b → s.me.inTrap = false → s.Takes (.compose d shape) 11 0) ∧
    (s.bench = none → s.me.inTrap = false → s.Takes .release 11 0) ∧
    (∀ b, s.bench = some b → s.unperformed s.cur = [] → s.hasRecord = false → ∃ u : State,
      s.Does .release u 4 1 40 ∧ u.mem = s.mem ∧ u.here.bench = none ∧ u.here.modes[(0 : Fin 4)] = b.mode0 ∧
      ∀ c, (u.core c).benchLead ≠ some s.cur.core)

/-! ## Control registers and the supervisor's instructions -/

/-- R54, R76, R126, R156 to R161, R165, R278, R334, R343, R392 and R396: what crr reads, once the open interval of
the seat is charged. A number from 0x800 on needs supervisor privilege, one from 0xC00 on reads zero below firmware
privilege, and every number that no register has raises ILLEGAL. That cr.cwlo and cr.cwhi have the numbers 0x821 and
0x822 is the model's reading (DEDUCED, log entry 36). R127, R156, R157 and R159 to R161: what crw, crset and crclr
write at firmware privilege, and what a user may not write. A field keeps its width, a rounding mode above 4 is not
taken, cr.chlim arms its check (R72), and a register without a writable field stays as it is. That cr.cwlo and
cr.cwhi have the numbers 0x821 and 0x822 is the model's reading (DEDUCED, log entry 36). -/
def Obligations.ControlRegisters : Prop :=
  (∀ (s : State) (d : Reg),
     let u := s.closeHold s.cur
     let t := s.me
     let k := s.here
     let x := s.region (s.regionOf s.cur.core)
     let e := s.die (dieOf s.cur.core)
     let n (x : Nat) : Word := BitVec.ofNat 64 x
     let stat (q : EngineQ) (b : Bool) : Nat := q.fstat.toNat * 2 ^ 16 + q.fcode.toNat * 2 ^ 8 + b.toNat * 8 + q.held.toNat
     let numbers : List (Nat × Nat) := [(0, 5), (8, 0xC), (0x20, 0x28), (0x100, 0x103), (0x110, 0x113), (0x118, 0x11B),
       (0x120, 0x120), (0x200, 0x209), (0x210, 0x211), (0x218, 0x21A), (0x300, 0x305), (0x400, 0x403), (0x820, 0x822),
       (0xC01, 0xC02), (0xC10, 0xC13), (0xC20, 0xC22), (0xC30, 0xC32), (0xC38, 0xC3A), (0xC40, 0xC8F), (0xCA0, 0xCDF),
       (0xD00, 0xDFF), (0xE00, 0xE3F)]
     let reads (r : BitVec 12) (x : Word) : Prop := r.toNat < 0x800 ∨ s.me.priv ≠ 0 → r.toNat < 0xC00 ∨ s.me.priv = 2 →
       s.Does (.crr r d) (u.setG d x) 4 0 1
     let still (i : Fin 4) : Prop := k.benchLead.isSome = true ∧ (k.bench = none ∨ i ≠ 0)
     let mode (i : Fin 4) : Nat := (if still i then k.modes[i] else (k.seats[i].modePend).getD k.modes[i]).toNat * 4 ^ i.val +
       (if k.seats[i].work.isSome then 2 ^ (8 + i.val) else 0)
     (reads 0x000 (n t.frm.toNat) ∧ reads 0x001 (n t.fflags.toNat) ∧ reads 0x002 (n t.grp.toNat) ∧
       reads 0x003 (if s.bench = none then n (t.prioCls.toNat * 8 + t.prioVal.toNat) else 0) ∧ reads 0x004 (n t.credit.toNat) ∧
       reads 0x005 (n (t.wdReload.toNat * 2 ^ 32 + t.wdCount.toNat)) ∧
       reads 0x008 (n (t.tr.imp.toNat * 2 ^ 16 + t.tr.ppriv.toNat * 2 ^ 8 + t.tr.cause.toNat)) ∧
       reads 0x009 t.tr.epc ∧ reads 0x00A t.tr.tval ∧ reads 0x00B t.tr.tvec ∧ reads 0x00C (n t.tr.trlost.toNat) ∧
       reads 0x028 t.sentry) ∧
     (reads 0x300 (n s.charged.span.toNat) ∧ reads 0x301 (n s.charged.wait.toNat) ∧ reads 0x302 (n s.charged.last.toNat) ∧
       reads 0x303 (n s.charged.flags.toNat) ∧ reads 0x304 (n t.chlim.toNat) ∧ reads 0x305 t.gap) ∧
     (reads 0x100 (n (mode 0 + mode 1 + mode 2 + mode 3)) ∧ reads 0x101 (n k.nwin.toNat) ∧ reads 0x102 (n k.msz.toNat) ∧
       reads 0x103 (n (k.dqb.toNat * 2 ^ 11 + k.dqen.toNat)) ∧
       (∀ i : Fin 4, reads (0x110 + BitVec.ofNat 12 i) k.ev[i] ∧ reads (0x118 + BitVec.ofNat 12 i) (n k.evsel[i].toNat)) ∧
       reads 0x120 k.win ∧ reads 0x820 k.ptb ∧
       reads 0x821 k.cwlo ∧ reads 0x822 k.cwhi ∧ reads 0xC31 k.memb ∧ reads 0xC32 (n k.pid.toNat)) ∧
     (reads 0x200 (n k.mx.afmt.toNat) ∧ reads 0x201 (n k.mx.bfmt.toNat) ∧ reads 0x202 (n k.mx.cfmt.toNat) ∧
       reads 0x203 (n (k.mx.aconst.toNat * 256 + k.mx.amode.toNat)) ∧
       reads 0x204 (n (k.mx.bconst.toNat * 256 + k.mx.bmode.toNat)) ∧ reads 0x205 (n k.mx.tsel.toNat) ∧
       reads 0x206 (n k.mx.olist.toNat) ∧ reads 0x207 (n k.mx.olim.toNat) ∧ reads 0x208 (n k.mx.ocnt.toNat) ∧
       reads 0x209 (n (stat k.mx.q k.mx.ovf)) ∧ reads 0x210 (n k.sn.snop.toNat) ∧ reads 0x211 (n (stat k.sn.q k.sn.mism)) ∧
       reads 0x218 (n (stat k.cp.q false)) ∧ reads 0x219 k.cp.foff ∧ reads 0x21A k.cp.fva) ∧
     (reads 0x400 x.cyc ∧ reads 0x401 x.ref ∧ reads 0x402 (n x.rate.toNat) ∧ reads 0x403 (n x.chg.toNat) ∧
       reads 0xC10 (n (x.cap.toNat * 2 ^ 24 + x.erate.toNat)) ∧
       reads 0xC11 (n (x.busy.toNat * 2 ^ 31 + x.freq.toNat * 2 ^ 16 + x.volt.toNat)) ∧ reads 0xC12 (n x.chg.toNat)) ∧
     (reads 0xC20 (n (e.thresh.toNat * 2 ^ 32 + e.window.toNat * 2 ^ 16 + e.migEn.toNat)) ∧ reads 0xC21 e.pool64 ∧
       reads 0xC22 e.pool2m ∧ reads 0xC30 (n (e.lpart.toNat * 2 ^ 32 + e.tviol.toNat)) ∧
       (∀ i : Fin 8, reads (0xC80 + BitVec.ofNat 12 i) (s.cluster (clusterOf s.cur.core)).cxev[i] ∧
         reads (0xC88 + BitVec.ofNat 12 i) (n (s.cluster (clusterOf s.cur.core)).cxsel[i].toNat)) ∧
       ∀ i : Fin 32, reads (0xCA0 + BitVec.ofNat 12 i) e.dxev[i] ∧ reads (0xCC0 + BitVec.ofNat 12 i) (n e.dxsel[i].toNat)) ∧
     (reads 0xC01 (n s.pkg.slice.toNat) ∧ reads 0xC38 (s.trace.base ||| n s.trace.log2n.toNat) ∧
       reads 0xC39 (n (s.trace.sample.toNat * 2 ^ 32 + s.trace.en.toNat)) ∧ reads 0xC3A (n s.trace.lost.toNat) ∧
       (∀ i : Fin 64, reads (0xC40 + BitVec.ofNat 12 i) (s.arbReg i) ∧
         reads (0xD00 + BitVec.ofNat 12 i) (n (s.pkg.lattol.get i 0).toNat) ∧
         reads (0xD40 + BitVec.ofNat 12 i) (s.stopReg i) ∧ reads (0xE00 + BitVec.ofNat 12 i) (n (s.pkg.trsel.get i 0).toNat)) ∧
       ∀ i : Fin 128, reads (0xD80 + BitVec.ofNat 12 i) (s.pkg.rkmap.get i 0)) ∧
     (∀ i : Fin 8, reads (0x020 + BitVec.ofNat 12 i) (s.levelReg s.cur i)) ∧
     (∀ r : BitVec 12, (r.toNat < 0x800 ∨ s.me.priv ≠ 0) → (r.toNat < 0xC00 ∨ s.me.priv = 2) →
       (∀ y ∈ numbers, r.toNat < y.1 ∨ y.2 < r.toNat) → s.me.inTrap = false →
       s.Takes (.crr r d) 0 (Instr.crr r d).tval ∧ s.Takes (.crw r d) 0 (Instr.crw r d).tval ∧
       s.Takes (.crset r d) 0 (Instr.crset r d).tval ∧ s.Takes (.crclr r d) 0 (Instr.crclr r d).tval) ∧
     (∀ r : BitVec 12, 0x800 ≤ r.toNat → s.me.priv = 0 → s.me.inTrap = false → s.Takes (.crr r d) 1 (Instr.crr r d).tval) ∧
     (∀ r : BitVec 12, 0xC00 ≤ r.toNat → s.me.priv = 1 → s.Does (.crr r d) (u.setG d 0) 4 0 1)) ∧
  (∀ (s : State) (d : Reg),
     let x := s.g d
     let u := s.closeHold s.cur
     let f (lo n : Nat) : BitVec n := x.extractLsb' lo n
     let put (r : BitVec 12) (g : Seat → Seat) : Prop := s.Does (.crw r d) (u.modMe g) 4 0 1
     let putCore (r : BitVec 12) (g : Core → Core) : Prop := s.Does (.crw r d) (u.modHere g) 4 0 1
     (s.me.priv = 2 →
       put 0x000 (fun t => if 4 < (f 0 3).toNat then t else { t with frm := f 0 3 }) ∧
       put 0x001 (fun t => { t with fflags := f 0 5 }) ∧ put 0x002 (fun t => { t with grp := f 0 32 }) ∧
       put 0x004 (fun t => { t with credit := f 0 32 }) ∧
       put 0x005 (fun t => { t with wdReload := f 32 32, wdCount := f 0 32 }) ∧
       put 0x009 (fun t => { t with tr := { t.tr with epc := x &&& 0xFFFFFFFFFFFE } }) ∧
       put 0x00A (fun t => { t with tr := { t.tr with tval := x } }) ∧
       put 0x00B (fun t => { t with tr := { t.tr with tvec := x &&& 0xFFFFFFFFF000 } }) ∧
       put 0x028 (fun t => { t with sentry := x &&& 0xFFFFFFFFFFFE }) ∧
       put 0x304 (fun t => { t with chlim := f 0 48, armed := true }) ∧ put 0x305 (fun t => { t with gap := x }) ∧
       putCore 0x820 (fun k => { k with ptb := x &&& 0x1FFFFFFF001 }) ∧
       putCore 0x821 (fun k => { k with cwlo := x &&& 0xFFFFFFFF0000 }) ∧
       putCore 0x822 (fun k => { k with cwhi := x &&& 0xFFFFFFFF0000 }) ∧
       putCore 0xC31 (fun k => { k with memb := x }) ∧ putCore 0xC32 (fun k => { k with pid := f 0 6 }) ∧
       put 0x00C (fun t => { t with tr := { t.tr with trlost := f 0 16 } }) ∧
       (∀ i : Fin 4, putCore (0x110 + BitVec.ofNat 12 i) (fun k => { k with ev := k.ev.set i x })) ∧
       putCore 0x103 (fun k => { k with dqb := f 11 4, dqen := x.getLsbD 0 }) ∧
       (∀ r ∈ [(0x003 : BitVec 12), 0x020, 0x027], put r id) ∧ putCore 0x120 id) ∧
     (s.me.priv = 2 →
       s.Does (.crset 0x001 d) (u.modMe fun t => { t with fflags := t.fflags ||| f 0 5 }) 4 0 1 ∧
       s.Does (.crclr 0x001 d) (u.modMe fun t => { t with fflags := t.fflags &&& ~~~f 0 5 }) 4 0 1 ∧
       s.Does (.crset 0x00A d) (u.modMe fun t => { t with tr := { t.tr with tval := t.tr.tval ||| x } }) 4 0 1 ∧
       s.Does (.crclr 0x00A d) (u.modMe fun t => { t with tr := { t.tr with tval := t.tr.tval &&& ~~~x } }) 4 0 1) ∧
     (s.me.priv = 0 → s.me.inTrap = false →
       (∀ r ∈ [(0x004 : BitVec 12), 0x005, 0x009, 0x00A, 0x00B, 0x028, 0x300, 0x820, 0x821, 0xC31],
         s.Takes (.crw r d) 1 (Instr.crw r d).tval) ∧
       s.Takes (.crset 0x820 d) 1 (Instr.crset 0x820 d).tval ∧ s.Takes (.crclr 0x820 d) 1 (Instr.crclr 0x820 d).tval))

/-- R421: acrd reads a part of the account entry that gA names: valid bit, key and count, transit, wait in the queue
or run time; an entry that is not valid reads zero. R389, R398 and R400: at supervisor privilege sfq.pop stores the
oldest record of the seat, 32 bytes, at gA and leaves 1, or leaves 0 where there is none, whether gA lies in a page
or in the core's own memory; a misaligned gA takes ALIGN; sfq.replay puts the seat's queue entries back into the
store buffer: a scalar store's as it was, in its own slot. A user takes PRIV. -/
def Obligations.RecordsAndAccounts : Prop :=
  (∀ (s : State) (d a : Reg) (part : BitVec 5),
     let e := s.here.acct[(s.g a).toNat % 16]'(Nat.mod_lt _ (by decide))
     let x : Word := match part.toNat with
       | 0 => BitVec.ofNat 64 (2 ^ 63 + e.key.toNat * 2 ^ 32 + e.count.toNat)
       | 1 => e.transit
       | 2 => e.qwait
       | _ => e.run
     (part.toNat ≤ 3 → s.Does (.acrd d a part) (s.setG d (if e.valid then x else 0)) 4 0 1) ∧
     (3 < part.toNat → s.me.inTrap = false → s.Takes (.acrd d a part) 0 (Instr.acrd d a part).tval)) ∧
  (∀ (s : State) (d a : Reg),
     (s.me.priv ≠ 0 → s.me.inTrap = false → (s.g a).toNat % 32 ≠ 0 → s.Takes (.sfqPop d a) 2 (s.g a)) ∧
     (∀ h, s.me.priv ≠ 0 → s.reach (s.g a) 32 .store = (.paged, s) ∨ s.reach (s.g a) 32 .store = (.mem h h none, s) →
       (popRecord s.cur.seat s.here.rq = none → s.Does (.sfqPop d a) (s.setG d 0) 4 0 1) ∧
       (∀ bs rq, popRecord s.cur.seat s.here.rq = some (bs, rq) → (s.modHere fun k => { k with rq := rq }).slots s.cur.core < 16 →
         ∃ u : State, (∃ e : SbEntry, u.here.sb = s.here.sb ++ [e] ∧ e.va = s.g a ∧ e.bytes = bs.map some ∧
             e.seat = s.cur.seat) ∧
           u.here.rq = rq ∧ u.mem = s.mem ∧ s.Does (.sfqPop d a) (u.setG d 1) 4 0 1)) ∧
     (s.me.priv ≠ 0 → s.me.inTrap = true → s.unperformed s.cur = [] → s.me.replaying = none →
       let own := s.here.rq.filter fun e => e.st.seat = s.cur.seat
       (∀ e ∈ own, e.st.vec = false) → (s.here.rq.map fun e => e.st.id).Nodup → s.slots s.cur.core ≤ 16 →
       ∃ u : State, u.here.rq = s.here.rq.filter (fun e => e.st.seat ≠ s.cur.seat) ∧
         u.here.sb = s.here.sb ++ own.map (fun e =>
           { e.st with after := [], doomed := false, extra := false, why := 0, held := 0 }) ∧
         u.mem = s.mem ∧ s.Does .sfqReplay u 4 0 1) ∧
     (s.me.priv = 0 → s.me.inTrap = false → s.Takes (.sfqPop d a) 1 (Instr.sfqPop d a).tval ∧
       s.Takes .sfqReplay 1 Instr.sfqReplay.tval))

/-- R390: grpcancel, once the seat's stores are over and no message of its group is under way, has cancelled the
group's work at every core of the partition, and its own work ends. A user takes PRIV. R345: tlbinv removes from the
TLBs of the partition's dies the entries of its page, or with code 1 of its context; with code 2 it does so at the
executing core and its cluster alone. R410 to R412: at firmware privilege and in stream mode, ctxsave of a quiescent
partition writes the image of its context, and ctxload puts the image that the bytes at the base hold, of the same
shape, onto a partition without a context; bytes without the magics, versions and CRCs of an image give status 2
(R406 to R409); each writes status 0 into its descriptor. A fault of the descriptor is a status, and the partition
stays as it is. -/
def Obligations.SupervisorOperations : Prop :=
  (∀ s : State,
     let g := s.me.grp
     (s.me.priv ≠ 0 → s.here.cancelling = [] → s.unperformed s.cur = [] → s.hasRecord = false →
       let cores := match s.partOf s.cur.core with
         | some p => p.cores
         | none => [s.cur.core]
       let at_ (s : State) (c : CoreId) : State :=
         (s.cancelAt c (fun x => x = g) (some s.cur)).modCore c fun k =>
           { k with cancelling := k.cancelling ++ [(g, s.cur)] }
       let u := cores.foldl at_ s
       u.underWay u.here.pid g = false →
       ∃ t, u.Ran t 4 0 1 ∧ exec .grpcancel s = .next (t.endCancel s.cur g) ∧
         ((t.endCancel s.cur g).seat s.cur).work = none) ∧
     (s.me.priv = 0 → s.me.inTrap = false → s.Takes .grpcancel 1 Instr.grpcancel.tval)) ∧
  (∀ (s : State) (a : Reg) (k : BitVec 5), s.me.priv ≠ 0 → k.toNat ≤ 2 → s.unperformed s.cur = [] → s.hasRecord = false →
     s.bench = none → s.links = [] → s.seqrs = [] → s.deqs = [] → dieOf s.cur.core < 4 →
     let gone (e : TlbEntry) : Bool := if k = 1 then decide (e.ctx = s.ctxOf s.cur.core) else e.maps (s.g a)
     ∃ u : State, s.Does (.tlbinv a k) u 4 0 1 ∧ u.mem = s.mem ∧ (∀ r, u.g r = s.g r) ∧
       (∀ e ∈ u.here.utlb, gone e = false ∧ e ∈ s.here.utlb) ∧
       (∀ e ∈ (u.cluster (clusterOf s.cur.core)).tlb, gone e = false) ∧
       (k ≠ 2 → (∀ e ∈ (u.die (dieOf s.cur.core)).tlb, gone e = false) ∧
         ∀ p, s.partOf s.cur.core = some p → ∀ c ∈ u.cores, dieOf c.1 ∈ p.dies → ∀ e ∈ c.2.utlb, gone e = false)) ∧
  (∀ (s : State) (a : Reg) (bs : List Byte), s.streaming = true → s.me.priv = 2 → s.ctxDesc (s.g a) = .ok bs →
     let v := s.readsPayload 64 (s.g a).toNat
     let id := (bs.getD 0 0).toNat
     let base := leNat ((bs.drop 8).take 8)
     let noted (u : State) (st : Nat) : State :=
       match u.spot u.cur.core u.bench (s.g a) with
       | .mem h => ((u.claimHome u.cur.core h).writeCells (cellsFrom (h + 4) (natLe 4 st))).2
       | _ => ((u.claimHome u.cur.core 0).writeCells (cellsFrom 4 (natLe 4 st))).2
     (descReserved bs true = true → s.Does (.ctxsave a) (noted v 5) 4 0 1) ∧
     (descReserved bs false = true → s.Does (.ctxload a) (noted v 5) 4 0 1) ∧
     ((descReserved bs true = false →
         (v.part? id = none → s.Does (.ctxsave a) (noted v 1) 4 0 1) ∧
         (∀ p, v.part? id = some p → p.quiet = false ∨ p.ctx = none → s.Does (.ctxsave a) (noted v 1) 4 0 1) ∧
         (∀ p ctx, v.part? id = some p → p.quiet = true → p.ctx = some ctx →
           let u := v.ctxSave id p ctx base ((bs.getD 1 0).getLsbD 0)
           s.Does (.ctxsave a) (noted u 0) 4 0 1)) ∧
       (descReserved bs false = false →
         (v.part? id = none → s.Does (.ctxload a) (noted v 1) 4 0 1) ∧
         (∀ p, v.part? id = some p → p.ctx ≠ none → s.Does (.ctxload a) (noted v 1) 4 0 1) ∧
         (∀ p, v.part? id = some p → p.ctx = none →
           (v.ctxAt base = none → s.Does (.ctxload a) (noted v 2) 4 0 1) ∧
           (∀ ctx vd i, v.ctxAt base = some (ctx, vd, i) → i.place.sameShape p = false →
             s.Does (.ctxload a) (noted v 3) 4 0 1) ∧
           (∀ ctx vd i, v.ctxAt base = some (ctx, vd, i) → i.place.sameShape p = true → i.benchesFit p = false →
             s.Does (.ctxload a) (noted v 4) 4 0 1) ∧
           (∀ ctx vd i, v.ctxAt base = some (ctx, vd, i) → i.place.sameShape p = true → i.benchesFit p = true →
             let u := (v.adopt ctx vd base).ctxLoad id p ctx i (BitVec.ofNat 64 (leNat ((bs.drop 16).take 8)))
             s.Does (.ctxload a) (noted u 0) 4 0 1)))))

/-! ## Vectors -/

/-- R177: a reduction, of every type, completes in every state: it writes element 0 of vd, and leaves its other
elements alone. For integers it is the sum, the greatest or the least of the active elements of va, or the identity.
For floating point it is the top of the tree over all L elements, in which an inactive element is absent and leaves
its neighbour as it is, and two present neighbours are combined by the add of R174 under cr.frm, or by its max or
min; the identity stands where none is active; and the flags are those that the combinations raise together. R173:
vbcast and vshift complete in every state, and vsel and vperm wherever their operand vb can be read: a g register in
every active element, a shift of whole elements by gB toward element 0, selection between va and vb, and a table
look-up by the elements of vb. R168 and R169: merging elements of n bytes under a predicate writes the new element
where the predicate is set, and leaves every other element, and every byte beyond the elements given, as it was. -/
def Obligations.VectorLanes : Prop :=
  (∀ (s : State) (v : VForm),
     let reduces (i : Instr) (n : Nat) (is : List Nat → Nat → BitVec 5 → Prop) : Prop :=
       let on := (List.range (s.vbytes / n)).filter fun i => (s.pr v.p).getLsbD (n * i)
       ∃ (r : Nat) (x : VReg) (fl : BitVec 5), is (on.map fun i => elemAt n i (s.vr v.va).toNat) r fl ∧
         elemAt n 0 x.toNat = r ∧ (∀ j, 8 * n ≤ j → x.getLsbD j = (s.vr v.vd).getLsbD j) ∧
         s.Does i ((s.setV v.vd x).setFlags fl) 4 4 6
     let n := 2 ^ v.ty.toNat
     let m := 256 ^ n
     let sg (x : Nat) : Int := if m ≤ 2 * x then (x : Int) - m else x
     let k := vfmt v.ty
     let tree (i : Instr) (op : Nat → Nat → FRes) (identity : Nat) : Prop :=
       let size := k.width / 8
       let count := s.vbytes / size
       ∃ (t : Nat → Nat → Option Nat) (x : VReg) (fl : BitVec 5),
         (∀ j < count, t 0 j =
           if (s.pr v.p).getLsbD (size * j) then some (elemAt size j (s.vr v.va).toNat) else none) ∧
         (∀ l j, 2 ^ (l + 1) * (j + 1) ≤ count → t (l + 1) j = match t l (2 * j), t l (2 * j + 1) with
           | some y, some z => some (op y z).bits
           | some y, none => some y
           | none, z => z) ∧
         elemAt size 0 x.toNat = ((t count.log2 0).getD identity) % 256 ^ size ∧
         (∀ j, 8 * size ≤ j → x.getLsbD j = (s.vr v.vd).getLsbD j) ∧
         (∀ b < 5, fl.getLsbD b = true ↔ ∃ l j y z, 2 ^ (l + 1) * (j + 1) ≤ count ∧ t l (2 * j) = some y ∧
           t l (2 * j + 1) = some z ∧ (op y z).flags.getLsbD b = true) ∧
         s.Does i ((s.setV v.vd x).setFlags fl) 4 4 6
     reduces (.vredAdd v) n (fun xs r fl => r = xs.sum % m ∧ fl = 0) ∧
     reduces (.vredMax v) n (fun xs r fl => fl = 0 ∧ (xs = [] → r = m / 2) ∧
       (xs ≠ [] → r ∈ xs ∧ ∀ y ∈ xs, sg y ≤ sg r)) ∧
     reduces (.vredMin v) n (fun xs r fl => fl = 0 ∧ (xs = [] → r = m / 2 - 1) ∧
       (xs ≠ [] → r ∈ xs ∧ ∀ y ∈ xs, sg r ≤ sg y)) ∧
     tree (.vredAddFp v) (k.add s.rm) 0 ∧ tree (.vredMaxFp v) (k.minmax true) (k.sign true k.infCode) ∧
     tree (.vredMinFp v) (k.minmax false) k.infCode) ∧
  (∀ (s : State) (v : VForm),
     let n := 2 ^ v.ty.toNat
     let is (u : State) (x : VReg) (all : Bool) (g : Nat → Nat) : Prop :=
       (∀ i < u.vbytes / n, elemAt n i x.toNat =
         if all || (u.pr v.p).getLsbD (n * i) then g i else elemAt n i (u.vr v.vd).toNat) ∧
       ∀ j, 8 * u.vbytes ≤ j → x.getLsbD j = (u.vr v.vd).getLsbD j
     let a (u : State) (i : Nat) := elemAt n i (u.vr v.va).toNat
     (∃ x, is s x false (fun _ => (s.g v.va).toNat % 256 ^ n) ∧ s.Does (.vbcast v) (s.setV v.vd x) 4 1 1) ∧
     (∃ x, is s x false (fun i =>
         let j := (i : Int) + (s.g v.vb).toInt
         if 0 ≤ j ∧ j < (s.vbytes / n : Nat) then a s j.toNat else 0) ∧
       s.Does (.vshift v) (s.setV v.vd x) 4 1 1) ∧
     ∀ (w : State) (b : Nat) (fm : Machine.Form), s.vbOf fm v = (.bits b, w) →
       (∃ x, is w x true (fun i => if (w.pr v.p).getLsbD (n * i) then a w i else elemAt n i b) ∧
         s.Does (.vsel v) ((w.consume v).setV v.vd x) 4 1 1) ∧
       (∃ x, is w x false (fun i => a w (elemAt n i b % (w.vbytes / n))) ∧
         s.Does (.vperm v) ((w.consume v).setV v.vd x) 4 1 1)) ∧
  (∀ n ∈ [1, 2, 4, 8], ∀ (p : Pred) (old : VReg) (new : List Nat), n * new.length ≤ 1024 →
     (∀ i < new.length, elemAt n i (merge n p old new).toNat =
       if p.getLsbD (n * i) then new.getD i 0 % 256 ^ n else elemAt n i old.toNat) ∧
     ∀ j, 8 * n * new.length ≤ j → (merge n p old new).getLsbD j = old.getLsbD j)

/-- R169, R171 and R172: the integer instructions of vectors compute each active element of vd from those of va, vb and
the old vd, as two's complement of the element size, and leave every other byte of vd and the flags alone; beats of a
channel that the instruction read are consumed (R170). -/
def Obligations.VectorIntegers : Prop :=
  ∀ (s w : State) (v : VForm) (b : Nat) (fm : Machine.Form), s.vbOf fm v = (.bits b, w) →
    let n := 2 ^ v.ty.toNat
    let m := 256 ^ n
    let sg (x : Nat) : Int := if m ≤ 2 * x then (x : Int) - m else x
    let op (i : Instr) (units cost : Nat) (g : Nat → Nat → Nat → Int) : Prop :=
      ∃ x : VReg,
        (∀ i < w.vbytes / n, elemAt n i x.toNat = if (w.pr v.p).getLsbD (n * i) then
            (g (elemAt n i (w.vr v.va).toNat) (elemAt n i b) (elemAt n i (w.vr v.vd).toNat) % m).toNat
          else elemAt n i (w.vr v.vd).toNat) ∧
        (∀ j, 8 * w.vbytes ≤ j → x.getLsbD j = (w.vr v.vd).getLsbD j) ∧
        s.Does i ((w.consume v).setV v.vd x) 4 units cost
    let part (k x : Nat) : Int :=
      let y := x / 256 ^ (n / 4 * k) % 256 ^ (n / 4)
      if 256 ^ (n / 4) ≤ 2 * y then (y : Int) - 256 ^ (n / 4) else y
    op (.vadd v) 1 1 (fun x y _ => x + y) ∧ op (.vsub v) 1 1 (fun x y _ => (x : Int) - y) ∧
    op (.vmul v) 1 1 (fun x y _ => x * y) ∧ op (.vmadd v) 1 1 (fun x y z => (z : Int) + x * y) ∧
    op (.vmsub v) 1 1 (fun x y z => (z : Int) - x * y) ∧
    op (.vmin v) 1 1 (fun x y _ => if sg x ≤ sg y then sg x else sg y) ∧
    op (.vmax v) 1 1 (fun x y _ => if sg x ≤ sg y then sg y else sg x) ∧
    op (.vabs v) 1 1 (fun x _ _ => (sg x).natAbs) ∧ op (.vneg v) 1 1 (fun x _ _ => -sg x) ∧
    (4 ≤ n → op (.vdot v) 4 6 (fun x y z =>
      z + part 0 x * part 0 y + part 1 x * part 1 y + part 2 x * part 2 y + part 3 x * part 3 y)) ∧
    op (.vand v) 1 1 (fun x y _ => (x &&& y : Nat)) ∧ op (.vor v) 1 1 (fun x y _ => (x ||| y : Nat)) ∧
    op (.vxor v) 1 1 (fun x y _ => (x ^^^ y : Nat)) ∧ op (.vshl v) 1 1 (fun x y _ => (x : Int) * 2 ^ (y % (8 * n))) ∧
    op (.vshr v) 1 1 (fun x y _ => (x : Int) / 2 ^ (y % (8 * n))) ∧ op (.vsra v) 1 1 (fun x y _ => sg x / 2 ^ (y % (8 * n)))

/-- R174, R175, R181 and R182: the floating-point instructions of vectors give each active element the result of the
scalar operation of its format under cr.frm, and set the flags that its active elements raise together. The special
functions give the special operands their results of R182. -/
def Obligations.VectorFloats : Prop :=
  ∀ (s w : State) (v : VForm) (b : Nat) (fm : Machine.Form), s.vbOf fm v = (.bits b, w) →
    let k : Fmt := match v.ty.toNat with
      | 0 => .f16
      | 1 => .bf16
      | 2 => .f32
      | _ => .f64
    let n := k.width / 8
    let op (i : Instr) (units cost : Nat) (g : Nat → Nat → Nat → FRes) : Prop :=
      let r (i : Nat) : FRes := g (elemAt n i (w.vr v.va).toNat) (elemAt n i b) (elemAt n i (w.vr v.vd).toNat)
      ∃ (x : VReg) (fl : BitVec 5),
        (∀ i < w.vbytes / n, elemAt n i x.toNat = if (w.pr v.p).getLsbD (n * i) then (r i).bits % 256 ^ n
          else elemAt n i (w.vr v.vd).toNat) ∧
        (∀ j, 8 * w.vbytes ≤ j → x.getLsbD j = (w.vr v.vd).getLsbD j) ∧
        (∀ j < 5, fl.getLsbD j = true ↔
          ∃ i < w.vbytes / n, (w.pr v.p).getLsbD (n * i) = true ∧ (r i).flags.getLsbD j = true) ∧
        s.Does i (((w.consume v).setV v.vd x).setFlags fl) 4 units cost
    let rm := w.rm
    let top := 2 ^ (k.width - 1)
    op (.vaddFp v) 4 4 (fun x y _ => k.add rm x y) ∧ op (.vsubFp v) 4 4 (fun x y _ => k.sub rm x y) ∧
    op (.vmulFp v) 4 4 (fun x y _ => k.mul rm x y) ∧ op (.vmaddFp v) 4 4 (fun x y z => k.fma rm x y z) ∧
    op (.vmsubFp v) 4 4 (fun x y z => k.fmsub rm x y z) ∧ op (.vminFp v) 4 4 (fun x y _ => k.minmax false x y) ∧
    op (.vmaxFp v) 4 4 (fun x y _ => k.minmax true x y) ∧ op (.vabsFp v) 4 2 (fun x _ _ => ⟨x % top, 0⟩) ∧
    op (.vnegFp v) 4 2 (fun x _ _ => ⟨if x < top then x + top else x - top, 0⟩) ∧
    (2 ≤ v.ty.toNat →
      let src := if v.ty = 3 then Fmt.f32 else Fmt.bf16
      op (.vdotFp v) 16 6 (fun x y z => fdot2 k src rm x y z)) ∧
    op (.vsf v) 16 8 (fun x _ _ => k.special rm (v.vb.extractLsb' 0 3) x) ∧
    (let one := k.bias * 2 ^ k.fbits
     let f (c : BitVec 3) (x : Nat) : FRes := k.special rm c x
     let nan : FRes := ⟨k.defaultNan, flagNV⟩
     let ninf := k.sign true k.infCode
     let half := (k.bias - 1) * 2 ^ k.fbits
     let row (c : BitVec 3) (a b z i : FRes) : Prop := f c ninf = a ∧ f c top = b ∧ f c 0 = z ∧ f c k.infCode = i
     let whole (m : Nat) (e : Int) : Prop := 0 ≤ e ∨ m % 2 ^ (-e).toNat = 0
     row 0 ⟨0, 0⟩ ⟨one, 0⟩ ⟨one, 0⟩ ⟨k.infCode, 0⟩ ∧ row 1 nan ⟨ninf, flagDZ⟩ ⟨ninf, flagDZ⟩ ⟨k.infCode, 0⟩ ∧
     row 2 ⟨top, 0⟩ ⟨ninf, flagDZ⟩ ⟨k.infCode, flagDZ⟩ ⟨0, 0⟩ ∧ row 3 nan ⟨ninf, flagDZ⟩ ⟨k.infCode, flagDZ⟩ ⟨0, 0⟩ ∧
     row 4 nan ⟨top, 0⟩ ⟨0, 0⟩ nan ∧ row 5 nan ⟨one, 0⟩ ⟨one, 0⟩ nan ∧
     row 6 ⟨k.sign true one, 0⟩ ⟨top, 0⟩ ⟨0, 0⟩ ⟨one, 0⟩ ∧ row 7 ⟨0, 0⟩ ⟨half, 0⟩ ⟨half, 0⟩ ⟨one, 0⟩ ∧
     f 1 one = ⟨0, 0⟩ ∧ ∀ x n m e, k.dec x = .num n m e →
       (n = true → m ≠ 0 → f 1 x = nan ∧ f 3 x = nan) ∧ (whole m e → f 4 x = ⟨k.sign n 0, 0⟩) ∧
       (whole (2 * m) e → ¬whole m e → f 5 x = ⟨0, 0⟩))

/-- R176: a comparison sets the byte lanes of each active element in the predicate that the low bits of its
destination name to whether its condition holds, and leaves every other lane alone. R183 and R184: the predicate
instructions, bounds and widths. A write to p0 is discarded, and p0 reads all true. -/
def Obligations.VectorComparisons : Prop :=
  (∀ (s w : State) (v : VForm) (b : Nat) (fm : Machine.Form), s.vbOf fm v = (.bits b, w) →
     let c := (v.vd.extractLsb' 3 2).toNat
     let d : BitVec 3 := v.vd.extractLsb' 0 3
     let op (i : Instr) (n units cost : Nat) (g : Nat → Nat → Bool) (fl : Nat → Nat → BitVec 5) : Prop :=
       let x (i : Nat) := elemAt n i (w.vr v.va).toNat
       let y (i : Nat) := elemAt n i b
       ∃ (r : Pred) (f : BitVec 5),
         (∀ j < 1024, r.getLsbD j =
           if j / n < w.vbytes / n ∧ (w.pr v.p).getLsbD (n * (j / n)) = true then g (x (j / n)) (y (j / n))
           else (w.pr d).getLsbD j) ∧
         (∀ j < 5, f.getLsbD j = true ↔
           ∃ i < w.vbytes / n, (w.pr v.p).getLsbD (n * i) = true ∧ (fl (x i) (y i)).getLsbD j = true) ∧
         s.Does i (((w.consume v).setP d r).setFlags f) 4 units cost
     let n := 2 ^ v.ty.toNat
     let sg (x : Nat) : Int := if 256 ^ n ≤ 2 * x then (x : Int) - 256 ^ n else x
     let k := vfmt v.ty
     let eq (x y : Nat) : Bool := !(k.dec x).isNan && !(k.dec y).isNan && (k.dec x).eq (k.dec y)
     let lt (x y : Nat) : Bool := !(k.dec x).isNan && !(k.dec y).isNan && (k.dec x).lt (k.dec y)
     op (.vcmp v) n 1 1 (fun x y => match c with
       | 0 => decide (sg x = sg y)
       | 1 => decide (sg x ≠ sg y)
       | 2 => decide (sg x < sg y)
       | _ => decide (sg x ≤ sg y)) (fun _ _ => 0) ∧
     op (.vcmpFp v) (k.width / 8) 4 2 (fun x y => match c with
       | 0 => eq x y
       | 1 => !eq x y
       | 2 => lt x y
       | _ => lt x y || eq x y)
       (fun x y => if c ≤ 1 then (if (k.dec x).isSnan ∨ (k.dec y).isSnan then flagNV else 0)
         else if (k.dec x).isNan ∨ (k.dec y).isNan then flagNV else 0)) ∧
  (∀ (s : State) (v : VForm),
     let name (r : BitVec 5) : BitVec 3 := r.extractLsb' 0 3
     let d := name v.vd
     let a := s.pr (name v.va)
     let b := s.pr (name v.vb)
     let n := 2 ^ v.ty.toNat
     let on := (List.range (s.vbytes / n)).filter fun i => a.getLsbD (n * i)
     let start := (s.g v.va).toNat
     let stop := (s.g v.vb).toNat
     s.Does (.pand v) (s.setP d (a &&& b)) 4 0 1 ∧ s.Does (.por v) (s.setP d (a ||| b)) 4 0 1 ∧
     s.Does (.pxor v) (s.setP d (a ^^^ b)) 4 0 1 ∧
     (∃ r : Pred, (∀ j < 1024, r.getLsbD j = (decide (j < s.vbytes) && !a.getLsbD j)) ∧
       s.Does (.pnot v) (s.setP d r) 4 0 1) ∧
     s.Does (.pcount v) (s.setG v.vd (BitVec.ofNat 64 on.length)) 4 0 1 ∧
     s.Does (.pfirst v) (s.setG v.vd (BitVec.ofNat 64 (on.headD (s.vbytes / n)))) 4 0 1 ∧
     (∃ r : Pred, (∀ j < 1024, r.getLsbD j = (decide (j < s.vbytes) && decide (start + j / n < stop))) ∧
       s.Does (.vbound v) (s.setP d r) 4 0 1) ∧
     s.Does (.vwidth v) (s.setG v.vd (BitVec.ofNat 64 (s.vbytes / n))) 4 0 1 ∧
     (∀ x, s.setP 0 x = s) ∧ (∀ j < 1024, (s.pr 0).getLsbD j = decide (j < s.vbytes)) ∧
     (∀ q x, q ≠ 0 → (s.setP q x).pr q = x))

/-- R178 to R180: vcvt. A conversion between sizes works on one part of the wider register's worth of elements, which
the type field names; every other element of vd stays. A code above 18, or a part that does not exist, raises
ILLEGAL. -/
def Obligations.VectorConversions : Prop :=
  ∀ (s : State) (v : VForm),
    let sg (n x : Nat) : Int := if 256 ^ n ≤ 2 * x then (x : Int) - 256 ^ n else x
    let wrap (n : Nat) (i : Int) : Nat := (i % (256 ^ n : Nat)).toNat
    let converts (code src dst : Nat) (g : Nat → FRes) : Prop :=
      let wide := max src dst
      let ratio := wide / min src dst
      let count := s.vbytes / wide
      let from_ (i : Nat) := if src < dst then v.ty.toNat * count + i else i
      let to_ (i : Nat) := if dst < src then v.ty.toNat * count + i else i
      v.vb.toNat = code →
      (v.ty.toNat < ratio → ∃ (x : VReg) (fl : BitVec 5),
        (∀ i < count, elemAt dst (to_ i) x.toNat = if (s.pr v.p).getLsbD (dst * to_ i)
          then (g (elemAt src (from_ i) (s.vr v.va).toNat)).bits % 256 ^ dst else elemAt dst (to_ i) (s.vr v.vd).toNat) ∧
        (∀ j, (∀ i < count, j / (8 * dst) ≠ to_ i) → x.getLsbD j = (s.vr v.vd).getLsbD j) ∧
        (∀ j < 5, fl.getLsbD j = true ↔ ∃ i < count, (s.pr v.p).getLsbD (dst * to_ i) = true ∧
          (g (elemAt src (from_ i) (s.vr v.va).toNat)).flags.getLsbD j = true) ∧
        s.Does (.vcvt v) ((s.setV v.vd x).setFlags fl) 4 1 4) ∧
      (ratio ≤ v.ty.toNat → s.me.inTrap = false → s.Takes (.vcvt v) 0 (Instr.vcvt v).tval)
    let clamp (dst : Nat) (x : Nat) : FRes :=
      let hi : Int := (256 ^ dst / 2 : Nat) - 1
      let lo : Int := -(256 ^ dst / 2 : Nat)
      if hi < sg 4 x then ⟨wrap dst hi, flagOF⟩ else if sg 4 x < lo then ⟨wrap dst lo, flagOF⟩ else ⟨wrap dst (sg 4 x), 0⟩
    let between (code : Nat) (d f : Fmt) : Prop := converts code (f.width / 8) (d.width / 8) (d.vconvert f s.rm)
    between 0 .f16 .f32 ∧ between 1 .bf16 .f32 ∧ between 2 .f32 .f16 ∧ between 3 .f32 .bf16 ∧ between 4 .f64 .f32 ∧
    between 5 .f32 .f64 ∧ between 6 .e4m3 .f32 ∧ between 7 .e5m2 .f32 ∧ between 8 .f32 .e4m3 ∧ between 9 .f32 .e5m2 ∧
    converts 10 4 4 (fun x =>
      let r := Fmt.f32.toInt s.rm x (-2 ^ 31) (2 ^ 31 - 1)
      ⟨wrap 4 r.1, r.2⟩) ∧
    converts 12 8 8 (fun x =>
      let r := Fmt.f64.toInt s.rm x (-2 ^ 63) (2 ^ 63 - 1)
      ⟨wrap 8 r.1, r.2⟩) ∧
    converts 11 4 4 (fun x => Fmt.f32.round s.rm (decide (sg 4 x < 0)) (sg 4 x).natAbs 0) ∧
    converts 13 8 8 (fun x => Fmt.f64.round s.rm (decide (sg 8 x < 0)) (sg 8 x).natAbs 0) ∧
    converts 14 1 4 (fun x => ⟨wrap 4 (sg 1 x), 0⟩) ∧ converts 15 1 4 (fun x => ⟨x, 0⟩) ∧ converts 16 4 1 (clamp 1) ∧
    converts 17 4 2 (clamp 2) ∧ converts 18 2 4 (fun x => ⟨wrap 4 (sg 2 x), 0⟩) ∧
    (18 < v.vb.toNat → s.me.inTrap = false → s.Takes (.vcvt v) 0 (Instr.vcvt v).tval)

/-- R185, R188 and R190: the loads of vectors. Each element's address is its own; the elements of one line are one
access, or in a gather each is its own; and the attempt that performs the last access completes, with the elements
that were read in vd, and beats of a channel consumed. With no active element the instruction completes at its first
attempt, with a cost of two. R187, R190 and R201: the stores of vectors. Once their elements are checked, each access
takes an entry of the store buffer, in order, as long as there is room; a vst that covers exactly the 64 bytes of an
engine's window pushes vd to that engine instead. -/
def Obligations.VectorMemory : Prop :=
  (∀ (s w v : State) (f : VForm) (vp : VProg) (g : List (Nat × Word)) (home at_ : Nat) (pte : Option TlbEntry) (b : Nat)
     (fm : Machine.Form),
     let n := 2 ^ f.ty.toNat
     let begun (s : State) (n extra : Nat) (es : List VElem) : Prop := s.me.vprog = some vp ∧ w = s ∨
       s.me.vprog = none ∧ ∃ cost, s.vcheck n .load 2 es = (.ok cost, w) ∧
         vp = ⟨false, n, toAccess es, zeroElems n es (w.vr f.vd), if es.isEmpty then 2 else cost + extra, [], 0, 0⟩
     let va := (g.headD (0, 0)).2
     let o := va.toNat % 64
     let line := BitVec.ofNat 64 (va.toNat - o)
     let len := ((g.getLast?).getD (0, va)).2.toNat - va.toNat + vp.n
     let e := v.entering home at_ len pte
     let fw := e.forwarded (home - o) line 64
     let bytes := (List.range 64).map fun j => (fw.getD j none).getD (e.mem.read (at_ - o + j))
     let need := (g.flatMap fun x => (List.range vp.n).map fun j => x.2.toNat % 64 + j).filter fun j => fw.getD j none = none
     let loads (i : Instr) (units : Nat) (each : Bool) (start : Prop) : Prop := start →
       (vp.todo = [] → w.lanesOut = false →
         s.Does i (((w.consume f).setV f.vd vp.data).modMe fun t => { t with vprog := none }) 4 units vp.cost) ∧
       (accesses each vp.todo = [g] → w.lanesOut = false → w.reach va vp.n .load = (.mem home at_ pte, v) →
         dieOfHome at_ = dieOf s.cur.core →
         (∀ x, pte = some x → x.repl = true → v.replWait home at_ = false ∧ v.replLinked home = false) →
         v.openTo vp.cost home at_ len (v.pointOf home) →
         (∀ j ∈ need, e.badIn (at_ - o + j) 1 = false) →
         let u := e.countInput.correctAt e.cur.core (need.map fun j => at_ - o + j)
         s.Does i (((u.consume f).setV f.vd (fillElems vp.n g bytes vp.data)).modMe fun t => { t with vprog := none })
           4 units vp.cost)
     loads (.vld f) 1 false (begun s n 0 (s.vseq f n)) ∧
     loads (.vldt f) 1 false (begun s (s.vrow f true).1 0 (s.vrow f true).2) ∧
     loads (.vgath f) 4 true (s.me.vprog = some vp ∧ w = s ∨
       ∃ x : State, s.me.vprog = none ∧ s.vbOf fm f = (.bits b, x) ∧ begun x n 2 (x.vidx f n b)) ∧
     loads (.vldb f) 1 false (begun s n 0 ((s.vactive f.p n).map fun i =>
       ⟨i, .at_ (s.g f.va + s.g f.vb * BitVec.ofNat 64 n), 0⟩)) ∧
     (∀ i < s.vbytes / n, (s.pr f.p).getLsbD (n * i) = true →
       (i, s.g f.va + (s.g f.vb + BitVec.ofNat 64 i) * BitVec.ofNat 64 n) ∈ toAccess (s.vseq f n) ∧
       (i, s.g f.va + BitVec.ofNat 64 (elemAt n i b * n)) ∈ toAccess (s.vidx f n b))) ∧
  (∀ (s w : State) (f : VForm) (b : Nat) (fm : Machine.Form),
     let n := 2 ^ f.ty.toNat
     let place (data : VReg) (n : Nat) (s : State) (g : List (Nat × Word)) : State :=
       (s.append (BitVec.ofNat 64 ((g.headD (0, 0)).2.toNat / 64 * 64)) (lineBytes n g data) true false [] 1).2
     let stores (i : Instr) (units n : Nat) (each : Bool) (from_ : State) (es : List VElem) : Prop :=
       s.me.vprog = none → (∃ cost, from_.vcheck n .store 1 es = (.ok cost, w)) →
       let gs := accesses each (toAccess es)
       w.slots w.cur.core + gs.length ≤ 16 →
       (∀ g ∈ gs, ∀ o, w.spot w.cur.core w.bench (g.headD (0, 0)).2 ≠ .tmaps o) →
       s.Does i (((gs.foldl (place (w.vr f.vd) n) w).consume f).modMe fun t => { t with vprog := none }) 4 units 1
     (s.pushTarget n (s.vseq f n) = none → stores (.vst f) 1 n false s (s.vseq f n)) ∧
     stores (.vstt f) 1 (s.vrow f false).1 false s (s.vrow f false).2 ∧
     (∀ x, s.vbOf fm f = (.bits b, x) → stores (.vscat f) 4 n true x (x.vidx f n b)) ∧
     (∀ e, s.me.vprog = none → s.pushTarget n (s.vseq f n) = some e → s.here.storesOf s.cur.seat = [] →
       s.det? s.cur.core = none → (s.here.q e).queue.length < 2 →
       ¬(e = .cp ∧ ((s.vr f.vd).extractLsb' 0 8 : BitVec 8) = 7 ∧ (s.here.q e).held = true) →
       ∃ (x : Cmd) (u : State), x.img = (s.vr f.vd).setWidth 512 ∧ (u.here.q e).queue = (s.here.q e).queue ++ [x] ∧
         u.mem = s.mem ∧ s.Does (.vst f) u 4 1 1))

/-! ## The matrix engine -/

/-- R232, R241 to R243, R269 and R270: the commands of the latches. LDCB loads the base table; LDB fills B_next, with
ZQ2 indices decoded to E4M3 and scale bytes by mode; SWPB exchanges the latches once B_next is full; ROTB starts once
the ring successor's B_next has credit, and then gives B_cur to it. R248, R267 and R271: MMA and MMAV start with
their registers sampled and partial values of minus zero, take eight k-steps, of which each adds one rounded sum of
products to every partial value, and after the eighth add the scaled partial values to their bank. The tile is in the
core's TCM, or the copy that the push took. R246, R253, R272 to R274 and R281: ZERO clears a bank; LDC widens a bank
from 1024 bytes of binary32; STC, once started, writes back a row of a bank in its format in each event, the rows of
a 64-byte line together in one access, and after sixteen it is over, with the count of its outliers. -/
def Obligations.MatrixCommands : Prop :=
  (∀ (s : State) (c : CoreId) (x : Cmd) (r : Run),
     let m := (s.core c).mx
     let bytes (n : Nat) : List Byte := s.mem.bytes (engineHome c x.addr) n
     let ends (i : Instr) (cost : Nat) (p : Mx → Prop) : Prop :=
       ∃ t, exec i s = .next t ∧ s.EngineDone t c .mx x cost ∧ s.EngineKept t c [] ∧ t.mem = s.mem ∧ p (t.core c).mx
     (s.heads c .mx x → (s.core c).latchBusy = false →
       (x.code = 1 → x.malformed [12, 13, 14, 15] = false → inTcmOrScratch x.addr 512 64 = true →
         s.engineReads c x.addr 512 →
         ends (.ldcb c) 8 fun y => y.table.toNat = leNat (bytes 512) % 2 ^ 4096 ∧ y.cur = m.cur ∧ y.next = m.next ∧
           y.banks = m.banks) ∧
       (x.code = 2 → x.malformed [12, 13, 14, 15] = false → s.incoming c = false →
         (m.bfmt.toNat ∈ [0, 4, 5, 6, 8, 9, 10] → m.bmode.toNat ≤ 2 →
           let n := if m.bmode = 1 then 528 else 512
           inTcmOrScratch x.addr n 64 = true → s.engineReads c x.addr n →
           ends (.ldb c) 8 fun y => y.next.data.toNat = leNat (bytes 512) % 2 ^ 4096 ∧ y.next.fmt = m.bfmt ∧
             y.credit = .full ∧ y.cur = m.cur ∧ y.banks = m.banks ∧
             (m.bmode = 0 → y.next.scale = 0x7F7F7F7F7F7F7F7F7F7F7F7F7F7F7F7F) ∧
             (m.bmode = 1 → y.next.scale.toNat = leNat ((bytes 528).drop 512) % 2 ^ 128) ∧
             (m.bmode = 2 → ∀ i < 16, y.next.scale.extractLsb' (8 * i) 8 = m.bconst)) ∧
         (m.bfmt = 11 → inTcmOrScratch x.addr 144 64 = true → s.engineReads c x.addr 144 →
           ends (.ldb c) 8 fun y => y.next.fmt = 8 ∧ y.credit = .full ∧ y.next.data.toNat =
             leNat (zq2Block (if m.tsel = 1 then defaultTable else m.table) (bytes 128)) % 2 ^ 4096)) ∧
       (x.code = 3 → x.malformed [] = false → m.credit = .full → (s.core c).running .mx [5, 9] = none →
         ends (.swpb c) 1 fun y => y.cur = m.next ∧ y.next = m.cur ∧ y.credit = .credit ∧ y.banks = m.banks) ∧
       (x.code = 4 → x.malformed [] = false → s.benchIn c = false → (s.core (ringNext c)).mx.credit = .credit →
         ∃ t, exec (.rotb c) s = .next t ∧ s.EngineStarts t c .mx x (fun _ => True) ∧ s.EngineKept t c [] ∧
           t.mem = s.mem ∧ (t.core c).mx.cur = m.cur)) ∧
     ((s.core c).running .mx [4] = some r → ringNext c ≠ c →
       ∃ t, exec (.rotb c) s = .next t ∧ t.mem = s.mem ∧ s.EngineKept t c [ringNext c] ∧ (t.core c).mx.cur = m.cur ∧
         (t.core (ringNext c)).mx.next = m.cur ∧ (t.core (ringNext c)).mx.credit = .full ∧
         (t.core (ringNext c)).mx.cur = (s.core (ringNext c)).mx.cur ∧
         s.EngineSteps t c .mx r fun r' => r'.fin = some (0, 0) ∧ r'.tag = r.cmd.endTag 8)) ∧
  (∀ (s : State) (c : CoreId) (x : Cmd) (r : Run),
     let m := (s.core c).mx
     let starts (i : Instr) : Prop := ∃ t, exec i s = .next t ∧ s.EngineKept t c [] ∧
       s.EngineStarts t c .mx x (fun r => r.s0.toNat = m.afmt.toNat ∧ r.acc = List.replicate 256 0x8000000000000000) ∧
       t.mem = s.mem ∧ (t.core c).mx.banks = m.banks
     let formats : Prop := (m.afmt.toNat ∈ [0, 8, 9] ∧ m.cur.fmt.toNat ∈ [0, 8, 9]) ∨
       (m.afmt.toNat = 10 ∧ m.cur.fmt.toNat = 10) ∨ (m.afmt.toNat ∈ [4, 5] ∧ m.cur.fmt.toNat ∈ [4, 5]) ∨
       (m.afmt.toNat = 6 ∧ m.cur.fmt.toNat = 6)
     let steps (i : Instr) (rows : List Nat) (scale : List Byte) : Prop :=
       let acc := kStep (s.virt c) r.s0.toNat m.cur.fmt.toNat r.step rows m.cur.data r.acc
       (r.step < 7 → ∃ t, exec i s = .next t ∧ t.mem = s.mem ∧ (t.core c).mx.banks = m.banks ∧
         s.EngineSteps t c .mx r fun r' => r'.step = r.step + 1 ∧ r'.acc = acc ∧ r'.fin = none) ∧
       (r.step = 7 → ∃ t, exec i s = .next t ∧ t.mem = s.mem ∧
         (t.core c).mx.banks = m.banks.set r.cmd.bank
           (accumulate (s.virt c) (r.rowScale scale) m.cur.scale acc m.banks[r.cmd.bank]) ∧
         s.EngineSteps t c .mx r fun r' => r'.fin = some (0, 0) ∧ r'.tag = r.cmd.endTag (if r.s0 = 6 then 128 else 64))
     (s.heads c .mx x → (s.core c).arrayBusy = false → formats →
       (x.code = 5 → x.malformed [8, 12, 13, 14, 15] = false → x.byte 8 ≤ 3 →
         inTcm x.addr (if m.amode = 1 then 528 else 512) 64 = true → starts (.mma c)) ∧
       (x.code = 9 → x.malformed ([8, 9] ++ if m.amode = 1 then (List.range 16).map (· + 16) else []) = false →
         x.byte 8 ≤ 3 → x.byte 9 ≤ 24 → starts (.mmav c))) ∧
     (s.stopped c = false →
       ((s.core c).running .mx [5] = some r → s.bad = [] → s.weak = [] →
         let h := tcmHome c r.cmd.addr
         let rows := (List.range 16).map fun i => leNat (s.mem.bytes (h + 32 * i + 4 * r.step) 4)
         s.holds c h 528 →
         steps (.mma c) rows (if r.s1.extractLsb' 0 2 = 1 ∧ r.step = 7 then s.mem.bytes (h + 512) 16 else [])) ∧
       ((s.core c).running .mx [9] = some r →
         let rows := (List.range 16).map fun i => r.cmd.regs.toNat / 2 ^ (8 * (32 * i + 4 * r.step)) % 2 ^ 32
         steps (.mmav c) rows ((List.range 16).map fun i => BitVec.ofNat 8 (r.cmd.byte (16 + i)))))) ∧
  (∀ (s : State) (c : CoreId) (x : Cmd) (r : Run),
     let m := (s.core c).mx
     (s.heads c .mx x → (s.core c).arrayBusy = false → x.byte 8 ≤ 3 →
       (x.code = 6 → x.malformed [8] = false → ∃ t, exec (.zero c) s = .next t ∧ s.EngineDone t c .mx x 2 ∧
         s.EngineKept t c [] ∧ t.mem = s.mem ∧ (t.core c).mx.banks = m.banks.set x.bank (List.replicate 256 0)) ∧
       (x.code = 7 → x.malformed [8, 12, 13, 14, 15] = false → inTcm x.addr 1024 64 = true → s.engineReads c x.addr 1024 →
         ∃ t, exec (.ldc c) s = .next t ∧ s.EngineDone t c .mx x 16 ∧ s.EngineKept t c [] ∧ t.mem = s.mem ∧
           (t.core c).mx.banks = m.banks.set x.bank
             ((List.range 256).map fun i => widen (leNat (s.mem.bytes (tcmHome c x.addr + 4 * i) 4)))) ∧
       (x.code = 8 → x.malformed [8, 10, 11, 12, 13, 14, 15] = false → m.cfmt.toNat ∈ [0, 1, 2, 4, 5, 6, 8, 9] →
         inTcm x.addr (256 * (fmtBits m.cfmt.toNat / 8)) 64 = true → m.olim = 0 →
         ∃ t, exec (.stc c) s = .next t ∧ s.EngineKept t c [] ∧ t.mem = s.mem ∧
           s.EngineStarts t c .mx x fun r => r.s0.toNat = m.cfmt.toNat)) ∧
     (s.stopped c = false → (s.core c).running .mx [8] = some r → s.bad = [] →
       let n := fmtBits r.s0.toNat / 8
       let row := ((m.banks[r.cmd.bank]).drop (16 * r.step)).take 16
       let out := row.map (writeBack r.s0.toNat)
       let line := r.bytes ++ out.flatMap fun o => natLe n o.1
       let full := 16 * n * (r.step + 1) % 64 = 0
       let h := engineHome c (r.cmd.addr + 16 * n * (r.step + 1) - 64)
       (∀ o ∈ out, o.2 = 0) → s.holds c h line.length →
       ∃ t, exec (.stc c) s = .next t ∧ t.mem = (if full then s.mem.writeAll (cellsFrom h line) else s.mem) ∧
         (t.core c).mx.banks = m.banks ∧
         (r.step < 15 → s.EngineSteps t c .mx r fun r' => r'.step = r.step + 1 ∧ r'.fin = none ∧
           r'.bytes = if full then [] else line) ∧
         (15 ≤ r.step → r.lost = 0 → s.EngineSteps t c .mx r fun r' => r'.fin = some (0, BitVec.ofNat 16 r.found) ∧
           r'.tag = r.cmd.endTag (16 + 2 * r.found))))

/-! ## The scan and copy engines -/

/-- R286 and R291 to R295: SCANL and SCANC sample their operator as they start, and then take one step in each event.
SCANL's running state is composed with the step that it reads, and is written, or with EXCL the state before it;
after its last step it is the aggregate. SCANC composes each step with the carry. R287 and R296: a group command
starts by contributing to the instance of its code and group that is open, or to a new one: TJOIN the core's
aggregate, TBAR its arrival, TRED the step that it reads. It is over when the instance closes. -/
def Obligations.ScanCommands : Prop :=
  (∀ (s : State) (c : CoreId) (x : Cmd) (r : Run) (code : Nat),
     let k := s.core c
     let own := nanPayload (s.virt c) 15
     let i : Instr := if code = 1 then .scanl c else .scanc c
     (code = 1 ∨ code = 3) →
     (s.heads c .sn x → k.snBusy = false → x.code = code →
       let o := ScanOp.of k.sn.snop
       let n := x.count
       let fits (a : Nat) : Prop := inTcm a (n * o.step) 64 = true
       let src := x.field 12 4
       let dst := x.field 16 4
       x.malformed ([8, 9, 16, 17, 18, 19] ++ if code = 1 then [12, 13, 14, 15] else []) = false → 0 < n → n ≤ 64 →
       k.follows c = false → o.refused = false → o.seg = false → fits dst → (code = 1 → fits src) → s.bad = [] →
       s.holds c (tcmHome c (if code = 1 then src else dst)) (n * o.step) →
       ∃ t, exec i s = .next t ∧ s.EngineKept t c [] ∧ t.mem = s.mem ∧
         s.EngineStarts t c .sn x fun r => r.s0 = k.sn.snop ∧ r.scan = none) ∧
     (k.running .sn [code] = some r → s.stopped c = false → s.bad = [] → (ScanOp.of r.s0).seg = false →
       (ScanOp.of r.s0).affine = false →
       let o := ScanOp.of r.s0
       let n := r.cmd.count
       let u := o.at_ n r.step
       let to_ := r.cmd.field 16 4 + u * o.step
       let from_ := if code = 1 then r.cmd.field 12 4 + u * o.step else to_
       let bytes (e : ScanVal) : List Byte := (e.getD (List.replicate o.lanes o.idValue)).flatMap fun p => o.writeElem p.1
       let y := o.compose own (some (s.readStep c o from_)) (if code = 1 then r.scan else k.sn.carry)
       let out := bytes (if code = 1 ∧ o.excl = true then r.scan else y)
       to_ < 0x8000 → s.holds c (tcmHome c from_) (o.lanes * o.size) → s.holds c (tcmHome c to_) out.length →
       ∃ t, exec i s = .next t ∧ t.mem = s.mem.writeAll (cellsFrom (tcmHome c to_) out) ∧
         (r.step + 1 < n → s.EngineSteps t c .sn r fun r' => r'.step = r.step + 1 ∧ (code = 1 → r'.scan = y) ∧
           r'.fin = none) ∧
         (n ≤ r.step + 1 → (code = 1 → (t.core c).sn.agg = y) ∧
           s.EngineSteps t c .sn r fun r' => r'.fin = some (0, 0) ∧ r'.tag = r.cmd.endTag (4 * n)))) ∧
  (∀ (s : State) (c : CoreId) (x : Cmd) (p : Part) (pos : Nat),
     let k := s.core c
     let o := ScanOp.of (k.sn.snop &&& 0xF5FF)
     s.heads c .sn x → k.snBusy = false → k.follows c = false → s.part? k.pid.toNat = some p → p.position c = some pos →
     x.members ≠ 0 → x.first ≤ pos → pos < x.first + x.members → x.first + x.members ≤ p.dies.length * (p.rows * p.cols) →
     let joins (i : Instr) (val : ScanVal) (seg : Bool) : Prop := ∃ (t : State) (id : Nat) (y : Contrib),
       exec i s = .next t ∧ t.mem = s.mem ∧ s.EngineStarts t c .sn x (fun r => r.inst = some id) ∧
       y.pos = pos ∧ y.val = val ∧ y.seg = seg ∧ y.auto = false ∧
       ∃ j ∈ t.instances, j.id = id ∧ j.code = x.code ∧ j.first = x.first ∧ j.count = x.members ∧
         ((∀ i ∈ s.instances, ∀ z ∈ i.got, z.pos ≠ pos) → y ∈ j.got)
     (x.code = 2 → x.malformed ((List.range 12).map (· + 8)) = false → (ScanOp.of k.sn.snop).refused = false →
       inTcm (x.field 16 4) (ScanOp.of k.sn.snop).step 64 = true → joins (.tjoin c) k.sn.agg k.sn.aggSeg) ∧
     (x.code = 4 → x.malformed ((List.range 8).map (· + 8)) = false → joins (.tbar c) none false) ∧
     (x.code = 5 → x.malformed ((List.range 16).map (· + 8)) = false → o.refused = false →
       inTcm (x.field 16 4) o.step 64 = true → inTcm (x.field 20 4) o.step 64 = true →
       s.bad = [] → s.holds c (tcmHome c (x.field 16 4)) o.step →
       joins (.tred c) (some (s.readStep c o (x.field 16 4))) false))

/-- R431 and R433 to R436: the commands of the copy engine. A unit between the core's own TCM or scratchpad stores its
bytes at the destination and the next one follows; after the last one the command is over, at the cost of R58. An COPY
whose ranges overlap within one memory takes them from the source as it was before the command wrote. An MCAST
stores them at the same local address of every core of its rectangle. A queued RESUME has no effect and is over at
once. -/
def Obligations.CopyUnits : Prop :=
  ∀ (s : State) (c : CoreId) (x : Cmd) (r : Run),
    let p := s.cpPart c
    let n := r.cmd
    let here (a : Word) : Prop := a.getLsbD 63 = false
    let steps (i : Instr) (total : Nat) (k : Nat) (mem : Memory) : Prop :=
      ∃ t, exec i s = .next t ∧ t.mem = mem ∧ s.EngineKept t c [] ∧
        (r.step + 1 < total → s.EngineSteps t c .cp r fun r' => r'.step = r.step + 1 ∧ r'.found = r.found + k ∧
          r'.fin = none) ∧
        (total ≤ r.step + 1 → s.EngineSteps t c .cp r fun r' => r'.fin = some (0, 0) ∧
          r'.tag = n.endTag (16 + (r.found + k + 255) / 256 + r.s0.toNat))
    let moves (i : Instr) (code total : Nat) (src : CpSource) (dst : Word) : Prop :=
      (s.core c).running .cp [code] = some r → ∀ bs, s.cpGives c src bs → s.cpWrites c dst.toNat bs.length →
        steps i total bs.length (s.mem.writeAll (cellsFrom (engineHome c dst.toNat) bs))
    (r.inst = none → r.waits = [] → r.held = 0 → r.s1 = 0 → s.stopped c = false →
      (let (off, k) := granuleUnit n.cpD n.cpN r.step
       let a := n.cpS.toNat + off
       let lines := r.reads.filter fun l => decide (a / 64 ≤ l.2.1.toNat / 64) && decide (l.2.1.toNat < a + k)
       r.seg = true → here n.cpS → here n.cpD → r.reads ≠ [] → (∀ l ∈ r.reads, ∃ b x, l.2.2 = some (b :: x)) →
       moves (.copy c) 1 (granuleCount n.cpD n.cpN)
         (.bytes (((lines.flatMap fun l => l.2.2.getD []).drop (a - max n.cpS.toNat (a / 64 * 64))).take k))
         (n.cpD + BitVec.ofNat 64 off)) ∧
      (r.reads = [] →
      (let (off, k) := granuleUnit n.cpD n.cpN r.step
       r.seg = false → here n.cpS → here n.cpD → s.overlap c (p.addrOf n.cpS) (p.addrOf n.cpD) n.cpN ≠ .open_ →
       moves (.copy c) 1 (granuleCount n.cpD n.cpN) (.range ⟨n.cpS + BitVec.ofNat 64 off, none⟩ k)
         (n.cpD + BitVec.ofNat 64 off)) ∧
      (let d := n.cpS
       let (off, k) := granuleUnit d (n.field 16 8) r.step
       let a := d + BitVec.ofNat 64 off
       here d → moves (.fill c) 6 (granuleCount d (n.field 16 8))
         (.bytes ((List.range k).map fun j => BitVec.ofNat 8 (n.byte (24 + (a.toNat + j) % 8)))) a) ∧
      (let total := n.field 32 4 * n.field 36 4
       let (a, b) := copy2dUnit n r.maps.1 r.maps.2 r.step
       (∀ va, b = .addr ⟨va, none⟩ → moves (.copy2d c) 2 total a va) ∧
       (b = .nowhere → (s.core c).running .cp [2] = some r → ∀ bs, s.cpGives c a bs → steps (.copy2d c) total 0 s.mem)) ∧
      (here n.cpD → moves (.gather c) 3 n.elemCount (.indexed n.cpS (n.cpN + 4 * r.step) n.elemLog)
         (n.cpD + BitVec.ofNat 64 (r.step * 2 ^ n.elemLog))) ∧
      (here n.cpS → here n.cpD → s.engineReads c (n.cpN + 4 * r.step) 4 →
        moves (.scatter c) 4 n.elemCount
          (.range ⟨n.cpS + BitVec.ofNat 64 (r.step * 2 ^ n.elemLog), none⟩ (2 ^ n.elemLog))
          (s.cpIndexed c n.cpD (n.cpN + 4 * r.step) n.elemLog)) ∧
      (let (off, k) := granuleUnit n.cpD n.cpN r.step
       ∀ cs bs, n.rect ≠ 0 → p.rectOf n.rect = some cs → (s.core c).running .cp [5] = some r → here n.cpS →
        s.cpGives c (.range ⟨n.cpS + BitVec.ofNat 64 off, none⟩ k) bs →
        let home (d : CoreId) : Nat := engineHome d (n.cpD.toNat + off)
        (∀ d ∈ cs, dieOfHome (home d) = dieOf c ∧ s.barred c (home d) = none ∧ s.homeUp (home d) = true ∧
          s.scratchClash c (home d) bs.length = false ∧ s.holds c (home d) bs.length) →
        steps (.mcast c) (granuleCount n.cpD n.cpN) bs.length
          ((cs.map home).eraseDups.foldl (fun m h => m.writeAll (cellsFrom h bs)) s.mem)))) ∧
    (s.heads c .cp x → (s.core c).cp.q.run = [] → x.code = 7 → x.malformed [] = false →
      ∃ t, exec (.resume c) s = .next t ∧ s.EngineDone t c .cp x 16 ∧ s.EngineKept t c [] ∧ t.mem = s.mem)

/-! ## Events of the engines -/

/-- R225, R226, R259, R276 and R277: the oldest command of an engine that is over retires: its element enters the
FIFO if it asked for one or its status is not zero, its done counter is incremented, and after a fault the engine is
held with FSTAT and FCODE, and ENGINE_FAULT becomes pending on the pusher that still runs its work. A head command
whose CODE is no command's ends with status 1. R275, R277, R303, R304 and R435: RETRY puts the held command back at
the head of the queue, SKIP retires it with its done counter incremented and, for a group command, contributes the
identity with no tag; both clear HELD and keep FSTAT and FCODE, and neither does anything while HELD is 0. OVF and
MISM are cleared alone. R297, R299, R300 and R303: an instance with a contribution from each of its positions closes.
Each member that waits for it completes, with status 0, or with status 8 where the operators of a TJOIN or TRED
differ; a member of a TJOIN then has its carry. With a mismatch, and for a TBAR, nothing is written. -/
def Obligations.EngineEvents : Prop :=
  (∀ (s : State) (c : CoreId) (e : Engine) (r : Run) (rest : List Run) (st : BitVec 8) (n : BitVec 16) (x : Cmd),
     let q := (s.core c).q e
     let top := match e with | .mx => 9 | .cp => 7 | .sn => 5
     let out := if r.cmd.outs = true ∨ st ≠ 0 then q.fifo ++ [(r.element, r.tag)] else q.fifo
     let k := s.core c
     let old := k.seats[r.cmd.seat].pend.engine
     ((∀ y, s.startable c e = some y → y.dropped = false ∧ 1 ≤ y.code ∧ y.code ≤ top) →
       q.run = r :: rest → r.fin = some (st, n) → st ≠ 0xFF → q.fifo.length < 8 →
       (isFault e st = false → ∃ t, exec (.engineCommandRetire c e) s = .next t ∧ s.AtCore t c ∧
         (t.core c).seats = k.seats ∧ s.EngineIs t c e { q with run := rest, fifo := out }
           (match r.cmd.ctr with | some i => (k.doneInc i (s.det? c).isSome (r.tag, r.cmd.key)).done | none => k.done)) ∧
       (isFault e st = true → q.held = false → ∃ t, exec (.engineCommandRetire c e) s = .next t ∧ s.AtCore t c ∧
         (∀ i : Fin 4, i ≠ r.cmd.seat → (t.core c).seats[i] = k.seats[i]) ∧
         (t.core c).seats[r.cmd.seat].pend.engine =
           (if s.stillRuns c r.cmd = true ∧ old = none then some r.element else old) ∧
         s.EngineIs t c e { q with run := rest, fifo := out, held := true, heldRun := some r, fstat := st, fcode := BitVec.ofNat 8 r.cmd.code }
           k.done)) ∧
     (s.startable c e = some x → x.dropped = false → x.code = 0 ∨ top < x.code → q.run = [] → q.fifo.length < 8 →
       ∃ t, exec (.engineCommandRetire c e) s = .next t ∧ s.AtCore t c ∧ ((t.core c).q e).held = true ∧
         ((t.core c).q e).fstat = 1 ∧ ((t.core c).q e).fcode = BitVec.ofNat 8 x.code ∧
         ((t.core c).q e).queue = q.queue.drop 1 ∧ ((t.core c).q e).fifo.length = q.fifo.length + 1)) ∧
  (∀ (s : State) (c : CoreId) (r : Run),
     let k := s.core c
     let counted := match r.cmd.ctr with
       | some i => (k.doneInc i (s.det? c).isSome (r.tag, r.cmd.key)).done
       | none => k.done
     let retry (i : Instr) (e : Engine) : Prop :=
       ((k.q e).heldRun = some r → ∃ t, exec i s = .next t ∧ s.AtCore t c ∧ (t.core c).seats = k.seats ∧
         s.EngineIs t c e { k.q e with held := false, heldRun := none, queue := r.cmd :: (k.q e).queue } k.done) ∧
       ((k.q e).heldRun = none → exec i s = .next s)
     let skip (i : Instr) (e : Engine) : Prop :=
       ((k.q e).heldRun = some r → e = .sn → r.cmd.code ≠ 2 ∧ r.cmd.code ≠ 4 ∧ r.cmd.code ≠ 5) →
       ((k.q e).heldRun = some r → ∃ t, exec i s = .next t ∧ s.AtCore t c ∧ (t.core c).seats = k.seats ∧
         s.EngineIs t c e { k.q e with held := false, heldRun := none } counted) ∧
       ((k.q e).heldRun = none → exec i s = .next s)
     retry (.mxstatRetry c) .mx ∧ retry (.snstatRetry c) .sn ∧ skip (.mxstatSkip c) .mx ∧ skip (.snstatSkip c) .sn ∧
     skip (.cpstatSkip c) .cp ∧
     (∀ p pos, k.sn.q.heldRun = some r → r.cmd.code = 2 ∨ r.cmd.code = 4 ∨ r.cmd.code = 5 →
       s.part? k.pid.toNat = some p → p.groupOk c r.cmd = true → p.position c = some pos →
       ∃ t, exec (.snstatSkip c) s = .next t ∧ t.mem = s.mem ∧ (t.core c).seats = k.seats ∧
         (t.core c).sn.q = { k.sn.q with held := false, heldRun := none } ∧ (t.core c).done = counted ∧
         ∃ j ∈ t.instances, j.code = r.cmd.code ∧ j.first = r.cmd.first ∧ j.count = r.cmd.members ∧
           j.m = k.sn.times (j.code, j.first, j.count) ∧ ∃ y ∈ j.got, y.pos = pos ∧
           ((∀ i ∈ s.instances, ∀ z ∈ i.got, z.pos ≠ pos) → y.val = none ∧ y.seg = false ∧ y.tag = none)) ∧
     (∃ t, exec (.mxstatOvfClear c) s = .next t ∧ s.AtCore t c ∧ t.core c = { k with mx := { k.mx with ovf := false } }) ∧
     (∃ t, exec (.snstatMismClear c) s = .next t ∧ s.AtCore t c ∧ t.core c = { k with sn := { k.sn with mism := false } })) ∧
  (∀ (s : State) (part j : Nat) (p : Part) (x : Instance),
     let members := x.got.filter fun y => !y.auto
     s.part? part = some p → (s.instances.filter fun i => i.part = part)[j]? = some x →
     (x.got.length < x.count → exec (.groupClose part j) s = .next s) ∧
     (x.count ≤ x.got.length → p.quiet = false → (members.map fun y => p.atPosition y.pos).Nodup →
       ∃ t, exec (.groupClose part j) s = .next t ∧ t.instances = s.instances.filter (fun i => i.id ≠ x.id) ∧
         t.net = s.net ∧ (∀ d, (t.core d).seats = (s.core d).seats ∨ ∃ y ∈ members, p.atPosition y.pos = some d) ∧
         (x.code = 4 ∨ x.mismatch = true → t.mem = s.mem) ∧
         ∀ y ∈ members, ∀ c r, p.atPosition y.pos = some c →
           (s.core c).sn.q.run = [r] → r.inst = some x.id → r.fin = none →
           (∃ r', (t.core c).sn.q.run = [r'] ∧ r'.cmd = r.cmd ∧
             r'.fin = some (if x.mismatch then 8 else 0, 0)) ∧
           (x.mismatch = true → (t.core c).sn.mism = true ∧ (t.core c).sn.carry = (s.core c).sn.carry) ∧
           (x.mismatch = false → x.code = 2 →
             let o := ScanOp.of y.op
             ((t.core c).sn.carry, (t.core c).sn.carrySeg) =
               o.carry (nanPayload (s.virt c) 15) 8 (x.ranked o.rev) (rankOf o.rev x.first x.count y.pos))))

/-! ## Writes of registers as events, and modes -/

/-- R25, R72, R156, R264 to R266 and R284: a write of a register that waits for nothing. The registers of the MX take
their fields; a reduction above 4 is not taken into cr.snop; a write of cr.chlim arms the check; and a pending mode
takes effect at the idle point of its seat, where a stream seat starts at cr.sentry with its registers at zero. -/
def Obligations.RegisterEvents : Prop :=
  ∀ (s : State) (t : SeatId) (num : BitVec 12) (x : Word),
    let c := t.core
    let k := s.core c
    let f (lo n : Nat) : BitVec n := x.extractLsb' lo n
    let puts (i : Instr) (k' : Core) : Prop := ∃ u, exec i s = .next u ∧ s.AtCore u c ∧ u.core c = k'
    let mx (num : BitVec 12) (m : Mx) : Prop := puts (.mxRegisterWrite c num x) { k with mx := m }
    let checked (y : Seat) : Seat :=
      if y.armed = true ∧ y.chlim.toNat < y.tag.span.toNat then { y with pend := { y.pend with chain := true } } else y
    let after (k' : Core) : Core := { k' with seats := k.seats.set t.seat (checked k.seats[t.seat]) }
    ((k.mx.q.queue.all fun y => y.dropped) = true → k.running .mx [8] = none →
      mx 0x205 { k.mx with tsel := f 0 1 } ∧ mx 0x206 { k.mx with olist := f 0 32 } ∧
      mx 0x207 { k.mx with olim := f 0 16 } ∧ mx 0x208 { k.mx with ocnt := f 0 16 } ∧
      ((f 0 8).toNat ≤ 11 → mx 0x200 { k.mx with afmt := f 0 8 } ∧ mx 0x201 { k.mx with bfmt := f 0 8 } ∧
        mx 0x202 { k.mx with cfmt := f 0 8 }) ∧
      (11 < (f 0 8).toNat → mx 0x200 k.mx ∧ mx 0x201 k.mx ∧ mx 0x202 k.mx) ∧
      (f 0 2 ≠ 3 → mx 0x203 { k.mx with aconst := f 8 8, amode := f 0 2 } ∧
        mx 0x204 { k.mx with bconst := f 8 8, bmode := f 0 2 })) ∧
    (k.mx.q.queue.any (fun y => !y.dropped) = true ∨ k.running .mx [8] ≠ none → 0x200 ≤ num.toNat → num.toNat ≤ 0x208 →
      exec (.mxRegisterWrite c num x) s = .next s) ∧
    ((k.sn.q.queue.all fun y => y.dropped) = true → (f 0 3).toNat ≤ 4 →
      puts (.snopWrite c x) { k with sn := { k.sn with snop := f 0 16 &&& 0xFEF7 } }) ∧
    (∃ u, exec (.chlimWrite t x) s = .next u ∧ s.AtSeat u t ∧
      u.seat t = checked { s.seat t with chlim := f 0 48, armed := true }) ∧
    (∃ u, exec (.registerWrite t 0x002 x) s = .next u ∧ s.AtSeat u t ∧ u.seat t = checked { s.seat t with grp := f 0 32 }) ∧
    (∃ u, exec (.registerWrite t 0x304 x) s = .next u ∧ s.AtSeat u t ∧
      u.seat t = checked { s.seat t with chlim := f 0 48, armed := true }) ∧
    puts (.registerWrite t 0xC31 x) (after { k with memb := x }) ∧
    puts (.registerWrite t 0xC32 x) (after { k with pid := f 0 6 }) ∧
    (∀ m, (s.seat t).modePend = some m → (s.seat t).work = none → s.stopped c = false → k.benchLead = none →
      ∃ u, exec (.modeChange t) s = .next u ∧ s.AtCore u c ∧ (u.core c).modes = k.modes.set t.seat m ∧
        (u.seat t).modePend = none ∧ (∀ i : Fin 4, i ≠ t.seat → (u.core c).seats[i] = k.seats[i]) ∧
        (m ≠ 0b01 → u.seat t = { s.seat t with modePend := none }) ∧
        (m = 0b01 → (u.seat t).pc = (s.seat t).sentry ∧ (u.seat t).work.isSome = true ∧ (u.seat t).g = Vector.replicate 32 0 ∧
          (u.seat t).priv = basePriv c ∧ (u.seat t).tr = (s.seat t).tr ∧ (u.seat t).fflags = (s.seat t).fflags)) ∧
    ((s.seat t).work.isSome = true → exec (.modeChange t) s = .next s)

/-! ## Messages that arrive, and work that starts -/

/-- R28 to R30, R34, R41, R42, R60 and R396: a router input's message that fits is placed in the lowest run of free
granules, charged for its hold, and joins the run queue; one that does not fit stays; one that its class refuses is
dropped with a SYS reply to its sender. A spawn that waits for room is tried again. Each waits for its turn: spawns go
first, the lowest seat's first, then the inputs local, north, east, south and west. -/
def Obligations.Acceptance : Prop :=
  ∀ (s : State) (c : CoreId) (inp : InPort) (i : Fin 5) (m : Msg) (rest : List Msg),
    let k := s.core c
    let n := k.granulesFor m
    let h := s.areaHome c ((k.findRun n).getD 0)
    let u := if n = 0 then s else s.claimHome c h
    (portIndex inp = some i → k.inputs[i] = m :: rest → s.up c = true → s.det? c = none → k.cancelling = [] →
      s.turnOf c inp = true →
      (∀ g, k.refuses m = none → k.runq.length < 32 → k.findRun n = some g → u.bad = [] →
        ∃ t, exec (.acceptMessage c inp) s = .next t ∧ s.AtCores t [c] ∧ (t.core c).seats = k.seats ∧
          (t.core c).inputs = k.inputs.set i rest ∧ (t.core c).accepted = k.accepted + 1 ∧
          t.mem = u.mem.writeAll (cellsFrom h (m.data ++ List.replicate (64 * n - m.data.length) 0)) ∧
          (t.core c).granules = k.granules ++ (List.range n).map (fun j => g + j) ∧
          ∃ e : Entry, (t.core c).runq = k.runq ++ [e] ∧ e.granules = (List.range n).map (fun j => g + j) ∧
            e.msg.data = m.data ∧ e.msg.cls = m.cls ∧ e.msg.grp = m.grp ∧ e.msg.src = m.src ∧
            (m.heldDet = 0 → e.msg.tag.span = m.tag.span ∧ e.msg.tag.last = m.tag.last ∧
              e.msg.tag.wait = (m.tag.charge 2 (toRef m.held (s.region (s.regionOf c)).rate)).wait)) ∧
      (rest = [] → k.refuses m = none → k.runq.length = 32 ∨ k.findRun n = none → exec (.acceptMessage c inp) s = .next s) ∧
      (∀ cause v t0, k.refuses m = some (cause, v) → m.kind = .plain → m.pkg = none → s.sender m = some t0 →
        ∃ t, exec (.acceptMessage c inp) s = .next t ∧ t.mem = s.mem ∧ t.core c = { k with inputs := k.inputs.set i rest } ∧
          (∀ d, d ≠ c → t.core d = s.core d) ∧ t.replies = s.replies ++ [⟨t0, cause, v, m.work, m.grp⟩])) ∧
    (∀ (j : Fin 4) d cls hold v, k.seats[j].hold = some hold → hold.kind = 3 → hold.mark = 4 → s.stopped c = false →
      s.turnOf c (.spawn j) = true → ({ s with cur := ⟨c, j⟩ } : State).mayIssue = true →
      ({ s with cur := ⟨c, j⟩ } : State).fetch = (.ok (.instr (.spawn d cls)), v) →
      exec (.acceptMessage c (.spawn j)) s = exec (.spawn d cls) v)

/-- R34 to R37, R44, R60 and R66: selection. The entry that a free seat takes is eligible and comes before every other
eligible one: greater priority, then the flagged class, then among flagged ones the greater span, then arrival. A
task, an active message or carried code starts with the registers that R36 gives it and zeros elsewhere, with the
watchdog reloaded but for carried code, and with none to take the seat pops the bottom of the deque. -/
def Obligations.Selection : Prop :=
  ∀ (s : State) (c : CoreId) (i : Fin 4) (a : Nat) (e : Entry),
    let k := s.core c
    let m := e.msg
    let word (j : Nat) : Word := BitVec.ofNat 64 (leNat ((m.data.drop j).take 8))
    let starts (t : State) (pc g2 g3 g4 g5 : Word) (grp wd : BitVec 32) : Prop :=
      let x := k.seats[i]
      let y := (t.core c).seats[i]
      y.pc = pc ∧ y.rd 2 = g2 ∧ y.rd 3 = g3 ∧ y.rd 4 = g4 ∧ y.rd 5 = g5 ∧
      (∀ r : Reg, r ≠ 2 → r ≠ 3 → r ≠ 4 → r ≠ 5 → y.rd r = 0) ∧ y.v = Vector.replicate 32 0 ∧
      y.p = Vector.replicate 8 0 ∧ y.loops = Vector.replicate 6 0 ∧ y.priv = basePriv c ∧ y.inTrap = false ∧ y.grp = grp ∧
      y.chlim = 0xFFFFFFFFFFFF ∧ y.armed = true ∧ y.starts = x.starts + 1 ∧ y.wdCount = wd ∧ y.tr = x.tr ∧
      y.fflags = x.fflags ∧ y.frm = x.frm
    let ok := s.det? c = none ∧ s.freeSeat c i = true ∧ ∀ j < i, s.freeSeat c j = false
    let goes (t : State) : Prop := exec (.selectEntry c) s = .next t ∧ s.AtCores t [c] ∧ t.mem = s.mem ∧
      (∀ j : Fin 4, j ≠ i → (t.core c).seats[j] = k.seats[j])
    (s.firstFor c i = some (a, e) → k.runq[a]? = some e ∧ s.eligible c i e = true ∧
      ∀ b e', k.runq[b]? = some e' → s.eligible c i e' = true → b ≠ a →
        let p := (k.entryPrio e).toNat
        let p' := (k.entryPrio e').toNat
        let o := k.classBit m.cls 57
        let o' := k.classBit e'.msg.cls 57
        p' < p ∨ (p' = p ∧ ((o = true ∧ o' = false) ∨ (o = o' ∧
          ((o = true ∧ e'.msg.tag.span.toNat < m.tag.span.toNat) ∨
            ((o = true → e'.msg.tag.span = m.tag.span) ∧ a < b)))))) ∧
    (ok → s.firstFor c i = some (a, e) → e.kind = .byClass →
      let wd := k.seats[i].wdReload
      let g4 := if k.classField m.cls 70 12 = 0 then 0 else BitVec.ofNat 64 (k.classField m.cls 82 14 * 64)
      let g3 := granuleAddr e.granules
      let g5 := g5Word m.src m.cls m.data.length
      (k.kindOf m.cls = 0 → ∃ t, goes t ∧ (t.core c).runq = k.runq.eraseIdx a ∧
        starts t (BitVec.ofNat 64 (2 * k.classField m.cls 1 47)) (word 0) g3 g4 g5 m.grp wd) ∧
      (k.kindOf m.cls = 3 → ∃ t, goes t ∧ (t.core c).runq = k.runq.eraseIdx a ∧ starts t (word 0) (word 8) g3 g4 g5 m.grp wd) ∧
      (k.kindOf m.cls = 4 → ∃ t, goes t ∧ (t.core c).runq = k.runq.eraseIdx a ∧
        starts t g3 (word 0) g3 g4 g5 m.grp k.seats[i].wdCount)) ∧
    (∀ x pc cls arg tag, ok → s.firstFor c i = none → (i = 3 → k.modes[(3 : Fin 4)] ≠ 0b11) → k.dqHeld.getLast? = some x →
      k.visible x = true → s.dequeEntry c (k.dqTop + k.dqHeld.length - 1) = (pc, cls, arg, tag) →
      k.classBit cls 56 = false → s.holds c (s.dequeHome c (k.dqTop + k.dqHeld.length - 1)) 32 →
      ∃ t, goes t ∧ (t.core c).dqHeld = k.dqHeld.dropLast ∧
        starts t pc arg 0 (if k.classField cls 70 12 = 0 then 0 else BitVec.ofNat 64 (k.classField cls 82 14 * 64))
          (g5Word (((s.srcWord ⟨c, 0⟩).extractLsb' 0 18).setWidth 20) cls 0) x.grp k.seats[i].wdReload) ∧
    ((∀ j, s.freeSeat c j = false) → exec (.selectEntry c) s = .next s)

/-- R38, R40 and R45: a steal takes the top of the first deque in ring order that holds a visible entry, which leaves for
the thief as a message, but where the victim's own pop reaches its last entry the steal returns nothing; a message of
a channel class becomes beats of its channel, and a task of it where no stream seat and no task serves the channel;
a message of a ring class is written behind W, W advances, and the done counter of the class counts it. -/
def Obligations.Deliveries : Prop :=
  ∀ (s : State) (c : CoreId) (a : Nat) (e : Entry),
    let k := s.core c
    let m := e.msg
    let ready (pick : Entry → Prop) : Prop := k.runq[a]? = some e ∧ pick e ∧ m.after = [] ∧ s.stopped c = false ∧
      e.kind = .byClass ∧ k.classBit m.cls 55 = true ∧ ∀ b < a, ∀ x, k.runq[b]? = some x → ¬pick x
    let tag := m.tag.charge 2 (toRef e.held (s.region (s.regionOf c)).rate)
    (∀ v x r, (∃ d row col, c = .grid d row col) → s.det? c = none → k.modes = Vector.replicate 4 0 → k.stealOut = false →
      k.dqHeld = [] → k.runq = [] → k.stealWait = 0 → (∃ j, s.freeSeat c j = true) →
      (∀ j < ringPos c, s.wantsSteal (ringCore (clusterOf c) j) = false) →
      ((List.range 15).map fun j => ringCore (clusterOf c) (ringPos c + 1 + j)).find? (fun w =>
        match (s.core w).dqHeld with
        | y :: _ => (s.core w).visible y && decide ((s.core w).pid = k.pid) && (s.core w).benchLead.isNone
        | [] => false) = some v →
      (s.core v).dqHeld = x :: r → s.holds v (s.dequeHome v (s.core v).dqTop) 32 →
      (r ≠ [] → ∃ t y, exec (.stealRequest c) s = .next t ∧ t.mem = s.mem ∧ t.parts = s.parts ∧
        (∀ d, d ≠ c → d ≠ v → t.core d = s.core d) ∧ (t.core v).dqHeld = r ∧
        (t.core v).dqTop = ((s.core v).dqTop + 1) % 64 ∧ (t.core c).stealOut = true ∧ (t.core c).seats = k.seats ∧
        t.net = s.net ++ [⟨y, v, 0, false⟩] ∧ y.dst = c ∧ y.grp = x.grp ∧ y.data.length = 32 ∧
        let (pc, cls, arg, tag) := s.dequeEntry v (s.core v).dqTop
        y.cls = cls ∧ y.tag = tag ∧ y.kind = .stolen pc arg v (BitVec.ofNat 3 ((s.core v).classField cls 58 3))) ∧
      (r = [] → s.popsLast v = true →
        ∃ t, exec (.stealRequest c) s = .next t ∧ s.AtCore t c ∧ t.core c = { k with stealWait := 16 })) ∧
    (∀ ch : BitVec 2, let i : Fin 4 := ch.toFin
      ready (fun x => x.kind = .byClass ∧ k.kindOf x.msg.cls = 1 ∧
        k.classField x.msg.cls 64 2 = ch.toNat) →
      k.chans[i].length + e.granules.length ≤ 8 →
      let served := (k.seats.toList.any fun t => decide (t.boundChan = some i) &&
          (match t.work with | some w => decide (w.kind = .stream) | none => false)) ||
        (k.seats.toList.any fun t => match t.work with | some w => decide (w.channel = some i) | none => false) ||
        k.runq.any fun x => decide (x.kind = .channelTask i)
      ∃ t bs, exec (.channelDelivery c ch) s = .next t ∧ s.AtCore t c ∧ (t.core c).seats = k.seats ∧
        (t.core c).chans = k.chans.set i (k.chans[i] ++ bs) ∧ bs.map (fun b => b.granule) = e.granules ∧
        (∀ b ∈ bs, b.grp = m.grp ∧ b.taken = none) ∧
        (∀ b, bs.head? = some b → b.first = some ({ tag with last := m.origin }, m.origin)) ∧
        (∀ b ∈ bs.drop 1, b.first = none) ∧
        (served = true → (t.core c).runq = k.runq.eraseIdx a) ∧
        (served = false → ∃ x, (t.core c).runq = k.runq.set a x ∧ x.kind = .channelTask i ∧ x.granules = [] ∧
          x.msg.cls = m.cls)) ∧
    (∀ cls : BitVec 6, let x := k.classes[cls.toNat]
      let h := engineHome c (k.classField cls 82 14 * 64)
      let u := s.claimHome c h
      let d := k.classField cls 70 12 * 64 - 64
      let w := u.mem.dword h
      let n := 32 * ((m.data.length + 31) / 32)
      let j := (x.extractLsb' 64 3).toNat
      let bytes := natLe 8 (g5Word m.src m.cls m.data.length).toNat ++ natLe 8 0 ++ natLe 16 tag.bits.toNat ++ m.data ++
        List.replicate (n - m.data.length) 0
      ready (fun y => y.kind = .byClass ∧ y.msg.cls = cls) → k.kindOf cls = 2 → k.ringOk x = true →
      (w - u.mem.dword (h + 8)).toNat + 32 + n ≤ d → u.bad = [] → (∀ b ∈ ringCells h d w.toNat bytes, u.holds c b.1 1) →
      ∃ t, exec (.ringDelivery c cls) s = .next t ∧ s.AtCores t [c] ∧ (t.core c).seats = k.seats ∧
        t.mem = (u.mem.writeAll (ringCells h d w.toNat bytes)).writeAll
          (cellsFrom h (natLe 8 ((w.toNat + 32 + n) % 2 ^ 64))) ∧
        (t.core c).runq = k.runq.eraseIdx a ∧
        (t.core c).granules = k.granules.filter (fun g => !e.granules.contains g) ∧
        ∀ y, k.done[j]? = some y → ∃ y', (t.core c).done[j]? = some y' ∧ y'.c = y.c + 1 ∧ y'.i = y.i + 1)

/-! ## The network -/

/-- R27, R212, R213, R396, R422, R424, R426 and R428: a message enters the network at its core's router once the stores
it follows have performed, a sendg by one copy after another; a header whose partition the router does not serve is
dropped, counted and answered by TENANT; else it ages, and goes along the row first (kind 0) or the column first
(kind 1), to another die at once, or into the input of its core. No destination of a tree is lost or doubled. A SYS
reply becomes pending on a seat that still runs the work, or is lost and counted. -/
def Obligations.MessagesTravel : Prop :=
  ∀ (s : State) (c : CoreId) (vn : VNet) (m : Msg) (r : List Msg) (i cycles : Nat) (f : Flight) (p : SysReply),
    let k := s.core c
    let q := k.inj[vnIndex vn]
    let a := k.inj[vnIndex .am]
    let puts (t : State) (vn : VNet) (l : List Msg) (due : Nat) : Prop :=
      t.core c = { k with inj := k.inj.set (vnIndex vn) l, copiesDue := due } ∧ (∀ d, d ≠ c → t.core d = s.core d) ∧
        t.mem = s.mem
    let mayGo : Prop := q = m :: r ∧ m.after.any s.pending = false ∧ if vn = .am then m.rest = [] else k.copiesDue = 0
    let due := if vn = .am then k.copiesDue - 1 else k.copiesDue
    let x := f.at_
    let h := f.msg
    let old := { h with age := min (h.age + toRef cycles (s.region (s.regionOf x)).rate) (2 ^ 24 - 1) }
    let goes (t : State) (l : List Flight) : Prop := exec (.headerForward i cycles) s = .next t ∧
      t.net = s.net.eraseIdx i ++ l ∧ t.mem = s.mem ∧ ∀ y, y ≠ x → t.core y = s.core y
    let crosses (y : CoreId) : Bool := decide (s.regionOf y ≠ s.regionOf x)
    let free : Prop := (s.branches h x ((h.dst :: h.rest).filter fun y => y ≠ x)).all
      ({ s with net := s.net.eraseIdx i } : State).hasRoom = true
    (mayGo → m.pkg = none →
      (s.hasRoom ⟨m, c, 0, false⟩ = true →
        ∃ t, exec (.messageInject c vn) s = .next t ∧ t.net = s.net ++ [⟨m, c, 0, false⟩] ∧ puts t vn r due) ∧
      (s.hasRoom ⟨m, c, 0, false⟩ = false → exec (.messageInject c vn) s = .next s)) ∧
    (∀ pkg, mayGo → m.pkg = some pkg →
      (k.memb.getLsbD m.part.toNat = false → m.kind = .plain →
        ∃ t, exec (.messageInject c vn) s = .next t ∧ t.net = s.net ∧ t.sentOut = s.sentOut ∧ puts t vn r due ∧
          (t.die (dieOf c)).tviol = sat32 ((s.die (dieOf c)).tviol.toNat + 1) ∧ (t.die (dieOf c)).lpart = m.part ∧
          ∀ y, s.sender m = some y → ∃ v, t.replies = s.replies ++ [⟨y, 6, v, m.work, m.grp⟩]) ∧
      (∀ plane, k.memb.getLsbD m.part.toNat = true →
        s.planeFor ((s.cpPart c).index_ c + (s.cpPart c).index_ m.dst) pkg.toNat = some plane →
        ∃ t acct, exec (.messageInject c vn) s = .next t ∧ t.net = s.net ∧ puts t vn r due ∧
          t.sentOut = s.sentOut ++ [(plane, pkg.toNat, .message (s.cpPart c).job (BitVec.ofNat 9 (s.cpPart c).index) m.vn
            (s.routingWord m) m.tag.bits acct m.grp m.data)])) ∧
    (a = m :: r → m.after.any s.pending = false → s.stopped c = false → m.pkg = none →
      s.hasRoom ⟨{ m with rest := [] }, c, 0, false⟩ = true →
      ∃ t, exec (.sendgCopy c) s = .next t ∧ t.net = s.net ++ [⟨{ m with rest := [] }, c, 0, false⟩] ∧
        puts t .am (match m.rest with | [] => r | d :: ds => { m with dst := d, rest := ds } :: r)
          (if m.rest = [] then k.copiesDue - 1 else k.copiesDue)) ∧
    (q = m :: r → m.after.any s.pending = true ∨ (vn = .am ∧ m.rest ≠ []) ∨ (vn ≠ .am ∧ k.copiesDue ≠ 0) →
      exec (.messageInject c vn) s = .next s) ∧
    (s.net[i]? = some f →
      (s.headOfQueue i f = false → exec (.headerForward i cycles) s = .next s) ∧
      (s.headOfQueue i f = true → f.fifo = true →
        let g : Flight := { f with fifo := false }
        (s.hasRoom g = true → exec (.headerForward i cycles) s = .next { s with net := s.net.eraseIdx i ++ [g] }) ∧
        (s.hasRoom g = false → exec (.headerForward i cycles) s = .next s)) ∧
      (s.headOfQueue i f = true → f.fifo = false → (s.core x).memb.getLsbD h.part.toNat = false → h.kind.isStolen = false →
        ∃ t, goes t [] ∧ t.core x = s.core x ∧
        (t.die (dieOf x)).tviol = sat32 ((s.die (dieOf x)).tviol.toNat + 1) ∧ (t.die (dieOf x)).lpart = h.part ∧
        (h.kind = .plain → h.pkg = none → ∀ y, s.sender h = some y →
          ∃ v, t.replies = s.replies ++ [⟨y, 6, v, h.work, h.grp⟩])) ∧
      (s.headOfQueue i f = true → f.fifo = false → (s.core x).memb.getLsbD h.part.toNat = false → h.kind.isStolen = true →
        ∃ t, exec (.headerForward i cycles) s = .next t ∧ t.net = s.net.eraseIdx i ∧ t.mem = s.mem ∧
          t.replies = s.replies ∧ (∀ y, y ≠ h.dst → t.core y = s.core y) ∧
          t.core h.dst = { s.core h.dst with stealOut := false } ∧
          (t.die (dieOf x)).tviol = sat32 ((s.die (dieOf x)).tviol.toNat + 1) ∧ (t.die (dieOf x)).lpart = h.part) ∧
      (s.headOfQueue i f = true → f.fifo = false → (s.core x).memb.getLsbD h.part.toNat = true → free →
        (h.rest = [] → h.dst = x → ∃ t, goes t [] ∧
          (t.core x).inputs = (s.core x).inputs.set f.from_ ((s.core x).inputs[f.from_] ++ [{ old with came := s.ids }]) ∧
          (t.core x).seats = (s.core x).seats ∧ (t.core x).runq = (s.core x).runq) ∧
        (h.rest = [] → dieOf h.dst ≠ dieOf x → ∃ t, goes t [⟨old, h.dst, 0, true⟩]) ∧
        (∀ d r c r' c', h.rest = [] → x = .grid d r c → h.dst = .grid d r' c' → x ≠ h.dst →
          let leaves (y : CoreId) (n : Fin 5) : Flight := ⟨old, y, n, crosses y⟩
          let east := leaves (.grid d r (c + 1)) 4
          let west := leaves (.grid d r (c - 1)) 2
          let south := leaves (.grid d (r + 1) c) 1
          let north := leaves (.grid d (r - 1) c) 3
          (s.routeKind h = 0 →
            ∃ t, goes t [if c < c' then east else if c' < c then west else if r < r' then south else north]) ∧
          (s.routeKind h = 1 →
            ∃ t, goes t [if r < r' then south else if r' < r then north else if c < c' then east else west])) ∧
        (∃ t l, goes t l ∧ ∀ y d r c, y = .grid d r c → y ≠ x →
          (l.flatMap fun g => g.msg.dst :: g.msg.rest).count y = (h.dst :: h.rest).count y ∨ ∀ d r c, x ≠ .grid d r c)) ∧
      (s.headOfQueue i f = true → f.fifo = false → (s.core x).memb.getLsbD h.part.toNat = true → ¬free →
        exec (.headerForward i cycles) s = .next s)) ∧
    (s.replies[i]? = some p →
      let b := s.seat p.seat
      let lost := { b with tr := { b.tr with trlost := BitVec.ofNat 16 (min (b.tr.trlost.toNat + 1) 0xFFFF) } }
      (b.work.isSome = true → b.starts = p.work → b.pend.replies.length < 4 →
        ∃ t, exec (.sysReply i) s = .next t ∧ t.replies = s.replies.eraseIdx i ∧ t.mem = s.mem ∧
          t.seat p.seat = { b with pend := { b.pend with replies := b.pend.replies ++ [(p.cause, p.value)] } }) ∧
      (b.work = none ∨ b.starts ≠ p.work ∨ 4 ≤ b.pend.replies.length → s.trace.on = false →
        ∃ t, exec (.sysReply i) s = .next t ∧ t.replies = s.replies.eraseIdx i ∧ t.mem = s.mem ∧ t.seat p.seat = lost))

/-- R39, R43 and R214: a vector sent to a neighbour lands in the channel of its direction, and a consumed one gives its
credit back; the seat blocked longest on a queue is handed the entry or the slot that has appeared; and a seat asleep
in wfm goes on once a condition holds. -/
def Obligations.Wakes : Prop :=
  ∀ (s : State) (c : CoreId) (dir : Dir) (q : BitVec 3),
    let k := s.core c
    let i := dirIndex dir
    let l : Fin 4 := i + 2
    let n := k.queues[q.toNat].length
    (∀ x r d, k.flying[i] = x :: r → s.neighbour c i = some d →
      ∃ t, exec (.nsendArrival c dir) s = .next t ∧ t.mem = s.mem ∧ s.AtCores t [c, d] ∧
        (d ≠ c → t.core c = { k with flying := k.flying.set i r } ∧
          t.core d = { s.core d with
            nchans := (s.core d).nchans.set l ((s.core d).nchans[l] ++ [(x, none)]) })) ∧
    (∀ d, s.neighbour c i = some d → k.flying[i].length + (s.core d).nchans[l].length < k.sent[i] →
      ∃ t, exec (.creditReturn c dir) s = .next t ∧ s.AtCore t c ∧
        t.core c = { k with sent := k.sent.set i (k.sent[i] - 1) }) ∧
    (∀ j r, k.getters[q.toNat] = j :: r → (k.seats.toList.filter fun t => t.handed = some q.toNat).length < n →
      ∃ t, exec (.queueWake c q) s = .next t ∧ s.AtCore t c ∧ (t.core c).getters[q.toNat] = r ∧
        (t.core c).seats[j].handed = some q.toNat ∧ (t.core c).queues = k.queues ∧
        ∀ l : Fin 4, l ≠ j → (t.core c).seats[l] = k.seats[l]) ∧
    (∀ j r, k.getters[q.toNat] = [] → k.putters[q.toNat] = j :: r →
      n + (k.seats.toList.filter fun t => t.handed = some (8 + q.toNat)).length < 16 →
      ∃ t, exec (.queueWake c q) s = .next t ∧ s.AtCore t c ∧ (t.core c).putters[q.toNat] = r ∧
        (t.core c).seats[j].handed = some (8 + q.toNat) ∧ (t.core c).queues = k.queues ∧
        ∀ l : Fin 4, l ≠ j → (t.core c).seats[l] = k.seats[l]) ∧
    (∀ (x : SeatId) h d a (u : State), (s.seat x).hold = some h → h.asleep = true → s.stopped x.core = false →
      ({ s with cur := x } : State).fetch = (.ok (.instr (.wfm d a)), u) → u.streaming = true →
      (u.g a).toNat < 2 ^ 40 → u.here.wfmHolds (u.g a) h.mark ≠ 0 → u.me.hold = some h → u.cur = x →
      ∃ t, exec (.wfmWake x) s = .next t ∧ (u.setG d ((u.here.wfmHolds (u.g a) h.mark).setWidth 64)).Ran t 4 0 1)

/-! ## Boundary causes and the watchdog -/

/-- R27, R72, R165, R274, R277, R350, R391, R393 and R395: at an instruction boundary outside trap state a seat takes
the first of its pending causes in the order STORE_FAULT, ECC, ENGINE_FAULT, OUTLIER_FULL, SYS reply, WATCHDOG, CHAIN,
and is then rid of it, but for the records. The first five are imprecise. CHAIN disarms its check and leaves a trace
record where the partition traces chains. A handler's send without room for 64 cycles raises SENDFULL, and the last
cycle of the watchdog makes WATCHDOG pending. -/
def Obligations.BoundaryTraps : Prop :=
  ∀ (s : State) (x : SeatId),
    let u : State := { s with cur := x }
    let b := s.seat x
    let p := b.pend
    let recs := (s.core x.core).recordOf x.seat
    let takes (i : Instr) (cause : BitVec 6) (v : Word) (imp : Bool) (after : Seat) : Prop :=
      ∃ t, exec i s = .next t ∧ ∃ t', t' = ({ t with cur := x } : State) ∧ (u.setSeat x after).Trapped t' cause b.pc v imp
    (b.work.isSome = true → b.inTrap = false → s.stopped x.core = false → b.waitsFor = none →
        (∀ vp, b.vprog = some vp → vp.store = false) → (s.core x.core).cancelling = [] →
      (∀ e, recs = some e → e.st.vec = false → takes (.storeFault x) 4 e.st.va true b) ∧
      (∀ e j, recs = some e → e.st.vec = true → e.popped = 0 → j < 8 →
        (∃ i < 8, e.st.bytes[8 * j + i]?.join ≠ none) → (∀ i < 8 * j, e.st.bytes[i]?.join = none) →
        takes (.storeFault x) 4 (e.st.va + BitVec.ofNat 64 (8 * j)) true b) ∧
      (recs = none →
        (∀ a, p.ecc = some a → takes (.eccStoreAtHome x) 12 a true { b with pend := { p with ecc := none } }) ∧
        (p.ecc = none →
          (∀ v, p.engine = some v → takes (.engineFault x) 10 v true { b with pend := { p with engine := none } }) ∧
          (p.engine = none →
            (∀ v, p.outlier = some v → takes (.outlierFull x) 9 v true { b with pend := { p with outlier := none } }) ∧
            (p.outlier = none →
              (∀ cause v r, p.replies = (cause, v) :: r →
                takes (.sysReplyTrap x) cause v true { b with pend := { p with replies := r } }) ∧
              (p.replies = [] →
                (p.watchdog = true → takes (.watchdog x) 15 (b.wdReload.setWidth 64) false
                  { b with pend := { p with watchdog := false } }) ∧
                (p.watchdog = false → p.chain = true →
                  (s.traces x.core 0 = false → takes (.chain x) 8 (b.tag.span.setWidth 64) false
                    { b with pend := { p with chain := false }, armed := false }) ∧
                  (s.traces x.core 0 = true → s.trace.en = true → 2 ≤ s.trace.log2n.toNat → s.trace.log2n.toNat ≤ 10 →
                    s.trace.slot.isSome = true → (s.ports.all fun p => p.2.ring.isEmpty) = true →
                    s.trace.open_.length < 16382 → ∃ t r, exec (.chain x) s = .next t ∧
                      t.trace = { s.trace with open_ := s.trace.open_ ++ [r], events := s.trace.events + 1 } ∧ r.type = 1 ∧
                      r.part = (s.core x.core).pid)))))))) ∧
    (b.inTrap = true → exec (.storeFault x) s = .next s ∧ exec (.chain x) s = .next s) ∧
    (∀ h, b.hold = some h → h.kind = 3 → 64 ≤ h.since → s.stopped x.core = false → u.streaming = false →
      u.roomFor x h.mark = false → b.inTrap = false → takes (.sendfull x) 7 h.tval false b) ∧
    (b.wdCount = 1 → b.work.isSome = true → b.inTrap = false → s.stopped x.core = false →
      ∃ t, exec (.watchdogExpiry x) s = .next t ∧ s.AtSeat t x ∧
        t.seat x = { b with wdCount := 0, pend := { p with watchdog := true } })

/-! ## Stores, packets and pages between seats and homes -/

/-- R197, R198, R318, R350, R354, R355, R387 and R388: the head of a store buffer, its predecessors over, performs at a
home of the own die, enters the link buffer toward another one, is written into the class table, or moves with every
younger store of its seat into the record queue. A packet is delivered once no older one touches its bytes. -/
def Obligations.StoresPerform : Prop :=
  ∀ (s u : State) (c : CoreId) (e : SbEntry) (r : List SbEntry) (h : Nat) (pte : Option TlbEntry),
    let k := s.core c
    let left := u.modCore c fun x => { x with sb := x.sb.drop 1 }
    let v := match pte with | some x => left.countPage c x | none => left
    let ready := k.sb = e :: r ∧ e.after.any s.pending = false ∧ k.benchEnds = false
    let cells := e.bytes.zipIdx.filterMap fun b => b.1.map fun x => (h + b.2, x)
    let unheld : Prop := ∀ x ∈ k.sb, x.why = 0 ∧ x.held = 0
    (ready → unheld → s.drainReach c e = (.home h pte, u) → u.settled pte → u.homeUp h = true →
      u.barred c h = none → u.clashes (dieOf c) (cellSpan h cells).1 (cellSpan h cells).2 = false →
      u.otherHome c h false = false → u.det? c = none → s.trace.en = false → u.trace = s.trace →
      (dieOfHome h = dieOf c → (v.claimHome c h).bad = [] → s.movesLeave cells →
        ∃ t, exec (.storeDrain c) s = .next t ∧ t.mem = (v.claimHome c h).mem.writeAll cells ∧
          (t.core c).sb = (u.core c).sb.drop 1 ∧ (t.core c).seats = (u.core c).seats ∧ t.links = u.links) ∧
      (dieOfHome h ≠ dieOf c → ∃ t p, exec (.storeDrain c) s = .next t ∧ t.mem = (v.claimHome c h).mem ∧
        (t.core c).sb = (u.core c).sb.drop 1 ∧
        t.links.get (dieOf c, dieOfHome h) [] = u.links.get (dieOf c, dieOfHome h) [] ++ [p] ∧
        p.kind = .store cells ∧ p.base = h ∧ p.core = c ∧ p.seat = e.seat ∧ p.seq = e.seq ∧ p.grp = e.grp ∧ p.va = e.va)) ∧
    (∀ o, ready → unheld → s.drainReach c e = (.classes o, u) → ∃ t, exec (.storeDrain c) s = .next t ∧ u.AtCore t c ∧
      (t.core c).sb = (u.core c).sb.drop 1 ∧ (t.core c).seats = (u.core c).seats ∧ t.mem = u.mem) ∧
    (∀ reason, ready → unheld → s.drainReach c e = (.fails reason, u) → e.doomed = false → u.core c = k →
      (k.sb.all fun x => !x.doomed) = true → (r.map fun x => x.id).all (fun i => i ≠ e.id) = true →
      ∃ t recs, exec (.storeDrain c) s = .next t ∧ t.mem = u.mem ∧ (t.core c).seats = k.seats ∧
        (t.core c).sb = k.sb.filter (fun x => x.seat ≠ e.seat) ∧ (t.core c).rq = k.rq ++ recs ∧
        recs.map (fun x => x.st) = k.sb.filter (fun x => x.seat = e.seat) ∧
        recs.map (fun x => x.reason) = reason :: (r.filter fun x => x.seat = e.seat).map fun _ => 0) ∧
    (ready → unheld → s.drainReach c e = (.fails 0, u) → e.doomed = true → u.core c = k →
      ∃ t, exec (.storeDrain c) s = .next t ∧ t.mem = u.mem ∧ t.core c = { k with sb := r }) ∧
    (k.sb = [] ∨ (k.sb = e :: r ∧ e.after.any s.pending = true) → exec (.storeDrain c) s = .next s)

/-- R47, R198, R346, R350, R354 and R355: what a delivered packet does at its home, and what its answer does at the seat: a
load or an atomic writes its registers, an uncorrectable error traps with the address of the instruction and of the
data, and an instruction that waits at issue, as a join or deq does, has its answer ready. A deq that waits takes an entry once one is there. -/
def Obligations.RequestsReturn : Prop :=
  ∀ (s : State) (a b i : Nat) (p : Packet) (x : SeatId) (o : Outst) (r : Reply),
    let l := s.links.get (a, b) []
    let u := ({ s with links := s.links.set (a, b) (l.eraseIdx i) }.touch p.base p.size).claimHome p.core p.base
    let ready := l[i]? = some p ∧ s.det? p.core = none ∧ s.homeUp p.base = true ∧ s.meets p.base p.size = false ∧ u.bad = [] ∧ u.weak = [] ∧
      ((l.take i).any fun q => (q.touches ++ s.ringTouches q).any (p.touches ++ s.ringTouches p).contains) = false ∧
      (p.writes = true → p.pte.any s.moving = false) ∧ s.queueWaits p = (false, s)
    let left (t : State) : Prop := exec (.linkDelivery a b i) s = .next t ∧ t.links = s.links.set (a, b) (l.eraseIdx i)
    let answers (t : State) (y : SeatId) (q : Reply) : Prop :=
      (t.seat y).outs = (u.seat y).outs.map fun z => if z.id = p.id then { z with reply := some q } else z
    let w := s.seat x
    let gone := w.outs.filter fun z => z.id ≠ o.id
    (ready → s.trace.en = false →
      (∀ bs, p.kind = .store bs → s.movesLeave bs → ∃ t, left t ∧ t.mem = u.mem.writeAll bs ∧ t.cores = u.cores) ∧
      (∀ bs, p.kind = .copy bs → s.bad = [] → ∃ t, left t ∧ t.mem = s.mem.writeAll bs ∧ t.cores = s.cores) ∧
      (∀ fw addrs, p.kind = .fetch fw addrs → s.bad = [] → s.weak = [] → ∃ t, left t ∧ t.mem = s.mem ∧
        (∀ d, d ≠ p.core → t.core d = s.core d) ∧
        ((t.core p.core).cp.q.run.map fun x => x.reads) = (s.core p.core).cp.q.run.map fun x => x.reads.map fun y =>
          if y.1 = p.id then (y.1, y.2.1, some (overlay fw (s.mem.bytes p.base p.size))) else y) ∧
      (∀ e who bs, p.kind = .update e who bs → ∃ t q, left t ∧ t.mem = s.mem ∧ q ∈ t.seqrs ∧ q.is e = true ∧
        ∃ z ∈ q.arriving, z.id = p.id ∧ z.seat = who ∧ z.bytes = bs) ∧
      (∀ y addrs, p.kind = .request .load y addrs → ∃ t, left t ∧ t.mem = u.mem ∧
        answers t y ⟨0, 0, Tag.zero, u.mem.bytes p.base p.size, false⟩) ∧
      (∀ y addrs n val e, p.kind = .request (.amo .add n val e) y addrs → p.pte = none → 1 ≤ n → n ≤ 8 →
        let old := leNat (u.mem.bytes p.base n)
        ∃ t, left t ∧ t.mem = u.mem.writeAll (cellsFrom p.base (natLe n ((old + val.toNat) % 256 ^ n))) ∧
          answers t y ⟨loadValue n true (natLe n old), 0, Tag.zero, [], false⟩)) ∧
    (w.outs[i]? = some o → o.reply = none → exec (.loadReturn x i) s = .next s) ∧
    (w.outs[i]? = some o → o.reply = some r → o.whole = true → ∃ t, exec (.loadReturn x i) s = .next t ∧ s.AtSeat t x ∧
      t.seat x = { w with outs := w.outs.map fun y => if y.id = o.id then { y with back := true } else y }) ∧
    (w.outs[i]? = some o → o.reply = some r → o.whole = false → r.bad = false →
      (∀ d n, o.dest = .load d n false [] → 1 ≤ n → n ≤ 8 → ∃ t, exec (.loadReturn x i) s = .next t ∧ s.AtSeat t x ∧
        t.seat x = { w with outs := gone }.wr d (BitVec.ofNat 64 (leNat ((List.range n).map fun j => r.bytes.getD j 0)))) ∧
      (∀ d n, o.dest = .amo d n → ∃ t, exec (.loadReturn x i) s = .next t ∧ s.AtSeat t x ∧
        t.seat x = { w with outs := gone }.wr d r.r0) ∧
      (∀ d e, o.dest = .pair d e .claim → ∃ t, exec (.loadReturn x i) s = .next t ∧ s.AtSeat t x ∧
        t.seat x = ({ w with outs := gone }.wr d r.r0).wr e r.r1)) ∧
    (w.outs[i]? = some o → o.reply = some r → o.whole = false → r.bad = true → w.inTrap = false → (∃ d n, o.dest = .amo d n) →
      ∃ t, exec (.loadReturn x i) s = .next t ∧ t.mem = s.mem ∧ (t.seat x).inTrap = true ∧ (t.seat x).tr.cause = 12 ∧
        (t.seat x).tr.epc = o.pc ∧ (t.seat x).tr.tval = o.va ∧ (t.seat x).tr.imp = false) ∧
    (∀ z q, s.deqs[i]? = some z → ((s.deqs.take i).any fun y => decide (y.home = z.home)) = false → z.seat = x →
      w.outs.find? (fun y => y.id = z.id) = some o → s.det? x.core = none →
      s.perform x .deq o.va z.home 32 ⟨0, 0, 0⟩ z.pte = (r, q) →
      (r.bad = true ∨ r.r1 ≠ 0 → ∃ t, exec (.deqServe i) s = .next t ∧ t.mem = q.mem ∧
        t.deqs = q.deqs.filter (fun y => y.id ≠ z.id) ∧
        (t.seat x).outs = (q.seat x).outs.map fun y => if y.id = o.id then { y with reply := some r, back := true } else y) ∧
      (r.bad = false → r.r1 = 0 → exec (.deqServe i) s = .next s))

/-- R344, R346, R348 to R350, R355, R382 and R413: a walk that succeeds fills the TLBs of the cores that wait; updates
of a replicated page join its list and are applied by each replica in order; a page whose remote count reaches THRESH
takes a frame of the pool of that die and moves there, with its leaf changed and its old frame freed; a frame claimed
for a context leaves its bytes in the image of the one that owned it; and a scrub corrects what it can. -/
def Obligations.PagesMove : Prop :=
  ∀ (s : State) (die i : Nat),
    let d := s.die die
    (∀ w rest c n pte bits, d.walks = w :: rest → w.waits = [(c, n)] → dieOf c = die → s.weak = [] →
      s.walk w.root w.va = .ok (pte, bits) →
      let e : TlbEntry := ⟨s.ctxOf c, w.root, BitVec.ofNat 64 (w.va.toNat / 2 ^ bits * 2 ^ bits), bits, pte⟩
      ∃ t, exec (.pageWalk die) s = .next t ∧ t.mem = s.mem ∧ (t.die die).walks = rest ∧ e ∈ (t.core c).utlb ∧
        e ∈ (t.cluster (clusterOf c)).tlb ∧ e ∈ (t.die die).tlb ∧ (t.core c).seats = (s.core c).seats) ∧
    (∀ w rest f, d.walks = w :: rest → s.weak = [] → s.walk w.root w.va = .error f →
      ∃ t, exec (.pageWalk die) s = .next t ∧ t.base = s.base ∧ t.cores = s.cores ∧ (t.die die).walks = rest ∧
        (t.die die).tlb = d.tlb ∧ (t.die die).walked = d.walked ++ w.waits.map fun c => (w.root, w.va, c)) ∧
    (∀ q a r, s.seqrs[i]? = some q → q.arriving = a :: r → ∃ t, exec (.sequenceUpdate i) s = .next t ∧ t.mem = s.mem ∧
      t.cores = s.cores ∧ t.seqrs = s.seqrs.set i { q with arriving := r, list := q.list ++ [a] }) ∧
    (∀ q a, s.seqrs[i]? = some q → die ∈ q.rset → q.list[Tab.get q.applied die q.list.length]? = some a → s.bad = [] →
      ∃ t q', exec (.applyUpdate i die) s = .next t ∧
        t.mem = s.mem.writeAll (a.bytes.map fun b => (die * 2 ^ 39 + b.1 % 2 ^ 39, b.2)) ∧ t.cores = s.cores ∧
        t.seqrs[i]? = some q' ∧ q'.list = q.list ∧
        Tab.get q'.applied die 0 = Tab.get q.applied die q.list.length + 1) ∧
    (∀ page root from_ n pte bits frame v, d.counts[i]? = some ((page, root, from_), n) → d.migEn = true → from_ ≠ die →
      d.thresh.toNat ≤ n → Tab.get d.counts (page, root, die) 0 < n → s.rootStops root = false →
      (d.moves.any fun m => decide (m.root = root) && decide (m.page = page)) = false → d.windowNo = s.windowNow die →
      s.walk root page = .ok (pte, bits) → bits ≤ 21 → pte.getLsbD 7 = false →
      (⟨none, root, page, bits, pte⟩ : TlbEntry).repl = false → leafPa pte / 2 ^ 39 = die →
      s.takeFrame from_ bits = (some frame, v) →
      ∃ t m, exec (.migrationStart die i) s = .next t ∧ t.mem = v.mem ∧ t.cores = s.cores ∧
        (t.die die).moves = d.moves ++ [m] ∧ m.root = root ∧ m.page = page ∧ m.bits = bits ∧ m.pte = pte ∧
        m.frame = BitVec.ofNat 64 frame ∧ ∀ x, Tab.get (t.die die).counts (page, root, x) 0 = 0) ∧
    (∀ m, d.moves[i]? = some m → s.mem.dword m.pteAt ≠ m.pte ∨ s.badIn (leafPa m.pte) (2 ^ m.bits) = true →
      ∃ t, exec (.migrationSwitch die i) s = .next t ∧ (t.die die).moves = d.moves.eraseIdx i ∧ t.cores = s.cores ∧
        t.mem = (s.giveFrame (m.frame.toNat / 2 ^ 39) m.bits m.frame.toNat).mem) ∧
    (∀ m, d.moves[i]? = some m → s.mem.dword m.pteAt = m.pte → s.badIn (leafPa m.pte) (2 ^ m.bits) = false →
      s.linked m (leafPa m.pte) (2 ^ m.bits) = false →
      let old := leafPa m.pte
      let new := m.frame.toNat
      let copied := (s.mem.clear new (2 ^ m.bits)).writeAll ((s.mem.extract old (2 ^ m.bits)).map fun e => (new + e.1, e.2))
      let switched := copied.writeAll (cellsFrom m.pteAt (natLe 8 (withFrame m.pte new).toNat))
      ∃ t, exec (.migrationSwitch die i) s = .next t ∧ (t.die die).moves = d.moves.eraseIdx i ∧
        t.mem = (({ s with mem := switched } : State).giveFrame die m.bits old).mem ∧
        (∀ c, ∀ e ∈ (t.core c).utlb, dieOf c < 4 → s.cores.has c = true → e.maps m.page = false) ∧
        ∀ c, (t.core c).seats = (s.core c).seats) ∧
    (∃ t, exec (.countingWindow die) s = .next t ∧ t.mem = s.mem ∧ t.cores = s.cores ∧
      (t.die die).counts = if d.windowNo = s.windowNow die then d.counts else []) ∧
    (∀ f ctx p, s.runs ctx = some p → p.holds f = true → p.quiet = false →
      (s.owners.has f = true → s.owners.get f 0 = ctx → ∃ t, exec (.frameClaim f ctx) s = .next t ∧ t = s) ∧
      (s.owners.has f = false → s.image? ctx = none → s.memOk → ∃ t, exec (.frameClaim f ctx) s = .next t ∧
        t.owners.get f 0 = ctx ∧ t.owners.has f = true ∧ t.cores = s.cores ∧
        ∀ a, t.mem.read a = if (frameSpan f).1 ≤ a ∧ a < (frameSpan f).1 + (frameSpan f).2 then 0 else s.mem.read a)) ∧
    (∀ g, granuleOf g ∉ s.bad → granuleOf g ∈ s.weak → ∃ t, exec (.scrub g) s = .next t ∧ t.mem = s.mem ∧
      t.bad = s.bad ∧ granuleOf g ∉ t.weak ∧ ∀ c, (t.core c).base = (s.core c).base) ∧
    (∀ g, granuleOf g ∉ s.bad → granuleOf g ∉ s.weak → exec (.scrub g) s = .next s)

/-! ## The host's side -/

/-- R80 to R82, R85, R86, R88, R89, R91 and R458: the drawer takes the command at its head and completes it with the
status that the spec gives: 5 for an unknown code, a reserved field that is not zero or a field outside its limits, 6
for a context that does not exist, 1 to 3 for a record that cannot be loaded. A LOAD sets up its partition and
context and completes once every core has accepted its tasks, a LAUNCH sends an active message with the handler's
address and the payload, with the span of R458 in deterministic mode, a CANCEL leaves nothing of its group queued, an
UNLOAD ends the context once its stores have performed, and QUERY tells where the context stands. What completes while
priority 3 is paused on the device's port waits, and an entry in a bad granule is passed over (the model's choices of log
entries 91 and 92). -/
def Obligations.HostCommands : Prop :=
  ∀ (s : State) (vd : Nat) (pl : Place) (c : List Byte) (n : Nat) (x : Ctx),
    let v := s.vds.get vd VDev.reset
    let field (i k : Nat) : Nat := leField c i k
    let code := field 0 1
    let takes (k : Nat) : Prop := s.command vd = some c ∧ s.pkg.asleep = false ∧ s.weak = [] ∧ s.badIn v.commandAt 64 = false ∧
      code = k
    let ok (k : Nat) : Prop := takes k ∧ commandBad c = false
    let ends (i : Instr) (st : Nat) (info : Word) (more : State → Prop) : Prop := ∃ t, exec i s = .next t ∧ more t ∧
      let e := if field 1 1 % 2 = 1 then [(BitVec.ofNat 32 (field 4 4), BitVec.ofNat 32 st, info)] else []
      let v' := t.vds.get vd VDev.reset
      v'.head = v.head + 1 ∧
        ((vd % 2, 3) ∉ s.pkg.paused → v.unsent = [] → v'.completions = v.completions ++ e ∧ v'.unsent = []) ∧
        ((vd % 2, 3) ∈ s.pkg.paused ∨ v.unsent ≠ [] → v'.completions = v.completions ∧ v'.unsent = v.unsent ++ e.map .completion)
    let alone (t : State) : Prop := t.mem = s.mem ∧ t.cores = s.cores ∧ t.parts = s.parts ∧ t.ctxs = s.ctxs ∧ t.net = s.net
    let a := BitVec.ofNat 64 (field 8 8)
    let g : BitVec 32 := BitVec.ofNat 32 (field 36 4)
    ((∀ k, takes k → k = 0 ∨ 5 < k → ends (.query vd) 5 0 alone) ∧
      (commandBad c = true → (takes 1 → ends (.load vd pl) 5 0 alone) ∧ (takes 2 → ends (.launch vd) 5 0 alone) ∧
        (takes 3 → ends (.cancel vd) 5 0 alone) ∧ (takes 4 → ends (.unload vd) 5 0 alone) ∧
        (takes 5 → ends (.query vd) 5 0 alone))) ∧
    (ok 1 → v.load = none →
      (a.toNat % 64 ≠ 0 → ends (.load vd pl) 5 0 alone) ∧
      (a.toNat % 64 = 0 → s.drawerRead v a 128 = none → ends (.load vd pl) 3 0 alone) ∧
      (∀ b, a.toNat % 64 = 0 → s.drawerRead v a 128 = some b → recHeadOk b = false → ends (.load vd pl) 1 0 alone) ∧
      (∀ u, s.loadAt vd v pl a = some (2, u) → ends (.load vd pl) 2 0 alone) ∧
      (s.loadAt vd v pl a = none → exec (.load vd pl) s = .next s) ∧
      (∀ b u, s.drawerRead v a 128 = some b → s.loadAt vd v pl a = some (0, u) →
        let w : State := { u with vds := u.vds.set vd { v with load := some pl.slot } }
        let made (t : State) : Prop :=
          t.ctxs.get pl.slot Ctx.reset = { Ctx.reset with vd := vd, part := pl.part.toNat, state := .running } ∧ t.net = s.net ∧
            ∃ p, t.part? pl.part.toNat = some p ∧ p.ctx = some pl.slot ∧ p.levels = recLevels b ∧
              p.det = decide (2 ≤ leField b 7 1) ∧ p.job = v.job
        (w.loading vd = false → ends (.load vd pl) 0 (BitVec.ofNat 64 pl.slot) made) ∧
        (w.loading vd = true → made w ∧ exec (.load vd pl) s = .next w))) ∧
    (∀ slot, ok 1 → v.load = some slot →
      (s.loading vd = false → ends (.load vd pl) 0 (BitVec.ofNat 64 slot) alone) ∧
      (s.loading vd = true → exec (.load vd pl) s = .next s)) ∧
    (s.namedCtx vd c = none → (ok 2 → field 36 4 ≤ 24 → field 32 1 ≤ 63 → ends (.launch vd) 6 0 alone) ∧
      (ok 3 → ends (.cancel vd) 6 0 alone) ∧ (ok 4 → ends (.unload vd) 6 0 alone) ∧ (ok 5 → ends (.query vd) 6 0 alone)) ∧
    (s.namedCtx vd c = some (n, x) →
      (ok 2 → 24 < field 36 4 ∨ 63 < field 32 1 → ends (.launch vd) 5 0 alone) ∧
      (ok 2 → field 36 4 ≤ 24 → field 32 1 ≤ 63 → s.resident n x = none → exec (.launch vd) s = .next s) ∧
      (∀ p, ok 2 → field 36 4 ≤ 24 → field 32 1 ≤ 63 → s.resident n x = some p →
        let h := recAddr c 24
        let cls : BitVec 6 := BitVec.ofNat 6 (field 32 1)
        (s.ownerOf v p (recAddr c 16) = none → ends (.launch vd) 3 0 alone) ∧
        (∀ o, s.ownerOf v p (recAddr c 16) = some o →
          let k := s.core o
          (h < k.cwlo ∨ k.cwhi ≤ h ∨ h.getLsbD 0 = true → ends (.launch vd) 3 0 alone) ∧
          (k.cwlo ≤ h → h < k.cwhi → h.getLsbD 0 = false →
            (k.kindOf cls ≠ 3 ∨ k.classBit cls 55 = false → ends (.launch vd) 4 0 alone) ∧
            (k.kindOf cls = 3 → k.classBit cls 55 = true →
              (p.det = true → s.openSpans x.part p ≠ [] → exec (.launch vd) s = .next s) ∧
              (p.det = false ∨ s.openSpans x.part p = [] → ends (.launch vd) 0 0 fun t =>
                t.cores = s.cores ∧ t.mem = s.mem ∧ ∃ m : Msg, t.net = s.net ++ [⟨m, o, 0, false⟩] ∧ m.dst = o ∧
                  m.cls = cls ∧ m.data = natLe 8 h.toNat ++ (c.drop 40).take (field 36 4) ∧ m.kind = .launch ∧
                  m.tag = { Tag.zero with span := if p.det then sat48 (s.horizonOf x.part p + 1) else 0 } ∧
                  m.part.toNat = x.part % 64))))) ∧
      (∀ p, ok 3 → s.resident n x = some p → p.dies.Nodup → ends (.cancel vd) 0 0 fun t =>
        (∀ f ∈ t.net, ¬(f.msg.part.toNat = x.part ∧ f.msg.grp = g)) ∧
        ∀ y ∈ p.cores, ∀ e ∈ (t.core y).runq, e.msg.grp ≠ g) ∧
      (ok 3 → s.resident n x = none → exec (.cancel vd) s = .next s) ∧
      (ok 4 → (∀ p, s.part? x.part = some p → p.ctx = some n →
          (s.cancelAll x.part p fun _ => true).storesOver p = true) →
        ends (.unload vd) 0 0 fun t => t.ctxs.has n = false ∧ ∀ o ∈ t.owners, o.2 ≠ n) ∧
      (∀ p, ok 4 → s.part? x.part = some p → p.ctx = some n →
        let u := s.cancelAll x.part p fun _ => true
        u.storesOver p = false → exec (.unload vd) s = .next u) ∧
      (ok 5 → x.part < 64 → ends (.query vd) 0 (s.queryInfo n x) alone) ∧
      ((s.queryInfo n x).toNat / 2 ^ 8 % 16 =
        (if x.state = .moved then 3 else if (s.resident n x).isSome = true then 1 else 2) ∨ 64 ≤ x.part)) ∧
    (s.command vd = some c → s.pkg.asleep = false → s.weak = [] → s.badIn v.commandAt 64 = true →
      exec (.load vd pl) s = .next s ∧ exec (.launch vd) s = .next s ∧ exec (.cancel vd) s = .next s ∧
      exec (.unload vd) s = .next s ∧ ∃ t, exec (.query vd) s = .next t ∧ alone t ∧
        (t.vds.get vd VDev.reset).head = v.head + 1 ∧ (t.vds.get vd VDev.reset).errors = v.errors + 1 ∧
        (t.vds.get vd VDev.reset).completions = v.completions)

/-- R78 to R80, R366, R376, R378, R443 and R444: on a queue pair that is not in error, a new tail of a ring that would pass its head by more than the ring
holds is counted and ignored; a SEND writes whole entries at the tail, and a rejected one is counted and answered
with a remote-invalid-request NAK (one of more than 64 entries too: log entry 81); RDMA writes and reads reach the memory
that the virtual device's windows and tables permit, wait where the memory that they name waits, and a wrong key puts
that queue pair in error. What arrives while the package sleeps is kept. The management channel sets up rings, queue
pairs, jobs and tolerances. Congestion is notified, and priorities 3 and 7 pause; what the devices of the port held back
goes when priority 3 resumes. -/
def Obligations.HostLinks : Prop :=
  ∀ (s : State) (qp port : Nat) (imm key k : BitVec 32) (va : Word) (data : List Byte) (n : Nat) (prio : BitVec 3),
    let vd := qp % 16
    let v := s.vds.get vd VDev.reset
    let live := s.vds.has vd = true ∧ v.pair (qp / 16) = some (k, false) ∧ s.pkg.asleep = false ∧ s.pkg.arrivals = [] ∧
      (vd % 2, 3) ∉ s.pkg.paused ∧ v.unsent = []
    let device (i : Instr) (v' : VDev) (mem : Memory) : Prop :=
      ∃ t, exec i s = .next t ∧ t.vds.get vd VDev.reset = v' ∧ t.mem = mem ∧ t.cores = s.cores ∧ t.parts = s.parts
    let waiting (a : Arriving) : State := { s with pkg := { s.pkg with arrivals := s.pkg.arrivals ++ [a] } }
    let awake (ps : List ((Nat × Nat) × Nat × Option TlbEntry)) : Prop :=
      ∀ p ∈ ps, s.homeUp p.2.1 = true ∧ s.claimFor vd p.2.1 = s
    let still (ps : List ((Nat × Nat) × Nat × Option TlbEntry)) : Prop :=
      ∀ p ∈ ps, ∀ e, p.2.2 = some e → e.repl = false ∧ s.moving e = false
    let denied : VDev :=
      if qp / 16 = 0 then { v with qpError := true, naks := v.naks ++ [.accessError] }
      else { v with pairs := v.pairs.set (qp / 16) (k, true), naks := v.naks ++ [.accessError] }
    (live → (imm - v.head).toNat ≤ 2 ^ v.log2n → device (.rdmaWriteWithImmediate qp imm) { v with tail := imm } s.mem) ∧
    (live → 2 ^ v.log2n < (imm - v.head).toNat →
      device (.rdmaWriteWithImmediate qp imm) { v with errors := v.errors + 1 } s.mem) ∧
    (live → (data.length % 64 ≠ 0 ∨ data = [] ∨ 4096 < data.length ∨
        2 ^ v.log2n < (v.tail - v.head).toNat + data.length / 64) →
      device (.rdmaSend qp data) { v with errors := v.errors + 1, naks := v.naks ++ [.invalidRequest] } s.mem) ∧
    (live → data.length = 64 → (v.tail - v.head).toNat + 1 ≤ 2 ^ v.log2n → s.bad = [] →
      device (.rdmaSend qp data) { v with tail := v.tail + 1 }
        (s.mem.writeAll (cellsFrom (v.ring + 64 * (v.tail.toNat % 2 ^ v.log2n)) data))) ∧
    (∀ ps, live → s.bad = [] → key = k → s.hostWaits vd va = false →
      (s.hostPieces vd v va data.length .store = some ps → awake ps → still ps → device (.rdmaWrite qp key va data) v
        (ps.foldl (fun m p => m.writeAll (cellsFrom p.2.1 ((data.drop (p.1.1 - va.toNat)).take p.1.2))) s.mem)) ∧
      (s.hostPieces vd v va n .load = some ps → awake ps → device (.rdmaRead qp key va n)
        { v with responses := v.responses ++ [ps.flatMap fun p => s.mem.bytes p.2.1 p.1.2] } s.mem) ∧
      (s.hostPieces vd v va data.length .store = none → device (.rdmaWrite qp key va data) denied s.mem) ∧
      (s.hostPieces vd v va n .load = none → device (.rdmaRead qp key va n) denied s.mem)) ∧
    (live → key = k → s.hostWaits vd va = true →
      (v.covers va data.length = true → exec (.rdmaWrite qp key va data) s = .next (waiting (.write qp key va data))) ∧
      (v.covers va n = true → exec (.rdmaRead qp key va n) s = .next (waiting (.read qp key va n)))) ∧
    (live → key ≠ k ∨ v.covers va data.length = false → device (.rdmaWrite qp key va data) denied s.mem) ∧
    (live → key ≠ k ∨ v.covers va n = false → device (.rdmaRead qp key va n) denied s.mem) ∧
    (s.vds.has vd = true → v.pair (qp / 16) = some (k, true) ∨ v.pair (qp / 16) = none → s.pkg.asleep = false →
      s.pkg.arrivals = [] → device (.rdmaWriteWithImmediate qp imm) v s.mem ∧ device (.rdmaSend qp data) v s.mem ∧
        device (.rdmaWrite qp key va data) v s.mem ∧ device (.rdmaRead qp key va n) v s.mem) ∧
    (s.pkg.asleep = true → exec (.rdmaWriteWithImmediate qp imm) s = .next (waiting (.notify qp imm)) ∧
      exec (.rdmaSend qp data) s = .next (waiting (.send qp data)) ∧
      exec (.rdmaWrite qp key va data) s = .next (waiting (.write qp key va data)) ∧
      exec (.rdmaRead qp key va n) s = .next (waiting (.read qp key va n))) ∧
    (port < 2 → s.pkg.bootFail = false → port ∉ s.pkg.ethDown →
      (∃ t, exec (.congestionNotification port true) s = .next t ∧ t.mem = s.mem ∧ t.cores = s.cores ∧
        t.pkg = { s.pkg with cnps := s.pkg.cnps.set port (s.pkg.cnps.get port 0 + 1) }) ∧
      (∃ t r, exec (.congestionNotification port false) s = .next t ∧ t.mem = s.mem ∧ t.cores = s.cores ∧
        t.pkg = { s.pkg with sendRate := s.pkg.sendRate.set port r }) ∧
      ∀ pause, ∃ t, exec (.priorityFlowControl port prio pause) s = .next t ∧ t.mem = s.mem ∧ t.cores = s.cores ∧
        (prio ≠ 3 → prio ≠ 7 → t = s) ∧ (prio = 3 ∨ prio = 7 → ((port, prio) ∈ t.pkg.paused ↔ pause = true)) ∧
        (pause = true ∨ prio ≠ 3 → t.vds = s.vds) ∧
        (pause = false → prio = 3 → port = vd % 2 → s.vds.has vd = true →
          t.vds.get vd VDev.reset = v.unsent.foldl VDev.sent { v with unsent := [] })) ∧
    (2 ≤ port ∨ s.pkg.bootFail = true ∨ port ∈ s.pkg.ethDown → ∀ b, exec (.congestionNotification port b) s = .next s ∧
      exec (.priorityFlowControl port prio b) s = .next s) ∧
    (s.pkg.bootFail = false →
      (∀ ring log2n root compl ws, 6 ≤ log2n → log2n ≤ 16 → ring % 4096 = 0 →
        device (.managementFrame (.device vd ring log2n root compl key ws))
          { v with ring := ring, log2n := log2n, root := root, compl := compl, key := key, windows := ws, head := 0
                   tail := 0, failed := false, qpError := false, load := none } s.mem) ∧
      (s.vds.has vd = true → 16 ≤ qp →
        device (.managementFrame (.queuePair qp key)) { v with pairs := v.pairs.set (qp / 16) (key, false) } s.mem) ∧
      (∀ job index size, index < size → size ≤ 288 → device (.managementFrame (.job vd job index size))
        { v with job := job, index := index, domain := size } s.mem) ∧
      (∀ x, device (.managementFrame (.tolerance vd x)) { v with tol := x } s.mem ∧
        ∃ t, exec (.managementFrame (.tolerance vd x)) s = .next t ∧
          ∀ id p c, s.part? id = some p → p.ctx = some c → (s.ctxs.get c Ctx.reset).vd = vd → t.pkg.lattol.get id 0 = x)) ∧
    (s.pkg.bootFail = false → ∃ t, exec (.managementFrame .replan) s = .next t ∧
      t.pkg = { s.pkg with replanAsked := true } ∧ t.cores = s.cores) ∧
    (s.vds.has vd = true → ∃ t, exec (.drawerFailure vd) s = .next t ∧ t.mem = s.mem ∧
      t.vds.get vd VDev.reset = { v with failed := true, load := none } ∧ t.core (.skoum (vd + 1)) = Core.skoumReset ∧
      ∀ c, c ≠ .skoum (vd + 1) → t.core c = s.core c)

/-- R68, R71, R93 to R95, R402 to R404, R412, R419 and R430: at the end of a slice the arbiter charges the running
queue what it consumed, gives a queue without work nothing and one with work a quantum up to two, and stops a
partition to switch it to the selected queue; an idle partition wakes once a queue of it has work. A stop is
quiescent once everything has drained, what the cores refused being its arrival list in order of arrival, and resumes
with the gap counted in every seat that holds work. Re-partitioning stops a context, saves it and brings it up
elsewhere as soon as its place is free. The stop register of an id without a partition keeps STOP. A failed router ends the contexts whose partition holds it or has a route
through it. -/
def Obligations.PartitionEvents : Prop :=
  ∀ (s : State) (id q : Nat) (ref : Word) (p : Part) (rest : List Nat),
    let quantum (x : Nat) : Int := (s.arb x).2.1.toNat * 4096
    let due := s.pkg.slice.toNat ≤ ((s.region 400).ref - p.sliceRef).toNat ∧ ref = p.sliceRef + BitVec.ofNat 64 s.pkg.slice.toNat
    let filled := min ((s.arb q).1.toInt + quantum q) (2 * quantum q)
    let waits (i : Image) : Prop := s.image? q = some i ∧ i.place.sameShape p = true ∧ (s.ctxs.get q Ctx.reset).state = .waiting
    let dry := (s.ports.all fun p => p.2.ring.isEmpty) = true
    (s.part? id = some p →
      (¬due → exec (.sliceBoundary id ref) s = .next s) ∧
      (due → ∀ r, p.ctx = some r → -(2 ^ 31) ≤ (s.arb r).1.toInt - p.consumed → p.next.isSome = true →
        ∃ t, exec (.sliceBoundary id ref) s = .next t ∧ t.mem = s.mem ∧ t.cores = s.cores ∧
          t.part? id = some { p with consumed := 0, sliceRef := ref } ∧
          t.arb r = (BitVec.ofInt 32 ((s.arb r).1.toInt - p.consumed), (s.arb r).2)) ∧
      (due → p.next = none → (∀ y ∈ s.arbOrder id p.ctx, s.arbPending y = false) →
        ∃ t, exec (.sliceBoundary id ref) s = .next t ∧ t.mem = s.mem ∧ t.cores = s.cores ∧
          t.part? id = some { p with consumed := 0, sliceRef := ref, idle := true } ∧
          ∀ y ∈ s.arbOrder id p.ctx, (t.arb y).1 = 0) ∧
      (p.next = none → s.arbOrder id p.ctx = q :: rest → s.arbPending q = true → 0 < filled →
        (∀ r, p.ctx = some r → p.stop = false → p.quiet = false → q ≠ r →
          (due → -(2 ^ 31) ≤ (s.arb r).1.toInt - p.consumed → ∃ t p', exec (.sliceBoundary id ref) s = .next t ∧
            t.part? id = some p' ∧ p'.stop = true ∧ p'.next = some q ∧ p'.ctx = some r ∧
            (t.arb q).1 = BitVec.ofInt 32 filled ∧ (t.arb r).1 = BitVec.ofInt 32 ((s.arb r).1.toInt - p.consumed)) ∧
          (p.idle = true → ∃ t p', exec (.arbiterWake id) s = .next t ∧ t.part? id = some p' ∧ p'.stop = true ∧
            p'.next = some q ∧ (t.arb q).1 = BitVec.ofInt 32 filled ∧ (t.arb r).1 = (s.arb r).1)) ∧
        (∀ r i, p.ctx = some r → p.quiet = true → q ≠ r → s.ctxs.has r = true → waits i →
          let switched (t : State) := ∃ p', t.part? id = some p' ∧ p'.ctx = some q ∧ p'.stop = false ∧
            p'.next = none ∧ (t.ctxs.get r Ctx.reset).state = .waiting ∧ (t.image? r).isSome = true
          (due → p.idle = false → ∃ t, exec (.sliceBoundary id ref) s = .next t ∧ switched t) ∧
          (p.idle = true → ∃ t, exec (.arbiterWake id) s = .next t ∧ switched t)) ∧
        (∀ i, p.ctx = none → waits i → ∃ t p', exec (.arbiterWake id) s = .next t ∧ t.part? id = some p' ∧
          p'.ctx = some q ∧ p'.stop = false ∧ (t.ctxs.get q Ctx.reset).state = .running)) ∧
      (p.idle = false ∧ p.ctx.isSome = true ∨ p.next.isSome = true ∨ (∀ y ∈ s.arbOrder id p.ctx, s.arbPending y = false) →
        exec (.arbiterWake id) s = .next s) ∧
      (p.stop = false → ∃ t p', exec (.pstopStop id) s = .next t ∧ t.part? id = some p' ∧ p'.stop = true ∧
        p'.quiet = false ∧ p'.ctx = p.ctx ∧ p'.arrivals = p.arrivals ∧
        ((∀ d, (s.die d).moves = []) → t.mem = s.mem) ∧
        (∀ c ∈ p.cores, p'.stopRefs.get (s.regionOf c) 0 = (s.region (s.regionOf c)).ref) ∧
        ∀ c ∈ p.cores, ∀ e, ∀ x ∈ ((t.core c).q e).queue, x.gap = true) ∧
      (p.stop = true → exec (.pstopStop id) s = .next s) ∧
      (p.stop = true → p.quiet = false → p.next = none → s.drained id p = true →
        ∃ t p' left, exec (.quiescence id) s = .next t ∧ t.part? id = some p' ∧ p'.quiet = true ∧ p'.stop = true ∧
          p'.arrivals = p.arrivals ++ left ∧ left.Pairwise (fun a b => a.came ≤ b.came) ∧ (dry → t.mem = s.mem) ∧
          (left.map fun m => (m.dst, m.cls, m.data)).Perm
            ((p.cores.flatMap fun c => (s.core c).inputs.toList.flatten).map fun m => (m.dst, m.cls, m.data)) ∧
          ∀ c ∈ p.cores, (t.core c).inputs = Vector.replicate 5 [] ∧ ∀ i : Fin 4,
            let x := (s.core c).seats[i]
            let y := (t.core c).seats[i]
            y.g = x.g ∧ y.pc = x.pc ∧ ∀ h, y.hold = some h → x.hold = some h ∧ (h.kind = 0 ∨ h.kind = 11)) ∧
      (∀ r i, p.stop = true → p.quiet = false → p.next = some q → p.ctx = some r → q ≠ r → s.drained id p = true →
        s.ctxs.has r = true → waits i → ∃ t p', exec (.quiescence id) s = .next t ∧ t.part? id = some p' ∧
          p'.ctx = some q ∧ p'.stop = false ∧ p'.next = none ∧ (t.ctxs.get r Ctx.reset).state = .waiting ∧
          (t.image? r).isSome = true) ∧
      (p.stop = true → s.drained id p = false → exec (.quiescence id) s = .next s) ∧
      (p.quiet = true → p.dies.Nodup →
        ∃ t p', exec (.pstopResume id) s = .next t ∧ t.part? id = some p' ∧ p'.stop = false ∧ p'.quiet = false ∧
          p'.arrivals = [] ∧ t.mem = s.mem ∧ ∀ c ∈ p.cores, ∀ i : Fin 4,
            let x := (s.core c).seats[i]
            let y := (t.core c).seats[i]
            (t.core c).inputs = (s.core c).inputs.set 0
              (p.arrivals.filter (fun m => m.dst = c) ++ (s.core c).inputs[(0 : Fin 5)]) ∧
            (x.work = none → y = x) ∧
            (x.work.isSome = true → y =
              { x with
                tag := x.tag.setFlag 2 true
                gap := x.gap + ((s.region (s.regionOf c)).ref - p.stopRefs.get (s.regionOf c) 0) })) ∧
      (p.quiet = false → exec (.pstopResume id) s = .next s) ∧
      (∀ ctx pl x, s.ctxs.has ctx = true → s.ctxs.get ctx Ctx.reset = x → x.part = id → p.ctx = some ctx →
        (p.quiet = false → p.stop = false → ∃ t p', exec (.repartition ctx pl) s = .next t ∧ t.part? id = some p' ∧
          p'.stop = true ∧ (t.ctxs.get ctx Ctx.reset).state = .moved ∧ (t.ctxs.get ctx Ctx.reset).part = id) ∧
        (p.quiet = true → ∀ i,
          let u := ((s.ctxSave id p ctx x.base true).leavePart ctx).setRoutes pl.routes
          let n := if i.place.whole then i.ndies else 0
          let to_ := partAt pl (i.rows / 4) (i.cols / 4) n i.place.sramMb
          u.image? ctx = some i → u.part? pl.part.toNat = none →
          (u.placeOk to_ n = false → exec (.repartition ctx pl) s = .next u ∧
            (areaExists x.base = false → u.mem = s.mem) ∧ (u.ctxs.get ctx Ctx.reset).state = .moved) ∧
          (u.placeOk to_ n = true → ∃ t p', exec (.repartition ctx pl) s = .next t ∧ t.part? pl.part.toNat = some p' ∧
            p'.ctx = some ctx ∧ p'.stop = false ∧ p'.dies = to_.dies ∧ p'.row = to_.row ∧ p'.col = to_.col ∧
            (t.ctxs.get ctx Ctx.reset).part = pl.part.toNat ∧ (t.ctxs.get ctx Ctx.reset).state = .running))) ∧
      (∀ ctx x c l, (ctx, x) ∈ s.ctxs → x.part = id → c ∈ p.cores ∨ (s.core c).memb.getLsbD id = true →
        let v := s.vds.get x.vd VDev.reset
        ∃ t, exec (.routerFailure ⟨c, l⟩) s = .next t ∧ t.ctxs.has ctx = false ∧
          ((x.vd % 2, 3) ∉ s.pkg.paused → v.unsent = [] →
            (0xFFFFFFFF, 7, 0) ∈ (t.vds.get x.vd VDev.reset).completions) ∧
          ((x.vd % 2, 3) ∈ s.pkg.paused ∨ v.unsent ≠ [] →
            .completion (0xFFFFFFFF, 7, 0) ∈ (t.vds.get x.vd VDev.reset).unsent) ∧
          ∀ a ∈ l, 2 ≤ a.kind.toNat → (∀ b ∈ l, b.at_ = a.at_ ∧ b.kind = a.kind ∧ b.dst = a.dst → b = a) →
            ∀ o, (t.core a.at_).route.get (a.kind, a.dst) o = a.out)) ∧
    (s.part? id = none → exec (.sliceBoundary id ref) s = .next s ∧ exec (.quiescence id) s = .next s ∧
      exec (.arbiterWake id) s = .next s ∧
      let only (t : State) := t.mem = s.mem ∧ t.cores = s.cores ∧ t.parts = s.parts ∧
        ∀ j, j ≠ id → (j ∈ t.pkg.stops ↔ j ∈ s.pkg.stops)
      (∃ t, exec (.pstopStop id) s = .next t ∧ only t ∧ id ∈ t.pkg.stops) ∧
      (∃ t, exec (.pstopResume id) s = .next t ∧ only t ∧ id ∉ t.pkg.stops))

/-! ## Regions, power and boot -/

/-- R62, R331, R369 to R371, R375 to R379, R381, R384 to R386 and R419: a write of FREQ that changes it requests a
step, or a further one; a step charges kind 7 to every seat of a running partition that holds live work and no
instruction, moves cr.ref on by the stop and sets the rate, and the gap of a stopping partition begins after it; heat
lowers the frequency by 85 MHz until the region is cool, or resets the module; a boot that fails halts at its stage,
and a link that fails is left down and reported; a re-plan measures FMAXV; idle clusters enter deeper states after
their dwell if the exit latency is accepted, and wake for an access, a message or a record; and the package sleeps,
and wakes for an arrival. -/
def Obligations.RegionsAndPower : Prop :=
  ∀ (s : State) (r : RegionId) (freq : BitVec 11) (volt : BitVec 12) (temp ns : Nat) (f : BootFacts) (plan : PlanFacts)
    (cl : ClusterId),
    let x := s.region r
    let only (i : Instr) (y : Region) : Prop := ∃ t, exec i s = .next t ∧ t.region r = y ∧ t.mem = s.mem ∧
      t.cores = s.cores ∧ ∀ r', r' ≠ r → t.region r' = s.region r'
    let reset (cause : Nat) : State :=
      { State.reset with
        agenda := s.agenda, ids := s.ids, frees := s.frees
        pkg := { State.reset.pkg with resetCause := cause, reports := s.pkg.reports } }
    let enters (a b : Power) (dwell exit_ : Nat) : Prop := (s.cluster cl).power = a → s.clusterIdle cl = true →
      dwell ≤ ns → exit_ ≤ s.tolerance cl → ∃ t, exec (.powerStateEntry cl ns) s = .next t ∧ t.mem = s.mem ∧
        t.cores = s.cores ∧ t.cluster cl = { s.cluster cl with power := b }
    (425 ≤ freq.toNat → freq.toNat ≤ 1275 → freq ≠ x.freq →
      (x.busy = false → only (.rctlFreqWrite r freq) { x with freq := freq, busy := true, going := freq, stopChg := x.chg }) ∧
      (x.busy = true → only (.rctlFreqWrite r freq) { x with freq := freq, target := some freq })) ∧
    (freq.toNat < 425 ∨ 1275 < freq.toNat ∨ freq = x.freq → only (.rctlFreqWrite r freq) x) ∧
    (650 ≤ volt.toNat → volt.toNat ≤ 950 → only (.rctlVoltWrite r volt) { x with volt := volt }) ∧
    (volt.toNat < 650 ∨ 950 < volt.toNat → only (.rctlVoltWrite r volt) x) ∧
    (x.busy = true → s.pkg.asleep = false → ∃ t, exec (.regionStep r) s = .next t ∧ t.mem = s.mem ∧
      (t.region r).rate = rateFor x.going ∧ (t.region r).ref = x.ref + BitVec.ofNat 64 x.stopChg.toNat ∧
      (t.region r).freq = x.freq ∧
      (x.target = none → (t.region r).busy = false) ∧
      (∀ y, x.target = some y → (t.region r).busy = true ∧ (t.region r).going = y ∧ (t.region r).target = none) ∧
      (∀ c, s.regionOf c ≠ r → t.core c = s.core c) ∧
      (∀ id p, s.part? id = some p → t.part? id = some (if p.stop ∧ !p.quiet ∧ p.stopRefs.has r then
        { p with stopRefs := p.stopRefs.set r (t.region r).ref } else p)) ∧
      ∀ c p, s.regionOf c = r → s.partOf c = some p → (s.core c).sb = [] → ∀ i : Fin 4,
        (s.core c).seats[i].work.isSome = true → (s.core c).seats[i].hold = none →
        ((t.core c).seats[i]).tag = (s.core c).seats[i].tag.charge 7 (if p.quiet then 0 else x.stopChg.toNat) ∧
          ((t.core c).seats[i]).g = (s.core c).seats[i].g ∧ ((t.core c).seats[i]).pc = (s.core c).seats[i].pc) ∧
    (x.busy = false ∨ s.pkg.asleep = true → exec (.regionStep r) s = .next s) ∧
    (∃ t, exec (.clockStretch r) s = .next t ∧ t.mem = s.mem ∧ t.region r = x ∧
      ∀ c, s.cores.has c = true → s.regionOf c = r → (t.core c).base = (s.core c).base ∧ (t.core c).seats = (s.core c).seats ∧
        ∀ i : Fin 4, (t.core c).ev[i] = if selects (s.core c).evsel[i] 0x04 none then (s.core c).ev[i] + 1 else (s.core c).ev[i]) ∧
    (x.freq.toNat ≤ 1275 → x.busy = false → 100 < temp ∨ x.hot = true ∧ 95 < temp →
      (425 < x.freq.toNat →
        let g : BitVec 11 := BitVec.ofNat 11 (max 425 (x.freq.toNat - 85))
        only (.thermalThrottle r temp) { x with freq := g, busy := true, going := g, stopChg := x.chg, hot := true }) ∧
      (x.freq = 425 → only (.thermalThrottle r temp) { x with hot := true })) ∧
    (temp ≤ 95 → only (.thermalThrottle r temp) { x with hot := false }) ∧
    (f.fails = none → f.retired = [] → f.routes = [] →
      (f.fiold = [] → f.ethernet = [] → exec (.moduleReset f) s = .next (reset 0) ∧
        (115 < temp → exec (.thermalReset r temp f) s = .next (reset 1))) ∧
      ∃ t, exec (.moduleReset f) s = .next t ∧ t.cores = [] ∧ (∀ i ∈ f.fiold, i < 32 → (t.fiold.get i FioldPort.reset).up = false) ∧
        (∀ i, i ∈ t.pkg.ethDown ↔ i ∈ f.ethernet ∧ i < 2) ∧
        (f.fiold.Nodup → f.ethernet.Nodup → (∀ i ∈ f.fiold, i < 32) → (∀ i ∈ f.ethernet, i < 2) →
          t.pkg.reports = s.pkg.reports + f.fiold.length + f.ethernet.length)) ∧
    (∀ k, f.fails = some k → 1 ≤ k.toNat → k.toNat ≤ 4 → ∃ t, exec (.moduleReset f) s = .next t ∧ t.pkg.stage = k ∧
      t.pkg.bootFail = true ∧ t.pkg.replace = s.pkg.replace ∧ t.mem = [] ∧ t.cores = [] ∧
      (∀ i < 32, (t.fiold.get i FioldPort.reset).up = false) ∧ (∀ i < 2, i ∈ t.pkg.ethDown) ∧
      (k.toNat ≤ 3 → ∀ j ≤ 400, (t.region j).valid = false)) ∧
    (temp ≤ 115 → exec (.thermalReset r temp f) s = .next s) ∧
    (x.busy = false → x.hot = false → s.pkg.asleep = false → ∃ t, exec (.replan r plan) s = .next t ∧ t.mem = s.mem ∧
      (t.region r).fmaxv = plan.fmaxv ∧ (t.region r).valid = true ∧
      (t.region r).retire = (x.retire || decide (plan.fmaxv.toNat < 425)) ∧
      (t.region r).ref = x.ref + BitVec.ofNat 64 x.chg.toNat ∧ t.pkg.replanAsked = false) ∧
    (x.busy = true ∨ x.hot = true → exec (.replan r plan) s = .next s) ∧
    (s.pkg.replace = true → ∃ t, exec .replaceReport s = .next t ∧ t.pkg = { s.pkg with reports := s.pkg.reports + 1 } ∧
      t.cores = s.cores ∧ t.mem = s.mem) ∧
    enters .run .gated 2000 300 ∧ enters .gated .retain 100000 12000 ∧ enters .retain .off 2000000 250000 ∧
    ((s.cluster cl).power ≠ .run → s.wakes cl = true → ∃ t, exec (.clusterWake cl) s = .next t ∧ t.mem = s.mem ∧
      t.cores = s.cores ∧ t.cluster cl = { s.cluster cl with power := .run, called := false }) ∧
    ((s.cluster cl).power = .run ∨ s.wakes cl = false → exec (.clusterWake cl) s = .next s) ∧
    (s.maySleep = true → ∃ t, exec .packageSleep s = .next t ∧ t.pkg = { s.pkg with asleep := true } ∧ t.mem = s.mem ∧
      t.cores = s.cores) ∧
    (s.maySleep = false → exec .packageSleep s = .next s) ∧
    (s.pkg.arrivals = [] → exec .packageWake s = .next s) ∧
    (s.pkg.asleep = true → s.pkg.arrivals ≠ [] → ∃ t, exec .packageWake s = .next t ∧ t.pkg.asleep = false ∧
      (x.busy = true → s.regions.has r = true → (t.region r).busy = false ∧ (t.region r).rate = rateFor (x.target.getD x.going)) ∧
      ∀ vd imm, s.pkg.arrivals = [.notify vd imm] → vd < 16 → s.vds.has vd = true → (s.vds.get vd VDev.reset).qpError = false →
        (imm - (s.vds.get vd VDev.reset).head).toNat ≤ 2 ^ (s.vds.get vd VDev.reset).log2n →
        (t.vds.get vd VDev.reset).tail = imm ∧ t.pkg.arrivals = [] ∧ t.cores = s.cores ∧ t.mem = s.mem)

/-! ## Fiold -/

/-- R396 and R439 to R442: a port accepts frames in order with a right CRC, and frees what they acknowledge; it asks
for a replay of a bad one; after sixteen replays in a row without progress its link goes down and the next live plane
takes over what it held. Heartbeats go out on idle links. A packet reaches the context of its job, or is counted and
dropped: a message enters the network, a reply its core, a unit writes and is acknowledged; one for a context that is
stopped waits. -/
def Obligations.FioldLinks : Prop :=
  ∀ (s : State) (port peer : Nat) (f : FioldFrame),
    let p := s.fiold.get port FioldPort.reset
    let live := port < 32 ∧ p.up = true ∧ s.pkg.bootFail = false
    let only (i : Instr) (q : FioldPort) : Prop := ∃ t, exec i s = .next t ∧ t.fiold.get port FioldPort.reset = q ∧
      t.mem = s.mem ∧ t.cores = s.cores ∧ t.net = s.net ∧ ∀ j, j ≠ port → t.fiold.get j FioldPort.reset = s.fiold.get j FioldPort.reset
    (live →
      (f.crcOk = false → only (.fioldFrame port f) { p with nak := true }) ∧
      (f.crcOk = true → f.seq ≠ p.ack + 1 → exec (.fioldFrame port f) s = .next s) ∧
      (f.crcOk = true → f.seq = p.ack + 1 → f.nak = false → p.queued = 0 →
        (f.ack ∉ p.kept → only (.fioldFrame port f) { p with ack := f.seq, nak := false }) ∧
        (∀ i, p.kept.findIdx? (fun k => decide (k = f.ack)) = some i → only (.fioldFrame port f)
          { p with ack := f.seq, nak := false, replays := 0, kept := p.kept.drop (i + 1) })) ∧
      (p.kept ≠ [] → p.replays < 15 → only (.fioldReplay port) { p with replays := p.replays + 1 }) ∧
      (p.kept = [] → exec (.fioldReplay port) s = .next s) ∧
      (p.queued = 0 → p.kept = [] → only (.fioldHeartbeat port)
        { p with heartbeats := p.heartbeats + 1, kept := [p.seq], seq := p.seq + 1 }) ∧
      (∃ t, exec (.fioldLinkDown port) s = .next t ∧ t.mem = s.mem ∧ t.cores = s.cores ∧
        (t.fiold.get port FioldPort.reset).up = false ∧ (t.fiold.get port FioldPort.reset).kept = [] ∧
        ∀ j, s.planeAfter port = some j → j ≠ port →
          let q := s.fiold.get j FioldPort.reset
          let q' := t.fiold.get j FioldPort.reset
          q'.kept.length + q'.queued = q.kept.length + q.queued + p.kept.length + p.queued) ∧
      (p.kept ≠ [] → 15 ≤ p.replays → exec (.fioldReplay port) s = exec (.fioldLinkDown port) s)) ∧
    (p.up = false → exec (.fioldFrame port f) s = .next s ∧ exec (.fioldReplay port) s = .next s) ∧
    (∃ t, exec .endToEndHeartbeat s = .next t ∧ t.mem = s.mem ∧ t.cores = s.cores ∧ (live →
      (t.fiold.get port FioldPort.reset).heartbeats = p.heartbeats + s.peers)) ∧
    (peer ∉ s.pkg.lostPeers → ∃ t, exec (.peerLost peer) s = .next t ∧
      t.pkg = { s.pkg with lostPeers := s.pkg.lostPeers ++ [peer] } ∧ t.cores = s.cores ∧ t.mem = s.mem) ∧
    (s.pkg.bootFail = true → ∀ q, exec (.fioldPacket q) s = .next s ∧ exec (.fioldFrame port f) s = .next s ∧
      exec (.fioldHeartbeat port) s = .next s) ∧
    (∀ q, s.pkg.bootFail = false → s.pkg.asleep = true → exec (.fioldPacket q) s =
      .next { s with pkg := { s.pkg with arrivals := s.pkg.arrivals ++ [.packet q] } }) ∧
    (s.pkg.bootFail = false → s.pkg.asleep = false → s.pkg.arrivals = [] →
      (∀ job self vn routing tag acct grp data dst cause value work id q c,
        let message : Instr := .fioldPacket (.message job self vn routing tag acct grp data)
        let reply : Instr := .fioldPacket (.reply job self dst cause value work grp)
        (s.jobPart job = none → s.jobImage job = none → ∃ t, exec reply s = .next t ∧ t.mem = s.mem ∧ t.cores = s.cores ∧
          (t.die 0).tviol = sat32 ((s.die 0).tviol.toNat + 1)) ∧
        (s.jobPart job = none → s.jobImage job ≠ none →
          exec reply s = .next { s with pkg := { s.pkg with arrivals := [.packet (.reply job self dst cause value work grp)] } }) ∧
        (s.jobPart job = some (id, q) → q.coreAt (routing.extractLsb' 16 2).toNat (routing.extractLsb' 8 8).toNat
            (routing.extractLsb' 0 8).toNat = some c →
          ∃ m : Msg, m.data = data ∧ m.grp = grp ∧ m.cls = routing.extractLsb' 18 6 ∧ m.tag = Tag.ofBits tag ∧
            m.pkg = some self ∧ (acct.extractLsb' 28 24).toNat ≤ m.age ∧
            (q.quiet = false → exec message s = .next { s with frees := s.frees + 1, net := s.net ++ [⟨m, c, 0, false⟩] }) ∧
            (q.quiet = true → ∃ t n, exec message s = .next t ∧ t.cores = s.cores ∧ t.net = s.net ∧
              ((s.part? id = some q) → t.part? id = some { q with arrivals := q.arrivals ++ [{ m with came := n }] }))) ∧
        (s.jobPart job = some (id, q) → q.coreAt (dst.extractLsb' 16 2).toNat (dst.extractLsb' 8 8).toNat
            (dst.extractLsb' 0 8).toNat = some c →
          exec reply s = .next
            { s with replies := s.replies ++ [⟨⟨c, (dst.extractLsb' 18 2).toFin⟩, cause, value, work, grp⟩] })) ∧
      (∀ job self cmd idx va src data priv id q c cs u w plane, s.jobPart job = some (id, q) → q.cores = c :: cs →
        let unit : FioldPacket := .unit job self cmd idx va src data priv
        (q.quiet = true → exec (.fioldPacket unit) s = .next { s with pkg := { s.pkg with arrivals := [.packet unit] } }) ∧
        (q.quiet = false → remoteRangeOk va.toNat data.length = true →
          s.cpTargets c priv (cutBytes va.toNat data) = (.ok [w], u) → u.settled w.pte → u.claimHome c w.home = u →
          u.bad = [] → u.planeFor 0 self.toNat = some plane →
          ∃ t, exec (.fioldPacket unit) s = .next t ∧
            t.mem = u.mem.writeAll (cellsFrom w.home w.bytes) ∧ t.cores = u.cores ∧
            t.sentOut = u.sentOut ++ [(plane, self.toNat, .ack job (BitVec.ofNat 9 q.index) cmd idx src 0)])))

/-! ## Trace, cycles and the horizon -/

/-- R94, R165, R279, R330, R339, R420, R447 to R451, R455 and R456: FLUSH seals the open segment, whose records then stand
in their slots behind the header in its slot of the ring, and which joins those to be sent; when the ring is full, one
that the drive is not writing is overwritten and counted, and where there is none no slot takes records. A sample records the counters of a core
once a period; a local cycle adds one to CYC and the rate to REF, gives each seat its credit up to the cap, counts
down the watchdog of live work, lengthens open holds and frees the banks; and the horizon of a deterministic
partition never decreases. -/
def Obligations.TraceAndCycles : Prop :=
  ∀ (s : State) (c : CoreId) (r : RegionId) (id seq : Nat),
    let tr := s.trace
    let k := s.core c
    let logs := tr.en = true ∧ 2 ≤ tr.log2n.toNat ∧ tr.log2n.toNat ≤ 10
    let dry := (s.ports.all fun p => p.2.ring.isEmpty) = true
    let rest (t : State) : Prop := t.cores = s.cores ∧ t.net = s.net ∧ t.parts = s.parts
    let left (t : State) : Prop := t.mem = s.mem ∧ rest t
    let used (j : Nat) : Prop := ∃ g ∈ tr.sealed, g.slot = j
    (dry → tr.open_ = [] → ∃ t, exec .trctlFlush s = .next t ∧ left t ∧ t.trace = tr) ∧
    (∀ i, dry → tr.open_ ≠ [] → tr.slot = some i → i < 2 ^ tr.log2n.toNat → ¬used i → tr.open_.length < 16384 →
      let a := tr.base.toNat + i * 2 ^ 20
      ∃ t g, exec .trctlFlush s = .next t ∧ rest t ∧ t.trace.open_ = [] ∧ t.trace.nextSeq = tr.nextSeq + 1 ∧
        t.trace.sealed.getLast? = some g ∧ g.seq = tr.nextSeq ∧ g.recs = tr.open_ ∧ g.lost = t.trace.lost ∧ g.slot = i ∧
        (∀ x, x < a ∨ a + 2 ^ 20 ≤ x → t.mem.read x = s.mem.read x) ∧
        t.mem.bytes a 4 = natLe 4 0x56545253 ∧ t.mem.bytes (a + 6) 2 = natLe 2 tr.open_.length ∧
        t.mem.bytes (a + 8) 8 = natLe 8 tr.nextSeq ∧
        (∀ x xs, tr.open_ = x :: xs → x.body.length ≤ 48 → t.mem.bytes (a + 64) 64 = x.bytes) ∧
        ((∃ j < 2 ^ tr.log2n.toNat, j ≠ i ∧ ¬used j) → t.trace.lost = tr.lost ∧
          t.trace.sealed.length = tr.sealed.length + 1 ∧
          ∃ j < 2 ^ tr.log2n.toNat, t.trace.slot = some j ∧ j ≠ i ∧ ¬used j) ∧
        ((∀ j < 2 ^ tr.log2n.toNat, j ≠ i → used j) → (tr.sealed.map Segment.slot).Nodup →
          (t.trace.lost = sat32 (tr.lost.toNat + 1) ∧ t.trace.sealed.length = tr.sealed.length ∧
            ∃ y ∈ tr.sealed, y.writing = false ∧ t.trace.slot = some y.slot) ∨
          (t.trace.lost = tr.lost ∧ t.trace.sealed.length = tr.sealed.length + 1 ∧ t.trace.slot = none))) ∧
    (tr.en = false → ∃ t, exec (.trctlEnWrite true) s = .next t ∧ left t ∧ t.trace = { tr with en := true, nextSeq := 0 }) ∧
    (dry → ∃ t, exec (.trctlEnWrite false) s = .next t ∧ rest t ∧ t.trace.en = false ∧ (tr.open_ = [] → left t) ∧
      (tr.slot.isSome = true → t.trace.open_ = [])) ∧
    (∀ g gs, dry → logs → tr.waiting = [] → tr.sealed = g :: gs → g.seq = seq → ∃ t,
      exec (.segmentWriteComplete seq) s = .next t ∧ left t ∧
      t.trace = { tr with sealed := gs, written := tr.written + 1, slot := some (tr.slot.getD g.slot) }) ∧
    (∀ g gs, tr.sealed = g :: gs → g.seq ≠ seq → exec (.segmentWriteComplete seq) s = .next s) ∧
    (logs → s.traces c 2 = true → tr.sample ≠ 0 → (s.partOf c).isSome = true → k.follows c = false →
      (tr.samples.get c 0 = s.samplePeriod c + 1 → exec (.counterSample c) s = .next s) ∧
      (tr.samples.get c 0 ≠ s.samplePeriod c + 1 → dry → tr.slot.isSome = true → tr.open_.length < 16382 →
        ∃ t x, exec (.counterSample c) s = .next t ∧ left t ∧
        t.trace = { tr with
          open_ := tr.open_ ++ [x], samples := tr.samples.set c (s.samplePeriod c + 1), events := tr.events + 1 } ∧
        x.type = 3 ∧ x.part = k.pid ∧ x.body.take 32 =
          natLe 8 k.ev[0].toNat ++ natLe 8 k.ev[1].toNat ++ natLe 8 k.ev[2].toNat ++ natLe 8 k.ev[3].toNat ∧
        x.body.length = 36)) ∧
    (let x := s.region r
      ∃ t, exec (.localCycle r) s = .next t ∧ t.net = s.net ∧ (dry → tr.en = false ∨ tr.sample = 0 → t.mem = s.mem) ∧
        (t.region r).cyc = x.cyc + 1 ∧
        (t.region r).ref = x.ref + BitVec.ofNat 64 ((x.fraction.toNat + x.rate.toNat) / 2 ^ 24) ∧
        (t.region r).fraction.toNat = (x.fraction.toNat + x.rate.toNat) % 2 ^ 24 ∧ (t.region r).rate = x.rate ∧
        (∀ b ∈ t.banks, b ∈ s.banks ∧ s.regionOfBank b ≠ r) ∧
        (∀ p, s.part? id = some p → ∃ n, t.part? id = some { p with consumed := p.consumed + n } ∧
          (p.ctx = none ∨ (∀ e ∈ s.cores, ∀ i : Fin 4, e.2.seats[i].work = none) → n = 0)) ∧
        (c ∈ s.coresOf r → s.stopped c = false → k.bench = none → k.sb = [] → ∀ i : Fin 4,
          let a := k.seats[i]
          let b := (t.core c).seats[i]
          b.g = a.g ∧ b.pc = a.pc ∧ b.tag = a.tag ∧
          b.credit.toInt * 256 + b.fraction.toNat =
            min ((x.cap.toNat * 256 : Nat) : Int) (a.credit.toInt * 256 + a.fraction.toNat + x.erate.toNat) ∧
          b.hold = a.hold.map (fun h => { h with cycles := h.cycles + 1, since := h.since + 1 }) ∧
          (a.work = none ∨ a.inTrap = true ∨ a.wdCount = 0 → b.wdCount = a.wdCount ∧ b.pend = a.pend) ∧
          (a.work.isSome = true → a.inTrap = false → 1 < a.wdCount.toNat → b.wdCount = a.wdCount - 1) ∧
          (a.work.isSome = true → a.inTrap = false → a.wdCount = 1 → b.wdCount = 0 ∧ b.pend.watchdog = true))) ∧
    (∀ p, s.part? id = some p → p.det = true → p.quiet = false → ∃ t h, exec (.horizonUpdate id) s = .next t ∧
      t.part? id = some { p with horizon := h } ∧ p.horizon ≤ h ∧ t.mem = s.mem ∧ t.cores = s.cores ∧
      (∀ y ∈ s.openSpans id p, h ≤ max p.horizon y) ∧
      (s.openSpans id p = [] → h = max p.horizon (s.topSpan p))) ∧
    (∀ p, s.part? id = some p → p.det = false → exec (.horizonUpdate id) s = .next s)

/-! ## The whole machine -/

/-- R23, R29, R31, R39, R43, R51, R54, R142, R143, R270, R278, R279, R349, R370, R371, R385 and R394: what reset
leaves. Values that the spec does not give are not stated here. -/
def Obligations.ResetState : Prop :=
  (∀ c : CoreId, let k := State.reset.core c
    k.modes = Vector.replicate 4 0b10 ∧ k.nwin = 0x8888 ∧ k.msz = 2 ∧ k.classes = Vector.replicate 64 0 ∧
    k.queues = Vector.replicate 8 [] ∧ k.runq = [] ∧ k.sb = [] ∧ k.rq = [] ∧ k.dqen = false ∧ k.pid = 0 ∧ k.memb = 0 ∧
    k.mx.cur.scale = 0x7F7F7F7F7F7F7F7F7F7F7F7F7F7F7F7F ∧ k.mx.cur.data = 0 ∧ k.mx.credit = .free ∧ k.mx.ovf = false ∧
    k.mx.q.held = false ∧ k.sn.q.held = false ∧ k.cp.q.held = false ∧ k.sn.carry = none ∧ k.sn.snop = 0 ∧
    ∀ i : Fin 4, let t := k.seats[i]
      t.work = none ∧ t.tag = Tag.zero ∧ t.chlim = 0xFFFFFFFFFFFF ∧ t.gap = 0 ∧ t.frm = 0 ∧ t.fflags = 0 ∧ t.grp = 0 ∧
      t.credit = 0 ∧ t.fraction = 0 ∧ t.wdCount = 0 ∧ t.tr = ⟨false, 0, 0, 0, 0, 0, 0⟩) ∧
  (∀ n i, ((State.reset.core (.skoum n)).seats[(i : Fin 4)]).priv = 2) ∧
  (∀ r, let x := State.reset.region r
    x.rate = 0x01000000 ∧ x.chg = 1275 ∧ x.cap = 0x4000 ∧ x.erate = 0x1000 ∧ x.freq = 850 ∧ x.volt = 750 ∧ x.busy = false) ∧
  (∀ d, (State.reset.die d).thresh = 0x0400 ∧ (State.reset.die d).window = 0x0100 ∧ (State.reset.die d).migEn = false ∧
    (State.reset.die d).tviol = 0) ∧
  State.reset.pkg.stage = 8 ∧ State.reset.pkg.bootFail = false ∧ State.reset.pkg.slice = 850000 ∧ State.reset.parts = []

/-- R24, R102, R103, R118, R353, R355 and R395: a step at an empty agenda, or at one that names an issue at a core,
tries the seats in turn, and runs what the decoder reads from the parcels at a seat's pc once nothing holds it: no
boundary cause, the key order, the end of carried code, registers not yet returned, ordering, or energy. Where the
instruction then holds its seat, the next seat in turn is tried. A step whose agenda names an event runs the event,
but for a boundary cause that a precise trap of the instruction at the boundary comes before. -/
def Obligations.StepRunsDecoded : Prop :=
  ∀ (s : State) (c : CoreId) (i : Fin 4) (is : List (Fin 4)) (rest : List Move) (x : Instr),
    (encode x = none → causeSeat x = none → step { s with agenda := .event x :: rest } = exec x { s with agenda := rest }) ∧
    (∀ t, encode x = none → causeSeat x = some t →
      ({ s with agenda := rest, cur := t } : State).preciseTrap = none →
      step { s with agenda := .event x :: rest } = exec x { s with agenda := rest }) ∧
    (s.agenda = [] → step s = s.issue s.cur.core) ∧
    step { s with agenda := .issue c :: rest } = ({ s with agenda := rest } : State).issue c ∧
    (s.up c = true → s.turns c = i :: is →
      let v : State := { s with cur := ⟨c, i⟩ }
      let goes (o : Host.Outcome State Fault Refusal) : Prop := ∀ t, o = .next t →
        ((t.seat ⟨c, i⟩).hold = none → s.issue c = .next t) ∧
        ((t.seat ⟨c, i⟩).hold.isSome = true → s.issue c = State.issueFrom c is t)
      v.firstCause v.cur = none → v.mayIssue = true → v.pastCode = false →
      (∀ p d u, v.fetchParcel v.me.pc true = (.ok p, u) → p.extractLsb' 0 2 ≠ 3 → readCode (.w16 p) = .ok d →
        u.me.awaits (decodedRegs d) = false → u.gated (decodedReaches d) = false → u.me.waitsFor = none →
        goes (exec d.toInstr u)) ∧
      (∀ p q d u w, v.fetchParcel v.me.pc true = (.ok p, u) → p.extractLsb' 0 2 = 3 →
        u.fetchParcel (v.me.pc + 2) false = (.ok q, w) → readCode (.w32 (q ++ p)) = .ok d →
        w.me.awaits (decodedRegs d) = false → w.gated (decodedReaches d) = false → w.me.waitsFor = none →
        (energyOf d = 0 ∨ 0 < w.me.credit.toInt ∨ w.pushHeld d = true) → goes (exec d.toInstr w)) ∧
      (∀ p e u, v.fetchParcel v.me.pc true = (.ok p, u) → p.extractLsb' 0 2 ≠ 3 → readCode (.w16 p) = .error e →
        goes (.next (u.raise 0 (p.setWidth 64))))) ∧
    (s.up c = false ∨ s.turns c = [] → s.issue c = .next s)

/-- R104 to R121: words written out from the forms and maps of the spec decode to the instructions they stand for. -/
def Obligations.DecodesSpecWords : Prop :=
  decode (.w32 0b00000000011000100000100000000011) = .ok (.add 1 2 3) ∧
  decode (.w32 0b11111111111001100010100000010011) = .ok (.addi 5 6 0x7FF) ∧
  decode (.w32 0b10000000000000010000100011000011) = .ok (.lui 1 0x8001) ∧
  decode (.w32 0b11111111110001000001100100100011) = .ok (.bLt 3 4 0x7FE) ∧
  decode (.w32 0b00000000000000000010100101010011) = .ok (.jal 5) ∧
  decode (.w32 0b00000010000010000011100110100111) = .ok (.ldDImm 7 8 16) ∧
  decode (.w32 0b10000000011000100000100011100111) = .ok (.fadd 1 1 2 3) ∧
  decode (.w32 0b00000000000010010000001110000111) = .ok (.mxpush 9) ∧
  decode (.w32 0b10000000011000100000110000000111) = .ok (.vadd { ty := 2, c := 0, p := 0, vb := 3, va := 2, vd := 1 }) ∧
  decode (.w32 0b00000011000000000000101111110011) = .ok (.crr 0x300 1) ∧
  decode (.w16 0b0001000001000000) = .ok (.sub16 1 2) ∧
  decode (.w16 0b0000000000111100) = .ok .exit16 ∧
  (∃ e, decode (.w16 0) = .error e) ∧ (∃ e, decode (.w32 0b00000000011000100000100000000111) = .error e)

/-- R102 to R122: the decoder reads every well-formed instruction back from its words, with each operand at every value
that the encoding admits, and from its bytes in memory order. -/
def Obligations.EncodeDecode : Prop :=
  ∀ (i : Instr) (c : Code), i.wf = true → encode i = some c →
    decode c = .ok i ∧ ∀ rest, wordsOf (c.bytes ++ rest) = some (c, rest)

/-- Every step keeps the canonical form of memory, so that equal memories are equal data: addresses rise strictly, and
no entry equals what an unlisted address reads as (the model's choice of log entry 4). -/
def Obligations.MemoryFormKept : Prop :=
  ∀ s t : State, s.memOk → step s = .next t → t.memOk

/-- The canonical form holds at reset. -/
def Obligations.ResetMemoryForm : Prop := State.reset.memOk
end

