-- ==== Sys2Proof/Laws/State.lean ====
section
/-!
SUPPORT. Tables, accessors and updates: what each reads back, field by field.
-/

namespace Sys2Proof.Machine

/-! ## Keyed tables -/

theorem Tab.get_set_self {κ α : Type} [DecidableEq κ] (t : Tab κ α) (k : κ) (a d : α) :
    (t.set k a).get k d = a := by
  induction t with
  | nil => simp [Tab.set, Tab.get]
  | cons e r ih =>
    obtain ⟨k', b⟩ := e
    by_cases h : k' = k
    · simp [Tab.set, Tab.get, h]
    · simp [Tab.set, Tab.get, h, ih]

theorem Tab.get_set_ne {κ α : Type} [DecidableEq κ] (t : Tab κ α) {k q : κ} (a d : α) (h : q ≠ k) :
    (t.set k a).get q d = t.get q d := by
  induction t with
  | nil => simp [Tab.set, Tab.get, Ne.symm h]
  | cons e r ih =>
    obtain ⟨k', b⟩ := e
    by_cases hk : k' = k
    · subst hk; simp [Tab.set, Tab.get, Ne.symm h]
    · by_cases hq : k' = q
      · subst hq; simp [Tab.set, Tab.get, hk]
      · simp [Tab.set, Tab.get, hk, hq, ih]

/-! ## Cores and seats -/

@[simp] theorem State.core_setCore_self (s : State) (c : CoreId) (k : Core) : (s.setCore c k).core c = k :=
  Tab.get_set_self ..

theorem State.core_setCore_ne (s : State) {c q : CoreId} (k : Core) (h : q ≠ c) : (s.setCore c k).core q = s.core q :=
  Tab.get_set_ne _ _ _ h

@[simp] theorem State.core_modCore_self (s : State) (c : CoreId) (f : Core → Core) :
    (s.modCore c f).core c = f (s.core c) := State.core_setCore_self ..

theorem State.core_modCore_ne (s : State) {c q : CoreId} (f : Core → Core) (h : q ≠ c) :
    (s.modCore c f).core q = s.core q := State.core_setCore_ne _ _ h

@[simp] theorem Core.seat_modSeat_self (k : Core) (i : Fin 4) (f : Seat → Seat) :
    (k.modSeat i f).seats[i.val] = f k.seats[i.val] := by simp [Core.modSeat, Core.setSeat]

theorem Core.seat_modSeat_ne (k : Core) {i j : Fin 4} (f : Seat → Seat) (h : j ≠ i) :
    (k.modSeat i f).seats[j] = k.seats[j] := by
  simp only [Core.modSeat, Core.setSeat, Fin.getElem_fin]
  exact Vector.getElem_set_ne _ _ fun e => h (Fin.ext e.symm)

@[simp] theorem State.seat_modSeat_self (s : State) (t : SeatId) (f : Seat → Seat) :
    (s.modSeat t f).seat t = f (s.seat t) := by simp [State.modSeat, State.seat]

@[simp] theorem State.me_modMe (s : State) (f : Seat → Seat) : (s.modMe f).me = f s.me :=
  State.seat_modSeat_self s s.cur f

@[simp] theorem State.here_modHere (s : State) (f : Core → Core) : (s.modHere f).here = f s.here :=
  State.core_modCore_self ..

/-! ## Updates leave the other fields alone -/

@[simp] theorem State.cur_modCore (s : State) (c : CoreId) (f : Core → Core) : (s.modCore c f).cur = s.cur := rfl
@[simp] theorem State.cur_modSeat (s : State) (t : SeatId) (f : Seat → Seat) : (s.modSeat t f).cur = s.cur := rfl
@[simp] theorem State.cur_modMe (s : State) (f : Seat → Seat) : (s.modMe f).cur = s.cur := rfl
@[simp] theorem State.cur_modHere (s : State) (f : Core → Core) : (s.modHere f).cur = s.cur := rfl
@[simp] theorem State.cur_setG (s : State) (d : Reg) (x : Word) : (s.setG d x).cur = s.cur := rfl
@[simp] theorem State.mem_modCore (s : State) (c : CoreId) (f : Core → Core) : (s.modCore c f).mem = s.mem := rfl
@[simp] theorem State.mem_modSeat (s : State) (t : SeatId) (f : Seat → Seat) : (s.modSeat t f).mem = s.mem := rfl
@[simp] theorem State.mem_modMe (s : State) (f : Seat → Seat) : (s.modMe f).mem = s.mem := rfl
@[simp] theorem State.mem_modHere (s : State) (f : Core → Core) : (s.modHere f).mem = s.mem := rfl
@[simp] theorem State.mem_setG (s : State) (d : Reg) (x : Word) : (s.setG d x).mem = s.mem := rfl
@[simp] theorem State.base_modCore (s : State) (c : CoreId) (f : Core → Core) : (s.modCore c f).base = s.base := rfl
@[simp] theorem State.base_modSeat (s : State) (t : SeatId) (f : Seat → Seat) : (s.modSeat t f).base = s.base := rfl
@[simp] theorem State.base_modMe (s : State) (f : Seat → Seat) : (s.modMe f).base = s.base := rfl
@[simp] theorem State.base_modHere (s : State) (f : Core → Core) : (s.modHere f).base = s.base := rfl
@[simp] theorem State.clusters_modCore (s : State) (c : CoreId) (f : Core → Core) : (s.modCore c f).clusters = s.clusters := rfl
@[simp] theorem State.dies_modCore (s : State) (c : CoreId) (f : Core → Core) : (s.modCore c f).dies = s.dies := rfl
@[simp] theorem State.regions_modCore (s : State) (c : CoreId) (f : Core → Core) : (s.modCore c f).regions = s.regions := rfl
@[simp] theorem State.banks_modCore (s : State) (c : CoreId) (f : Core → Core) : (s.modCore c f).banks = s.banks := rfl
@[simp] theorem State.bad_modCore (s : State) (c : CoreId) (f : Core → Core) : (s.modCore c f).bad = s.bad := rfl
@[simp] theorem State.weak_modCore (s : State) (c : CoreId) (f : Core → Core) : (s.modCore c f).weak = s.weak := rfl
@[simp] theorem State.parts_modCore (s : State) (c : CoreId) (f : Core → Core) : (s.modCore c f).parts = s.parts := rfl
@[simp] theorem State.ctxs_modCore (s : State) (c : CoreId) (f : Core → Core) : (s.modCore c f).ctxs = s.ctxs := rfl
@[simp] theorem State.vds_modCore (s : State) (c : CoreId) (f : Core → Core) : (s.modCore c f).vds = s.vds := rfl
@[simp] theorem State.drawers_modCore (s : State) (c : CoreId) (f : Core → Core) : (s.modCore c f).drawers = s.drawers := rfl
@[simp] theorem State.owners_modCore (s : State) (c : CoreId) (f : Core → Core) : (s.modCore c f).owners = s.owners := rfl
@[simp] theorem State.links_modCore (s : State) (c : CoreId) (f : Core → Core) : (s.modCore c f).links = s.links := rfl
@[simp] theorem State.net_modCore (s : State) (c : CoreId) (f : Core → Core) : (s.modCore c f).net = s.net := rfl
@[simp] theorem State.replies_modCore (s : State) (c : CoreId) (f : Core → Core) : (s.modCore c f).replies = s.replies := rfl
@[simp] theorem State.deqs_modCore (s : State) (c : CoreId) (f : Core → Core) : (s.modCore c f).deqs = s.deqs := rfl
@[simp] theorem State.instances_modCore (s : State) (c : CoreId) (f : Core → Core) : (s.modCore c f).instances = s.instances := rfl
@[simp] theorem State.seqrs_modCore (s : State) (c : CoreId) (f : Core → Core) : (s.modCore c f).seqrs = s.seqrs := rfl
@[simp] theorem State.fiold_modCore (s : State) (c : CoreId) (f : Core → Core) : (s.modCore c f).fiold = s.fiold := rfl
@[simp] theorem State.sentOut_modCore (s : State) (c : CoreId) (f : Core → Core) : (s.modCore c f).sentOut = s.sentOut := rfl
@[simp] theorem State.wqSpans_modCore (s : State) (c : CoreId) (f : Core → Core) : (s.modCore c f).wqSpans = s.wqSpans := rfl
@[simp] theorem State.trace_modCore (s : State) (c : CoreId) (f : Core → Core) : (s.modCore c f).trace = s.trace := rfl
@[simp] theorem State.ports_modCore (s : State) (c : CoreId) (f : Core → Core) : (s.modCore c f).ports = s.ports := rfl
@[simp] theorem State.pkg_modCore (s : State) (c : CoreId) (f : Core → Core) : (s.modCore c f).pkg = s.pkg := rfl
@[simp] theorem State.ids_modCore (s : State) (c : CoreId) (f : Core → Core) : (s.modCore c f).ids = s.ids := rfl
@[simp] theorem State.agenda_modCore (s : State) (c : CoreId) (f : Core → Core) : (s.modCore c f).agenda = s.agenda := rfl
@[simp] theorem State.frees_modCore (s : State) (c : CoreId) (f : Core → Core) : (s.modCore c f).frees = s.frees := rfl
@[simp] theorem State.clusters_modSeat (s : State) (t : SeatId) (f : Seat → Seat) : (s.modSeat t f).clusters = s.clusters := rfl
@[simp] theorem State.dies_modSeat (s : State) (t : SeatId) (f : Seat → Seat) : (s.modSeat t f).dies = s.dies := rfl
@[simp] theorem State.regions_modSeat (s : State) (t : SeatId) (f : Seat → Seat) : (s.modSeat t f).regions = s.regions := rfl
@[simp] theorem State.banks_modSeat (s : State) (t : SeatId) (f : Seat → Seat) : (s.modSeat t f).banks = s.banks := rfl
@[simp] theorem State.bad_modSeat (s : State) (t : SeatId) (f : Seat → Seat) : (s.modSeat t f).bad = s.bad := rfl
@[simp] theorem State.weak_modSeat (s : State) (t : SeatId) (f : Seat → Seat) : (s.modSeat t f).weak = s.weak := rfl
@[simp] theorem State.parts_modSeat (s : State) (t : SeatId) (f : Seat → Seat) : (s.modSeat t f).parts = s.parts := rfl
@[simp] theorem State.ctxs_modSeat (s : State) (t : SeatId) (f : Seat → Seat) : (s.modSeat t f).ctxs = s.ctxs := rfl
@[simp] theorem State.vds_modSeat (s : State) (t : SeatId) (f : Seat → Seat) : (s.modSeat t f).vds = s.vds := rfl
@[simp] theorem State.drawers_modSeat (s : State) (t : SeatId) (f : Seat → Seat) : (s.modSeat t f).drawers = s.drawers := rfl
@[simp] theorem State.owners_modSeat (s : State) (t : SeatId) (f : Seat → Seat) : (s.modSeat t f).owners = s.owners := rfl
@[simp] theorem State.links_modSeat (s : State) (t : SeatId) (f : Seat → Seat) : (s.modSeat t f).links = s.links := rfl
@[simp] theorem State.net_modSeat (s : State) (t : SeatId) (f : Seat → Seat) : (s.modSeat t f).net = s.net := rfl
@[simp] theorem State.replies_modSeat (s : State) (t : SeatId) (f : Seat → Seat) : (s.modSeat t f).replies = s.replies := rfl
@[simp] theorem State.deqs_modSeat (s : State) (t : SeatId) (f : Seat → Seat) : (s.modSeat t f).deqs = s.deqs := rfl
@[simp] theorem State.instances_modSeat (s : State) (t : SeatId) (f : Seat → Seat) : (s.modSeat t f).instances = s.instances := rfl
@[simp] theorem State.seqrs_modSeat (s : State) (t : SeatId) (f : Seat → Seat) : (s.modSeat t f).seqrs = s.seqrs := rfl
@[simp] theorem State.fiold_modSeat (s : State) (t : SeatId) (f : Seat → Seat) : (s.modSeat t f).fiold = s.fiold := rfl
@[simp] theorem State.sentOut_modSeat (s : State) (t : SeatId) (f : Seat → Seat) : (s.modSeat t f).sentOut = s.sentOut := rfl
@[simp] theorem State.wqSpans_modSeat (s : State) (t : SeatId) (f : Seat → Seat) : (s.modSeat t f).wqSpans = s.wqSpans := rfl
@[simp] theorem State.trace_modSeat (s : State) (t : SeatId) (f : Seat → Seat) : (s.modSeat t f).trace = s.trace := rfl
@[simp] theorem State.ports_modSeat (s : State) (t : SeatId) (f : Seat → Seat) : (s.modSeat t f).ports = s.ports := rfl
@[simp] theorem State.pkg_modSeat (s : State) (t : SeatId) (f : Seat → Seat) : (s.modSeat t f).pkg = s.pkg := rfl
@[simp] theorem State.ids_modSeat (s : State) (t : SeatId) (f : Seat → Seat) : (s.modSeat t f).ids = s.ids := rfl
@[simp] theorem State.agenda_modSeat (s : State) (t : SeatId) (f : Seat → Seat) : (s.modSeat t f).agenda = s.agenda := rfl
@[simp] theorem State.frees_modSeat (s : State) (t : SeatId) (f : Seat → Seat) : (s.modSeat t f).frees = s.frees := rfl
@[simp] theorem State.cluster_modCore (s : State) (c : CoreId) (f : Core → Core) (k : ClusterId) :
    (s.modCore c f).cluster k = s.cluster k := rfl
@[simp] theorem State.die_modCore (s : State) (c : CoreId) (f : Core → Core) (d : Nat) :
    (s.modCore c f).die d = s.die d := rfl
@[simp] theorem State.region_modCore (s : State) (c : CoreId) (f : Core → Core) (r : RegionId) :
    (s.modCore c f).region r = s.region r := rfl
@[simp] theorem State.regionOf_modCore (s : State) (c q : CoreId) (f : Core → Core) :
    (s.modCore c f).regionOf q = s.regionOf q := rfl

/-! ## The g registers (R125) -/

/-- Reading a g register after writing one. -/
theorem Seat.rd_wr (t : Seat) (r q : Reg) (x : Word) :
    (t.wr r x).rd q = if q = r ∧ r ≠ 0 then x else t.rd q := by
  by_cases hr : r = 0
  · have h1 : t.wr r x = t := if_pos hr
    rw [h1, if_neg fun h => h.2 hr]
  · by_cases hq : q = r
    · subst hq
      rw [if_pos ⟨rfl, hr⟩]
      unfold Seat.rd Seat.wr
      rw [if_neg hr, if_neg hr]
      exact Vector.getElem_set_self _
    · have hn : r.toNat ≠ q.toNat := fun e => hq (BitVec.eq_of_toNat_eq e.symm)
      rw [if_neg fun h : q = r ∧ r ≠ 0 => hq h.1]
      unfold Seat.rd Seat.wr
      rw [if_neg hr, Vector.getElem_set_ne _ _ hn]

@[simp] theorem Seat.rd_zero (t : Seat) : t.rd 0 = 0 := if_pos rfl

end Sys2Proof.Machine
end

