-- ==== Sys2Proof/Laws/Complete.lean ====
section
/-!
SUPPORT. What the completion of an instruction does: one lemma for each way to go on (R55, R98, R280), and the
frame `State.Kept` of the operations that they are made of.
-/

namespace Sys2Proof.Machine

/-! ## The frame -/

theorem State.Kept.cur {s t : State} (h : s.Kept t) : t.cur = s.cur := by
  have := congrArg State.cur h.base
  exact this

theorem State.Kept.refl (s : State) : s.Kept s :=
  ⟨rfl, fun _ => rfl, fun _ _ => rfl, rfl, fun _ _ => rfl, fun _ => rfl, fun _ => rfl⟩

theorem State.Kept.trans {s t u : State} (h : s.Kept t) (g : t.Kept u) : s.Kept u := by
  have hc := h.cur
  refine ⟨g.base.trans h.base, fun a => (g.mem a).trans (h.mem a), fun c n => ?_, g.here.trans h.here, fun i n => ?_,
    fun k => (g.clusters k).trans (h.clusters k), fun d => (g.dies d).trans (h.dies d)⟩
  · exact (g.cores c (hc ▸ n)).trans (h.cores c n)
  · exact (g.seats i (hc ▸ n)).trans (h.seats i n)

theorem State.kept_modMe (s : State) (f : Seat → Seat) : s.Kept (s.modMe f) := by
  refine ⟨rfl, fun _ => rfl, fun c n => State.core_modCore_ne _ _ n, ?_, fun i n => ?_, fun _ => rfl, fun _ => rfl⟩
  · show ((s.modMe f).core s.cur.core).base = _
    rw [show (s.modMe f).core s.cur.core = (s.core s.cur.core).modSeat s.cur.seat f from State.core_modCore_self ..]
    rfl
  · show ((s.modMe f).core s.cur.core).seats[i] = _
    rw [show (s.modMe f).core s.cur.core = (s.core s.cur.core).modSeat s.cur.seat f from State.core_modCore_self ..]
    exact Core.seat_modSeat_ne _ _ n

theorem State.kept_modHere (s : State) (f : Core → Core) (hb : (f s.here).base = s.here.base)
    (hs : (f s.here).seats = s.here.seats) : s.Kept (s.modHere f) := by
  refine ⟨rfl, fun _ => rfl, fun c n => State.core_modCore_ne _ _ n, ?_, fun i n => ?_, fun _ => rfl, fun _ => rfl⟩
  · show ((s.modHere f).core s.cur.core).base = _
    rw [show (s.modHere f).core s.cur.core = f s.here from State.core_modCore_self ..]
    exact hb
  · show ((s.modHere f).core s.cur.core).seats[i] = _
    rw [show (s.modHere f).core s.cur.core = f s.here from State.core_modCore_self .., hs]

theorem State.cluster_modCluster (s : State) (k q : ClusterId) (f : Cluster → Cluster) :
    (s.modCluster k f).cluster q = if q = k then f (s.cluster k) else s.cluster q := by
  by_cases h : q = k
  · rw [if_pos h, h]; exact Tab.get_set_self ..
  · rw [if_neg h]; exact Tab.get_set_ne _ _ _ h

theorem State.die_modDie (s : State) (d q : Nat) (f : Die → Die) :
    (s.modDie d f).die q = if q = d then f (s.die d) else s.die q := by
  by_cases h : q = d
  · rw [if_pos h, h]; exact Tab.get_set_self ..
  · rw [if_neg h]; exact Tab.get_set_ne _ _ _ h

theorem State.kept_modCluster (s : State) (k : ClusterId) (f : Cluster → Cluster) (h : ∀ x, (f x).base = x.base) :
    s.Kept (s.modCluster k f) := by
  refine ⟨rfl, fun _ => rfl, fun c n => rfl, rfl, fun i n => rfl, fun q => ?_, fun _ => rfl⟩
  rw [State.cluster_modCluster]
  split
  · next e => rw [h, e]
  · rfl

theorem State.kept_modDie (s : State) (d : Nat) (f : Die → Die) (h : ∀ x, (f x).base = x.base) :
    s.Kept (s.modDie d f) := by
  refine ⟨rfl, fun _ => rfl, fun c n => rfl, rfl, fun i n => rfl, fun q => rfl, fun q => ?_⟩
  rw [State.die_modDie]
  split
  · next e => rw [h, e]
  · rfl

theorem State.kept_if {s t : State} (c : Prop) [Decidable c] (h : s.Kept t) : s.Kept (if c then t else s) := by
  split
  · exact h
  · exact State.Kept.refl s

theorem State.kept_countCluster (s : State) (q : ClusterId) (code k : Nat) : s.Kept (s.countCluster q code k) :=
  State.kept_if _ (State.kept_modCluster _ _ _ fun _ => rfl)

theorem State.kept_countDie (s : State) (d code k : Nat) : s.Kept (s.countDie d code k) :=
  by
    unfold State.countDie
    split
    · refine State.kept_modDie _ _ _ fun x => ?_
      unfold Die.base
      rfl
    · exact State.Kept.refl s

theorem State.kept_count (s : State) (seat : Option (Fin 4)) (code k : Nat) :
    s.Kept (s.count s.cur.core seat code k) :=
  ((State.kept_modHere s (fun x => x.addEvents seat code k) rfl rfl).trans (State.kept_countCluster ..)).trans
    (State.kept_countDie ..)

theorem State.cores_countCluster (s : State) (q : ClusterId) (code k : Nat) :
    (s.countCluster q code k).cores = s.cores := by
  unfold State.countCluster
  split <;> rfl

theorem State.cores_countDie (s : State) (d code k : Nat) : (s.countDie d code k).cores = s.cores := by
  unfold State.countDie
  split <;> rfl

/-- Counting an event changes no seat. -/
theorem State.seat_count (s : State) (c : CoreId) (seat : Option (Fin 4)) (code k : Nat) (t : SeatId) :
    (s.count c seat code k).seat t = s.seat t := by
  have h : (s.count c seat code k).cores = (s.modCore c fun x => x.addEvents seat code k).cores := by
    unfold State.count
    rw [State.cores_countDie, State.cores_countCluster]
  unfold State.seat State.core
  rw [h]
  show ((s.modCore c fun x => x.addEvents seat code k).core t.core).seats[t.seat] = (s.core t.core).seats[t.seat]
  by_cases n : t.core = c
  · rw [n, State.core_modCore_self]; rfl
  · rw [State.core_modCore_ne _ _ n]

@[simp] theorem State.cur_count (s : State) (c : CoreId) (seat : Option (Fin 4)) (code k : Nat) :
    (s.count c seat code k).cur = s.cur := by
  unfold State.count State.countDie State.countCluster
  split <;> split <;> rfl

/-! ## Completion -/

/-- Charging a wait leaves the span alone (R63). -/
theorem Tag.span_charge (t : Tag) (kind ref : Nat) : (t.charge kind ref).span = t.span := by
  unfold Tag.charge
  split <;> rfl

/-- Closing the interval of the executing seat (R61, R63). -/
theorem State.closeHold_me (s : State) :
    (s.closeHold s.cur).me = { s.me with hold := none, tag := s.charged } := by
  unfold State.closeHold State.charged
  show State.me (match s.me.hold with | none => s | some h => _) = _
  generalize hh : s.me.hold = x
  cases x with
  | none =>
    show s.me = { s.me with hold := none, tag := s.me.tag }
    rw [← hh]
  | some h => exact State.seat_modSeat_self s s.cur _

@[simp] theorem State.cur_closeHold (s : State) (t : SeatId) : (s.closeHold t).cur = s.cur := by
  unfold State.closeHold
  split <;> rfl

theorem State.kept_closeHold (s : State) : s.Kept (s.closeHold s.cur) := by
  unfold State.closeHold
  split
  · exact State.Kept.refl s
  · exact State.kept_modMe s _

/-! ## The loop registers (R98) -/

theorem Seat.setLoop_eq (t : Seat) (l : Bool) (k : Fin 3) (x : Word) :
    t.setLoop l k x = { t with loops := (t.setLoop l k x).loops } := by
  unfold Seat.setLoop
  split <;> rfl

/-- The end test of a level changes loop registers alone, and depends on them alone. -/
theorem Seat.endTest_of (t u : Seat) (l : Bool) (a : Word) (h : u.loops = t.loops) :
    u.endTest l a = ({ u with loops := (t.endTest l a).1.loops }, (t.endTest l a).2) := by
  have hl : ∀ k, u.loop l k = t.loop l k := fun k => by unfold Seat.loop; rw [h]
  have hs : ∀ (x : Word), (u.setLoop l 0 x).loops = (t.setLoop l 0 x).loops := fun x => by
    unfold Seat.setLoop; split <;> simp only [h]
  have hl' : ∀ (x : Word) (k), (u.setLoop l 0 x).loop l k = (t.setLoop l 0 x).loop l k := fun x k => by
    unfold Seat.loop; rw [hs]
  unfold Seat.endTest
  rw [hl, hl]
  split
  · simp only [hl']
    rw [← hs, ← Seat.setLoop_eq]
  · rw [← h]

theorem Seat.endTest_eq (t : Seat) (l : Bool) (a : Word) :
    (t.endTest l a).1 = { t with loops := (t.endTest l a).1.loops } := by
  have := congrArg Prod.fst (Seat.endTest_of t t l a rfl)
  exact this

/-- The end tests change loop registers alone, and depend on them and on the trap state alone. -/
theorem Seat.endTests_of (t u : Seat) (a n : Word) (h : u.loops = t.loops) (ht : u.inTrap = t.inTrap) :
    u.endTests a n = ({ u with loops := (t.endTests a n).1.loops }, (t.endTests a n).2) := by
  have hl : ∀ l k, u.loop l k = t.loop l k := fun l k => by unfold Seat.loop; rw [h]
  unfold Seat.endTests
  rw [hl, hl]
  generalize decide ((t.loop false 1).toNat ≤ (t.loop true 1).toNat) = b
  by_cases tr : t.inTrap = true
  · rw [if_pos (ht.trans tr), if_pos tr, ← h]
  · rw [if_neg fun x => tr (ht ▸ x), if_neg tr]
    dsimp only
    rw [Seat.endTest_of t u b a h]
    have e := Seat.endTest_eq t b a
    generalize t.endTest b a = x at e
    obtain ⟨x, o⟩ := x
    cases o with
    | some _ => rfl
    | none =>
      dsimp only at e ⊢
      rw [Seat.endTest_of x { u with loops := x.loops } (!b) a rfl]
      generalize x.endTest (!b) a = y
      obtain ⟨y, o⟩ := y
      cases o <;> rfl

/-- A transfer changes loop registers alone, and depends on them and on the trap state alone. -/
theorem Seat.transfer_of (t u : Seat) (a : Word) (h : u.loops = t.loops) (ht : u.inTrap = t.inTrap) :
    u.transfer a = { u with loops := (t.transfer a).loops } := by
  have hl : ∀ l k, u.loop l k = t.loop l k := fun l k => by unfold Seat.loop; rw [h]
  have hs : ∀ (x y : Seat), y.loops = x.loops → ∀ l, (y.setLoop l 0 0).loops = (x.setLoop l 0 0).loops :=
    fun x y e l => by unfold Seat.setLoop; split <;> simp only [e]
  have he : ∀ (x : Seat) l k w, x.setLoop l k w = { x with loops := (x.setLoop l k w).loops } :=
    fun x l k w => Seat.setLoop_eq x l k w
  unfold Seat.transfer Seat.inLoop Seat.nested
  by_cases tr : t.inTrap = true
  · rw [if_pos (ht.trans tr), if_pos tr, ← h]
  · rw [if_neg fun x => tr (ht ▸ x), if_neg tr]
    simp only [hl]
    split
    · split
      · rw [he (u.setLoop false 0 0), hs (t.setLoop false 0 0) _ (hs t u h false), he u]
      · rw [he u, hs t u h]
    · split
      · rw [he u, hs t u h]
      · rw [← h]

/-- Where a seat stands after an instruction of `len` bytes at its address goes on as told. -/
def Seat.flow (t : Seat) (len : Nat) : Next → Vector Word 6 × Word
  | .seq => ((t.endTests t.pc (t.pc + BitVec.ofNat 64 len)).1.loops, (t.endTests t.pc (t.pc + BitVec.ofNat 64 len)).2)
  | .to a => ((t.endTests t.pc a).1.loops, (t.endTests t.pc a).2)
  | .jump a => ((t.transfer a).loops, a)
  | .goto a => (t.loops, a)

theorem Seat.flow_of (t u : Seat) (len : Nat) (nx : Next) (h : u.loops = t.loops) (ht : u.inTrap = t.inTrap)
    (hp : u.pc = t.pc) : u.flow len nx = t.flow len nx := by
  rcases nx with _ | a | a | a
  · simp only [Seat.flow, hp, Seat.endTests_of t u _ _ h ht]
  · simp only [Seat.flow, hp, Seat.endTests_of t u _ _ h ht]
  · simp only [Seat.flow, Seat.transfer_of t u _ h ht]
  · simp only [Seat.flow, h]

/-- The seat that `finish` leaves, field by field. -/
theorem Seat.finish_eq (t : Seat) (f : Form) (cost : Nat) (nx : Next) :
    t.finish f cost nx =
      { t with
        credit := t.credit - BitVec.ofNat 32 (debit f.energy), tag := t.tag.add cost, loops := (t.flow f.len nx).1
        pc := (t.flow f.len nx).2
        pend := { t.pend with
          chain := t.pend.chain || (t.armed && decide (t.chlim.toNat < (t.tag.add cost).span.toNat)) } } := by
  have key : ∀ x : Seat, x.pend = t.pend → x.armed = t.armed → x.chlim = t.chlim → x.tag = t.tag.add cost →
      (if x.armed = true ∧ x.chlim.toNat < x.tag.span.toNat then { x with pend := { x.pend with chain := true } } else x) =
      { x with pend := { t.pend with
          chain := t.pend.chain || (t.armed && decide (t.chlim.toNat < (t.tag.add cost).span.toNat)) } } := by
    intro x h1 h2 h3 h4
    by_cases hc : t.armed = true ∧ t.chlim.toNat < (t.tag.add cost).span.toNat
    · rw [if_pos (by rw [h2, h3, h4]; exact hc), hc.1, decide_eq_true hc.2, h1]; simp
    · rw [if_neg (by rw [h2, h3, h4]; exact hc)]
      have : (t.armed && decide (t.chlim.toNat < (t.tag.add cost).span.toNat)) = false := by
        by_cases ha : t.armed = true
        · simp [ha, show ¬ t.chlim.toNat < (t.tag.add cost).span.toNat from fun z => hc ⟨ha, z⟩]
        · simp [ha]
      rw [this, Bool.or_false, ← h1]
  unfold Seat.finish
  rcases nx with _ | a | a | a
  · dsimp only
    rw [Seat.endTests_of t { t with credit := t.credit - BitVec.ofNat 32 (debit f.energy), tag := t.tag.add cost } _ _ rfl rfl]
    exact key { t with credit := t.credit - BitVec.ofNat 32 (debit f.energy), tag := t.tag.add cost, loops := (t.flow f.len .seq).1, pc := (t.flow f.len .seq).2 }
      rfl rfl rfl rfl
  · dsimp only
    rw [Seat.endTests_of t { t with credit := t.credit - BitVec.ofNat 32 (debit f.energy), tag := t.tag.add cost } _ _ rfl rfl]
    exact key { t with credit := t.credit - BitVec.ofNat 32 (debit f.energy), tag := t.tag.add cost, loops := (t.flow f.len (.to a)).1, pc := (t.flow f.len (.to a)).2 }
      rfl rfl rfl rfl
  · dsimp only
    rw [Seat.transfer_of t { t with credit := t.credit - BitVec.ofNat 32 (debit f.energy), tag := t.tag.add cost } _ rfl rfl]
    exact key { t with credit := t.credit - BitVec.ofNat 32 (debit f.energy), tag := t.tag.add cost, loops := (t.transfer a).loops, pc := a }
      rfl rfl rfl rfl
  · dsimp only
    exact key { t with credit := t.credit - BitVec.ofNat 32 (debit f.energy), tag := t.tag.add cost, loops := t.loops, pc := a }
      rfl rfl rfl rfl

/-- A completion, whatever way it goes on. -/
theorem State.went_complete (s : State) (f : Form) (cost : Nat) (nx : Next) :
    s.Went (s.complete f cost nx) (s.me.flow f.len nx).1 (s.me.flow f.len nx).2 (debit f.energy) cost := by
  have k1 := s.kept_closeHold
  generalize hu : s.closeHold s.cur = u at k1
  have e1 : u.me = { s.me with hold := none, tag := s.charged } := hu ▸ s.closeHold_me
  have k2 := u.kept_modMe fun t => t.finish f cost nx
  generalize hv : (u.modMe fun t => t.finish f cost nx) = v at k2
  have e2 : v.me = u.me.finish f cost nx := hv ▸ State.me_modMe ..
  have k3 := v.kept_modHere (fun k => { k with lastSeat := v.cur.seat }) rfl rfl
  generalize hw : (v.modHere fun k => { k with lastSeat := v.cur.seat }) = w at k3
  have e3 : w.me = v.me := by
    rw [← hw]
    show ((v.modHere _).core v.cur.core).seats[v.cur.seat] = (v.core v.cur.core).seats[v.cur.seat]
    rw [show (v.modHere fun k => { k with lastSeat := v.cur.seat }).core v.cur.core = _ from State.core_modCore_self ..]
  have k4 := w.kept_count (some w.cur.seat) 0x02 1
  generalize hx : w.count w.cur.core (some w.cur.seat) 0x02 1 = x at k4
  have e4 : x.me = w.me := by
    show x.seat x.cur = w.seat w.cur
    rw [k4.cur, ← hx]; exact State.seat_count ..
  have k5 := x.kept_count (some x.cur.seat) 0x03 (debit f.energy)
  generalize hy : x.count x.cur.core (some x.cur.seat) 0x03 (debit f.energy) = y at k5
  have e5 : y.me = x.me := by
    show y.seat y.cur = x.seat x.cur
    rw [k5.cur, ← hy]; exact State.seat_count ..
  have c : s.complete f cost nx = y := by
    subst hy hx hw hv hu
    rfl
  have k := k1.trans (k2.trans (k3.trans (k4.trans k5)))
  have e : y.me = ({ s.me with hold := none, tag := s.charged } : Seat).finish f cost nx := by
    rw [e5, e4, e3, e2, e1]
  rw [Seat.finish_eq] at e
  have fl := Seat.flow_of s.me { s.me with hold := none, tag := s.charged } f.len nx rfl rfl rfl
  rw [fl] at e
  rw [c]
  exact ⟨k, by rw [e]; rfl, by rw [e], by rw [e], by rw [e], by rw [e], by rw [e], by rw [e]⟩

/-- What an instruction that goes on to the next one does. -/
theorem State.ran_complete (s : State) (f : Form) (cost : Nat) :
    s.Ran (s.complete f cost .seq) f.len (debit f.energy) cost := s.went_complete f cost .seq

/-- What an instruction that transfers to a target does. -/
theorem State.jumped_complete (s : State) (f : Form) (cost : Nat) (a : Word) :
    s.Jumped (s.complete f cost (.jump a)) a (debit f.energy) cost := s.went_complete f cost (.jump a)

/-! ## What the decoder read -/

/-- Running what the decoder read is exec of the instruction that it stands for. -/
theorem Decoded.run_eq (d : Decoded) (s : State) : Decoded.run d s = exec d.toInstr s := by
  cases d <;> rfl

end Sys2Proof.Machine
end

