-- ==== Sys2Proof/Laws/Memory.lean ====
section
/-!
SUPPORT. Byte memory: the canonical form is kept by every write, and reading after writing.
-/

namespace Sys2Proof.Machine

/-- The canonical form above an address is one above every lower address. -/
theorem Memory.above_mono {m : Memory} {n k : Nat} (h : n ≤ k) : Memory.above k m = true → Memory.above n m = true := by
  cases m with
  | nil => exact fun _ => rfl
  | cons e r =>
    obtain ⟨a, b⟩ := e
    simp only [Memory.above, Bool.and_eq_true, decide_eq_true_eq]
    exact fun x => ⟨⟨Nat.le_trans h x.1.1, x.1.2⟩, x.2⟩

theorem Memory.above_write (m : Memory) (n a : Nat) (b : Byte) (ha : n ≤ a) (h : Memory.above n m = true) :
    Memory.above n (m.write a b) = true := by
  induction m generalizing n with
  | nil =>
    unfold Memory.write
    split
    · rfl
    · next hb => simp only [Memory.above, ha, decide_true, Bool.true_and, Bool.and_true]; exact decide_eq_true hb
  | cons e r ih =>
    obtain ⟨k, c⟩ := e
    simp only [Memory.above, Bool.and_eq_true, decide_eq_true_eq] at h
    unfold Memory.write
    split
    · next hk =>
      split
      · simp only [Memory.above, Bool.and_eq_true, decide_eq_true_eq]; exact h
      · next hb =>
        simp only [Memory.above, Bool.and_eq_true, decide_eq_true_eq]
        exact ⟨⟨ha, hb⟩, ⟨Nat.succ_le_of_lt hk, h.1.2⟩, h.2⟩
    · next hk =>
      split
      · next he =>
        subst he
        split
        · exact Memory.above_mono (Nat.le_succ_of_le ha) h.2
        · next hb =>
          simp only [Memory.above, Bool.and_eq_true, decide_eq_true_eq]
          exact ⟨⟨ha, hb⟩, h.2⟩
      · next he =>
        simp only [Memory.above, Bool.and_eq_true, decide_eq_true_eq]
        exact ⟨h.1, ih (k + 1) (by omega) h.2⟩

/-- A write keeps the canonical form. -/
theorem Memory.wf_write (m : Memory) (a : Nat) (b : Byte) (h : m.wf = true) : (m.write a b).wf = true :=
  Memory.above_write m 0 a b (Nat.zero_le a) h

/-- Writing many bytes keeps it. -/
theorem Memory.wf_writeAll (m : Memory) (l : List (Nat × Byte)) (h : m.wf = true) : (m.writeAll l).wf = true := by
  induction l generalizing m with
  | nil => exact h
  | cons e r ih => exact ih (m.write e.1 e.2) (Memory.wf_write m e.1 e.2 h)

/-- Leaving entries out keeps it. -/
theorem Memory.above_filter (m : Memory) (p : Nat × Byte → Bool) (n : Nat) (h : Memory.above n m = true) :
    Memory.above n (m.filter p) = true := by
  induction m generalizing n with
  | nil => exact h
  | cons e r ih =>
    obtain ⟨k, b⟩ := e
    simp only [Memory.above, Bool.and_eq_true, decide_eq_true_eq] at h
    simp only [List.filter_cons]
    split
    · simp only [Memory.above, Bool.and_eq_true, decide_eq_true_eq]
      exact ⟨h.1, ih (k + 1) h.2⟩
    · exact Memory.above_mono (Nat.le_succ_of_le h.1.1) (ih (k + 1) h.2)

/-- Clearing a range keeps it. -/
theorem Memory.wf_clear (m : Memory) (a n : Nat) (h : m.wf = true) : (m.clear a n).wf = true :=
  Memory.above_filter m _ 0 h

/-- A range that is put back keeps it. -/
theorem Memory.wf_restore (m : Memory) (a n : Nat) (bs : List (Nat × Byte)) (h : m.wf = true) :
    (m.restore a n bs).wf = true := Memory.wf_writeAll _ _ (Memory.wf_clear m a n h)

/-- A byte below everything that is listed reads 0. -/
theorem Memory.read_below (m : Memory) (n a : Nat) (ha : a < n) (h : Memory.above n m = true) : m.read a = 0 := by
  cases m with
  | nil => rfl
  | cons e r =>
    obtain ⟨k, c⟩ := e
    simp only [Memory.above, Bool.and_eq_true, decide_eq_true_eq] at h
    exact if_pos (Nat.lt_of_lt_of_le ha h.1.1)

theorem Memory.read_write_above (m : Memory) (n a x : Nat) (b : Byte) (h : Memory.above n m = true) :
    (m.write a b).read x = if x = a then b else m.read x := by
  induction m generalizing n with
  | nil =>
    unfold Memory.write
    split
    · next hb => subst hb; split <;> rfl
    · simp only [Memory.read]
      by_cases e : x = a
      · subst e; simp
      · simp [e]
  | cons e r ih =>
    obtain ⟨k, c⟩ := e
    have h' := h
    simp only [Memory.above, Bool.and_eq_true, decide_eq_true_eq] at h
    unfold Memory.write
    by_cases h1 : a < k
    · rw [if_pos h1]
      by_cases hb : b = 0
      · rw [if_pos hb]
        by_cases e : x = a
        · subst e; rw [if_pos rfl, hb]; exact if_pos h1
        · rw [if_neg e]
      · rw [if_neg hb]
        by_cases e : x = a
        · subst e; simp [Memory.read]
        · rw [if_neg e]
          by_cases hx : x < a
          · rw [show Memory.read ((a, b) :: (k, c) :: r) x = 0 from if_pos hx]
            exact (if_pos (Nat.lt_trans hx h1)).symm
          · simp only [Memory.read, if_neg hx, if_neg e]
    · rw [if_neg h1]
      by_cases h2 : a = k
      · subst h2
        rw [if_pos rfl]
        by_cases hb : b = 0
        · rw [if_pos hb]
          by_cases e : x = a
          · subst e
            rw [if_pos rfl, hb]
            exact Memory.read_below r (x + 1) x (Nat.lt_succ_self x) h.2
          · rw [if_neg e]
            by_cases hx : x < a
            · rw [Memory.read_below r (a + 1) x (by omega) h.2]; exact (if_pos hx).symm
            · simp only [Memory.read, if_neg hx, if_neg e]
        · rw [if_neg hb]
          by_cases e : x = a
          · subst e; simp [Memory.read]
          · simp only [Memory.read, if_neg e]
      · rw [if_neg h2]
        by_cases hx : x < k
        · have e : ¬ x = a := by omega
          simp only [Memory.read, if_pos hx, if_neg e]
        · by_cases e : x = k
          · have ea : ¬ x = a := by omega
            simp only [Memory.read, if_neg hx, if_pos e, if_neg ea]
          · simp only [Memory.read, if_neg hx, if_neg e]
            exact ih (k + 1) h.2

/-- Reading after one write, in the canonical form. -/
theorem Memory.read_write (m : Memory) (a x : Nat) (b : Byte) (h : m.wf = true) :
    (m.write a b).read x = if x = a then b else m.read x := Memory.read_write_above m 0 a x b h

/-- A byte that none of the written pairs names reads as before. -/
theorem Memory.read_writeAll_ne (m : Memory) (l : List (Nat × Byte)) (x : Nat) (h : m.wf = true)
    (hx : ∀ e ∈ l, e.1 ≠ x) : (m.writeAll l).read x = m.read x := by
  induction l generalizing m with
  | nil => rfl
  | cons e r ih =>
    show ((m.write e.1 e.2).writeAll r).read x = m.read x
    rw [ih _ (Memory.wf_write _ _ _ h) fun y hy => hx y (List.mem_cons_of_mem _ hy), Memory.read_write _ _ _ _ h,
      if_neg fun z => hx e (List.mem_cons_self ..) z.symm]

end Sys2Proof.Machine
end

