-- ==== Sys2Proof/Laws/Shared.lean ====
section
/-!
SUPPORT. What the shared operations of an access can do: its banks, its cluster's wake, its routers; and the parts of an image:
what writing them leaves alone, and that numbers read back as they were packed.
-/

namespace Sys2Proof.Machine

/-! ## Banks, wakes and routers -/

@[simp] theorem State.mem_touch (s : State) (h n : Nat) : (s.touch h n).mem = s.mem := rfl
@[simp] theorem State.cores_touch (s : State) (h n : Nat) : (s.touch h n).cores = s.cores := rfl
@[simp] theorem State.cur_touch (s : State) (h n : Nat) : (s.touch h n).cur = s.cur := rfl

/-- A conflict at a bank is noted in a cluster alone. -/
theorem State.noteClash_same (s : State) (h : Nat) :
    (s.noteClash h).mem = s.mem ∧ (s.noteClash h).cores = s.cores ∧ (s.noteClash h).cur = s.cur := by
  unfold State.noteClash
  split <;> exact ⟨rfl, rfl, rfl⟩

/-- A call for a wake is noted in a cluster alone. -/
theorem State.callHome_same (s : State) (h : Nat) :
    (s.callHome h).mem = s.mem ∧ (s.callHome h).cores = s.cores ∧ (s.callHome h).cur = s.cur := by
  unfold State.callHome
  split
  · split <;> exact ⟨rfl, rfl, rfl⟩
  · exact ⟨rfl, rfl, rfl⟩

/-- An access whose home is on another die asks for no bank; one that meets a taken bank waits as kind 4; another takes its
banks and goes on. -/
theorem State.onBanks_cases (s : State) (home n : Nat) (go : State → State) :
    s.onBanks home n go = go s ∧ dieOfHome home ≠ dieOf s.cur.core ∨
    s.onBanks home n go = (s.noteClash home).stall 4 ∧ s.meets home n = true ∨
    s.onBanks home n go = go (s.touch home n) ∧ s.meets home n = false := by
  unfold State.onBanks
  split
  · next h => exact .inl ⟨rfl, h⟩
  · split
    · next h => exact .inr (.inl ⟨rfl, h⟩)
    · next h => exact .inr (.inr ⟨rfl, by simpa using h⟩)

/-- An access toward its home is dropped by a router, or waits for its cluster's wake, or goes on. -/
theorem State.awake_cases (s : State) (home : Nat) (go : State → State) :
    (∃ x, s.barred s.cur.core home = some x ∧ s.awake home go = (s.dropOnce x s.cur).stall 4) ∨
    s.barred s.cur.core home = none ∧ s.homeUp home = true ∧ s.awake home go = go s ∨
    s.barred s.cur.core home = none ∧ s.homeUp home = false ∧ s.awake home go = (s.callHome home).stall 4 := by
  unfold State.awake
  cases s.barred s.cur.core home with
  | some x => exact .inl ⟨x, rfl, rfl⟩
  | none =>
    cases h : s.homeUp home with
    | true => exact .inr (.inl ⟨rfl, rfl, by simp⟩)
    | false => exact .inr (.inr ⟨rfl, rfl, by simp⟩)

/-- What a device sends to its host changes that device alone. -/
theorem State.rdmaOut_same (s : State) (vd : Nat) (x : RdmaOut) :
    (s.rdmaOut vd x).mem = s.mem ∧ (s.rdmaOut vd x).cores = s.cores ∧ (s.rdmaOut vd x).pkg = s.pkg := ⟨rfl, rfl, rfl⟩

/-! ## Parts of an image -/

@[simp] theorem State.cores_writePart (s : State) (a len : Nat) (m : Memory) : (s.writePart a len m).cores = s.cores := rfl
@[simp] theorem State.ctxs_writePart (s : State) (a len : Nat) (m : Memory) : (s.writePart a len m).ctxs = s.ctxs := rfl
@[simp] theorem State.parts_writePart (s : State) (a len : Nat) (m : Memory) : (s.writePart a len m).parts = s.parts := rfl

/-- Writing a part keeps memory's form. -/
theorem State.wf_writePart (s : State) (a len : Nat) (m : Memory) (h : s.mem.wf = true) : (s.writePart a len m).mem.wf = true :=
  Memory.wf_writeAll _ _ (Memory.wf_clear _ _ _ h)

/-- An image is written part by part, or not at all. -/
theorem State.writeImage_cases (s : State) (ctx : Nat) :
    s.writeImage ctx = s ∨ ∃ (l : List (Nat × Nat × Memory)) (b : Nat),
      s.writeImage ctx = l.foldl (fun (s : State) p => s.writePart (b + p.1) p.2.1 p.2.2) s := by
  simp only [State.writeImage]
  split
  · split
    · exact .inr ⟨_, _, rfl⟩
    · exact .inl rfl
  · exact .inl rfl

/-- What every part keeps, the parts of an image keep. -/
theorem State.writeParts_keeps {P : State → Prop} (hp : ∀ s a len m, P s → P (s.writePart a len m))
    (l : List (Nat × Nat × Memory)) (b : Nat) (s : State) (h : P s) :
    P (l.foldl (fun (s : State) p => s.writePart (b + p.1) p.2.1 p.2.2) s) := by
  induction l generalizing s with
  | nil => exact h
  | cons p r ih => exact ih _ (hp s _ _ _ h)

theorem State.writeImage_keeps {P : State → Prop} (hp : ∀ s a len m, P s → P (s.writePart a len m)) (s : State) (ctx : Nat)
    (h : P s) : P (s.writeImage ctx) := by
  obtain e | ⟨l, b, e⟩ := s.writeImage_cases ctx
  · rw [e]; exact h
  · rw [e]; exact State.writeParts_keeps hp l b s h

/-- Writing an image changes neither cores nor contexts nor partitions. -/
theorem State.writeImage_same (s : State) (ctx : Nat) :
    (s.writeImage ctx).cores = s.cores ∧ (s.writeImage ctx).ctxs = s.ctxs ∧ (s.writeImage ctx).parts = s.parts :=
  State.writeImage_keeps (P := fun t => t.cores = s.cores ∧ t.ctxs = s.ctxs ∧ t.parts = s.parts) (fun _ _ _ _ h => h) s ctx
    ⟨rfl, rfl, rfl⟩

/-- And it keeps memory's form. -/
theorem State.wf_writeImage (s : State) (ctx : Nat) (h : s.mem.wf = true) : (s.writeImage ctx).mem.wf = true :=
  State.writeImage_keeps (P := fun t => t.mem.wf = true) State.wf_writePart s ctx h

/-- The bytes of a number are as many as asked for. -/
@[simp] theorem length_natLe (n x : Nat) : (natLe n x).length = n := by
  induction n generalizing x with
  | zero => rfl
  | succ n ih => simp [natLe, ih]

/-- The bytes of a number give it back, as far as they reach. -/
theorem leNat_natLe (n x : Nat) : leNat (natLe n x) = x % 256 ^ n := by
  induction n generalizing x with
  | zero => simp [natLe, leNat, Nat.mod_one]
  | succ n ih =>
    have h : x % 256 ^ (n + 1) = x % 256 + 256 * (x / 256 % 256 ^ n) := by
      rw [Nat.pow_succ, Nat.mul_comm (256 ^ n), Nat.mod_mul]
    rw [natLe, leNat, ih, BitVec.toNat_ofNat, h]

theorem lt_numBytes (n : Nat) : n < 256 ^ numBytes n := by
  unfold numBytes
  split
  · next h => simp [h]
  · next h =>
    have h1 := Nat.lt_log2_self (n := n)
    have h2 : 256 ^ (n.log2 / 8 + 1) = 2 ^ (8 * (n.log2 / 8 + 1)) := by rw [Nat.pow_mul]
    rw [h2]
    exact Nat.lt_of_lt_of_le h1 (Nat.pow_le_pow_right (by decide) (by omega))

/-- A packed number reads back, with what stands behind it. -/
theorem getNat_putNat (n : Nat) (r : List Byte) (h : numBytes n < 65536) : getNat (putNat n ++ r) = some (n, r) := by
  have h2 : leNat ((putNat n ++ r).take 2) = numBytes n := by
    rw [putNat, List.append_assoc, List.take_left' (length_natLe ..), leNat_natLe]
    exact Nat.mod_eq_of_lt h
  have h3 : (putNat n ++ r).drop 2 = natLe (numBytes n) n ++ r := by
    rw [putNat, List.append_assoc, List.drop_left' (length_natLe ..)]
  have h4 : (putNat n ++ r).drop (2 + numBytes n) = r := by
    rw [← List.drop_drop, h3, List.drop_left' (length_natLe ..)]
  have h5 : (putNat n ++ r).length = 2 + numBytes n + r.length := by simp [putNat, Nat.add_assoc]
  unfold getNat
  simp only [h2, h3, h4, h5, List.take_left' (length_natLe ..), leNat_natLe, Nat.mod_eq_of_lt (lt_numBytes n)]
  rw [if_neg (by omega)]

end Sys2Proof.Machine
end

