-- ==== Sys2Proof/Laws/Traps.lean ====
section
/-!
SUPPORT. What taking a trap does, and an instruction that completes into one (R162, R163, R391, R393).
-/

namespace Sys2Proof.Machine

/-- A frame of the executing core. -/
theorem State.trapped_of (s u : State) (cause : BitVec 6) (epc tval : Word) (imp : Bool) (k : s.Kept u)
    (hm : u.me = { s.me with hold := none, tag := s.charged }) :
    s.Trapped (u.modHere fun x => (x.unreserve u.cur.seat).modSeat u.cur.seat fun t => t.enterTrap cause epc tval imp)
      cause epc tval imp := by
  have hc := k.cur
  generalize hf : (fun x : Core => (x.unreserve u.cur.seat).modSeat u.cur.seat fun t => t.enterTrap cause epc tval imp)
    = f
  have hh : (u.modHere f).here = f u.here := State.here_modHere ..
  have hu : ∀ (x : Core) (i : Fin 4), (x.unreserve i).seats = x.seats := fun _ _ => rfl
  refine ⟨k.base, k.mem, fun c n => ?_, ?_, fun i n => ?_, k.clusters, k.dies, ?_⟩
  · exact (State.core_modCore_ne _ _ (hc.symm ▸ n)).trans (k.cores c n)
  · rw [hh, ← hf]
    have hb : u.here.base = s.here.base := k.here
    show (u.here.unreserve u.cur.seat).base = _
    rw [hc]
    have e : ∀ x : Core, (x.unreserve s.cur.seat).base = (x.base.unreserve s.cur.seat).base := fun _ => rfl
    exact (e u.here).trans ((congrArg (fun z => (z.unreserve s.cur.seat).base) hb).trans (e s.here).symm)
  · rw [hh, ← hf]
    show ((u.here.unreserve u.cur.seat).modSeat u.cur.seat _).seats[i] = _
    rw [Core.seat_modSeat_ne _ _ (hc.symm ▸ n)]
    exact k.seats i n
  · have : (u.modHere f).me = (f u.here).seats[u.cur.seat] := by
      show ((u.modHere f).core u.cur.core).seats[u.cur.seat] = _
      rw [show (u.modHere f).core u.cur.core = f u.here from State.core_modCore_self ..]
    rw [this, ← hf]
    have e : ((u.here.unreserve u.cur.seat).modSeat u.cur.seat fun t => t.enterTrap cause epc tval imp).seats[u.cur.seat]
        = u.me.enterTrap cause epc tval imp := Core.seat_modSeat_self ..
    rw [e, hm]
    rfl

/-- An entry from a state in which the seat is not in trap state. -/
theorem State.trap_eq (s : State) (cause : BitVec 6) (epc tval : Word) (imp : Bool) (h : s.me.inTrap = false) :
    ∃ u, s.Kept u ∧ u.me = s.me ∧ s.trap s.cur cause epc tval imp =
      u.modHere fun x => (x.unreserve u.cur.seat).modSeat u.cur.seat fun t => t.enterTrap cause epc tval imp := by
  refine ⟨s, State.Kept.refl s, rfl, ?_⟩
  unfold State.trap
  rw [if_neg (by show ¬ s.me.inTrap = true; rw [h]; exact Bool.false_ne_true)]
  rfl

/-- Counting an error changes event counters alone. -/
theorem State.kept_countEcc (s : State) (cause : BitVec 6) :
    s.Kept (s.countEcc s.cur.core cause) ∧ (s.countEcc s.cur.core cause).me = s.me := by
  unfold State.countEcc
  split
  · refine ⟨s.kept_count none 0x26 1, ?_⟩
    show (s.count s.cur.core none 0x26 1).seat (s.count s.cur.core none 0x26 1).cur = s.seat s.cur
    rw [State.cur_count]; exact State.seat_count ..
  · exact ⟨State.Kept.refl s, rfl⟩

/-- A seat that is not in trap state has room for its trap. -/
theorem State.trapRoom_of_not (s : State) (h : s.me.inTrap = false) : s.trapRoom s.cur = true := by
  unfold State.trapRoom
  rw [show (s.seat s.cur).inTrap = false from h]
  rfl

/-- A cycle of the watchdog changes its count and its pending state alone. -/
theorem Seat.watch_eq (t : Seat) :
    t.watch = { t with wdCount := t.watch.wdCount, pend := { t.pend with watchdog := t.watch.pend.watchdog } } := by
  unfold Seat.watch
  split
  · rfl
  · split <;> rfl

/-- A precise trap. -/
theorem State.trapped_raise (s : State) (cause : BitVec 6) (tval : Word) (h : s.me.inTrap = false) :
    s.Trapped (s.raise cause tval) cause s.me.pc tval false := by
  have k1 := s.kept_closeHold
  have e1 := s.closeHold_me
  have c1 := s.cur_closeHold s.cur
  unfold State.raise
  rw [if_neg (by rw [s.trapRoom_of_not h]; decide)]
  generalize s.closeHold s.cur = u at k1 e1 c1
  have k2 := u.kept_modHere (fun x => { x with lastSeat := u.cur.seat }) rfl rfl
  have e2 : (u.modHere fun x => { x with lastSeat := u.cur.seat }).me = u.me := by
    show ((u.modHere _).core u.cur.core).seats[u.cur.seat] = (u.core u.cur.core).seats[u.cur.seat]
    rw [show (u.modHere fun x => { x with lastSeat := u.cur.seat }).core u.cur.core = _ from State.core_modCore_self ..]
  dsimp only
  generalize (u.modHere fun x => { x with lastSeat := u.cur.seat }) = v at k2 e2
  obtain ⟨k3, e3⟩ := v.kept_countEcc cause
  have c3 : (v.countEcc v.cur.core cause).cur = v.cur := k3.cur
  have ep : v.me.pc = s.me.pc := by rw [e2.trans e1]
  generalize v.countEcc v.cur.core cause = w0 at k3 e3 c3
  rw [ep, ← c3]
  have kv := (k1.trans k2).trans k3
  have ev : w0.me = { s.me with hold := none, tag := s.charged } := e3.trans (e2.trans e1)
  obtain ⟨w, kw, ew, he⟩ := w0.trap_eq cause s.me.pc tval false (by rw [ev]; exact h)
  rw [he]
  exact State.trapped_of s w _ _ _ _ (kv.trans kw) (ew.trans ev)

/-- A trap of an instruction that has completed. -/
theorem State.trapped_completeTrap (s : State) (f : Form) (cost : Nat) (cause : BitVec 6) (tval : Word)
    (h : s.me.inTrap = false) :
    ∃ u, s.Ran u f.len (debit f.energy) cost ∧
      (u.modMe Seat.watch).Trapped (s.completeTrap f cost cause tval) cause u.me.pc tval false := by
  refine ⟨_, s.ran_complete f cost, ?_⟩
  unfold State.completeTrap
  rw [if_neg (by rw [s.trapRoom_of_not h]; decide)]
  have r := s.ran_complete f cost
  generalize s.complete f cost .seq = v at r
  have hv : (v.modMe Seat.watch).me = v.me.watch := State.me_modMe ..
  have pc : v.me.watch.pc = v.me.pc := by rw [v.me.watch_eq]
  have ht : v.me.watch.inTrap = false := by
    rw [v.me.watch_eq]
    exact (congrArg Seat.inTrap r.still).trans h
  have hh : v.me.watch.hold = none := by rw [v.me.watch_eq]; exact r.hold
  have ep : v.me.pc = (v.modMe Seat.watch).me.pc := by rw [hv, pc]
  dsimp only
  rw [ep]
  rw [← hv] at ht hh
  generalize v.modMe Seat.watch = u at ht hh
  obtain ⟨w, kw, ew, he⟩ := u.trap_eq cause u.me.pc tval false ht
  rw [he]
  refine State.trapped_of u w _ _ _ _ kw ?_
  rw [ew]
  have : u.charged = u.me.tag := by unfold State.charged; rw [hh]
  rw [this, ← hh]

end Sys2Proof.Machine
end

