-- ==== Sys2Proof/Tests/Slice0.lean ====
section
/-!
SUPPORT. Tests of the model: ill-formed terms that the check refuses, words written out from the spec's encodings,
single steps whose results are worked out from the spec, and for each statement of Obligations.lean states and
operands that meet its hypotheses.
-/

namespace Sys2Proof.Tests

set_option Elab.async false

open Sys2Proof Sys2Proof.Machine

/-! ## States -/

/-- A task on seat 0 of core (0, 0, 0) of die 0, in partition 0 of one cluster; seats 1 to 3 have none. -/
def base : State := State.reset.withFetchWord 32 3

/-- The same with values in g2 and g3. -/
def two (x y : Word) : State := (base.setG 2 x).setG 3 y

/-- The task at another privilege, in trap state or not, with a return address. -/
def at_ (p : BitVec 2) (t : Bool) : State := base.modMe fun x =>
  { x with priv := p, inTrap := t, tr := { x.tr with epc := 0x100000000010 } }

/-- A stream program on seat 0. -/
def stream : State := (base.modMe fun x => { x with work := some ⟨.stream, 0, [], none, 0, none, 0, 0⟩ }).modHere
  fun k => { k with modes := k.modes.set 0 0b01 }

/-- The next state, or none. -/
def after (o : Host.Outcome State Fault Refusal) : Option State :=
  match o with
  | .next t => some t
  | _ => none

/-- A register of the executing seat in the next state. -/
def gets (r : Reg) (i : Instr) (s : State) : Option Word := (after (exec i s)).map fun t => t.g r

/-- What holds in the next state. -/
def then_ (i : Instr) (s : State) (p : State → Bool) : Bool := ((after (exec i s)).map p).getD false

/-- The cause that the executing seat takes at the step. -/
def traps (i : Instr) (s : State) : Option (BitVec 6 × Word × Word) :=
  (after (exec i s)).bind fun t => if t.me.inTrap && !s.me.inTrap then some (t.me.tr.cause, t.me.tr.epc, t.me.tr.tval) else none

/-! ## Ill-formed instructions (R118, R122, R169) -/

/-- A vector form with a channel beyond m7. -/
def badChan : VForm := { ty := 2, c := 1, p := 0, vb := 8, va := 2, vd := 1 }

/-- A vector form with a second source. -/
def hasB : VForm := { ty := 2, c := 0, p := 0, vb := 1, va := 2, vd := 1 }

/-- A vector form with a predicate that governs it. -/
def hasP : VForm := { ty := 0, c := 0, p := 1, vb := 0, va := 2, vd := 1 }

theorem test_wf_refuses_scalar_operands : ∀ i ∈ ([.sext 1 2 3, .zext 1 2 3, .fcvt 0 1 2 5, .loopRd 1 6, .loopWr 1 6,
    .loopLeave 2, .loopArm 0 1 1, .loopArmi 0 1 1, .fenceAcq 6, .fenceRel 6, .fenceSc 6, .qtry 1 1 0, .nsend 1 4,
    .claim 1 2 1, .deqTry 1 2 1, .epop 1 3, .chrd 1 7, .acrd 1 2 4, .tlbinv 1 3] : List Instr), i.wf = false := by
  decide +kernel

theorem test_wf_refuses_channels : ∀ i ∈ ([.vadd badChan, .vsub badChan, .vmul badChan, .vmadd badChan,
    .vmsub badChan, .vmin badChan, .vmax badChan, .vdot badChan, .vcmp badChan, .vaddFp badChan, .vsubFp badChan,
    .vmulFp badChan, .vmaddFp badChan, .vmsubFp badChan, .vminFp badChan, .vmaxFp badChan, .vdotFp badChan,
    .vcmpFp badChan, .vand badChan, .vor badChan, .vxor badChan, .vshl badChan, .vshr badChan, .vsra badChan,
    .vsel badChan, .vperm badChan, .vgath badChan, .vscat badChan, .vshift badChan, .vld badChan, .vst badChan,
    .vldb badChan] : List Instr), i.wf = false := by
  decide +kernel

theorem test_wf_refuses_second_sources : ∀ i ∈ ([.vabs hasB, .vneg hasB, .vredAdd hasB, .vredMax hasB, .vredMin hasB,
    .vabsFp hasB, .vnegFp hasB, .vredAddFp hasB, .vredMaxFp hasB, .vredMinFp hasB, .vbcast hasB, .pnot hasB,
    .pcount hasB, .pfirst hasB, .vwidth hasB, .vabs badChan, .vbcast badChan] : List Instr), i.wf = false := by
  decide +kernel

theorem test_wf_refuses_types_and_predicates : ∀ i ∈ ([.vdot hasP, .vdotFp hasP, .vldt hasB, .vstt hasB,
    .vsf { hasP with ty := 3 }, .vsf { hasP with vb := 8 }, .vcvt { hasP with ty := 2 }, .vcvt { hasP with vb := 19 },
    .pand hasP, .por hasP, .pxor hasP, .pnot hasP, .pcount hasP, .pfirst hasP, .vbound hasP, .vwidth hasP,
    .pand { hasP with p := 0, vb := 8 }, .por { hasP with p := 0, va := 8 }, .pxor { hasP with p := 0, vd := 8 },
    .pcount { hasP with p := 0, va := 8 }, .vbound { hasP with p := 0, vd := 8 },
    .vldt { hasP with vb := 16 }, .vstt { hasP with vb := 16 }] : List Instr), i.wf = false := by
  decide +kernel

theorem test_wf_refuses_parcels : ∀ i ∈ ([.sub16 0 1, .addi16 0 1, .and16 0 1, .or16 0 1, .xor16 0 1, .mov16 0 1,
    .andi16 0 1, .srli16 0 1, .ldD16 0 1, .ldWz16 0 1, .ldBz16 0 1, .amoAddD16 0 1, .slt16 0 1, .sll16 0 1,
    .srl16 0 1, .sra16 0 1, .srai16 0 1, .mul16 0 1, .min16 0 1, .max16 0 1, .ldDG416 0 1, .ldDG316 0 1,
    .andn16 0 1, .faddF3216 0 1, .fsubF3216 0 1, .fmulF3216 0 1, .faddF6416 0 1, .fsubF6416 0 1, .fmulF6416 0 1,
    .epop16 0 1, .epop16 1 3, .qget16 0 1, .qget16 1 8, .chrd16 0 1, .chrd16 1 7] : List Instr), i.wf = false := by
  decide +kernel

/-! ## Words written out from the encodings of the spec (R104 to R121)

Each word stands in its fields from bit 31, or 15, down; the opcode map of the spec fixes the others. -/

theorem test_decode_integer : ∀ x ∈ (
    [(0b000000_01011_10010_00001_0000000_00_11, .add 1 18 11),
     (0b000001_01011_10010_00001_0000000_00_11, .sub 1 18 11),
     (0b000010_01011_10010_00001_0000000_00_11, .and 1 18 11),
     (0b000011_01011_10010_00001_0000000_00_11, .or 1 18 11),
     (0b000100_01011_10010_00001_0000000_00_11, .xor 1 18 11),
     (0b000101_01011_10010_00001_0000000_00_11, .andn 1 18 11),
     (0b000110_01011_10010_00001_0000000_00_11, .orn 1 18 11),
     (0b000111_01011_10010_00001_0000000_00_11, .min 1 18 11),
     (0b001000_01011_10010_00001_0000000_00_11, .max 1 18 11),
     (0b001001_01011_10010_00001_0000000_00_11, .minz 1 18 11),
     (0b001010_01011_10010_00001_0000000_00_11, .maxz 1 18 11),
     (0b001011_01011_10010_00001_0000000_00_11, .sll 1 18 11),
     (0b001100_01011_10010_00001_0000000_00_11, .srl 1 18 11),
     (0b001101_01011_10010_00001_0000000_00_11, .sra 1 18 11),
     (0b001110_01011_10010_00001_0000000_00_11, .rol 1 18 11),
     (0b001111_01011_10010_00001_0000000_00_11, .ror 1 18 11),
     (0b010000_01011_10010_00001_0000000_00_11, .slt 1 18 11),
     (0b010001_01011_10010_00001_0000000_00_11, .sltz 1 18 11),
     (0b010010_01011_10010_00001_0000000_01_11, .div 1 18 11),
     (0b010011_01011_10010_00001_0000000_01_11, .divz 1 18 11),
     (0b010100_01011_10010_00001_0000000_01_11, .rem 1 18 11),
     (0b010101_01011_10010_00001_0000000_01_11, .remz 1 18 11),
     (0b010110_01011_10010_00001_0000000_01_11, .mul 1 18 11),
     (0b010111_01011_10010_00001_0000000_01_11, .mulh 1 18 11),
     (0b011000_01011_10010_00001_0000000_01_11, .mulhz 1 18 11),
     (0b01100100000_10010_00001_0000000_00_11, .clz 1 18), (0b01101000000_10010_00001_0000000_00_11, .ctz 1 18),
     (0b01101100000_10010_00001_0000000_00_11, .popc 1 18),
     (0b011100_00010_10010_00001_0000000_00_11, .sext 1 18 2),
     (0b011101_00001_10010_00001_0000000_00_11, .zext 1 18 1),
     (0b011110_01011_10010_00001_0000000_00_11, .bext 1 18 11),
     (0b011111_01011_10010_00001_0000000_00_11, .bins 1 18 11),
     (0b10110001101_10010_00001_0000001_00_11, .addi 1 18 1421),
     (0b10110001101_10010_00001_0000010_00_11, .andi 1 18 1421),
     (0b10110001101_10010_00001_0000011_00_11, .ori 1 18 1421),
     (0b10110001101_10010_00001_0000100_00_11, .xori 1 18 1421),
     (0b10110001101_10010_00001_0000101_00_11, .slti 1 18 1421),
     (0b00000_101101_10010_00001_0000110_00_11, .slli 1 18 45),
     (0b00000_101101_10010_00001_0000111_00_11, .srli 1 18 45),
     (0b00000_101101_10010_00001_0001000_00_11, .srai 1 18 45),
     (0b1011000110100111_00001_0001100_00_11, .lui 1 45479),
     (0b1011000110100111_00001_0001101_00_11, .addpc 1 45479)] : List (BitVec 32 × Instr)),
    (decode (.w32 x.1)).toOption = some x.2 := by decide +kernel

theorem test_decode_floating_point : ∀ x ∈ (
    [(0b1_00000_01011_10010_00001_0001110_01_11, .fadd 1 1 18 11),
     (0b1_00001_01011_10010_00001_0001110_01_11, .fsub 1 1 18 11),
     (0b1_00010_01011_10010_00001_0001110_01_11, .fmul 1 1 18 11),
     (0b1_00011_01011_10010_00001_0001110_01_11, .fdiv 1 1 18 11),
     (0b1_0010000000_10010_00001_0001110_01_11, .fsqrt 1 1 18),
     (0b1_00101_01011_10010_00001_0001110_01_11, .fma 1 1 18 11),
     (0b1_00110_01011_10010_00001_0001110_01_11, .fmin 1 1 18 11),
     (0b1_00111_01011_10010_00001_0001110_01_11, .fmax 1 1 18 11),
     (0b1_01000_01011_10010_00001_0001110_01_11, .fcmpEq 1 1 18 11),
     (0b1_01001_01011_10010_00001_0001110_01_11, .fcmpLt 1 1 18 11),
     (0b1_01010_01011_10010_00001_0001110_01_11, .fcmpLe 1 1 18 11),
     (0b1_0101100000_10010_00001_0001110_01_11, .fclass 1 1 18),
     (0b1_01100_01011_10010_00001_0001110_01_11, .fsgn 1 1 18 11),
     (0b1_01101_01011_10010_00001_0001110_01_11, .fsgnN 1 1 18 11),
     (0b1_01110_01011_10010_00001_0001110_01_11, .fsgnX 1 1 18 11)] : List (BitVec 32 × Instr)),
    (decode (.w32 x.1)).toOption = some x.2 := by decide +kernel

theorem test_decode_control : ∀ x ∈ (
    [(0b1_01111_00100_10010_00001_0001110_01_11, .fcvt 1 1 18 4),
     (0b10110001101_01011_10010_0010000_00_11, .bEq 18 11 1421),
     (0b10110001101_01011_10010_0010001_00_11, .bNe 18 11 1421),
     (0b10110001101_01011_10010_0010010_00_11, .bLt 18 11 1421),
     (0b10110001101_01011_10010_0010011_00_11, .bGe 18 11 1421),
     (0b101100011010011100101_0010100_00_11, .j 1455333), (0b101100011010011100101_0010101_00_11, .jal 1455333),
     (0b00001100000_10010_00001_0010110_00_11, .jalr 1 18), (0b000000_00101_00000_00001_0010110_00_11, .loopRd 1 5),
     (0b000001_00100_10010_00000_0010110_00_11, .loopWr 18 4),
     (0b000010_00001_0000000000_0010110_00_11, .loopLeave 1),
     (0b10110001101_10010_0000_1_0010111_00_11, .loopArm 1 18 1421),
     (0b10110001101_10110_0001_1_0010111_00_11, .loopArmi 1 22 1421)] : List (BitVec 32 × Instr)),
    (decode (.w32 x.1)).toOption = some x.2 := by decide +kernel

theorem test_decode_memory : ∀ x ∈ (
    [(0b000000_01011_10010_00001_0011111_01_11, .ldBs 1 18 11),
     (0b000001_01011_10010_00001_0011111_01_11, .ldBz 1 18 11),
     (0b000010_01011_10010_00001_0011111_01_11, .ldHs 1 18 11),
     (0b000011_01011_10010_00001_0011111_01_11, .ldHz 1 18 11),
     (0b000100_01011_10010_00001_0011111_01_11, .ldWs 1 18 11),
     (0b000101_01011_10010_00001_0011111_01_11, .ldWz 1 18 11),
     (0b000110_01011_10010_00001_0011111_01_11, .ldD 1 18 11),
     (0b001000_01011_10010_00001_0011111_01_11, .stB 1 18 11),
     (0b001001_01011_10010_00001_0011111_01_11, .stH 1 18 11),
     (0b001010_01011_10010_00001_0011111_01_11, .stW 1 18 11),
     (0b001011_01011_10010_00001_0011111_01_11, .stD 1 18 11),
     (0b001100_01011_10010_00001_0011111_01_11, .ldAcq 1 18 11),
     (0b001101_01011_10010_00001_0011111_01_11, .stRel 1 18 11),
     (0b001110_01011_10010_00000_0011111_01_11, .pf 18 11),
     (0b10110001101_10010_00001_0011000_01_11, .ldWsImm 1 18 1421),
     (0b10110001101_10010_00001_0011001_01_11, .ldWzImm 1 18 1421),
     (0b10110001101_10010_00001_0011010_01_11, .ldDImm 1 18 1421),
     (0b10110001101_10010_00001_0011011_01_11, .stWImm 1 18 1421),
     (0b10110001101_10010_00001_0011100_01_11, .stDImm 1 18 1421),
     (0b00_1011_01011_10010_00001_0011110_01_11, .tld 11 1 18 11),
     (0b10_1011_01011_10010_00001_0011110_01_11, .tst 11 1 18 11),
     (0b10_0000_01011_10010_00001_010000_1_01_11, .amoAdd 1 2 1 18 11),
     (0b10_0001_01011_10010_00001_010000_1_01_11, .amoAnd 1 2 1 18 11),
     (0b10_0010_01011_10010_00001_010000_1_01_11, .amoOr 1 2 1 18 11),
     (0b10_0011_01011_10010_00001_010000_1_01_11, .amoXor 1 2 1 18 11),
     (0b10_0100_01011_10010_00001_010000_1_01_11, .amoMin 1 2 1 18 11),
     (0b10_0101_01011_10010_00001_010000_1_01_11, .amoMax 1 2 1 18 11),
     (0b10_0110_01011_10010_00001_010000_1_01_11, .amoMinz 1 2 1 18 11),
     (0b10_0111_01011_10010_00001_010000_1_01_11, .amoMaxz 1 2 1 18 11),
     (0b10_1000_01011_10010_00001_010000_1_01_11, .amoSwap 1 2 1 18 11),
     (0b10_1001_01011_10010_00001_010000_1_01_11, .amoFadd 1 2 1 18 11),
     (0b10_1010_01011_10010_00001_010000_1_01_11, .cas 1 2 1 18 11),
     (0b000000_00101_0000000000_0100010_00_11, .fenceAcq 5), (0b000001_00100_0000000000_0100010_00_11, .fenceRel 4),
     (0b000010_00011_0000000000_0100010_00_11, .fenceSc 3), (0b000011000000000000000_0100010_00_11, .sdrain),
     (0b000100000000000000000_0100010_00_11, .ifence)] : List (BitVec 32 × Instr)),
    (decode (.w32 x.1)).toOption = some x.2 := by decide +kernel

theorem test_decode_messages_and_tasks : ∀ x ∈ (
    [(0b00000_101101_10010_00001_0101000_01_11, .send 1 18 45),
     (0b00000_101101_10010_00001_0101001_01_11, .sendg 1 18 45),
     (0b00000_101101_10010_00001_0101010_01_11, .sendc 1 18 45),
     (0b00000_101101_10010_00001_0101011_01_11, .msend 1 18 45),
     (0b00000000_101_10010_00000_0101100_00_11, .qput 5 18), (0b00000100_101_00000_00001_0101100_00_11, .qget 1 5),
     (0b00001000_101_00111_00001_0101100_00_11, .qtry 1 7 5), (0b00001100_101_00000_00001_0101100_00_11, .qcnt 1 5),
     (0b000000_00010_10010_00000_0101101_01_11, .nsend 18 2), (0b00000100000_10010_00001_0101101_00_11, .wfm 1 18),
     (0b00001000000_10010_00000_0101101_00_11, .clen 18), (0b00001100000_10010_00000_0101101_00_11, .cldis 18),
     (0b0001000000000000_00001_0101101_00_11, .clpend 1), (0b000101000000000000000_0101101_00_11, .exit),
     (0b00000_101101_00000_00001_0110000_01_11, .spawn 1 45),
     (0b10110001101_10010_00001_0110001_01_11, .fork 1 18 1421),
     (0b10110001101_10010_00000_0110010_01_11, .join 18 1421),
     (0b000000_01011_10010_00001_0110011_01_11, .claim 1 18 11),
     (0b000000_01011_10010_00001_0110100_01_11, .enq 1 18 11), (0b00000100000_10010_00001_0110100_01_11, .deq 1 18),
     (0b000010_10110_10010_00001_0110100_01_11, .deqTry 1 18 22),
     (0b00000_101101_10010_00000_0110101_00_11, .prio 18 45)] : List (BitVec 32 × Instr)),
    (decode (.w32 x.1)).toOption = some x.2 := by decide +kernel

theorem test_decode_engines_and_system : ∀ x ∈ (
    [(0b00000000000_10010_00000_0111000_01_11, .mxpush 18), (0b00000100000_10010_00000_0111000_01_11, .cppush 18),
     (0b00001000000_10010_00000_0111000_01_11, .snpush 18), (0b000000_00010_00000_00001_0111001_00_11, .epop 1 2),
     (0b10110001101_0000000_101_0111010_00_11, .dwait 5 1421),
     (0b00000000_101_10010_00001_0111011_00_11, .drd 1 5 18),
     (0b00000000000000_10_00001_0111100_01_11, .compose 1 2), (0b000000000000000000000_0111101_01_11, .release),
     (0b0000010000000000_00001_0111101_01_11, .benchq 1), (0b000000_00110_00000_00001_0111110_00_11, .chrd 1 6),
     (0b000001_01011_10010_00000_0111110_00_11, .chmerge 18 11),
     (0b000001_01011_10010_00001_0111110_00_11, .chmergeLast 18 11),
     (0b00001000000_10010_00000_0111110_00_11, .chadd 18), (0b000011_01011_10010_00000_0111110_00_11, .chwr 18 11),
     (0b000100_00011_10010_00001_0111110_00_11, .acrd 1 18 3),
     (0b010000_01011_10010_00000_0111110_00_11, .trap 18 11), (0b010001000000000000000_0111110_00_11, .eret),
     (0b010010_10110_0000000000_0111110_00_11, .brk 22), (0b010011000000000000000_0111110_00_11, .svc),
     (0b01010000000_10010_00001_0111110_00_11, .sfqPop 1 18), (0b010101000000000000000_0111110_00_11, .sfqReplay),
     (0b010110000000000000000_0111110_00_11, .grpcancel), (0b010111_00010_10010_00000_0111110_00_11, .tlbinv 18 2),
     (0b01100000000_10010_00000_0111110_00_11, .ctxsave 18), (0b01100100000_10010_00000_0111110_00_11, .ctxload 18),
     (0b0000_001100000101_00001_0111111_00_11, .crr 773 1), (0b0001_001100000101_00001_0111111_00_11, .crw 773 1),
     (0b0010_001100000101_00001_0111111_00_11, .crset 773 1),
     (0b0011_001100000101_00001_0111111_00_11, .crclr 773 1)] : List (BitVec 32 × Instr)),
    (decode (.w32 x.1)).toOption = some x.2 := by decide +kernel

theorem test_decode_vector_1 : ∀ x ∈ (
    [(0b10_0_101_01011_10010_00001_1000000_01_11, .vadd { ty := 2, c := 0, p := 5, vb := 11, va := 18, vd := 1 }),
     (0b10_0_101_01011_10010_00001_1000001_01_11, .vsub { ty := 2, c := 0, p := 5, vb := 11, va := 18, vd := 1 }),
     (0b10_0_101_01011_10010_00001_1000010_01_11, .vmul { ty := 2, c := 0, p := 5, vb := 11, va := 18, vd := 1 }),
     (0b10_0_101_01011_10010_00001_1000011_01_11, .vmadd { ty := 2, c := 0, p := 5, vb := 11, va := 18, vd := 1 }),
     (0b10_0_101_01011_10010_00001_1000100_01_11, .vmsub { ty := 2, c := 0, p := 5, vb := 11, va := 18, vd := 1 }),
     (0b10_0_101_01011_10010_00001_1000101_01_11, .vmin { ty := 2, c := 0, p := 5, vb := 11, va := 18, vd := 1 }),
     (0b10_0_101_01011_10010_00001_1000110_01_11, .vmax { ty := 2, c := 0, p := 5, vb := 11, va := 18, vd := 1 }),
     (0b10_0_101_00000_10010_00001_1000111_01_11, .vabs { ty := 2, c := 0, p := 5, vb := 0, va := 18, vd := 1 }),
     (0b10_0_101_00000_10010_00001_1001000_01_11, .vneg { ty := 2, c := 0, p := 5, vb := 0, va := 18, vd := 1 }),
     (0b10_0_101_01011_10010_00001_1001001_10_11, .vdot { ty := 2, c := 0, p := 5, vb := 11, va := 18, vd := 1 }),
     (0b10_0_101_01011_10010_00001_1001010_01_11, .vcmp { ty := 2, c := 0, p := 5, vb := 11, va := 18, vd := 1 }),
     (0b10_0_101_00000_10010_00001_1001011_10_11, .vredAdd { ty := 2, c := 0, p := 5, vb := 0, va := 18, vd := 1 }),
     (0b10_0_101_00000_10010_00001_1001100_10_11, .vredMax { ty := 2, c := 0, p := 5, vb := 0, va := 18, vd := 1 }),
     (0b10_0_101_00000_10010_00001_1001101_10_11, .vredMin { ty := 2, c := 0, p := 5, vb := 0, va := 18, vd := 1 }),
     (0b10_0_101_01011_10010_00001_1010000_10_11, .vaddFp { ty := 2, c := 0, p := 5, vb := 11, va := 18, vd := 1 }),
     (0b10_0_101_01011_10010_00001_1010001_10_11, .vsubFp { ty := 2, c := 0, p := 5, vb := 11, va := 18, vd := 1 }),
     (0b10_0_101_01011_10010_00001_1010010_10_11, .vmulFp { ty := 2, c := 0, p := 5, vb := 11, va := 18, vd := 1 }),
     (0b10_0_101_01011_10010_00001_1010011_10_11, .vmaddFp { ty := 2, c := 0, p := 5, vb := 11, va := 18, vd := 1 }),
     (0b10_0_101_01011_10010_00001_1010100_10_11, .vmsubFp { ty := 2, c := 0, p := 5, vb := 11, va := 18, vd := 1 }),
     (0b10_0_101_01011_10010_00001_1010101_10_11, .vminFp { ty := 2, c := 0, p := 5, vb := 11, va := 18, vd := 1 }),
     (0b10_0_101_01011_10010_00001_1010110_10_11, .vmaxFp { ty := 2, c := 0, p := 5, vb := 11, va := 18, vd := 1 }),
     (0b10_0_101_00000_10010_00001_1010111_10_11, .vabsFp { ty := 2, c := 0, p := 5, vb := 0, va := 18, vd := 1 }),
     (0b10_0_101_00000_10010_00001_1011000_10_11, .vnegFp { ty := 2, c := 0, p := 5, vb := 0, va := 18, vd := 1 }),
     (0b10_0_101_01011_10010_00001_1011001_11_11, .vdotFp { ty := 2, c := 0, p := 5, vb := 11, va := 18, vd := 1 }),
     (0b10_0_101_01011_10010_00001_1011010_10_11, .vcmpFp { ty := 2, c := 0, p := 5, vb := 11, va := 18, vd := 1 }),
     (0b10_0_101_00000_10010_00001_1011011_10_11, .vredAddFp { ty := 2, c := 0, p := 5, vb := 0, va := 18, vd := 1 })] : List (BitVec 32 × Instr)),
    (decode (.w32 x.1)).toOption = some x.2 := by decide +kernel

theorem test_decode_vector_2 : ∀ x ∈ (
    [
     (0b10_0_101_00000_10010_00001_1011100_10_11, .vredMaxFp { ty := 2, c := 0, p := 5, vb := 0, va := 18, vd := 1 }),
     (0b10_0_101_00000_10010_00001_1011101_10_11, .vredMinFp { ty := 2, c := 0, p := 5, vb := 0, va := 18, vd := 1 }),
     (0b10_0_101_01011_10010_00001_1100000_01_11, .vand { ty := 2, c := 0, p := 5, vb := 11, va := 18, vd := 1 }),
     (0b10_0_101_01011_10010_00001_1100001_01_11, .vor { ty := 2, c := 0, p := 5, vb := 11, va := 18, vd := 1 }),
     (0b10_0_101_01011_10010_00001_1100010_01_11, .vxor { ty := 2, c := 0, p := 5, vb := 11, va := 18, vd := 1 }),
     (0b10_0_101_01011_10010_00001_1100011_01_11, .vshl { ty := 2, c := 0, p := 5, vb := 11, va := 18, vd := 1 }),
     (0b10_0_101_01011_10010_00001_1100100_01_11, .vshr { ty := 2, c := 0, p := 5, vb := 11, va := 18, vd := 1 }),
     (0b10_0_101_01011_10010_00001_1100101_01_11, .vsra { ty := 2, c := 0, p := 5, vb := 11, va := 18, vd := 1 }),
     (0b10_0_101_01011_10010_00001_1100110_01_11, .vsel { ty := 2, c := 0, p := 5, vb := 11, va := 18, vd := 1 }),
     (0b10_0_101_00000_10010_00001_1100111_01_11, .vbcast { ty := 2, c := 0, p := 5, vb := 0, va := 18, vd := 1 }),
     (0b10_0_101_01011_10010_00001_1101000_01_11, .vperm { ty := 2, c := 0, p := 5, vb := 11, va := 18, vd := 1 }),
     (0b10_0_101_01011_10010_00001_1101001_01_11, .vshift { ty := 2, c := 0, p := 5, vb := 11, va := 18, vd := 1 }),
     (0b01_0_101_00001_10010_00001_1101010_01_11, .vcvt { ty := 1, c := 0, p := 5, vb := 1, va := 18, vd := 1 }),
     (0b10_0_101_00_011_10010_00001_1101011_11_11, .vsf { ty := 2, c := 0, p := 5, vb := 3, va := 18, vd := 1 }),
     (0b00000000_011_00_110_00_101_1101100_00_11, .pand { ty := 0, c := 0, p := 0, vb := 3, va := 6, vd := 5 }),
     (0b00000000_011_00_110_00_101_1101101_00_11, .por { ty := 0, c := 0, p := 0, vb := 3, va := 6, vd := 5 }),
     (0b00000000_011_00_110_00_101_1101110_00_11, .pxor { ty := 0, c := 0, p := 0, vb := 3, va := 6, vd := 5 }),
     (0b0000000000000_110_00_101_1101111_00_11, .pnot { ty := 0, c := 0, p := 0, vb := 0, va := 6, vd := 5 }),
     (0b10_00000000000_110_00001_1110000_00_11, .pcount { ty := 2, c := 0, p := 0, vb := 0, va := 6, vd := 1 }),
     (0b10_00000000000_110_00001_1110001_00_11, .pfirst { ty := 2, c := 0, p := 0, vb := 0, va := 6, vd := 1 }),
     (0b10_0000_01011_10010_00_101_1110010_00_11, .vbound { ty := 2, c := 0, p := 0, vb := 11, va := 18, vd := 5 }),
     (0b10_00000000000000_00001_1110011_00_11, .vwidth { ty := 2, c := 0, p := 0, vb := 0, va := 0, vd := 1 }),
     (0b10_0_101_01011_10010_00001_1111000_01_11, .vld { ty := 2, c := 0, p := 5, vb := 11, va := 18, vd := 1 }),
     (0b10_0_101_01011_10010_00001_1111001_01_11, .vst { ty := 2, c := 0, p := 5, vb := 11, va := 18, vd := 1 }),
     (0b000_101_0_1011_10010_00001_1111010_01_11, .vldt { ty := 0, c := 0, p := 5, vb := 11, va := 18, vd := 1 }),
     (0b000_101_0_1011_10010_00001_1111011_01_11, .vstt { ty := 0, c := 0, p := 5, vb := 11, va := 18, vd := 1 })] : List (BitVec 32 × Instr)),
    (decode (.w32 x.1)).toOption = some x.2 := by decide +kernel

theorem test_decode_vector_3 : ∀ x ∈ (
    [(0b10_0_101_01011_10010_00001_1111100_10_11, .vgath { ty := 2, c := 0, p := 5, vb := 11, va := 18, vd := 1 }),
     (0b10_0_101_01011_10010_00001_1111101_10_11, .vscat { ty := 2, c := 0, p := 5, vb := 11, va := 18, vd := 1 }),
     (0b10_0_101_01011_10010_00001_1111110_01_11, .vldb { ty := 2, c := 0, p := 5, vb := 11, va := 18, vd := 1 })] : List (BitVec 32 × Instr)),
    (decode (.w32 x.1)).toOption = some x.2 := by decide +kernel

theorem test_decode_parcels_1 : ∀ x ∈ (
    [(0b10010_00001_0000_00, .sub16 1 18), (0b10110_00001_0001_00, .addi16 1 22),
     (0b10010_00001_0010_00, .and16 1 18), (0b10010_00001_0011_00, .or16 1 18),
     (0b10010_00001_0100_00, .xor16 1 18), (0b10010_00001_0101_00, .mov16 1 18),
     (0b10110_00001_0110_00, .andi16 1 22), (0b10110_00001_0111_00, .srli16 1 22),
     (0b10010_00001_1000_00, .ldD16 1 18), (0b10010_00001_1001_00, .stD16 1 18),
     (0b10010_00001_1010_00, .ldWz16 1 18), (0b10010_00001_1011_00, .ldBz16 1 18),
     (0b10010_00001_1100_00, .stB16 1 18), (0b10010_00001_1101_00, .amoAddD16 1 18),
     (0b10110_00001_1110_00, .sendc16 1 22), (0b0000000000_1111_00, .exit16), (0b10010_00001_0000_01, .slt16 1 18),
     (0b10010_00001_0001_01, .sll16 1 18), (0b10010_00001_0010_01, .srl16 1 18),
     (0b10010_00001_0011_01, .sra16 1 18), (0b10110_00001_0100_01, .srai16 1 22),
     (0b10010_00001_0101_01, .mul16 1 18), (0b10010_00001_0110_01, .min16 1 18),
     (0b10010_00001_0111_01, .max16 1 18), (0b10110_00001_1000_01, .bLt16 1 22),
     (0b10110_00001_1001_01, .bGe16 1 22)] : List (BitVec 16 × Instr)),
    (decode (.w16 x.1)).toOption = some x.2 := by decide +kernel

theorem test_decode_parcels_2 : ∀ x ∈ (
    [(0b1011000111_1010_01, .j16 711), (0b10010_00001_1011_01, .jalr16 1 18),
     (0b10110_00001_1100_01, .ldDG416 1 22), (0b10110_00001_1101_01, .stDG416 1 22),
     (0b10110_00001_1110_01, .ldDG316 1 22), (0b10010_00001_1111_01, .andn16 1 18),
     (0b10010_00001_0000_10, .faddF3216 1 18), (0b10010_00001_0001_10, .fsubF3216 1 18),
     (0b10010_00001_0010_10, .fmulF3216 1 18), (0b10010_00001_0011_10, .faddF6416 1 18),
     (0b10010_00001_0100_10, .fsubF6416 1 18), (0b10010_00001_0101_10, .fmulF6416 1 18),
     (0b10110_00_101_0110_10, .dwait16 5 22), (0b00010_00001_0111_10, .epop16 1 2),
     (0b10010_00_101_1000_10, .qput16 5 18), (0b00111_00001_1001_10, .qget16 1 7),
     (0b00110_00001_1010_10, .chrd16 1 6)] : List (BitVec 16 × Instr)),
    (decode (.w16 x.1)).toOption = some x.2 := by decide +kernel

theorem test_decode_refuses_reserved : (([0b000000_00011_00010_00001_0000000_10_11,
    0b000001_00000_00000_00001_0000000_11_11, 0xFFFFFFFF, 0b011101_00011_00010_00001_0000000_00_11,
    0b0_10000_11111_00010_00001_0001110_01_11] : List (BitVec 32)).all fun w =>
    (decode (.w32 w)).toOption.isNone) = true := by decide +kernel

theorem test_decode_refuses_reserved_parcels : (([0, 0b00001_00000_0001_00] : List (BitVec 16)).all fun w =>
    (decode (.w16 w)).toOption.isNone) = true := by decide +kernel

/-! ## Single steps -/

theorem test_step_runs_the_word : ((after (step (State.reset.withFetchWord 32
    0b00000101011_00000_00001_0000001_00_11))).map fun t => (t.g 1, t.me.pc)) = some (43, 0x100000000004) := by
  decide +kernel

theorem test_add_wraps : gets 1 (.add 1 2 3) (two 0xFFFFFFFFFFFFFFFF 2) = some 1 := by decide +kernel

theorem test_g0_stays_zero : gets 0 (.add 0 2 3) (two 1 2) = some 0 := by decide +kernel

theorem test_sub_order : gets 1 (.sub 1 2 3) (two 3 5) = some 0xFFFFFFFFFFFFFFFE := by decide +kernel

theorem test_sltz_unsigned : gets 1 (.sltz 1 2 3) (two 1 0xFFFFFFFFFFFFFFFF) = some 1 := by decide +kernel

theorem test_min_signed : gets 1 (.min 1 2 3) (two 1 0xFFFFFFFFFFFFFFFF) = some 0xFFFFFFFFFFFFFFFF := by decide +kernel

theorem test_sra_amount_modulo_64 : gets 1 (.sra 1 2 3) (two 0x8000000000000000 65) = some 0xC000000000000000 := by
  decide +kernel

theorem test_ror_by_zero : gets 1 (.ror 1 2 3) (two 5 64) = some 5 := by decide +kernel

theorem test_div_by_zero : gets 1 (.div 1 2 3) (two 7 0) = some 0xFFFFFFFFFFFFFFFF := by decide +kernel

theorem test_div_overflow : gets 1 (.div 1 2 3) (two 0x8000000000000000 0xFFFFFFFFFFFFFFFF) =
    some 0x8000000000000000 := by decide +kernel

theorem test_rem_sign_of_dividend : gets 1 (.rem 1 2 3) (two 0xFFFFFFFFFFFFFFF9 2) = some 0xFFFFFFFFFFFFFFFF := by
  decide +kernel

theorem test_mulh_signs : gets 1 (.mulh 1 2 3) (two 0xFFFFFFFFFFFFFFFF 1) = some 0xFFFFFFFFFFFFFFFF := by decide +kernel

theorem test_clz_of_zero : gets 1 (.clz 1 2) (two 0 0) = some 64 := by decide +kernel

theorem test_bext_clips_at_the_top : gets 1 (.bext 1 2 3) (two 0xF000000000000000 ((7 <<< 6) + 60)) = some 0xF := by
  decide +kernel

theorem test_addi_negative : gets 1 (.addi 1 2 0x7FF) (two 5 0) = some 4 := by decide +kernel

theorem test_lui_sign : gets 1 (.lui 1 0x8001) base = some 0xFFFFFFFF80010000 := by decide +kernel

theorem test_fadd_one_and_one : gets 1 (.fadd 1 1 2 3) (two 0x3FF0000000000000 0x3FF0000000000000) =
    some 0x4000000000000000 := by decide +kernel

theorem test_fdiv_by_zero_sets_dz : then_ (.fdiv 0 1 2 3) (two 0x3F800000 0)
    (fun t => t.g 1 = 0x7F800000 && t.me.fflags = flagDZ) = true := by decide +kernel

theorem test_fcvt_saturates : gets 1 (.fcvt 1 1 2 0) (two 0x7FF0000000000000 0) = some 0x7FFFFFFFFFFFFFFF := by
  decide +kernel

theorem test_branch_taken : then_ (.bLt 2 3 0x7FE) (two 0xFFFFFFFFFFFFFFFF 0)
    (fun t => t.me.pc = 0x0FFFFFFFFFFC) = true := by decide +kernel

theorem test_jal_links : then_ (.jal 8) base (fun t => t.g 1 = 0x100000000004 && t.me.pc = 0x100000000010) = true := by
  decide +kernel

theorem test_jalr_odd_target_traps : traps (.jalr 1 2) (two 9 0) = some (2, 0x100000000000, 9) := by decide +kernel

theorem test_privileged_read_traps : (traps (.crr 0x820 1) base).map Prod.fst = some 1 := by decide +kernel

theorem test_svc_returns_behind_itself : traps .svc base = some (14, 0x100000000004, 0) := by decide +kernel

theorem test_eret_outside_trap : (traps .eret base).map Prod.fst = some 0 := by decide +kernel

theorem test_eret_goes_to_epc : then_ .eret (at_ 1 true) (fun t => t.me.pc = 0x100000000010 && !t.me.inTrap) = true := by
  decide +kernel

theorem test_load_sign : gets 1 (.ldBs 1 2 3)
    ({ two 5 1 with mem := (two 5 1).mem.writeAll [(0x80000000006, 0x80)] }) = some 0xFFFFFFFFFFFFFF80 := by
  decide +kernel

theorem test_load_misaligned : traps (.ldD 1 2 3) (two 4 0) = some (2, 0x100000000000, 4) := by decide +kernel

theorem test_load_nowhere : traps (.ldD 1 2 3) (two 0x8000 0) = some (5, 0x100000000000, 0x8000) := by decide +kernel

theorem test_store_waits_in_the_buffer : then_ (.stW 1 2 3) ((two 8 0).setG 1 0x1122334455667788)
    (fun t => decide (t.here.sb.map (fun e => (e.va, e.bytes)) = [(8, [some 0x88, some 0x77, some 0x66, some 0x55])]) &&
      t.mem.read 0x80000000008 = 0) = true := by decide +kernel

theorem test_store_is_forwarded : ((after (exec (.stD 2 0 3) (two 0x1234 8))).bind fun t =>
    gets 1 (.ldHz 1 0 3) t) = some 0x1234 := by decide +kernel

theorem test_amo_returns_the_old_value : then_ (.amoAdd 0 0 1 2 3)
    ({ two 8 1 with mem := (two 8 1).mem.writeAll [(0x80000000008, 5)] })
    (fun t => t.g 1 = 5 && t.mem.read 0x80000000008 = 6) = true := by decide +kernel

theorem test_loop_setup : then_ (.loopArmi 0 3 4) base (fun t => decide (t.me.loops =
    #v[3, 0x100000000004, 0x100000000008, 0, 0, 0])) = true := by decide +kernel

theorem test_loop_end_goes_back : then_ (.add 1 0 0)
    (base.modMe fun x => { x with loops := #v[2, 0x100000000000, 0x100000000000, 0, 0, 0] })
    (fun t => t.me.pc = 0x100000000000 && t.me.loops[0] = 1) = true := by decide +kernel

theorem test_exit_frees_the_seat : then_ .exit base (fun t => t.me.work.isNone) = true := by decide +kernel

theorem test_qput_then_qget : ((after (exec (.qput 3 2) (two 77 0))).bind fun t => gets 1 (.qget 1 3) t) = some 77 := by
  decide +kernel

theorem test_fork_with_the_deque_off : gets 1 (.fork 1 2 8) (two 0 0) = some 0 := by decide +kernel

theorem test_vadd_wraps_in_its_element : then_ (.vadd { ty := 0, c := 0, p := 0, vb := 3, va := 2, vd := 1 })
    (base.modMe fun x => { x with v := (x.v.set 2 0x01FF).set 3 0x0101 }) (fun t => t.me.v[1] = 0x0200) = true := by
  decide +kernel

theorem test_vadd_leaves_inactive_elements : then_ (.vadd { ty := 0, c := 0, p := 1, vb := 3, va := 2, vd := 1 })
    (base.modMe fun x => { x with v := ((x.v.set 2 0x0101).set 3 0x0101).set 1 0x0909, p := x.p.set 1 0b10 })
    (fun t => t.me.v[1] = 0x0209) = true := by decide +kernel

theorem test_pnot_stays_within_the_width : then_ (.pnot { ty := 0, c := 0, p := 0, vb := 0, va := 1, vd := 2 }) base
    (fun t => t.me.p[2] = (0xFFFFFFFFFFFFFFFFFFFFFFFFFFFFFFFF#128).setWidth 1024 ||
      t.me.p[2] = (BitVec.allOnes (8 * 16)).setWidth 1024 || t.me.p[2] = (BitVec.allOnes 64).setWidth 1024) = true := by
  decide +kernel

/-! ## Witnesses: scalar instructions

Each theorem shows states and operands that meet the hypotheses of the statement that it names, clause by clause. -/

/-- The task after an instruction. -/
def next (i : Instr) (s : State) : State := (after (exec i s)).getD s

/-- An access may be served now where no router drops it, the cluster runs, no bank is taken and the partition is not
deterministic. -/
theorem open_of {s : State} {cost home at_ n : Nat} {p : Option Nat} (r : s.barred s.cur.core home = none)
    (h : s.homeUp home = true) (b : s.meets at_ n = false) (d : s.det? s.cur.core = none) : s.openTo cost home at_ n p :=
  ⟨r, h, b, fun _ _ h' => by rw [d] at h'; cases h'⟩

/-- A home is the executing context's where no context exists. -/
theorem owns_of {s : State} {home : Nat} (h : ∀ p, s.partOf s.cur.core = some p → p.ctx = none) : s.owns home :=
  fun _ p _ _ hp hx => by rw [h p hp] at hx; cases hx

theorem witness_ProductsAndBitFields :
    (two 7 0).g 3 = 0 ∧
    ((two 0x8000000000000000 0xFFFFFFFFFFFFFFFF).g 2).toInt = -2 ^ 63 ∧
    ((two 0x8000000000000000 0xFFFFFFFFFFFFFFFF).g 3).toInt = -1 ∧
    (two 0x8000000000000000 1).g 3 ≠ 0 ∧ (two 0 0).g 2 = 0 ∧ (two 1 0).g 2 ≠ 0 ∧ (2 : BitVec 5).toNat ≤ 2 ∧
    ((two 0 0xFFF).g 3).extractLsb' 0 6 = 63 := by decide +kernel

/-- One and two, a zero, an infinity and NaNs of both kinds, as the decoder of the formats gives them. -/
theorem witness_Float :
    Fmt.f32.dec 0x3F800000 = .num false 0x800000 (-23) ∧ Fmt.f32.dec 0x80000000 = .num true 0 (-149) ∧
    Fmt.f32.dec 0xFF800000 = .inf true ∧ Fmt.f64.dec 0x7FF0000000000000 = .inf false ∧
    Fmt.f32.dec 0x7FC00000 = .nan false false 0x400000 ∧ (Fmt.f32.dec 0x7F800001).isSnan = true ∧
    (Fmt.f32.dec 0x7FC00000).isSnan = false ∧ (Fmt.f32.dec 0x7FC00000).isNan = true ∧
    Fmt.f32.dec 1 = .num false 1 (-149) ∧ (Fmt.f32.dec 0x3F800000).lt (Fmt.f32.dec 0x40000000) = true := by decide +kernel

theorem witness_FloatConversions :
    rint .rne false 1 63 = 0 ∧ rint .rne true (2 ^ 64) 0 = 2 ^ 64 ∧ (Fmt.f64.dec 0x7FF8000000000000).isNan = true ∧
    (0x3C00 : Nat) < 2 ^ Fmt.f16.width ∧ Fmt.f16.dec 0x3C00 = .num false 1024 (-10) := by decide +kernel

theorem witness_BranchesAndJumps :
    (two 8 0).g 2 % 2 = 0 ∧ (two 9 0).g 2 % 2 = 1 ∧ (two 9 0).me.inTrap = false ∧ (two 8 8).g 2 = (two 8 8).g 3 ∧
    (two 8 9).g 2 ≠ (two 8 9).g 3 ∧ ((two 0xFFFFFFFFFFFFFFFF 0).g 2).toInt < 0 ∧ ((two 0 0).g 2).toInt = 0 := by
  decide +kernel

theorem witness_HardwareLoops_registers :
    (5 : BitVec 5).toNat < 6 ∧
    ((two 0x100000000002 0).g 2).toNat % 2 = 0 ∧ ((two 1 0).g 2).toNat % 2 = 1 ∧
    ¬((two 0x100000000002 0).g 2).toNat ≤ (two 0 0).me.pc.toNat ∧
    ((two 0x100000000000 0).g 2).toNat ≤ (two 0 0).me.pc.toNat ∧
    ¬(0x100000000010 : Word).toNat < (at_ 1 true).me.tr.epc.toNat ∧
    (0x10000000000E : Word).toNat < (at_ 1 true).me.tr.epc.toNat ∧ (at_ 1 true).me.inTrap = true ∧
    (two 1 0).me.inTrap = false := by decide +kernel

/-- The parcel at the loop's end can be fetched. -/
theorem witness_HardwareLoops_setup :
    base.me.inTrap = false ∧ 2 ≤ (2 : BitVec 11).toNat ∧ (1 : BitVec 11).toNat < 2 ∧ base.g 2 = 0 ∧ (two 1 0).g 2 ≠ 0 ∧
    (base.fetchParcel (BitVec.ofNat 64 (base.me.pc.toNat + 2 * 2)) false).1 = .ok 0 := by decide +kernel

/-- R204: a fetch leaves its block of 32 bytes in the instruction cache, and ifence empties the cache. -/
theorem test_ifence_empties :
    (base.fetchParcel base.me.pc true).2.here.icache = [(codePa, base.mem.bytes codePa 32)] ∧
    (base.fetchParcel base.me.pc true).2.dropCode.here.icache = [] := by decide +kernel

/-- Level 1 active, with level 0 inside it or outside. -/
def nested (ls0 le0 : Word) : State := base.modMe fun x =>
  { x with loops := #v[3, ls0, le0, 2, 0x100000000000, 0x100000000010] }

theorem witness_HardwareLoops_leave :
    (1 : BitVec 5).toNat ≤ 1 ∧ base.me.inTrap = false ∧ base.me.loops[3] = 0 ∧
    (nested 0x100000000004 0x100000000008).me.loops[3] ≠ 0 ∧
    ((nested 0x100000000004 0x100000000008).fetchParcel 0x100000000010 false).1 = .ok 0 ∧
    ((nested 0x100000000004 0x100000000020).fetchParcel 0x100000000010 false).1 = .ok 0 := by decide +kernel

theorem witness_TrapsAndReturn :
    (two 32 0).me.inTrap = false ∧ 32 ≤ (BitVec.ofNat 6 ((two 32 0).g 2).toNat).toNat ∧
    (BitVec.ofNat 6 ((two 31 0).g 2).toNat).toNat < 32 ∧ (two 31 0).me.priv = 0 ∧ (at_ 1 false).me.priv ≠ 0 ∧
    (at_ 1 false).me.inTrap = false ∧ (at_ 1 true).me.inTrap = true := by decide +kernel

theorem witness_ChainInstructions :
    (6 : BitVec 5).toNat ≤ 6 ∧ (at_ 1 false).me.priv ≠ 0 ∧ base.me.priv = 0 ∧ base.me.inTrap = false := by decide +kernel

/-! ## Witnesses: memory -/

/-- Core (0, 0, 0). -/
def c0 : CoreId := .grid 0 0 0

/-- Nothing in a state keeps an engine of core (0, 0, 0) from reading and writing the memory next to it. -/
def clear (s : State) : Bool :=
  decide (s.partOf c0 = some codePart) && decide (s.bad = []) && decide (s.weak = []) && (s.core c0).sb.isEmpty

/-- Frames are the context's own where no context exists. -/
theorem holds_of {s : State} (e : s.partOf c0 = some codePart) (h n : Nat) : s.holds c0 h n :=
  fun _ p _ _ _ _ hp hx _ => by rw [e] at hp; cases hp; cases hx

theorem engineReads_of {s : State} (h : clear s = true) (a n : Nat) : s.engineReads c0 a n := by
  simp only [clear, Bool.and_eq_true, decide_eq_true_eq, List.isEmpty_iff] at h
  exact ⟨holds_of h.1.1.1 _ _, h.1.1.2, h.1.2, h.2⟩

/-- An access of core (0, 0, 0) that nothing holds up or stops. -/
theorem free_of {s : State} {va : Word} {n home : Nat} (e : s.cur.core = c0) (p : s.partOf c0 = some codePart)
    (h : (va.toNat % n = 0 ∧ s.spot s.cur.core s.bench va = .mem home ∧ dieOfHome home = dieOf s.cur.core ∧
      s.carriedStart = none ∧ s.barred s.cur.core home = none ∧ s.homeUp home = true ∧ s.banks = [] ∧ s.bad = [] ∧ s.weak = []) ∧
      s.here.sb = [] ∧ s.here.rq = [] ∧ s.unperformed s.cur = [] ∧ s.me.outs = [] ∧ s.crossing s.cur = false ∧ s.deqs = []) :
    s.Free va n home :=
  { aligned := h.1.1, spot := h.1.2.1, near := h.1.2.2.1, plain := h.1.2.2.2.1, routed := h.1.2.2.2.2.1
    up := h.1.2.2.2.2.2.1, banks := h.1.2.2.2.2.2.2.1, good := h.1.2.2.2.2.2.2.2
    mode := by rw [e, State.det?, p]; rfl
    quiet := ⟨h.2.1, h.2.2.1, h.2.2.2.1, h.2.2.2.2.1, h.2.2.2.2.2.1⟩
    frame := e ▸ holds_of p home n, lone := h.2.2.2.2.2.2 }

/-- The home of a byte of the executing core's TCM. -/
def own (o : Nat) : Nat := 0x80000000000 + o

theorem witness_Loads :
    base.carriedOk 0x40 8 = true ∧ base.reach 0x40 8 .load = (.mem (own 0x40) (own 0x40) none, base) ∧
    dieOfHome (own 0x40) = dieOf base.cur.core ∧
    base.openTo 1 (own 0x40) (own 0x40) 8 (base.pointOf (own 0x40)) ∧ base.bad = [] ∧ base.owns (own 0x40) :=
  ⟨by decide +kernel, by decide +kernel, by decide +kernel, open_of (by decide +kernel) (by decide +kernel) (by decide +kernel) (by decide +kernel),
    by decide +kernel, owns_of fun p h => by
      have e : base.partOf base.cur.core = some codePart := by decide +kernel
      rw [e] at h; cases h; rfl⟩

/-- A paged address, whose leaf is not replicated. -/
theorem witness_Loads_paged :
    base.reach 0x100000000008 8 .load = (.mem 0x10008 0x10008 (some ⟨none, codeRoot, codeVa, 16, codeLeaf⟩), base) ∧
    dieOfHome 0x10008 = dieOf base.cur.core ∧ (⟨none, codeRoot, codeVa, 16, codeLeaf⟩ : TlbEntry).repl = false ∧
    base.barred base.cur.core 0x10008 = none ∧ base.homeUp 0x10008 = true ∧ base.meets 0x10008 8 = false ∧ base.det? base.cur.core = none := by decide +kernel

theorem witness_Stores :
    base.carriedOk 0x40 8 = true ∧ base.here.slots < 16 ∧
    base.reach 0x40 8 .store = (.mem (own 0x40) (own 0x40) none, base) ∧ base.me.outs = [] ∧
    base.unperformed base.cur = [] := by decide +kernel

theorem witness_AccessTraps :
    base.me.inTrap = false ∧ (4 : Word).toNat % 8 ≠ 0 ∧ (0x8000 : Word).toNat % 8 = 0 ∧
    base.spot base.cur.core base.bench 0x8000 = .nowhere ∧ base.spot base.cur.core base.bench 0x7FF8 = .mem (own 0x7FF8) ∧
    base.spot base.cur.core base.bench 0x50000 = .nowhere ∧ base.spot base.cur.core base.bench 0x8008 = .nowhere := by
  decide +kernel

/-- A state with doublewords at home addresses. -/
def with_ (s : State) (l : List (Nat × Nat)) : State :=
  { s with mem := l.foldl (fun m e => m.writeAll (cellsFrom e.1 (natLe 8 e.2))) s.mem }

theorem witness_Atomics :
    base.carriedOk 0x40 8 = true ∧ base.reach 0x40 8 .atomic = (.mem (own 0x40) (own 0x40) none, base) ∧
    base.reach 0x44 4 .atomic = (.mem (own 0x44) (own 0x44) none, base) ∧ dieOfHome (own 0x40) = dieOf base.cur.core ∧
    base.settled none ∧ base.quiet true ∧ base.quiet false ∧
    base.openTo 5 (own 0x40) (own 0x40) 8 (some (homeId (own 0x40))) ∧ base.badIn (own 0x40) 8 = false :=
  ⟨by decide +kernel, by decide +kernel, by decide +kernel, by decide +kernel, nofun,
    ⟨fun h => absurd h (by decide +kernel), by decide +kernel⟩, ⟨fun h => absurd h (by decide +kernel), by decide +kernel⟩,
    open_of (by decide +kernel) (by decide +kernel) (by decide +kernel) (by decide +kernel), by decide +kernel⟩

/-- A map of words, 4 by 2 from address 0x200 on, with its rule beyond the extents, in g2 and g3 a place. -/
def mapped (oob : Nat) (x y : Word) : State := (two x y).modHere fun k =>
  { k with tmaps := k.tmaps.set 0 (BitVec.ofNat 256 (0x200 + 4 * 2 ^ 64 + 2 * 2 ^ 96 + 4 * 2 ^ 128 + 16 * 2 ^ 160 +
      oob * 2 ^ 200 + 2 * 2 ^ 192)) }

theorem witness_TensorElements :
    let m (oob : Nat) := (mapped oob 0 0).tmap 0
    ((m 0).ext0, (m 0).ext1, (m 0).oob, (m 1).oob, (m 2).oob) = (4, 2, 0, 1, 2) ∧
    ((mapped 0 3 1).g 2).toInt < (m 0).ext0 ∧ ((mapped 0 3 1).g 3).toInt < (m 0).ext1 ∧
    ¬((mapped 0 4 1).g 2).toInt < (m 0).ext0 ∧ ¬(0 ≤ ((mapped 0 0xFFFFFFFFFFFFFFFF 1).g 2).toInt) ∧
    base.reach 0x21C 4 .load = (.mem (own 0x21C) (own 0x21C) none, base) ∧
    base.reach 0x21C 4 .store = (.mem (own 0x21C) (own 0x21C) none, base) ∧ base.here.sb = [] ∧
    base.badIn (own 0x21C) 4 = false ∧ base.me.inTrap = false := by decide +kernel

theorem witness_FencesAndDrains :
    (5 : BitVec 5).toNat ≤ 5 ∧ 5 < (6 : BitVec 5).toNat ∧ base.quiet false ∧ base.hasRecord = false ∧
    base.unperformed base.cur = [] ∧ base.me.inTrap = false :=
  ⟨by decide, by decide, ⟨fun h => absurd h (by decide +kernel), by decide +kernel⟩, by decide +kernel, by decide +kernel,
    by decide +kernel⟩

/-- The home of a byte of the executing core's scratchpad. -/
def pad (o : Nat) : Nat := 0x40000000000 + o

/-- A counter of 0 to 10, for two participants, and a queue of sixteen entries, at the same place. -/
def counter (next_ end_ : Nat) : State := with_ base [(pad 0, next_), (pad 8, end_), (pad 16, 2 + 2 ^ 32), (pad 24, 2)]
def queue (head tail : Nat) : State := with_ base [(pad 0, head), (pad 8, tail), (pad 16, 4)]

theorem witness_ObjectsAndJoins_homes :
    base.reach 0x10000 32 .atomic = (.mem (pad 0) (pad 0) none, base) ∧ pad 0 < 2 ^ 43 ∧
    dieOfHome (pad 0) = dieOf base.cur.core ∧ base.openTo 5 (pad 0) (pad 0) 32 (some (homeId (pad 0))) ∧
    base.badIn (pad 0) 32 = false :=
  ⟨by decide +kernel, by decide, by decide +kernel, open_of (by decide +kernel) (by decide +kernel) (by decide +kernel) (by decide +kernel),
    by decide +kernel⟩

theorem witness_ObjectsAndJoins_words :
    let dw (s : State) (o : Nat) := leNat (s.mem.bytes (pad o) 8)
    let w (s : State) (o : Nat) := leNat (s.mem.bytes (pad o) 4)
    (dw (counter 0 10) 8, w (counter 0 10) 16, w (counter 0 10) 20, w (counter 0 10) 24) = (10, 2, 1, 2) ∧
    dw (counter 10 10) 8 - dw (counter 10 10) 0 = 0 ∧ w (queue 0 0) 16 = 4 ∧ w base 16 < 4 ∧
    dw (queue 3 19) 8 - dw (queue 3 19) 0 = 2 ^ 4 ∧ dw (queue 3 18) 8 - dw (queue 3 18) 0 < 2 ^ 4 ∧
    dw (queue 3 3) 0 = dw (queue 3 3) 8 ∧ (queue 3 4).badIn ((queue 3 4).entryHome base.cur.core 0x10000 (pad 0) 3).1 8 = false ∧
    (queue 3 4).det? base.cur.core = none ∧ stream.streaming = true ∧ stream.me.outs = [] := by decide +kernel

theorem witness_ObjectsAndJoins_joins :
    base.bench = none ∧ base.me.outs = [] ∧ base.reach 0x10020 32 .atomic = (.mem (pad 0x20) (pad 0x20) none, base) ∧
    base.quiet true ∧ leNat ((with_ base [(pad 0x20, 1)]).mem.bytes (pad 0x20) 8) = 1 ∧
    2 ≤ leNat ((with_ base [(pad 0x20, 2)]).mem.bytes (pad 0x20) 8) :=
  ⟨by decide +kernel, by decide +kernel, by decide +kernel, ⟨fun h => absurd h (by decide +kernel), by decide +kernel⟩,
    by decide +kernel, by decide +kernel⟩

theorem witness_LocalObjects_atomics : base.Free 0x40 8 (own 0x40) ∧ base.Free 0x44 4 (own 0x44) :=
  ⟨free_of rfl (by decide +kernel) (by decide +kernel), free_of rfl (by decide +kernel) (by decide +kernel)⟩

theorem witness_LocalObjects :
    (counter 0 10).Free 0x10000 32 (pad 0) ∧ (queue 3 4).Free 0x10000 32 (pad 0) ∧
    ({ (queue 3 4) with cores := stream.cores } : State).Free 0x10000 32 (pad 0) ∧
    (with_ base [(pad 0x20, 1)]).Free 0x10020 32 (pad 0x20) ∧ pad 0 < 2 ^ 43 ∧
    (queue 3 4).spot c0 none (0x10000 + BitVec.ofNat 64 (32 + 8 * (3 % 2 ^ 4))) = .mem (pad 56) ∧
    ({ (queue 3 4) with cores := stream.cores } : State).streaming = true ∧ base.bench = none :=
  ⟨free_of rfl (by decide +kernel) (by decide +kernel), free_of rfl (by decide +kernel) (by decide +kernel),
    free_of rfl (by decide +kernel) (by decide +kernel), free_of rfl (by decide +kernel) (by decide +kernel), by decide,
    by decide +kernel, by decide +kernel, by decide +kernel⟩

/-! ## Witnesses: messages, queues and tasks -/

/-- Four messages fill an injection queue. -/
def msg : Msg := (base.message .rsp 5 [1, 0, 0, 0, 0, 0, 0, 0] (.grid 0 0 1) [] none 4).1

/-- An injection queue of RSP with four messages. -/
def fullRsp : State := base.modHere fun k => { k with inj := k.inj.set 1 [msg, msg, msg, msg] }

theorem witness_Sends :
    base.quiet false ∧ (two 1 0).destOf ((two 1 0).g 2) = some (.grid 0 0 1) ∧
    (base.setG 6 3).destOf ((base.setG 6 3).g 6) = some (.grid 0 0 3) ∧
    base.here.inj[(0 : Fin 4)].length < 4 ∧ base.here.inj[(2 : Fin 4)] = [] ∧
    4 ≤ fullRsp.here.inj[(1 : Fin 4)].length ∧ fullRsp.quiet false ∧ descOf 0x0008000000000040 = some (8, 0x40) ∧
    (base.payload 8 0x40).toOption = some [0, 0, 0, 0, 0, 0, 0, 0] ∧
    base.rectOf 0x40000 true = some ([.grid 0 0 0, .grid 0 1 0], none) ∧
    base.rectOf 0x40000 false = some ([.grid 0 0 0, .grid 0 1 0], none) :=
  ⟨⟨fun h => absurd h (by decide +kernel), by decide +kernel⟩, by decide +kernel, by decide +kernel, by decide +kernel,
    by decide +kernel, by decide +kernel, ⟨fun h => absurd h (by decide +kernel), by decide +kernel⟩, by decide +kernel,
    by decide +kernel, by decide +kernel, by decide +kernel⟩

theorem witness_Sends_traps :
    base.me.inTrap = false ∧ base.destOf 0xFF = none ∧ base.destOf 4 = none ∧ base.destOf 3 ≠ none ∧
    base.rectOf (4 * 2 ^ 26) true = none ∧ base.rectOf (2 ^ 34) false = none ∧
    descOf 0x0101000000000000 = none ∧ descOf 0x0100000000000000 = some (256, 0) ∧
    descOf 0x0008000000000044 = some (8, 0x44) ∧ 0x44 % 8 ≠ 0 := by decide +kernel

/-- A queue register with one value, and a full one. -/
def queued : State := base.modHere fun k => k.setQueue 5 [77]
def fullQueue : State := base.modHere fun k => k.setQueue 5 (List.replicate 16 0)

theorem witness_QueuesAndNeighbours :
    base.mayPut 5 = true ∧ fullQueue.mayPut 5 = false ∧ fullQueue.streaming = false ∧ fullQueue.me.inTrap = false ∧
    queued.here.queue 5 = [77] ∧ queued.mayGet 5 = true ∧ base.mayGet 5 = false ∧ base.streaming = false ∧
    base.here.queue 5 = [] ∧
    (5 : BitVec 5).extractLsb' 0 3 = (5 : BitVec 3) ∧ base.bench = none ∧
    (base.neighbour base.cur.core 1).isSome = true ∧ base.neighbour base.cur.core 0 = none ∧
    (base.neighbour base.cur.core 2).isSome = true ∧ base.neighbour base.cur.core 3 = none ∧
    base.here.sent[(1 : Fin 4)] < (base.here.nwin.extractLsb' (4 * 1) 4).toNat ∧
    (base.modHere fun k => { k with nwin := 0 }).here.nwin.extractLsb' (4 * 1) 4 = (0 : BitVec 4) := by decide +kernel

/-- A stream seat whose core has counted two completions of counter 3 and accepted a message while it slept. -/
def counted : State := (stream.modHere fun k =>
  { k with done := k.done.set 3 ⟨2, 2, [(Tag.zero, ⟨0, 0, 0⟩), (Tag.zero, ⟨0, 0, 0⟩)]⟩, accepted := 1 }).modMe fun t =>
  { t with hold := some ⟨0, 0, false, true, false, false, 0, 0, 0, none⟩ }

theorem witness_ClassControl :
    ((two 7 0).g 2).toNat ≤ 7 ∧ 7 < ((two 8 0).g 2).toNat ∧ base.me.inTrap = false ∧ base.streaming = false ∧
    counted.streaming = true ∧
    (let sel : Word := 2 ^ 35 + 3 * 2 ^ 32 + 2
     sel.toNat < 2 ^ 40 ∧ sel.getLsbD 35 = true ∧
       ((counted.here.done[(sel.extractLsb' 32 3).toNat]).c - sel.extractLsb' 0 32).toNat < 2 ^ 31) ∧
    (2 ^ 39 : Word).getLsbD 39 = true ∧ (counted.me.hold.map fun h => (h.asleep, decide (h.mark < counted.here.accepted)))
      = some (true, true) := by decide +kernel

/-- The deque on, in its 2 KiB at TCM offset 0x800. -/
def deque : State := base.modHere fun k => { k with dqen := true, dqb := 1 }

theorem witness_TaskFlow :
    base.quiet false ∧ base.det? base.cur.core = none ∧ base.here.refuses msg = none ∧ base.here.fits msg = true ∧
    base.here.dqen = false ∧ deque.here.dqen = true ∧ deque.here.dqHeld.length < 64 ∧ deque.bad = [] ∧
    base.bench = none ∧ (∃ w, base.me.work = some w ∧ w.kind = .task) ∧ (∃ w, stream.me.work = some w ∧ w.kind = .stream) :=
  ⟨⟨fun h => absurd h (by decide +kernel), by decide +kernel⟩, by decide +kernel, by decide +kernel, by decide +kernel,
    by decide +kernel, by decide +kernel, by decide +kernel, by decide +kernel, by decide +kernel,
    ⟨⟨.task, 0, [], none, 0, none, 0, 0⟩, by decide +kernel, rfl⟩, ⟨⟨.stream, 0, [], none, 0, none, 0, 0⟩, by decide +kernel, rfl⟩⟩

/-! ## Witnesses: engine queues, control registers, the supervisor -/

/-- The head of an engine's FIFO. -/
def popped : State := base.modHere fun k => k.modQ .cp fun q => { q with fifo := [(9, { Tag.zero with span := 5 })] }

theorem witness_EnginePushes :
    base.det? base.cur.core = none ∧ (base.here.q .mx).held = false ∧ (base.here.q .cp).queue.length < 2 ∧
    (base.here.q .sn).queue.length < 2 ∧ (popped.here.q .cp).fifo = [(9, { Tag.zero with span := 5 })] ∧
    (base.here.q .mx).fifo = [] ∧ (base.here.q .mx).queue = [] ∧ (base.here.q .mx).run = [] ∧ base.me.inTrap = false ∧
    (2 : BitVec 11).toNat ≤ (counted.here.done[(3 : Fin 8)]).i.toNat ∧
    (2 : BitVec 11).toNat ≤ (counted.here.done[(3 : Fin 8)]).c.toNat ∧
    (base.here.done[(3 : Fin 8)]).i.toNat < (1 : BitVec 11).toNat ∧ base.streaming = false := by decide +kernel

/-- Core (0, 0, 0) as the lead of a bench of two, and a seat that may not compose. -/
def benched : State := next (.compose 1 0) base
def second : State := { base with cur := ⟨.grid 0 0 0, 1⟩ }

theorem witness_Benches :
    base.bench = none ∧ base.unperformed base.cur = [] ∧ base.hasRecord = false ∧ base.composeFails 0 = none ∧
    base.composeFails 3 = none ∧ second.bench = none ∧ second.composeFails 0 = some (composeWord 2 0) ∧
    second.unperformed second.cur = [] ∧ second.hasRecord = false ∧
    benched.bench = some ⟨0, 0, [0, 0, 0], false⟩ ∧ benched.me.inTrap = false ∧ base.me.inTrap = false ∧
    benched.unperformed benched.cur = [] ∧ benched.hasRecord = false := by decide +kernel

theorem witness_ControlRegisters :
    (0x7FF : BitVec 12).toNat < 0x800 ∧ 0x800 ≤ (0x800 : BitVec 12).toNat ∧ (0xBFF : BitVec 12).toNat < 0xC00 ∧
    0xC00 ≤ (0xC00 : BitVec 12).toNat ∧ base.me.priv = 0 ∧ base.me.inTrap = false ∧ (at_ 1 false).me.priv = 1 ∧
    (at_ 2 false).me.priv = 2 ∧ (at_ 1 false).me.inTrap = false ∧ ((two 4 0).g 2).extractLsb' 0 3 = (4 : BitVec 3) ∧
    ((two 5 0).g 2).extractLsb' 0 3 = (5 : BitVec 3) := by decide +kernel

/-- A store that failed, in the record queue of seat 0, whose handler runs at supervisor privilege. -/
def failed : State := (at_ 1 true).modHere fun k =>
  { k with rq := [⟨⟨9, 0x100000000100, [some 1, some 2], 0, 0, 0, 0, false, [], false, ⟨0, 0, 0⟩, false, 0, 0, 0, none⟩, 1, 0⟩] }

theorem witness_RecordsAndAccounts :
    (3 : BitVec 5).toNat ≤ 3 ∧ 3 < (4 : BitVec 5).toNat ∧ base.me.inTrap = false ∧ base.me.priv = 0 ∧
    (at_ 1 true).me.priv ≠ 0 ∧ (at_ 1 true).reach 0x100000000040 32 .store = (.paged, at_ 1 true) ∧
    popRecord 0 (at_ 1 true).here.rq = none ∧
    failed.reach 0x100000000040 32 .store = (.paged, failed) ∧
    ((popRecord failed.cur.seat failed.here.rq).map fun x => (x.1.length, x.2.length)) = some (32, 0) ∧
    failed.here.sb = [] ∧ failed.me.priv ≠ 0 ∧ failed.me.inTrap = true ∧ failed.unperformed failed.cur = [] ∧
    failed.me.replaying = none ∧ (failed.here.rq.all fun e => !e.st.vec) = true ∧
    (failed.here.rq.map fun e => e.st.id).Nodup ∧ failed.here.slots ≤ 16 := by
  decide +kernel

theorem witness_SupervisorOperations_cancel :
    (at_ 1 false).me.priv ≠ 0 ∧ (at_ 1 false).here.cancelling = [] ∧ (at_ 1 false).unperformed base.cur = [] ∧
    (at_ 1 false).hasRecord = false ∧
    (let s := at_ 1 false
     let u := codePart.cores.foldl (fun (s : State) c => (s.cancelAt c (fun x => x = s.me.grp) (some s.cur)).modCore c
       fun k => { k with cancelling := k.cancelling ++ [(s.me.grp, s.cur)] }) s
     u.underWay u.here.pid s.me.grp = false) ∧
    (at_ 1 false).bench = none ∧ (at_ 1 false).links = [] ∧ (2 : BitVec 5).toNat ≤ 2 ∧ base.me.priv = 0 ∧
    base.me.inTrap = false := by decide +kernel

/-- A firmware stream program, with a descriptor for partition n at TCM offset 0x40 and an image base. -/
def descriptor (n image : Nat) : State :=
  with_ (stream.modMe fun t => { t with priv := 2 }) [(own 0x40, n), (own 0x48, image)]

/-- The same where partition 0 has stopped with context 7. -/
def stopped : State :=
  let s := descriptor 0 0x200000
  { s with parts := s.parts.set 0 { codePart with quiet := true, ctx := some 7 }, ctxs := [(7, { Ctx.reset with state := .running })]
           owners := [(.tcm (.grid 0 0 0) 0, 7)] }

/-- A core image that leads a bench of two, its latches and its table of levels all zero. -/
def benchImage : CoreImage :=
  let mx := { Core.reset.mx with table := 0, cur := ⟨0, 0, 0⟩, next := ⟨0, 0, 0⟩ }
  ⟨{ Core.reset with bench := some ⟨0, 0, [0, 0, 0], false⟩, mx := mx }, Vector.replicate 4 [], []⟩

/-- An image of context 7, with a bench or without, whose bytes lie at 0x200000. -/
def saved (bench : Bool) : State :=
  let i : Image := ⟨4, 4, 1, [], false, 0, if bench then [((0, 3, 3), benchImage)] else [], [], [], [], [], codePart⟩
  let s := descriptor 0 0x200000
  { s with ctxs := [(7, { Ctx.reset with base := 0x200000, image := some i, state := .waiting })] }.writeImage 7

theorem witness_SupervisorOperations_images :
    let bytes (s : State) := ((s.ctxDesc 0x40).toOption).getD []
    (descriptor 0 0).streaming = true ∧ (descriptor 0 0).me.priv = 2 ∧ ((descriptor 0 0).ctxDesc 0x40).toOption.isSome = true ∧
    descReserved (bytes (descriptor 0 0)) true = false ∧ descReserved (bytes (descriptor 0x10000 0)) true = true ∧
    descReserved (bytes (descriptor 0x10000 0)) false = true ∧
    (descriptor 1 0).part? 1 = none ∧ (stopped.part? 0).map (fun p => (p.quiet, p.ctx)) = some (true, some 7) ∧
    (descriptor 0 0).part? 0 = some codePart ∧ codePart.ctx = none ∧ (descriptor 0 0x200000).ctxAt 0x200000 = none := by
  decide +kernel

/-- R406 to R410: the image is found by its bytes, and not once one of them has changed. -/
theorem witness_SupervisorOperations_loads :
    ((saved false).ctxAt 0x200000).map (fun x => (x.1, x.2.2.place.sameShape codePart, x.2.2.benchesFit codePart,
      x.2.2.place.sameShape { codePart with sramMb := 2 })) = some (7, true, true, false) ∧
    (with_ (saved false) [(0x200200, 9)]).ctxAt 0x200000 = none ∧ ((saved false).part? 0).map (fun p => p.ctx) = some none := by
  decide +kernel

set_option maxRecDepth 100000 in
theorem witness_SupervisorOperations_benches :
    ((saved true).ctxAt 0x200000).map (fun x => (x.2.2.place.sameShape codePart, x.2.2.benchesFit codePart)) =
      some (true, false) := by decide +kernel

/-- R406: a run of zero bytes is skipped as the bytes themselves are taken. -/
theorem test_crc_skips_zeros : crcZeros 37 0xFFFFFFFF = crcOver 0xFFFFFFFF (List.replicate 37 0) := by decide +kernel

/-- R406: CRC-32C of the nine digits. -/
theorem test_crc_of_digits : crc32c [0x31, 0x32, 0x33, 0x34, 0x35, 0x36, 0x37, 0x38, 0x39] = 0xE3069283 := by decide +kernel

/-! ## Witnesses: vectors -/

/-- A vector form, and the same with channel m5 as its second source. -/
def vform (ty : BitVec 2) : VForm := { ty := ty, c := 0, p := 0, vb := 3, va := 2, vd := 1 }
def channelForm : VForm := { vform 2 with c := 1, vb := 5 }

/-- A vector from the east waits in m5. -/
def arrived : State := stream.modHere fun k => { k with nchans := k.nchans.set 1 [(0x1234, none)] }

theorem witness_vector_sources :
    base.vbOf (w32 1 (.vadd (vform 2))) (vform 2) = (.bits 0, base) ∧
    (match arrived.vbOf (w32 1 (.vadd channelForm)) channelForm with
      | (.bits b, w) => decide (b = 0x1234) && decide (w.cur = arrived.cur)
      | _ => false) = true := by decide +kernel

theorem witness_VectorLanes :
    base.vbytes = 64 ∧ 8 * [0, 1, 2, 3, 4, 5, 6, 7].length ≤ 1024 ∧ 1 * (List.replicate 1024 0).length ≤ 1024 ∧
    (base.pr 0).getLsbD 63 = true ∧ (base.pr 0).getLsbD 64 = false ∧ (base.pr 1).getLsbD 0 = false := by decide +kernel

theorem witness_VectorConversions :
    (0 : BitVec 5).toNat = 0 ∧ (1 : BitVec 2).toNat < 2 ∧ 2 ≤ (2 : BitVec 2).toNat ∧ (3 : BitVec 2).toNat < 4 ∧
    1 ≤ (1 : BitVec 2).toNat ∧ 18 < (19 : BitVec 5).toNat ∧ base.me.inTrap = false := by decide +kernel

/-- A governing predicate with no element, with one, and with all sixteen words. -/
def governed (p : Pred) (x y : Word) : State := (two x y).modMe fun t => { t with p := t.p.set 1 p }
def gform : VForm := { vform 2 with p := 1 }

theorem witness_VectorMemory_none :
    let s := governed 0 0x40 0
    s.me.vprog = none ∧ toAccess (s.vseq gform 4) = [] ∧ s.vcheck 4 .load 2 (s.vseq gform 4) = (.ok 2, s) ∧
      s.lanesOut = false := by decide +kernel

theorem witness_VectorMemory_loads :
    let s := governed 1 0x40 0
    s.me.vprog = none ∧ s.vcheck 4 .load 2 (s.vseq gform 4) = (.ok 2, s) ∧
    accesses false (toAccess (s.vseq gform 4)) = [[(0, 0x40)]] ∧ s.lanesOut = false ∧
    s.reach 0x40 4 .load = (.mem (own 0x40) (own 0x40) none, s) ∧ dieOfHome (own 0x40) = dieOf s.cur.core ∧
    s.homeUp (own 0x40) = true ∧ s.det? s.cur.core = none ∧ s.bad = [] ∧
    s.vcheck 4 .load 2 (s.vidx gform 4 0) = (.ok 2, s) ∧
    s.vbOf (w32 4 (.vgath gform)) gform = (.bits 0, s) := by decide +kernel

theorem witness_VectorMemory_stores :
    let s := governed 1 0x40 0
    s.vcheck 4 .store 1 (s.vseq gform 4) = (.ok 2, s) ∧ s.here.slots + 1 ≤ 16 ∧
    s.spot s.cur.core s.bench 0x40 = .mem (own 0x40) ∧ s.pushTarget 4 (s.vseq gform 4) = none := by decide +kernel

/-- Sixteen words at the window of the matrix engine. -/
theorem witness_VectorMemory_push :
    let s := two 0xF0000 0
    s.me.vprog = none ∧ s.pushTarget 4 (s.vseq (vform 2) 4) = some .mx ∧ s.here.storesOf s.cur.seat = [] ∧
    s.det? s.cur.core = none ∧ (s.here.q .mx).held = false ∧ (s.here.q .mx).queue.length < 2 := by decide +kernel

/-! ## Witnesses: engines -/

/-- A command without a counter: its code, and values at bytes. -/
def image (code : Nat) (fields : List (Nat × Nat)) : BitVec 512 :=
  BitVec.ofNat 512 (code + 255 * 65536 + (fields.map fun f => f.2 * 256 ^ f.1).sum)

/-- A state after the push of a command by seat 0. -/
def pushed (s : State) (push : Instr) (img : BitVec 512) : State :=
  next push (s.modMe fun t => { t with v := t.v.set 2 (img.setWidth 8192) })

/-- What holds of the head command of an engine of core (0, 0, 0), once it can start. -/
def headIs (s : State) (e : Engine) (p : Cmd → Bool) : Bool := (s.startable c0 e).any fun x => !x.dropped && p x

theorem witness_MatrixCommands_latches :
    headIs (pushed base (.mxpush 2) (image 1 [(12, 0x400)])) .mx (fun x => x.code = 1 && !x.malformed [12, 13, 14, 15] &&
      inTcmOrScratch x.addr 512 64) = true ∧
    headIs (pushed base (.mxpush 2) (image 2 [(12, 0x4FDC0)])) .mx (fun x => x.code = 2 && !x.malformed [12, 13, 14, 15] &&
      inTcmOrScratch x.addr 528 64 && inTcmOrScratch x.addr 144 64) = true ∧
    headIs (pushed base (.mxpush 2) (image 3 [])) .mx (fun x => x.code = 3 && !x.malformed []) = true ∧
    headIs (pushed base (.mxpush 2) (image 4 [])) .mx (fun x => x.code = 4 && !x.malformed []) = true ∧
    clear (pushed base (.mxpush 2) (image 1 [(12, 0x400)])) = true ∧ base.here.latchBusy = false ∧ base.incoming c0 = false ∧
    (pushed base (.mxpush 2) (image 4 [])).benchIn c0 = false ∧ ringNext c0 ≠ c0 := by decide +kernel

/-- A matrix engine with B_next full, or the ring successor with its credit. -/
def fullNext : State := base.modHere fun k => { k with mx := { k.mx with credit := .full } }
def credited : State := base.modCore (ringNext c0) fun k => { k with mx := { k.mx with credit := .credit } }

theorem witness_MatrixCommands_credits :
    (pushed fullNext (.mxpush 2) (image 3 [])).here.mx.credit = .full ∧
    ((pushed fullNext (.mxpush 2) (image 3 [])).core c0).running .mx [5, 9] = none ∧
    ((pushed credited (.mxpush 2) (image 4 [])).core (ringNext c0)).mx.credit = .credit ∧
    (((next (.rotb c0) (pushed credited (.mxpush 2) (image 4 []))).core c0).running .mx [4]).isSome = true ∧
    base.here.mx.bfmt.toNat ∈ [0, 4, 5, 6, 8, 9, 10] ∧ base.here.mx.bmode = 0 := by decide +kernel

/-- An MMA that has taken n of its k-steps, an MMAV and an STC that have started. -/
noncomputable def mmaAt : Nat → State
  | 0 => next (.mma c0) (pushed base (.mxpush 2) (image 5 [(8, 3), (12, 0x400)]))
  | n + 1 => next (.mma c0) (mmaAt n)
noncomputable def mmavAt : State := next (.mmav c0) (pushed base (.mxpush 2) (image 9 [(8, 3), (9, 24)]))
noncomputable def stcAt : Nat → State
  | 0 => next (.stc c0) (pushed base (.mxpush 2) (image 8 [(8, 0), (12, 0x400)]))
  | n + 1 => next (.stc c0) (stcAt n)

theorem witness_MatrixCommands_products :
    headIs (pushed base (.mxpush 2) (image 5 [(8, 3), (12, 0x400)])) .mx (fun x => x.code = 5 &&
      !x.malformed [8, 12, 13, 14, 15] && decide (x.byte 8 ≤ 3) && inTcm x.addr 512 64) = true ∧
    headIs (pushed base (.mxpush 2) (image 9 [(8, 3), (9, 24)])) .mx (fun x => x.code = 9 && !x.malformed [8, 9] &&
      decide (x.byte 9 ≤ 24)) = true ∧
    base.here.arrayBusy = false ∧ base.here.mx.afmt.toNat ∈ [0, 8, 9] ∧ base.here.mx.cur.fmt.toNat ∈ [0, 8, 9] ∧
    (((mmaAt 0).core c0).running .mx [5]).any (fun r => r.step = 0) = true ∧
    (((mmaAt 7).core c0).running .mx [5]).any (fun r => r.step = 7) = true ∧ (mmaAt 0).stopped c0 = false ∧
    clear (mmaAt 0) = true ∧ clear (mmaAt 7) = true ∧
    ((mmavAt.core c0).running .mx [9]).isSome = true := by decide +kernel

theorem witness_MatrixCommands_banks :
    headIs (pushed base (.mxpush 2) (image 6 [(8, 3)])) .mx (fun x => x.code = 6 && !x.malformed [8] && decide (x.byte 8 ≤ 3)) = true ∧
    headIs (pushed base (.mxpush 2) (image 7 [(8, 0), (12, 0x7C00)])) .mx (fun x => x.code = 7 &&
      !x.malformed [8, 12, 13, 14, 15] && inTcm x.addr 1024 64) = true ∧
    headIs (pushed base (.mxpush 2) (image 8 [(8, 0), (12, 0x400)])) .mx (fun x => x.code = 8 &&
      !x.malformed [8, 10, 11, 12, 13, 14, 15] && inTcm x.addr (256 * (fmtBits base.here.mx.cfmt.toNat / 8)) 64) = true ∧
    base.here.mx.cfmt.toNat ∈ [0, 1, 2, 4, 5, 6, 8, 9] ∧ base.here.mx.olim = 0 ∧
    (((stcAt 0).core c0).running .mx [8]).any (fun r => r.step = 0 &&
      (((stcAt 0).here.mx.banks[r.cmd.bank].take 16).map (writeBack r.s0.toNat)).all fun o => o.2 = 0) = true ∧
    (((stcAt 15).core c0).running .mx [8]).any (fun r => r.step = 15 && decide (r.lost = 0)) = true ∧
    (stcAt 0).stopped c0 = false ∧ clear (stcAt 0) = true := by decide +kernel

/-- A scan of n steps, of an integer sum in one lane, at its start and after u steps. -/
def scanning (i push : Instr) (img : BitVec 512) : Nat → State
  | 0 => next i (pushed (base.modHere fun k => { k with sn := { k.sn with snop := 2 <<< 6 } }) push img)
  | n + 1 => next i (scanning i push img n)

theorem witness_ScanCommands_scans :
    let l := image 1 [(8, 2), (12, 0x400), (16, 0x800)]
    let n := image 3 [(8, 2), (16, 0x800)]
    headIs (pushed base (.snpush 2) l) .sn (fun x => x.code = 1 && decide (0 < x.count) &&
      decide ((pushed base (.snpush 2) l).scanCheck c0 (ScanOp.of base.here.sn.snop) true x = none)) = true ∧
    headIs (pushed base (.snpush 2) n) .sn (fun x => x.code = 3 &&
      decide ((pushed base (.snpush 2) n).scanCheck c0 (ScanOp.of base.here.sn.snop) false x = none)) = true ∧
    base.here.snBusy = false ∧
    (((scanning (.scanl c0) (.snpush 2) l 0).core c0).running .sn [1]).any (fun r => r.step = 0 && r.cmd.count = 2 &&
      !(ScanOp.of r.s0).seg && !(ScanOp.of r.s0).affine) = true ∧
    (((scanning (.scanl c0) (.snpush 2) l 1).core c0).running .sn [1]).any (fun r => r.step = 1) = true ∧
    (((scanning (.scanc c0) (.snpush 2) n 1).core c0).running .sn [3]).any (fun r => r.step = 1) = true ∧
    clear (pushed base (.snpush 2) l) = true ∧ clear (scanning (.scanl c0) (.snpush 2) l 0) = true ∧
    (scanning (.scanl c0) (.snpush 2) l 0).stopped c0 = false := by
  decide +kernel

theorem witness_ScanCommands_groups :
    let members (x : Cmd) : Bool := decide (x.members = 2) && decide (x.first ≤ 0) && decide (0 < x.first + x.members)
    headIs (pushed base (.snpush 2) (image 2 [(12, 2), (16, 0x400)])) .sn (fun x => x.code = 2 && members x &&
      !x.malformed ((List.range 12).map (· + 8)) && inTcm (x.field 16 4) (ScanOp.of base.here.sn.snop).step 64) = true ∧
    headIs (pushed base (.snpush 2) (image 4 [(12, 2)])) .sn (fun x => x.code = 4 && members x &&
      !x.malformed ((List.range 8).map (· + 8))) = true ∧
    headIs (pushed base (.snpush 2) (image 5 [(12, 2), (16, 0x400), (20, 0x800)])) .sn (fun x => x.code = 5 && members x &&
      !x.malformed ((List.range 16).map (· + 8))) = true ∧
    codePart.position c0 = some 0 ∧ base.part? base.here.pid.toNat = some codePart ∧
    2 ≤ codePart.dies.length * (codePart.rows * codePart.cols) ∧ base.here.follows c0 = false ∧
    (ScanOp.of base.here.sn.snop).refused = false := by decide +kernel

/-- A copy command whose units have begun; the run that its next unit belongs to, which nothing holds up; and a range next to
the core. -/
def copying (i : Instr) (img : BitVec 512) : State := next i (pushed base (.cppush 2) img)
def unitRun (s : State) (code : Nat) : Option Run := ((s.core c0).running .cp [code]).filter fun r =>
  r.inst.isNone && r.waits.isEmpty && r.reads.isEmpty && decide (r.held = 0) && decide (r.s1 = 0) && !s.stopped c0 && clear s
def beside (s : State) (a n : Nat) : Bool :=
  inTcmOrScratch a n 1 && decide (dieOfHome (engineHome c0 a) = dieOf c0) && decide (s.barred c0 (engineHome c0 a) = none) &&
    s.homeUp (engineHome c0 a) && !s.scratchClash c0 (engineHome c0 a) n

theorem copies_of {s : State} (h : clear s = true) {a n : Nat} (g : beside s a n = true) :
    s.cpReads c0 a n ∧ s.cpWrites c0 a n := by
  have r := engineReads_of h a n
  simp only [beside, Bool.and_eq_true, decide_eq_true_eq, Bool.not_eq_true'] at g
  exact ⟨⟨g.1.1.1.1, g.1.1.1.2, g.1.1.2, g.1.2, g.2, r⟩, g.1.1.1.1, g.1.1.1.2, g.1.1.2, g.1.2, g.2, r.1, r.2.1⟩

theorem witness_CopyUnits_ranges :
    let copy := copying (.copy c0) (image 1 [(8, 0x400), (16, 0x800), (24, 600)])
    let snap := next (.copy c0) (copying (.copy c0) (image 1 [(8, 0x800), (16, 0x840), (24, 600)]))
    let fill := copying (.fill c0) (image 6 [(8, 0x800), (16, 600), (24, 0x1122334455667788)])
    (unitRun copy 1).any (fun r => decide (granuleUnit r.cmd.cpD r.cmd.cpN r.step = (0, 256)) && !r.seg &&
      !r.cmd.cpS.getLsbD 63 && !r.cmd.cpD.getLsbD 63 && beside copy 0x400 256 && beside copy 0x800 256 &&
      decide (copy.overlap c0 ((copy.cpPart c0).addrOf r.cmd.cpS) ((copy.cpPart c0).addrOf r.cmd.cpD) r.cmd.cpN ≠ .open_)) = true ∧
    ((snap.core c0).running .cp [1]).any (fun r => r.seg && decide (r.step = 1) && r.inst.isNone && r.waits.isEmpty &&
      decide (r.held = 0 ∧ r.s1 = 0 ∧ r.reads ≠ []) && r.reads.all (fun l => l.2.2.any fun b => !b.isEmpty) &&
      beside snap 0x900 256 && clear snap && !snap.stopped c0) = true ∧
    (unitRun fill 6).any (fun r => !r.cmd.cpS.getLsbD 63 && beside fill 0x800 256) = true := by decide +kernel

theorem witness_CopyUnits_elements :
    let gather := copying (.gather c0) (image 3 [(8, 0x400), (16, 0x800), (24, 0xC00), (32, 3), (36, 2)])
    let scatter := copying (.scatter c0) (image 4 [(8, 0x400), (16, 0x800), (24, 0xC00), (32, 3), (36, 2)])
    (unitRun gather 3).any (fun r => !r.cmd.cpD.getLsbD 63 && !r.cmd.cpS.getLsbD 63 &&
      decide ((gather.cpIndexed c0 r.cmd.cpS (r.cmd.cpN + 4 * r.step) r.cmd.elemLog).toNat = 0x400) && beside gather 0x400 4 &&
      beside gather 0x800 4) = true ∧
    (unitRun scatter 4).any (fun r => !r.cmd.cpS.getLsbD 63 && !r.cmd.cpD.getLsbD 63 &&
      decide ((scatter.cpIndexed c0 r.cmd.cpD (r.cmd.cpN + 4 * r.step) r.cmd.elemLog).toNat = 0x800) && beside scatter 0x800 4 &&
      beside scatter 0x400 4) = true := by decide +kernel

/-- A block of 2 by 2 words through map 0, from inside it or beyond it. -/
noncomputable def block (x : Nat) : State := next (.copy2d c0) (pushed (mapped 0 0 0) (.cppush 2)
  (image 2 [(8, 0), (9, 0), (16, 0), (24, x), (32, 2), (36, 2)]))

theorem witness_CopyUnits_blocks :
    (unitRun (block 0) 2).any (fun r => match copy2dUnit r.cmd r.maps.1 r.maps.2 r.step with
      | (.range a n, .addr b) => a.pkg.isNone && b.pkg.isNone && beside (block 0) a.va.toNat n && beside (block 0) b.va.toNat n
      | _ => false) = true ∧
    (unitRun (block 4) 2).any (fun r => match copy2dUnit r.cmd r.maps.1 r.maps.2 r.step with
      | (.range a n, .nowhere) => a.pkg.isNone && beside (block 4) a.va.toNat n
      | _ => false) = true ∧
    (let mcast := copying (.mcast c0) (image 5 [(8, 0x400), (16, 0x800), (24, 600), (32, 2 ^ 26)])
     (unitRun mcast 5).any (fun r => decide (r.cmd.rect ≠ 0) && !r.cmd.cpS.getLsbD 63 && beside mcast 0x400 256 &&
       (((mcast.cpPart c0).rectOf r.cmd.rect).any fun cs => cs.all fun d =>
         decide (dieOfHome (engineHome d 0x800) = dieOf c0) && mcast.homeUp (engineHome d 0x800))) = true) ∧
    headIs (pushed base (.cppush 2) (image 7 [])) .cp (fun x => x.code = 7 && !x.malformed []) = true ∧
    (pushed base (.cppush 2) (image 7 [])).here.cp.q.run = [] := by decide +kernel

/-- An engine whose command is over, with no status or with one, and one that a fault holds. -/
noncomputable def overNext : State := next (.zero c0) (pushed base (.mxpush 2) (image 6 []))
noncomputable def faulty : State := next (.ldc c0) (pushed base (.mxpush 2) (image 7 [(12, 1)]))
noncomputable def heldMx : State := next (.engineCommandRetire c0 .mx) faulty

theorem witness_EngineEvents_retire :
    ((overNext.core c0).q .mx).run.map (fun r => r.fin) = [some (0, 0)] ∧ ((overNext.core c0).q .mx).fifo = [] ∧
    isFault .mx 0 = false ∧ ((faulty.core c0).q .mx).run.map (fun r => r.fin.map fun f => isFault .mx f.1) = [some true] ∧
    overNext.startable c0 .mx = none ∧ headIs (pushed base (.mxpush 2) (image 10 [])) .mx (fun x => decide (9 < x.code)) = true ∧
    headIs (pushed base (.mxpush 2) (image 0 [])) .mx (fun x => x.code = 0) = true ∧
    ((pushed base (.mxpush 2) (image 0 [])).core c0).mx.q.run = [] := by decide +kernel

theorem witness_EngineEvents_held :
    ((heldMx.core c0).q .mx).held = true ∧ ((heldMx.core c0).q .mx).heldRun.isSome = true ∧
    ((base.core c0).q .mx).heldRun = none := by decide +kernel

/-- A TJOIN that a fault holds (its aggregate lies beyond the TCM), and two members of a barrier. -/
noncomputable def heldJoin : State :=
  next (.engineCommandRetire c0 .sn) (next (.tjoin c0) (pushed base (.snpush 2) (image 2 [(12, 2), (16, 0x8000)])))
noncomputable def bar1 : State := next (.tbar c0) (pushed base (.snpush 2) (image 4 [(12, 1)]))
noncomputable def bar2 : State := next (.tbar c0) (pushed base (.snpush 2) (image 4 [(12, 2)]))

theorem witness_EngineEvents_groups :
    ((heldJoin.core c0).sn.q.heldRun).any (fun r => r.cmd.code = 2 && codePart.groupOk c0 r.cmd) = true ∧
    heldJoin.part? heldJoin.here.pid.toNat = some codePart ∧ codePart.position c0 = some 0 ∧
    (bar1.instances.map fun i => (i.part, decide (i.count ≤ i.got.length))) = [(0, true)] ∧
    (bar2.instances.map fun i => (i.part, decide (i.got.length < i.count))) = [(0, true)] ∧ codePart.quiet = false ∧
    ((bar1.core c0).sn.q.run.map fun r => (r.inst, r.fin)) = [((bar1.instances.head?).map fun i => i.id, none)] := by
  decide +kernel

/-! ## Witnesses: register events, messages and selection -/

theorem witness_RegisterEvents :
    (base.here.mx.q.queue.all fun y => y.dropped) = true ∧ base.here.running .mx [8] = none ∧
    ((stcAt 0).core c0).running .mx [8] ≠ none ∧
    (0xB : Word).extractLsb' 0 8 = (11 : BitVec 8) ∧ 11 < ((0xC : Word).extractLsb' 0 8 : BitVec 8).toNat ∧
    ((2 : Word).extractLsb' 0 2 : BitVec 2) ≠ 3 ∧ ((4 : Word).extractLsb' 0 3 : BitVec 3).toNat ≤ 4 ∧
    ((pushed base (.mxpush 2) (image 6 [])).here.mx.q.queue.any fun y => !y.dropped) = true ∧
    ((0x208 : BitVec 12).toNat ≤ 0x208 ∧ 0x200 ≤ (0x200 : BitVec 12).toNat) ∧
    base.stopped c0 = false ∧ base.here.benchLead = none ∧ (base.seat ⟨c0, 1⟩).work = none ∧
    ((base.modSeat ⟨c0, 1⟩ fun t => { t with modePend := some 0b01 }).seat ⟨c0, 1⟩).modePend = some 0b01 ∧
    (base.seat ⟨c0, 0⟩).work.isSome = true := by decide +kernel

/-- A message for core (0, 0, 0), with one granule of payload, and one of carried code, which is not even. -/
def plainMsg : Msg := { msg with dst := c0, part := 0 }
def oddCode : Msg := { plainMsg with data := [0] }

/-- The core with a message at its north input, and class 5 enabled as a task class, a channel, a ring or carried code. -/
def classed (kind : Nat) (more : BitVec 128) : State := base.modHere fun k =>
  { k with classes := k.classes.set 5 (BitVec.ofNat 128 (kind * 2 ^ 61 + 2 ^ 55) ||| more), memb := 1 }
def incoming (s : State) (m : Msg) : State := s.modHere fun k => { k with inputs := k.inputs.set 1 [m] }

/-- A spawn that waits for room. -/
noncomputable def spawning : State := (State.reset.withFetchWord 32 0b00000_000101_00000_00001_0110000_01_11).modMe fun t =>
  { t with hold := some ⟨3, 0, false, false, false, false, 0, 4, 0, none⟩ }

theorem witness_Acceptance :
    let s := incoming (classed 0 0) plainMsg
    portIndex .north = some 1 ∧ s.here.inputs[(1 : Fin 5)] = [plainMsg] ∧ s.up c0 = true ∧ s.det? c0 = none ∧
    s.here.cancelling = [] ∧ s.turnOf c0 .north = true ∧ s.here.refuses plainMsg = none ∧ s.here.runq.length < 32 ∧
    s.here.findRun (s.here.granulesFor plainMsg) = some 0 ∧ s.bad = [] ∧
    (incoming (classed 4 0) oddCode).here.refuses oddCode = some (0, 1) ∧ oddCode.kind = .plain ∧ oddCode.pkg = none ∧
    (incoming (classed 4 0) oddCode).sender oddCode = some ⟨c0, 0⟩ := by decide +kernel

/-- The core with an entry in its run queue, or with a full one. -/
noncomputable def enteredBy (s : State) (bs : List Byte) : State :=
  next (.acceptMessage c0 .north) (incoming s { plainMsg with data := bs })
noncomputable def entered (s : State) : State := enteredBy s plainMsg.data
noncomputable def fullQueueOf (s : State) : State :=
  incoming ((entered s).modHere fun k => { k with runq := k.runq.flatMap fun e => List.replicate 32 e }) plainMsg

theorem witness_Acceptance_waits :
    (fullQueueOf (classed 0 0)).here.runq.length = 32 ∧ (fullQueueOf (classed 0 0)).here.refuses plainMsg = none ∧
    spawning.me.hold.map (fun h => (h.kind, h.mark)) = some (3, 4) ∧ spawning.stopped c0 = false ∧
    spawning.cur = ⟨c0, 0⟩ ∧ spawning.turnOf c0 (.spawn 0) = true ∧
    (match spawning.fetch with | (.ok (.instr (.spawn 1 5)), _) => true | _ => false) = true := by decide +kernel

/-- A core whose seats are parked. -/
def thirdCore : CoreId := .grid 0 3 3

/-- A state in which a task has been forked. -/
def forked : State := next (.fork 1 2 8) deque

theorem witness_Selection :
    let at_ (k : Nat) := entered (classed k 0)
    (at_ 0).det? c0 = none ∧ (at_ 0).freeSeat c0 1 = true ∧ (at_ 0).freeSeat c0 0 = false ∧
    ((at_ 0).firstFor c0 1).map (fun x => (x.1, x.2.kind, x.2.msg.kind)) = some (0, .byClass, .plain) ∧
    (at_ 0).here.kindOf 5 = 0 ∧ (at_ 4).here.kindOf 5 = 4 ∧ (at_ 3).here.kindOf 5 = 3 ∧
    ((enteredBy (classed 4 0) [0, 0, 0, 0]).firstFor c0 1).isSome = true ∧
    ((enteredBy (classed 3 0) [0, 0, 0, 0, 0, 0x10, 0, 0]).firstFor c0 1).isSome = true ∧
    forked.firstFor c0 1 = none ∧ forked.here.dqHeld.length = 1 ∧ (forked.here.dqHeld.all forked.here.visible) = true ∧
    forked.dequeEntry c0 (forked.here.dqTop + forked.here.dqHeld.length - 1) =
      (0x100000000010, 0, 0, { Tag.zero with span := 3, last := 0x100 }) ∧ forked.here.classBit 0 56 = false ∧
    forked.freeSeat c0 1 = true ∧ (List.finRange 4).all (fun j => !base.freeSeat thirdCore j) = true := by decide +kernel

/-- A core without work, whose ring neighbour has a deque entry, or two. -/
def thief : CoreId := ringCore (clusterOf c0) (ringPos c0 + 15)
def robs (s : State) : State := s.modCore thief fun k => { k with modes := Vector.replicate 4 0 }
def robbed : State := robs (next (.fork 1 2 8) forked)
def popping : State := robs ((forked.modSeat ⟨c0, 0⟩ fun t => { t with work := none }).modHere fun k =>
  { k with modes := Vector.replicate 4 0 })
def mayRob (s : State) : Bool :=
  decide (s.det? thief = none) && decide ((s.core thief).modes = Vector.replicate 4 0) && !(s.core thief).stealOut &&
    (s.core thief).dqHeld.isEmpty && (s.core thief).runq.isEmpty && decide ((s.core thief).stealWait = 0) &&
    s.freeSeat thief 0 && (List.range (ringPos thief)).all (fun j => !s.wantsSteal (ringCore (clusterOf thief) j)) &&
    decide (((List.range 15).map fun j => ringCore (clusterOf thief) (ringPos thief + 1 + j)).find? (fun w =>
      match (s.core w).dqHeld with
      | y :: _ => (s.core w).visible y && decide ((s.core w).pid = (s.core thief).pid) && (s.core w).benchLead.isNone
      | [] => false) = some c0)

theorem witness_Deliveries :
    mayRob robbed = true ∧ (robbed.core c0).dqHeld.length = 2 ∧ mayRob popping = true ∧ (popping.core c0).dqHeld.length = 1 ∧
    popping.popsLast c0 = true ∧
    (let s := entered (classed 1 0)
     s.here.runq.map (fun e => (e.kind, e.msg.kind, e.msg.after, s.here.kindOf e.msg.cls)) = [(.byClass, .plain, [], 1)] ∧
       s.here.classBit 5 55 = true ∧ s.here.classField 5 64 2 = 0 ∧ s.here.chans[(0 : Fin 4)].length + 1 ≤ 8 ∧
       s.stopped c0 = false) := by decide +kernel

/-- Class 5 as a ring of 256 bytes behind its record at TCM offset 0x1000, counted by counter 1. -/
def ringClass : BitVec 128 := BitVec.ofNat 128 (2 ^ 64 + 5 * 2 ^ 70 + 64 * 2 ^ 82)

theorem witness_Deliveries_rings :
    let s := entered (classed 2 ringClass)
    s.here.kindOf 5 = 2 ∧ s.here.ringOk (s.here.classes[(5 : Fin 64)]) = true ∧
    s.here.runq.map (fun e => (e.kind, e.msg.kind, e.msg.cls)) = [(.byClass, .plain, 5)] ∧
    (s.mem.dword (engineHome c0 0x1000) - s.mem.dword (engineHome c0 0x1008)).toNat + 32 + 32 ≤ 5 * 64 - 64 ∧
    s.here.done.toList[1]?.isSome = true ∧ s.bad = [] := by decide +kernel

/-- A message in an injection queue, one under way at its core's router, which serves the partition, in a crossing's FIFO or
not, and a reply. -/
def injected (m : Msg) (vn : Fin 4) : State := (classed 0 0).modHere fun k => { k with inj := k.inj.set vn [m] }
def flight (dst : CoreId) (fifo : Bool) : Flight := ⟨{ plainMsg with dst := dst }, c0, 0, fifo⟩
def flying (dst : CoreId) : State := { classed 0 0 with net := [flight dst false] }
def crossing : State := { classed 0 0 with net := [flight c0 true] }
def replied (w : BitVec 12) : State := { base with replies := [⟨⟨c0, 0⟩, 6, 0, w, 0⟩] }

/-- Whether the branches of a header all have room. -/
def branchesFree (s : State) (f : Flight) : Bool :=
  (s.branches f.msg f.at_ ((f.msg.dst :: f.msg.rest).filter fun y => y ≠ f.at_)).all
    ({ s with net := s.net.eraseIdx 0 } : State).hasRoom

/-- A packet of MC on its way to the east, whose buffer of MC another one fills, and a third in the crossing's FIFO. -/
def mcFlight : Flight :=
  { flight (.grid 0 0 1) false with
    msg := { plainMsg with dst := .grid 0 0 1, vn := .mc, data := List.replicate 256 0, part := 0 } }
def full : State := { flying c0 with net :=
  [mcFlight, { mcFlight with at_ := .grid 0 0 1, from_ := 4 }, { mcFlight with fifo := true, at_ := .grid 0 0 1, from_ := 4 }] }

/-- A core that serves no partition, and one where the copies of a sendg were recorded at a stop. -/
def unrouted : State := base.modHere fun k => { k with memb := 0 }
def recorded : State := (injected { plainMsg with rest := [c0] } 2).modHere fun k => { k with copiesDue := 1 }

/-- A store that is not performed. -/
def waitingStore : State := base.modHere fun k =>
  { k with sb := [⟨9, 0x40, [some 1], 0, 0, 0, 0, false, [], false, ⟨0, 0, 0⟩, false, 0, 0, 0, none⟩] }

theorem witness_MessagesTravel :
    (injected plainMsg 1).here.inj[vnIndex .rsp] = [plainMsg] ∧ plainMsg.after = [] ∧ plainMsg.pkg = none ∧
    plainMsg.rest = [] ∧ (injected plainMsg 2).here.inj[vnIndex .am] = [plainMsg] ∧ base.stopped c0 = false ∧
    ({ plainMsg with after := [9] }.after.any waitingStore.pending) = true ∧
    ({ flying c0 with net := [flight c0 false, flight c0 false] } : State).headOfQueue 1 (flight c0 false) = false ∧
    full.headOfQueue 0 mcFlight = true ∧ branchesFree full mcFlight = false ∧
    (full.headOfQueue 2 { mcFlight with fifo := true, at_ := .grid 0 0 1, from_ := 4 } = true) ∧
    full.hasRoom { mcFlight with at_ := .grid 0 0 1, from_ := 4 } = false ∧
    (flying c0).net[0]? = some (flight c0 false) ∧ (flying c0).headOfQueue 0 (flight c0 false) = true ∧
    crossing.headOfQueue 0 (flight c0 true) = true ∧ crossing.hasRoom (flight c0 false) = true ∧
    ((flying c0).core c0).memb.getLsbD 0 = true ∧ branchesFree (flying c0) (flight c0 false) = true ∧
    branchesFree (flying (.grid 0 1 1)) (flight (.grid 0 1 1) false) = true ∧
    branchesFree (flying (.grid 1 0 0)) (flight (.grid 1 0 0) false) = true ∧
    (unrouted.core c0).memb.getLsbD 0 = false ∧ unrouted.sender plainMsg = some ⟨c0, 0⟩ ∧
    (injected plainMsg 1).here.copiesDue = 0 ∧ (injected plainMsg 1).hasRoom ⟨plainMsg, c0, 0, false⟩ = true ∧
    ({ base with net := [{ mcFlight with at_ := c0, from_ := 0 }] } : State).hasRoom ⟨mcFlight.msg, c0, 0, false⟩ = false ∧
    (recorded.here.copiesDue ≠ 0 ∧ recorded.here.inj[vnIndex .am] = [{ plainMsg with rest := [c0] }]) ∧
    recorded.stopped c0 = false ∧ recorded.hasRoom ⟨plainMsg, c0, 0, false⟩ = true ∧ plainMsg.kind = .plain ∧
    plainMsg.kind.isStolen = false ∧ (MsgKind.stolen 0 0 c0 0).isStolen = true ∧
    dieOf (.grid 1 0 0) ≠ dieOf c0 ∧ (flying (.grid 0 1 1)).routeKind { plainMsg with dst := .grid 0 1 1 } = 0 ∧
    (replied 0).replies[0]?.isSome = true ∧ base.me.work.isSome = true ∧ base.me.starts = 0 ∧
    base.me.pend.replies.length < 4 ∧ (replied 1).me.starts ≠ 1 := by decide +kernel

/-- Kind 1 for every class of the partition. -/
def columnFirst : State :=
  let s := flying (.grid 0 1 1)
  { s with pkg := { s.pkg with rkmap := [(0, 0x5555555555555555)] } }

theorem witness_MessagesTravel_kinds :
    base.planeFor 0 1 = some 0 ∧ columnFirst.routeKind plainMsg = 1 ∧
    (some (BitVec.ofNat 9 1) : Option (BitVec 9)) = { plainMsg with pkg := some 1 }.pkg := by decide +kernel

/-- A vector under way to the east, and one that has been consumed there. -/
def vectorOut : State := next (.nsend 2 1) base
def consumed : State := base.modHere fun k => { k with sent := k.sent.set 1 1 }

/-- A stream seat 0 blocked on queue 5 while an entry stands there, or while a slot does. -/
def getter : State := (queued.modHere fun k => { k with getters := k.getters.set 5 [0] })
def putter : State := (queued.modHere fun k => { k with putters := k.putters.set 5 [0] })

/-- A stream seat asleep in wfm on counter 3. -/
def asleep : State :=
  let s := State.reset.withFetchWord 32 0b00000100000_00010_00001_0101101_00_11
  let s := (s.setG 2 (2 ^ 35 + 3 * 2 ^ 32)).modHere fun k => { k with modes := k.modes.set 0 0b01 }
  s.modMe fun t => { t with hold := some ⟨0, 0, false, true, false, false, 0, 0, 0, none⟩ }

theorem witness_Wakes :
    (vectorOut.core c0).flying[(1 : Fin 4)].length = 1 ∧ vectorOut.neighbour c0 1 = some (.grid 0 0 1) ∧
    (consumed.core c0).flying[(1 : Fin 4)].length + (consumed.core (.grid 0 0 1)).nchans[(3 : Fin 4)].length <
      (consumed.core c0).sent[(1 : Fin 4)] ∧
    getter.here.getters[(5 : Fin 8)] = [0] ∧ getter.here.queues[(5 : Fin 8)].length = 1 ∧
    (getter.here.seats.toList.filter fun t => t.handed = some 5) = [] ∧
    putter.here.getters[(5 : Fin 8)] = [] ∧ putter.here.putters[(5 : Fin 8)] = [0] ∧
    (asleep.seat ⟨c0, 0⟩).hold.map (fun h => h.asleep) = some true ∧ asleep.stopped c0 = false ∧ asleep.streaming = true ∧
    (match asleep.fetch with
      | (.ok (.instr (.wfm 1 2)), u) => decide ((u.g 2).toNat < 2 ^ 40) && decide (u.here.wfmHolds (u.g 2) 0 ≠ 0) &&
          decide (u.cur = ⟨c0, 0⟩)
      | _ => false) = true := by decide +kernel

/-! ## Witnesses: boundary causes, stores, packets and pages -/

/-- The same of a vector store, whose first active dword is the second of its line. -/
def vectorFailed : State := (failed.modMe fun t => { t with inTrap := false }).modHere fun k =>
  { k with rq := k.rq.map fun e =>
    { e with st := { e.st with vec := true, bytes := List.replicate 8 none ++ List.replicate 8 (some 1) ++ List.replicate 48 none } } }

/-- Seat 0 with pending causes. -/
def pending (p : Pending) : State := base.modMe fun t => { t with pend := p }
def tracing (s : State) : State := { s with trace := { s.trace with en := true, log2n := 2 }, pkg := { s.pkg with trsel := [(0, 1)] } }
def blocked : State := fullRsp.modMe fun t => { t with hold := some ⟨3, 64, false, false, false, false, 64, 1, 5, none⟩ }

theorem witness_BoundaryTraps :
    base.me.work.isSome = true ∧ base.me.inTrap = false ∧ base.stopped c0 = false ∧ base.me.waitsFor = none ∧
    base.me.vprog = none ∧ base.here.cancelling = [] ∧ (vectorFailed.here.recordOf 0).any (fun e => e.st.vec && e.popped = 0 &&
      decide (e.st.bytes[8]? = some (some 1)) && (e.st.bytes.take 8).all Option.isNone) = true ∧
    (tracing base).trace.slot.isSome = true ∧ ((tracing base).ports.all fun p => p.2.ring.isEmpty) = true ∧
    (failed.modMe fun t => { t with inTrap := false }).here.recordOf 0 ≠ none ∧ base.here.recordOf 0 = none ∧
    (pending { Pending.none with ecc := some 8 }).me.pend.ecc = some 8 ∧
    (pending { Pending.none with engine := some 8 }).me.pend.engine = some 8 ∧
    (pending { Pending.none with outlier := some 8 }).me.pend.outlier = some 8 ∧
    (pending { Pending.none with replies := [(6, 0)] }).me.pend.replies = [(6, 0)] ∧
    (pending { Pending.none with watchdog := true }).me.pend.watchdog = true ∧
    (pending { Pending.none with chain := true }).traces c0 0 = false ∧
    (tracing (pending { Pending.none with chain := true })).traces c0 0 = true ∧
    (tracing base).trace.open_.length < 16382 ∧ (at_ 1 true).me.inTrap = true ∧
    blocked.me.hold.map (fun h => (h.kind, h.since)) = some (3, 64) ∧ blocked.streaming = false ∧
    blocked.roomFor ⟨c0, 0⟩ 1 = false ∧ (base.modMe fun t => { t with wdCount := 1 }).me.wdCount = 1 := by decide +kernel

/-- A store in the buffer: to the own TCM, to the class table, to nowhere, or to a page of another die. -/
def stored (va : Word) : State := (next (.stD 2 3 0) (two 7 0x40)).modHere fun k =>
  { k with sb := k.sb.map fun e => { e with va := va } }
def farStored : State := (stored 0x100000000040).modHere fun k =>
  { k with utlb := [⟨none, codeRoot, codeVa, 16, codeLeaf + 0x8000000000⟩] }
def drains (s : State) (p : DrainTo → State → Bool) : Bool :=
  match s.here.sb with
  | e :: _ => !(e.after.any s.pending) && decide (e.why = 0) && decide (e.held = 0) && !s.here.benchEnds && p (s.drainReach c0 e).1 (s.drainReach c0 e).2
  | [] => false

/-- No store reaches a moving page's leaf where no page moves. -/
theorem movesLeave_of {s : State} (h : ∀ d ∈ [0, 1, 2, 3], (s.die d).moves = []) (cells : List (Nat × Byte)) :
    s.movesLeave cells := fun d hd m hm => by rw [h d hd] at hm; cases hm

theorem witness_StoresPerform :
    drains (stored 0x40) (fun r u => decide (r = .home (own 0x40) none) && u.homeUp (own 0x40) &&
      decide (u.barred c0 (own 0x40) = none) && !(u.clashes 0 (own 0x40) 8) && !(u.otherHome c0 (own 0x40) false) &&
      decide (u.det? c0 = none) && decide (dieOfHome (own 0x40) = dieOf c0) && decide (u.bad = []) &&
      [0, 1, 2, 3].all fun d => (u.die d).moves.isEmpty) = true ∧
    drains farStored (fun r u => (match r with
      | .home h pte => decide (dieOfHome h = 1) && u.homeUp h && decide (u.barred c0 h = none) && !(u.clashes 0 h 8) && pte.all (fun e => !e.repl && !u.moving e) && !(u.otherHome c0 h false)
      | _ => false) && decide (u.det? c0 = none)) = true ∧
    drains (stored 0xF3000) (fun r _ => match r with | .classes _ => true | _ => false) = true ∧
    drains (stored 0x8000) (fun r u => (match r with | .fails _ => true | _ => false) && decide (u.core c0 = (stored 0x8000).core c0)) = true ∧
    drains ((stored 0x8000).modHere fun k => { k with sb := k.sb.map fun e => { e with doomed := true } })
      (fun r _ => match r with | .fails x => decide (x = 0) | _ => false) = true ∧
    (stored 0x40).trace.en = false ∧ base.here.sb = [] := by decide +kernel

/-- A leaf of a replicated page. -/
def replLeaf : TlbEntry := ⟨none, codeRoot, codeVa, 16, codeLeaf ||| 0x80⟩

/-- A packet of the other die, of each kind, toward the TCM of core (0, 0, 0). -/
def packet (k : PacketKind) : Packet :=
  ⟨9, .grid 1 0 0, 0, own 0x40, 0x40, 8, 0, 0, ⟨0, 0, 0⟩, own 0x40, none, false, k⟩
def linked (k : PacketKind) : State := { base with links := [((1, 0), [packet k])] }
def waiting (d : Dest) (r : Option Reply) : State := base.modMe fun t => { t with outs := [⟨9, 0x100000000000, 0x40, d, 1, r, false, r.isSome⟩] }

theorem witness_RequestsReturn_packets :
    let s := linked (.store [(own 0x40, 1)])
    let l := s.links.get (1, 0) []
    let u := ({ s with links := s.links.set (1, 0) (l.eraseIdx 0) }.touch (own 0x40) 8).claimHome (.grid 1 0 0) (own 0x40)
    s.meets (own 0x40) 8 = false ∧ s.queueWaits (packet (.store [(own 0x40, 1)])) = (false, s) ∧ l[0]? = some (packet (.store [(own 0x40, 1)])) ∧ s.det? (.grid 1 0 0) = none ∧ s.homeUp (own 0x40) = true ∧
    u.bad = [] ∧ u.weak = [] ∧ s.trace.en = false ∧ s.bad = [] ∧ s.weak = [] ∧
    (∀ d ∈ [0, 1, 2, 3], (s.die d).moves = []) ∧ (linked (.copy [(own 0x40, 1)])).homeUp (own 0x40) = true ∧
    (linked (.fetch [none] [own 0x40])).homeUp (own 0x40) = true ∧ (linked (.update replLeaf none [])).homeUp (own 0x40) = true ∧
    (packet (.request (.amo .add 8 1 0) ⟨.grid 1 0 0, 0⟩ [])).pte = none ∧
    (linked (.request .load ⟨.grid 1 0 0, 0⟩ [])).homeUp (own 0x40) = true ∧ (1 ≤ 8 ∧ 8 ≤ 8) := by decide +kernel

theorem witness_RequestsReturn_answers :
    let r : Reply := ⟨5, 6, Tag.zero, [1, 2], false⟩
    (waiting (.load 1 2 false []) none).me.outs[0]?.map (fun o => o.reply) = some none ∧
    (waiting (.load 1 8 false []) (some r)).me.outs[0]?.map (fun o => o.reply) = some (some r) ∧
    (waiting (.pair 1 2 .claim) (some r)).me.outs[0]?.map (fun o => o.dest) = some (.pair 1 2 .claim) ∧
    (waiting (.join 0) (some r)).me.outs.length = 1 ∧
    ((waiting (.amo 1 8) (some r)).modMe fun t => { t with outs := t.outs.map fun o => { o with whole := true } }).me.outs.map
      (fun o => (o.whole, o.reply.isSome)) = [(true, true)] ∧
    ((waiting (.amo 1 8) (some { r with bad := true })).me.inTrap = false) := by decide +kernel

/-- A deq that waits at a queue with an entry, or at an empty one. -/
def dequeuing (head tail : Nat) : State :=
  { (queue head tail).modMe fun t => { t with outs := [⟨9, 0x100000000000, 0x10000, .pair 1 0 .deq, 1, none, true, false⟩] } with
    deqs := [⟨⟨c0, 0⟩, pad 0, 9, none, ⟨0, 0, 0⟩⟩] }

theorem witness_RequestsReturn_deq :
    (dequeuing 3 4).deqs[0]? = some ⟨⟨c0, 0⟩, pad 0, 9, none, ⟨0, 0, 0⟩⟩ ∧ (dequeuing 3 4).spot c0 none 0x10000 = .mem (pad 0) ∧
    ((dequeuing 3 4).perform ⟨c0, 0⟩ .deq 0x10000 (pad 0) 32 ⟨0, 0, 0⟩ none).1.r1 ≠ 0 ∧
    ((dequeuing 3 3).perform ⟨c0, 0⟩ .deq 0x10000 (pad 0) 32 ⟨0, 0, 0⟩ none).1.r1 = 0 ∧
    ((dequeuing 3 3).perform ⟨c0, 0⟩ .deq 0x10000 (pad 0) 32 ⟨0, 0, 0⟩ none).1.bad = false := by decide +kernel

/-- A page that waits for its walk: mapped, or not; updates of a replicated page; and a page counted often. -/
def walking (va : Word) : State := base.modDie 0 fun d => { d with walks := [⟨codeRoot, va, [(c0, 0)]⟩] }
def replicated : State :=
  { base with seqrs := [⟨0x10000, 0x10000, 0, [0, 1], [⟨5, replLeaf, none, false, false, [(0x10000, 1)]⟩],
    [⟨4, replLeaf, none, false, false, [(0x10008, 2)]⟩], []⟩] }
def countedPage : State := base.modDie 0 fun d =>
  { d with migEn := true, counts := [((codeVa, codeRoot, 1), 0x400)] }

theorem witness_PagesMove_walks :
    (match (walking codeVa).walk codeRoot codeVa with | .ok _ => true | .error _ => false) = true ∧
    (match (walking 0x200000000000).walk codeRoot 0x200000000000 with | .ok _ => false | .error _ => true) = true ∧
    dieOf c0 = 0 ∧ base.weak = [] ∧ (replicated.seqrs[0]?.map fun q => (q.arriving.length, q.list.length)) = some (1, 1) ∧
    replicated.bad = [] := by decide +kernel

/-- A pool of die 1 with one frame, at physical address 0x8000100000, and the page of the code as it counts there. -/
def pool : State :=
  with_ ((base.modDie 1 fun d => { d with pool64 := BitVec.ofNat 64 (0x8000100000 + 4) }).modDie 0 fun d =>
    { d with migEn := true, thresh := 2, counts := [((codeVa, codeRoot, 1), 2)] })
    [(0x8000100000, 0), (0x8000100008, 1), (0x8000100040, 0x8000200000)]

/-- The same once the window in which it was counted is over. -/
def oldWindow : State := pool.modRegion 0 fun x => { x with ref := 2 ^ 40 }

/-- The move of that page has begun. -/
noncomputable def moving : State := next (.migrationStart 0 0) pool

theorem witness_PagesMove_moves :
    (pool.die 0).counts[0]? = some ((codeVa, codeRoot, 1), 2) ∧ (pool.die 0).windowNo = pool.windowNow 0 ∧
    (oldWindow.die 0).windowNo ≠ oldWindow.windowNow 0 ∧ (oldWindow.die 0).counts ≠ [] ∧ (pool.die 0).migEn = true ∧ (pool.die 0).moves = [] ∧
    pool.rootStops codeRoot = false ∧
    Tab.get (pool.die 0).counts (codeVa, codeRoot, 0) 0 < 2 ∧ (pool.takeFrame 1 16).1 = some 0x8000200000 ∧
    (match pool.walk codeRoot codeVa with
      | .ok (pte, bits) => decide (pte = codeLeaf) && decide (bits = 16)
      | _ => false) = true ∧
    codeLeaf.getLsbD 7 = false ∧ leafPa codeLeaf / 2 ^ 39 = 0 ∧
    (moving.die 0).moves.map (fun m => decide (moving.mem.dword m.pteAt = m.pte) && !moving.badIn (leafPa m.pte) (2 ^ m.bits) &&
      !moving.linked m (leafPa m.pte) (2 ^ m.bits)) = [true] ∧
    (moving.die 0).moves.all (fun m => decide ((with_ moving [(0x4000, 0)]).mem.dword m.pteAt ≠ m.pte)) = true := by
  decide +kernel

/-- A context in partition 0, a frame that no one owns, and errors in memory. -/
def running : State :=
  { base with parts := base.parts.set 0 { codePart with ctx := some 7 }, ctxs := [(7, { Ctx.reset with state := .running })] }
def erring : State := { base with bad := [own 0x40], weak := [own 0x48] }

theorem witness_PagesMove_frames :
    running.runs 7 = some { codePart with ctx := some 7 } ∧ codePart.holds (.tcm c0 0) = true ∧ codePart.quiet = false ∧
    running.owners.has (.tcm c0 0) = false ∧ running.image? 7 = none ∧ running.memOk ∧
    (running.claim 7 (.tcm c0 0)).owners.get (.tcm c0 0) 0 = 7 ∧ granuleOf (own 0x48) ∉ erring.bad ∧
    granuleOf (own 0x48) ∈ erring.weak ∧ granuleOf (own 0x50) ∉ erring.bad ∧ granuleOf (own 0x50) ∉ erring.weak := by
  decide +kernel

/-! ## Witnesses: the host's side -/

/-- Virtual device 0 with its ring at 0x300000, one command in it, and its context 7 in partition 0. -/
def hosted (cmd : List (Nat × Nat)) : State :=
  let s := with_ running (cmd.map fun f => (0x300000 + f.1, f.2))
  { s with vds := [(0, { VDev.reset with ring := 0x300000, tail := 1, root := codeRoot, key := 5, windows := [(codeVa, codeVa + 0x10000)] })] }
def commandIs (s : State) (code : Nat) (bad : Bool) : Bool :=
  (s.command 0).any fun c => decide (leField c 0 1 = code) && decide (commandBad c = bad) && !s.loading 0

/-- The same with its port paused, something being held back, or with an error in its ring. -/
def pausing : State :=
  let s := hosted [(0, 0x105)]
  { s with pkg := { s.pkg with paused := [(0, 3)] }
           vds := s.vds.set 0 { s.vds.get 0 VDev.reset with unsent := [.nak .accessError] } }
def struck : State := { hosted [(0, 5)] with bad := [0x300000] }

theorem witness_HostCommands :
    commandIs (hosted [(0, 5)]) 5 false = true ∧ commandIs (hosted [(0, 6)]) 6 false = true ∧
    commandIs (hosted [(0, 0x1000000 + 5)]) 5 true = true ∧ commandIs (hosted [(0, 1)]) 1 false = true ∧
    commandIs (hosted [(0, 2)]) 2 false = true ∧ commandIs (hosted [(0, 3)]) 3 false = true ∧
    commandIs (hosted [(0, 4)]) 4 false = true ∧ (hosted []).pkg.asleep = false ∧
    (hosted []).weak = [] ∧ (hosted []).badIn ((hosted []).vds.get 0 VDev.reset).commandAt 64 = false ∧
    pausing.pkg.paused = [(0, 3)] ∧ commandIs pausing 5 false = true ∧ ((hosted []).vds.get 0 VDev.reset).unsent = [] ∧
    struck.badIn (struck.vds.get 0 VDev.reset).commandAt 64 = true ∧ (struck.command 0).isSome = true := by decide +kernel

/-- A launch record of one cluster, at the page of the code, and where the firmware places it. -/
def recordAt : State :=
  with_ (hosted [(0, 0x100 + 1), (8, 0x100000000000)]) [(0x10000, 0x5A4C + 2 ^ 32 + 2 ^ 48), (0x10008, 0x0F0F0F0F0F0F0F00),
    (0x10010, 0), (0x10018, 1 + 2 ^ 16 + 2 ^ 40)]
def placed : Place := ⟨1, [0], 4, 0, 9, [0], []⟩

/-- The same with 33 tasks for one core, whose run queue takes 32, and a LOAD that waits for a core to accept its task. -/
noncomputable def crowded : State := with_ recordAt [(0x10048, 33 * 2 ^ 32), (0x10050, 0x100000001000)]
def loadingOne : State :=
  let s := (hosted [(0, 0x100 + 1)]).modHere fun k =>
    { k with inputs := k.inputs.set 0 [{ plainMsg with kind := .launchTask 0 0 }] }
  { s with vds := s.vds.set 0 { s.vds.get 0 VDev.reset with load := some 7 } }
/-- What a LOAD of the record ends with, and whether its tasks wait. -/
def loads (s : State) (pl : Place) : Option (Nat × Bool) :=
  (s.loadAt 0 (s.vds.get 0 VDev.reset) pl 0x100000000000).map fun x =>
    (x.1, ({ x.2 with vds := x.2.vds.set 0 { s.vds.get 0 VDev.reset with load := some pl.slot } } : State).loading 0)

theorem witness_HostCommands_load :
    commandIs recordAt 1 false = true ∧ loads recordAt placed = some (0, false) ∧ loads recordAt { placed with slot := 7 } = none ∧
    loads { recordAt with ctxs := (List.range 64).map fun i => (i, Ctx.reset) } placed = some (2, false) ∧
    (let v := recordAt.vds.get 0 VDev.reset
     v.load = none ∧ (recordAt.drawerRead v 0x100000000000 128).any recHeadOk = true ∧
       ((hosted []).drawerRead v 0x100000000000 128).any (fun b => !recHeadOk b) = true ∧
       (recordAt.drawerRead v 0x100000010000 128) = none ∧ (0x100000000020 : Word).toNat % 64 ≠ 0) ∧
    loadingOne.loading 0 = true ∧ (loadingOne.command 0).isSome = true := by decide +kernel

theorem witness_HostCommands_load_waits : loads crowded placed = some (0, true) := by decide +kernel

/-- Context 7 is resident with class 5 active, or is out. -/
theorem witness_HostCommands_contexts :
    let cmd (n : Nat) : List Byte := natLe 8 0x102 ++ natLe 8 n ++ natLe 8 0x010000000000 ++ natLe 8 0x100000000000 ++
      natLe 8 5 ++ List.replicate 24 0
    let s := (hosted []).modHere fun k => { k with classes := k.classes.set 5 (BitVec.ofNat 128 (3 * 2 ^ 61 + 2 ^ 55)) }
    let p : Part := { codePart with ctx := some 7 }
    let v := s.vds.get 0 VDev.reset
    s.namedCtx 0 (cmd 7) = some (7, { Ctx.reset with state := .running }) ∧ s.namedCtx 0 (cmd 8) = none ∧
    s.resident 7 { Ctx.reset with state := .running } = some p ∧ s.resident 7 { Ctx.reset with state := .moved } = none ∧
    s.ownerOf v p 0x010000000000 = some c0 ∧ s.ownerOf v p 0 = none ∧ s.here.cwlo = 0x100000000000 ∧
    s.here.cwhi = 0x100000010000 ∧ s.here.kindOf 5 = 3 ∧ s.here.classBit 5 55 = true ∧ p.det = false ∧ p.dies.Nodup ∧
    leField (cmd 7) 36 4 ≤ 24 ∧ leField (cmd 7) 32 1 ≤ 63 ∧ (0 : Nat) < 64 ∧
    s.openSpans 0 { p with det := true } ≠ [] ∧
    (s.modSeat ⟨c0, 0⟩ fun t => { t with work := none }).openSpans 0 { p with det := true } = [] ∧
    ((next (.stD 2 3 0) (s.setG 3 0x40)).cancelAll 0 p fun _ => true).storesOver p = false ∧
    (s.cancelAll 0 p fun _ => true).storesOver p = true := by decide +kernel

/-- The virtual device has a window of its partition too, and its context is out. -/
def away : State :=
  let s := hosted []
  { s with parts := base.parts, vds := s.vds.set 0 { s.vds.get 0 VDev.reset with windows := [(0x010000000000, 0x010000008000)] } }

/-- The device with two further queue pairs, 16 and 32, of which the second is in error. -/
def paired : State :=
  let s := hosted []
  { s with vds := s.vds.set 0 { s.vds.get 0 VDev.reset with pairs := [(1, 9, false), (2, 8, true)] } }

theorem witness_HostLinks :
    let s := hosted []
    let v := s.vds.get 0 VDev.reset
    s.vds.has 0 = true ∧ v.pair 0 = some (5, false) ∧ s.pkg.arrivals = [] ∧ (0, 3) ∉ s.pkg.paused ∧ v.unsent = [] ∧
    (paired.vds.get 0 VDev.reset).pair 1 = some (9, false) ∧ (paired.vds.get 0 VDev.reset).pair 2 = some (8, true) ∧
    (paired.vds.get 0 VDev.reset).pair 3 = none ∧ pausing.vds.has 0 = true ∧ ((64 : BitVec 32) - v.head).toNat ≤ 2 ^ v.log2n ∧
    2 ^ v.log2n < ((65 : BitVec 32) - v.head).toNat ∧ (v.tail - v.head).toNat + 1 ≤ 2 ^ v.log2n ∧ s.bad = [] ∧
    s.pkg.asleep = false ∧ v.key = 5 ∧ s.hostWaits 0 0x100000000100 = false ∧
    ((s.hostPieces 0 v 0x100000000100 8 .load).map fun l => l.all fun p => s.homeUp p.2.1 && decide (s.claimFor 0 p.2.1 = s)) =
      some true ∧
    ((s.hostPieces 0 v 0x100000000100 8 .store).map fun l => l.all fun p => p.2.2.all (fun e => !e.repl && !s.moving e) &&
      s.homeUp p.2.1 && decide (s.claimFor 0 p.2.1 = s)) = some true ∧
    (s.hostPieces 0 { v with windows := [(0, 64)] } 0 8 .store).isNone = true ∧
    v.covers 0x100000010000 1 = false ∧ s.pkg.bootFail = false ∧ 6 ≤ v.log2n ∧ v.ring % 4096 = 0 ∧ s.pkg.ethDown = [] ∧
    (away.vds.get 0 VDev.reset).covers 0x010000000000 8 = true ∧ away.hostWaits 0 0x010000000000 = true ∧
    { s with pkg := { s.pkg with asleep := true } }.pkg.asleep = true := by decide +kernel

/-- Context 8 waits for partition 0 with a launch, at its queue of weight 1, and context 7 runs there with one too. -/
def arbited : State :=
  let image : Image := ⟨4, 4, 1, [], false, 0, [], [plainMsg], [], [], [], codePart⟩
  { running with
    ctxs := [(7, { Ctx.reset with state := .running }), (8, { Ctx.reset with state := .waiting, image := some image })],
    pkg := { running.pkg with arbq := [(7, 0, 1, 0, true), (8, 0, 1, 0, true)] } }


/-- A slice has passed in the bureau's region. -/
def sliced (s : State) : State := s.modRegion 400 fun x => { x with ref := 900000 }

theorem witness_PartitionEvents_arbiter :
    let p : Part := { codePart with ctx := some 7 }
    arbited.part? 0 = some p ∧ p.next = none ∧ p.stop = false ∧ arbited.arbOrder 0 (some 7) = [8, 7] ∧
    arbited.arbPending 8 = true ∧ arbited.arbPending 7 = true ∧
    ¬arbited.pkg.slice.toNat ≤ ((arbited.region 400).ref - p.sliceRef).toNat ∧
    (sliced arbited).pkg.slice.toNat ≤ (((sliced arbited).region 400).ref - p.sliceRef).toNat ∧
    (850000 : Word) = p.sliceRef + BitVec.ofNat 64 (sliced arbited).pkg.slice.toNat ∧
    -(2 ^ 31) ≤ (arbited.arb 7).1.toInt - p.consumed ∧ { p with next := some 8 }.next.isSome = true ∧
    0 < min ((arbited.arb 8).1.toInt + 4096) (2 * 4096) ∧ (arbited.arb 8).2.1 = 1 ∧ { p with idle := true }.idle = true ∧
    (arbited.image? 8).map (fun i => (i.place.sameShape p, (arbited.ctxs.get 8 Ctx.reset).state)) = some (true, .waiting) ∧
    base.part? 0 = some codePart ∧ codePart.ctx = none ∧ (∀ y ∈ base.arbOrder 0 none, base.arbPending y = false) ∧
    p.idle = false ∧ base.part? 1 = none := by decide +kernel

/-- Partition 0 stopped with everything drained, and quiescent. -/
noncomputable def stopping : State := next (.pstopStop 0) ({ running with net := [] }.modSeat ⟨c0, 0⟩ fun t => { t with work := none })
noncomputable def quiescent : State := next (.quiescence 0) stopping

/-- The partition quiescent where another queue's context waits for it. -/
def yielding : State := sliced { arbited with parts := arbited.parts.set 0 { codePart with ctx := some 7, stop := true, quiet := true } }

theorem witness_PartitionEvents_quiet :
    let p : Part := { codePart with ctx := some 7, stop := true, quiet := true }
    yielding.part? 0 = some p ∧ p.next = none ∧ yielding.arbOrder 0 (some 7) = [8, 7] ∧ yielding.arbPending 8 = true ∧
    yielding.pkg.slice.toNat ≤ ((yielding.region 400).ref - p.sliceRef).toNat ∧ { p with idle := true }.idle = true ∧
    (yielding.image? 8).map (fun i => (i.place.sameShape p, (yielding.ctxs.get 8 Ctx.reset).state)) = some (true, .waiting) ∧
    yielding.ctxs.has 7 = true ∧ yielding.part? 1 = none ∧ (yielding.ports.all fun p => p.2.ring.isEmpty) = true := by
  decide +kernel

theorem witness_PartitionEvents_stops :
    (stopping.part? 0).map (fun p => (p.stop, p.quiet, p.next, stopping.drained 0 p)) = some (true, false, none, true) ∧
    (quiescent.part? 0).map (fun p => (p.quiet, p.ctx)) = some (true, some 7) ∧ codePart.dies.Nodup ∧
    (∀ d ∈ [0, 1, 2, 3], (running.die d).moves = []) ∧ (arbited.ctxs.has 7 = true ∧ (8 : Nat) ≠ 7) ∧
    (next (.stD 2 3 0) (running.setG 3 0x40)).drained 0 { codePart with stop := true, ctx := some 7 } = false := by
  decide +kernel

theorem witness_PartitionEvents_moves :
    let p : Part := { codePart with ctx := some 7 }
    let q := (quiescent.part? 0).getD codePart
    let u := ((quiescent.ctxSave 0 q 7 (quiescent.ctxs.get 7 Ctx.reset).base true).leavePart 7).setRoutes []
    (quiescent.ctxs.get 7 Ctx.reset).part = 0 ∧ u.part? 1 = none ∧
    (u.image? 7).map (fun i => (u.placeOk (partAt { placed with sram := [] } (i.rows / 4) (i.cols / 4) 0 i.place.sramMb) 0,
      u.placeOk (partAt placed (i.rows / 4) (i.cols / 4) 0 i.place.sramMb) 0)) = some (true, false) ∧
    running.ctxs.has 7 = true ∧ (running.ctxs.get 7 Ctx.reset).part = 0 ∧ p.quiet = false ∧ p.stop = false ∧
    c0 ∈ p.cores ∧ ((classed 0 0).core c0).memb.getLsbD 0 = true ∧
    (7, { Ctx.reset with state := .running }) ∈ running.ctxs := by decide +kernel

/-- A gated cluster that an access has reached, and a package asleep that a notification has reached. -/
def called : State := base.modCluster ⟨0, 5, 5⟩ fun k => { k with power := .gated, called := true }
def notified : State :=
  let s := hosted []
  { s with pkg := { s.pkg with asleep := true, arrivals := [.notify 0 1] } }

theorem witness_RegionsAndPower :
    let x := base.region 0
    let busy := next (.rctlFreqWrite 0 1275) base
    x.busy = false ∧ x.hot = false ∧ x.freq = 850 ∧ 425 ≤ (1275 : BitVec 11).toNat ∧ (1276 : BitVec 11).toNat > 1275 ∧
    (424 : BitVec 11).toNat < 425 ∧ 650 ≤ (950 : BitVec 12).toNat ∧ (649 : BitVec 12).toNat < 650 ∧
    (busy.region 0).busy = true ∧ busy.pkg.asleep = false ∧ (busy.region 0).target = none ∧
    base.regionOf c0 = 0 ∧ base.cores.has c0 = true ∧ 425 < x.freq.toNat ∧
    ((⟨none, [], [], [3], [1]⟩ : BootFacts).fails = none) ∧ ((⟨some 4, [], [], [], []⟩ : BootFacts).fails = some 4) ∧
    { base with pkg := { base.pkg with replace := true } }.pkg.replace = true ∧
    (busy.partOf c0).map (fun p => p.quiet) = some false ∧ busy.here.sb = [] ∧ busy.me.work.isSome = true ∧ busy.me.hold = none ∧
    ({ x with hot := true, freq := 425 } : Region).hot = true ∧ called.wakes ⟨0, 5, 5⟩ = true ∧
    (called.cluster ⟨0, 5, 5⟩).power ≠ .run ∧ base.wakes ⟨0, 5, 5⟩ = false ∧ notified.pkg.asleep = true ∧
    notified.pkg.arrivals = [.notify 0 1] ∧ notified.vds.has 0 = true ∧ (notified.vds.get 0 VDev.reset).qpError = false ∧
    base.maySleep = false ∧
    (base.cluster ⟨0, 5, 5⟩).power = .run ∧ base.clusterIdle ⟨0, 5, 5⟩ = true ∧ 300 ≤ base.tolerance ⟨0, 5, 5⟩ ∧
    250000 ≤ base.tolerance ⟨0, 5, 5⟩ ∧ State.reset.maySleep = true := by decide +kernel

/-- Ports with frames to replay. -/
def port (kept replays : Nat) : FioldPort :=
  { FioldPort.reset with kept := (List.range kept).map (BitVec.ofNat 16), replays := replays }

theorem witness_FioldLinks :
    FioldPort.reset.up = true ∧ 31 < 32 ∧ (0 : BitVec 16) = FioldPort.reset.ack + 1 ∧ FioldPort.reset.queued = 0 ∧
    (port 2 0).kept.findIdx? (fun k => decide (k = 1)) = some 1 ∧ (port 2 14).replays < 15 ∧ 15 ≤ (port 2 15).replays ∧
    (port 2 0).kept ≠ [] ∧ base.planeAfter 3 = some 4 ∧ 1 ∉ base.pkg.lostPeers ∧ base.pkg.asleep = false ∧
    { FioldPort.reset with up := false }.up = false ∧ base.pkg.bootFail = false ∧
    { base with pkg := { base.pkg with bootFail := true } }.pkg.bootFail = true := by decide +kernel

/-- Partition 0 as a part of job 6. -/
def jobbed : State := { base with
  parts := base.parts.set 0 { codePart with job := 6, ctx := some 7 }
  ctxs := [(7, { Ctx.reset with state := .running })]
  cores := base.cores.set c0 { base.here with utlb := [⟨some 7, codeRoot, codeVa, 16, codeLeaf⟩] } }

/-- A context of job 6 that is out. -/
def jobOut : State :=
  let image : Image := ⟨4, 4, 1, [], false, 0, [], [], [], [], [], { codePart with job := 6 }⟩
  { base with ctxs := [(7, { Ctx.reset with state := .waiting, image := some image })] }

theorem witness_FioldLinks_packets :
    jobbed.jobPart 5 = none ∧ jobbed.jobImage 5 = none ∧ jobOut.jobPart 6 = none ∧ (jobOut.jobImage 6).isSome = true ∧ jobbed.pkg.asleep = false ∧ jobbed.pkg.arrivals = [] ∧
    jobbed.part? 0 = some { codePart with job := 6, ctx := some 7 } ∧ { codePart with quiet := true }.quiet = true ∧
    jobbed.jobPart 6 = some (0, { codePart with job := 6, ctx := some 7 }) ∧ codePart.coreAt 0 0 1 = some (.grid 0 0 1) ∧
    codePart.cores.head? = some c0 ∧ remoteRangeOk 0x100000000100 1 = true ∧
    (match jobbed.cpTargets c0 0 (cutBytes 0x100000000100 [7]) with
      | (.ok [w], u) => w.pte.all (fun e => !e.repl && !u.moving e) && decide (u.claimHome c0 w.home = u) && decide (u.bad = []) &&
          decide (u.planeFor 0 1 = some 0)
      | _ => false) = true := by decide +kernel

/-- Trace on, with a record in the open segment, and with as many sealed segments as the ring holds. -/
def rec1 : TraceRec := ⟨1, 0, 0, 0, [], 0⟩
def sealed (n : Nat) : State :=
  { tracing base with trace := { (tracing base).trace with
    open_ := [rec1], sealed := (List.range n).map fun i => ⟨i, [], 0, 0, false, i + 1⟩ } }
def sampling : State := { base with
  trace := { base.trace with en := true, log2n := 10, sample := 5 }, pkg := { base.pkg with trsel := [(0, 4)] } }
def sampledLate : State := sampling.modRegion 0 fun x => { x with ref := 400000 }
def sampled : State := { sampling with trace := { sampling.trace with samples := [(c0, 1)] } }
def watched (n : BitVec 32) : State := base.modMe fun t => { t with wdCount := n }

theorem witness_TraceAndCycles :
    (base.ports.all fun p => p.2.ring.isEmpty) = true ∧ base.trace.open_ = [] ∧ (sealed 0).trace.open_ ≠ [] ∧
    (sealed 0).trace.slot = some 0 ∧ (sealed 0).trace.log2n.toNat = 2 ∧ rec1.body.length ≤ 48 ∧ (sealed 2).trace.waiting = [] ∧
    ((sealed 2).trace.sealed.map Segment.slot) = [1, 2] ∧ ((sealed 3).trace.sealed.map Segment.slot) = [1, 2, 3] ∧
    (sealed 2).trace.open_.length < 16382 ∧
    base.trace.en = false ∧ sampling.trace.en = true ∧ sampling.traces c0 2 = true ∧ sampling.trace.sample ≠ 0 ∧
    (sampling.partOf c0).isSome = true ∧ sampled.trace.samples.get c0 0 = sampled.samplePeriod c0 + 1 ∧
    (sampledLate.trace.samples.get c0 0 ≠ sampledLate.samplePeriod c0 + 1) ∧ sampling.trace.slot.isSome = true ∧
    base.trace.sample = 0 ∧ sampling.here.follows c0 = false ∧ base.here.sb = [] ∧ c0 ∈ base.coresOf 0 ∧ base.here.bench = none ∧
    (watched 1).me.wdCount = 1 ∧ 1 < (watched 2).me.wdCount.toNat ∧
    { codePart with det := true }.det = true ∧ codePart.quiet = false ∧ codePart.det = false := by decide +kernel

/-! ## Witnesses: the whole machine -/

/-- The seat whose turn it is, at a parcel of 16 bits, at a word of 32 and at one that no instruction has. -/
theorem witness_StepRunsDecoded :
    let ready (w : Nat) : State := State.reset.withFetchWord 32 w
    let v (w : Nat) : State := { ready w with cur := ⟨c0, 0⟩ }
    encode (.selectEntry c0) = none ∧ causeSeat (.selectEntry c0) = none ∧ causeSeat (.chain ⟨c0, 0⟩) = some ⟨c0, 0⟩ ∧
    encode (.chain ⟨c0, 0⟩) = none ∧ (v 3).preciseTrap.isNone = true ∧
    (ready 3).agenda = [] ∧ (ready 3).up c0 = true ∧ (ready 3).turns c0 = [0] ∧ (ready 3).turns thirdCore = [] ∧
    (v 3).firstCause (v 3).cur = none ∧ (v 3).mayIssue = true ∧ (v 3).pastCode = false ∧
    (match (v 3).fetchParcel (v 3).me.pc true with
      | (.ok p, u) => decide (p.extractLsb' 0 2 = 3) && u.me.awaits [1, 2, 3] == false && u.me.waitsFor.isNone
      | _ => false) = true ∧
    (match (v 0x1040).fetchParcel (v 0x1040).me.pc true with
      | (.ok p, u) => decide (p.extractLsb' 0 2 ≠ 3) && u.me.waitsFor.isNone &&
          (match readCode (.w16 p) with
            | .ok d => u.me.awaits (decodedRegs d) == false && u.gated (decodedReaches d) == false
            | .error _ => false)
      | _ => false) = true ∧
    (match readCode (.w16 0) with | .ok _ => false | .error _ => true) = true ∧ 0 < (ready 3).me.credit.toInt := by
  decide +kernel

theorem witness_EncodeDecode :
    (Instr.add 1 2 3).wf = true ∧ encode (.add 1 2 3) = some (.w32 0b000000_00011_00010_00001_0000000_00_11) ∧
    (Instr.exit16).wf = true ∧ encode .exit16 = some (.w16 0b0000000000_1111_00) := by decide +kernel

theorem witness_MemoryFormKept :
    base.memOk ∧ (match step base with | .next _ => true | _ => false) = true := by decide +kernel

end Sys2Proof.Tests
end

section
/-!
PROOFS. The instructions that trap on purpose and the return from a trap (R101, R163, R164, R393).
-/

namespace Sys2Proof.Machine

/-! ## Traps on purpose -/

/-- A word of class E0 that completes and then traps, from a seat that is not in trap state (R163). -/
theorem State.doesAndTraps_of_completeTrap {s : State} {i : Instr} {cost : Nat} {cause : BitVec 6} {tval : Word}
    (ht : s.me.inTrap = false) (he : exec i s = .next (s.completeTrap (w32 0 i) cost cause tval)) :
    s.DoesAndTraps i 4 cost cause tval := by
  obtain ⟨u, hran, htrap⟩ := s.trapped_completeTrap (w32 0 i) cost cause tval ht
  exact ⟨u, _, he, hran, htrap⟩

/-- A meaning that answers a precise trap takes it, from a seat that is not in trap state (R391). -/
theorem State.takes_of_raise {s : State} {i : Instr} {cause : BitVec 6} {tval : Word} (ht : s.me.inTrap = false)
    (he : exec i s = .next (s.raise cause tval)) : s.Takes i cause tval :=
  ⟨_, he, s.trapped_raise cause tval ht⟩

theorem exec_svc (s : State) : exec .svc s = .next (s.completeTrap (w32 0 .svc) 1 cSvc 0) := rfl

theorem exec_brk (n : BitVec 5) (s : State) :
    exec (.brk n) s = .next (s.completeTrap (w32 0 (.brk n)) 1 cBrk (BitVec.ofNat 64 n.toNat)) := by
  rw [BitVec.ofNat_toNat]
  rfl

/-- `trap` raises PRIV for a cause below 32 at user privilege, and completes into the trap for every other. -/
theorem exec_trap (a b : Reg) (s : State) :
    exec (.trap a b) s =
      if (BitVec.ofNat 6 (s.g a).toNat).toNat < 32 ∧ s.me.priv = 0 then .next (s.raise cPriv (s.g a))
      else .next (s.completeTrap (w32 0 (.trap a b)) 1 (BitVec.ofNat 6 (s.g a).toNat) (s.g b)) := rfl

theorem State.doesAndTraps_trap {s : State} {a b : Reg} (ht : s.me.inTrap = false)
    (h : 32 ≤ (BitVec.ofNat 6 (s.g a).toNat).toNat ∨ s.me.priv ≠ 0) :
    s.DoesAndTraps (.trap a b) 4 1 (BitVec.ofNat 6 (s.g a).toNat) (s.g b) := by
  refine State.doesAndTraps_of_completeTrap ht ?_
  rw [exec_trap, if_neg]
  rintro ⟨hlow, huser⟩
  exact h.elim (Nat.not_le_of_lt hlow) (absurd huser)

theorem State.takes_trap {s : State} {a b : Reg} (ht : s.me.inTrap = false)
    (hlow : (BitVec.ofNat 6 (s.g a).toNat).toNat < 32) (huser : s.me.priv = 0) :
    s.Takes (.trap a b) 1 (s.g a) := by
  refine State.takes_of_raise ht ?_
  rw [exec_trap, if_pos ⟨hlow, huser⟩]
  rfl

/-! ## The return from a trap -/

/-- The encoding of `eret`, which ILLEGAL leaves in cr.tval. -/
theorem tval_eret : Instr.eret.tval = 0x440003E3 := by decide +kernel

theorem exec_eret_of_inTrap {s : State} (h : s.me.inTrap = true) :
    exec .eret s = .next ((s.modMe Seat.leaveTrap).complete (w32 0 .eret) 1 (.goto s.me.tr.epc)) := if_pos h

theorem exec_eret_of_not_inTrap {s : State} (h : s.me.inTrap = false) :
    exec .eret s = .next (s.raise cIllegal Instr.eret.tval) := if_neg (Bool.eq_false_iff.mp h)

/-- Completion with `.goto`, as `eret` completes, makes no end test, so the loop registers stay as they are (R99). -/
theorem State.went_complete_goto (s : State) (f : Form) (cost : Nat) (a : Word) :
    s.Went (s.complete f cost (.goto a)) s.me.loops a (debit f.energy) cost := s.went_complete f cost (.goto a)

theorem State.loops_modMe_leaveTrap (s : State) : (s.modMe Seat.leaveTrap).me.loops = s.me.loops := by
  rw [State.me_modMe]
  rfl

/-- Settles O10: `svc`, `brk` and `trap` are completions into a trap, and `eret` is a completion that goes to cr.epc. -/
theorem trapsAndReturn : Obligations.TrapsAndReturn := by
  unfold Obligations.TrapsAndReturn
  refine ⟨fun s n a b ht => ⟨?svc, ?brk, ?trapCompletes, ?trapRefused⟩,
    fun s => ⟨fun ht => ?eret, fun ht => ?eretIllegal⟩⟩
  case svc => exact State.doesAndTraps_of_completeTrap ht (exec_svc s)
  case brk => exact State.doesAndTraps_of_completeTrap ht (exec_brk n s)
  case trapCompletes => exact State.doesAndTraps_trap ht
  case trapRefused => exact State.takes_trap ht
  case eret =>
    refine ⟨_, exec_eret_of_inTrap ht, ?_⟩
    have went := (s.modMe Seat.leaveTrap).went_complete_goto (w32 0 .eret) 1 s.me.tr.epc
    rw [State.loops_modMe_leaveTrap] at went
    exact went
  case eretIllegal =>
    rw [← tval_eret]
    exact State.takes_of_raise ht (exec_eret_of_not_inTrap ht)

end Sys2Proof.Machine
end

section
/-!
PROOFS. Instructions that write one g register and go on, with or without floating-point flags: what `State.alu` and
`State.fpu` do (R125, R143), in the words of Safety.lean.
-/

namespace Sys2Proof.Machine

/-- A meaning that completes u and goes on does what u holds. -/
theorem State.does_of_complete {s u : State} {i : Instr} {f : Form} {cost : Nat}
    (he : exec i s = .next (u.complete f cost .seq)) : s.Does i u f.len (debit f.energy) cost :=
  ⟨_, he, u.ran_complete f cost⟩

/-- A meaning that is a write of one register does that write. -/
theorem State.does_alu {s : State} {i : Instr} {f : Form} {d : Reg} {x : Word} {cost : Nat}
    (he : exec i s = s.alu f d x cost) : s.Does i (s.setG d x) f.len (debit f.energy) cost :=
  State.does_of_complete he

/-- The same, where the statement writes the value in another way. -/
theorem State.does_alu_eq {s : State} {i : Instr} {f : Form} {d : Reg} {x y : Word} {cost : Nat}
    (he : exec i s = s.alu f d x cost) (hy : x = y) : s.Does i (s.setG d y) f.len (debit f.energy) cost :=
  hy ▸ State.does_alu he

/-- A meaning that is a floating-point result writes its bits and raises its flags. -/
theorem State.does_fpu {s : State} {i : Instr} {f : Form} {d : Reg} {r : FRes} {cost : Nat}
    (he : exec i s = s.fpu f d r cost) :
    s.Does i ((s.setG d (BitVec.ofNat 64 r.bits)).setFlags r.flags) f.len (debit f.energy) cost :=
  State.does_of_complete he

/-- The same, where the statement writes bits and flags in another way. -/
theorem State.does_fpu_eq {s : State} {i : Instr} {f : Form} {d : Reg} {r : FRes} {cost n : Nat} {fl : BitVec 5}
    (he : exec i s = s.fpu f d r cost) (hr : r = ⟨n, fl⟩) :
    s.Does i ((s.setG d (BitVec.ofNat 64 n)).setFlags fl) f.len (debit f.energy) cost := by
  subst hr
  exact State.does_fpu he

end Sys2Proof.Machine
end

section
/-!
PROOFS. Products, quotients, counts of bits, extensions and bit fields (R137 to R139).
-/

namespace Sys2Proof.Machine

/-! ## Products and quotients (R138) -/

theorem word_mul_eq_ofNat (x y : Word) : x * y = BitVec.ofNat 64 (x.toNat * y.toNat) := by
  rw [BitVec.ofNat_mul, BitVec.ofNat_toNat, BitVec.ofNat_toNat, BitVec.setWidth_eq, BitVec.setWidth_eq]

/-- The one quotient that does not fit in a word, as R138 names it and as the model tests for it. -/
theorem divOverflow_iff (x y : Word) :
    (x.toInt = -2 ^ 63 ∧ y.toInt = -1) ↔ (x = BitVec.intMin 64 ∧ y = BitVec.allOnes 64) := by
  have hx : (BitVec.intMin 64).toInt = -2 ^ 63 := by decide
  have hy : (BitVec.allOnes 64).toInt = -1 := by decide
  rw [← hx, ← hy, BitVec.toInt_inj, BitVec.toInt_inj]

theorem divW_zero {x y : Word} (h : y = 0) : divW x y = BitVec.allOnes 64 := if_pos h

theorem divW_overflow {x y : Word} (hx : x.toInt = -2 ^ 63) (hy : y.toInt = -1) : divW x y = x := by
  have h := (divOverflow_iff x y).mp ⟨hx, hy⟩
  have hz : y ≠ 0 := by rw [h.2]; decide
  unfold divW
  rw [if_neg hz, if_pos h]

theorem toInt_divW {x y : Word} (hz : y ≠ 0) (ho : ¬(x.toInt = -2 ^ 63 ∧ y.toInt = -1)) :
    (divW x y).toInt = x.toInt.tdiv y.toInt := by
  rw [divOverflow_iff] at ho
  have fits : (x.sdiv y).toInt = x.toInt.tdiv y.toInt :=
    BitVec.toInt_sdiv_of_ne_or_ne x y (Decidable.not_and_iff_not_or_not.mp ho)
  unfold divW
  rw [if_neg hz, if_neg ho, ← fits, BitVec.ofInt_toInt]

theorem remW_zero {x y : Word} (h : y = 0) : remW x y = x := if_pos h

theorem remW_overflow {x y : Word} (hx : x.toInt = -2 ^ 63) (hy : y.toInt = -1) : remW x y = 0 := by
  have h := (divOverflow_iff x y).mp ⟨hx, hy⟩
  have hz : y ≠ 0 := by rw [h.2]; decide
  unfold remW
  rw [if_neg hz, if_pos h]

theorem toInt_remW {x y : Word} (hz : y ≠ 0) : (remW x y).toInt = x.toInt.tmod y.toInt := by
  by_cases ho : x.toInt = -2 ^ 63 ∧ y.toInt = -1
  · rw [remW_overflow ho.1 ho.2, ho.1, ho.2]
    decide
  · unfold remW
    rw [if_neg hz, if_neg (mt (divOverflow_iff x y).mpr ho), ← Int.tmod_def, ← BitVec.toInt_srem, BitVec.ofInt_toInt]

theorem divzW_zero {x y : Word} (h : y = 0) : divzW x y = BitVec.allOnes 64 := if_pos h

theorem toNat_divzW {x y : Word} (hz : y ≠ 0) : (divzW x y).toNat = x.toNat / y.toNat := by
  unfold divzW
  rw [if_neg hz, BitVec.toNat_udiv]

theorem remzW_zero {x y : Word} (h : y = 0) : remzW x y = x := if_pos h

theorem toNat_remzW {x y : Word} (hz : y ≠ 0) : (remzW x y).toNat = x.toNat % y.toNat := by
  unfold remzW
  rw [if_neg hz, BitVec.toNat_umod]

/-! ## Counts of bits -/

theorem clzW_zero {x : Word} (h : x = 0) : clzW x = 64 := if_pos h

theorem log2_lt_64 {x : Word} (h : x ≠ 0) : x.toNat.log2 < 64 := (Nat.log2_lt (BitVec.toNat_ne_iff_ne.mpr h)).mpr x.isLt

theorem toNat_clzW {x : Word} (h : x ≠ 0) : (clzW x).toNat = 63 - x.toNat.log2 := by
  unfold clzW
  rw [if_neg h, BitVec.toNat_ofNat, Nat.mod_eq_of_lt (by omega)]

/-- The highest one bit of a word that is not zero stands below the zeros that clz counts. -/
theorem clzW_spec {x : Word} (h : x ≠ 0) :
    (clzW x).toNat < 64 ∧ x.getLsbD (63 - (clzW x).toNat) = true ∧
      ∀ i, 63 - (clzW x).toNat < i → x.getLsbD i = false := by
  have top : 63 - (clzW x).toNat = x.toNat.log2 := by
    have := log2_lt_64 h
    rw [toNat_clzW h]
    omega
  rw [top]
  refine ⟨by rw [toNat_clzW h]; omega, Nat.testBit_log2 (BitVec.toNat_ne_iff_ne.mpr h), fun i hi => ?_⟩
  exact Nat.testBit_lt_two_pow (Nat.lt_of_lt_of_le Nat.lt_log2_self (Nat.pow_le_pow_right (by decide) hi))

/-- The place of the lowest one bit; 64 where there is none. -/
def lowestOne (x : Word) : Nat := (List.range 64).findIdx fun i => x.getLsbD i

theorem lowestOne_le (x : Word) : lowestOne x ≤ 64 := by
  have := List.findIdx_le_length (p := fun i => x.getLsbD i) (xs := List.range 64)
  rwa [List.length_range] at this

theorem toNat_ctzW (x : Word) : (ctzW x).toNat = lowestOne x := by
  have := lowestOne_le x
  exact (BitVec.toNat_ofNat ..).trans (Nat.mod_eq_of_lt (by unfold lowestOne at this; omega))

theorem getLsbD_of_lt_lowestOne {x : Word} {i : Nat} (h : i < lowestOne x) : x.getLsbD i = false := by
  have := List.not_of_lt_findIdx h
  rwa [List.getElem_range] at this

theorem lowestOne_lt {x : Word} (h : x ≠ 0) : lowestOne x < 64 := by
  refine Nat.lt_of_le_of_ne (lowestOne_le x) fun e => h (BitVec.eq_of_getLsbD_eq fun i hi => ?_)
  rw [getLsbD_of_lt_lowestOne (e ▸ hi)]
  exact BitVec.getLsbD_zero.symm

theorem getLsbD_lowestOne {x : Word} (h : x ≠ 0) : x.getLsbD (lowestOne x) = true := by
  have hlt : lowestOne x < (List.range 64).length := by rw [List.length_range]; exact lowestOne_lt h
  have : x.getLsbD ((List.range 64)[lowestOne x]) = true := List.findIdx_getElem (w := hlt)
  rwa [List.getElem_range] at this

theorem ctzW_zero {x : Word} (h : x = 0) : ctzW x = 64 := by subst h; decide

/-- Below the lowest one bit of a word that is not zero are the zeros that ctz counts. -/
theorem ctzW_spec {x : Word} (h : x ≠ 0) :
    (ctzW x).toNat < 64 ∧ x.getLsbD (ctzW x).toNat = true ∧ ∀ i < (ctzW x).toNat, x.getLsbD i = false := by
  rw [toNat_ctzW]
  exact ⟨lowestOne_lt h, getLsbD_lowestOne h, fun _ => getLsbD_of_lt_lowestOne⟩

theorem length_filter_eq_sum_toNat (p : Nat → Bool) (l : List Nat) :
    (l.filter p).length = (l.map fun i => (p i).toNat).sum := by
  induction l with
  | nil => rfl
  | cons i l ih =>
    rw [List.map_cons, List.sum_cons, ← ih]
    cases h : p i
    · rw [List.filter_cons_of_neg (by simp [h]), Bool.toNat_false, Nat.zero_add]
    · rw [List.filter_cons_of_pos h, List.length_cons, Bool.toNat_true, Nat.add_comm]

theorem popcW_eq (x : Word) :
    popcW x = BitVec.ofNat 64 ((List.range 64).map fun i => (x.getLsbD i).toNat).sum :=
  congrArg (BitVec.ofNat 64) (length_filter_eq_sum_toNat ..)

/-! ## Extensions and bit fields (R109, R139) -/

theorem zextW_eq (n : Nat) (x : Word) : zextW n x = BitVec.ofNat 64 (x.toNat % 2 ^ n) := by
  apply BitVec.eq_of_toNat_eq
  rw [zextW, BitVec.toNat_setWidth, BitVec.extractLsb'_toNat, Nat.shiftRight_zero, BitVec.toNat_ofNat]

theorem getLsbD_lowMask (n i : Nat) : (lowMask n).getLsbD i = (decide (i < 64) && decide (i < n)) := by
  rw [lowMask, BitVec.getLsbD_ofNat, Nat.testBit_two_pow_sub_one]

/-- The lowest bit of the field that a descriptor names. -/
theorem fieldOf_low (y : Word) : (fieldOf y).1 = (y.extractLsb' 0 6).toNat := by
  rw [BitVec.extractLsb'_toNat]
  rfl

/-- The field ends at its last bit, or at bit 63 where it would reach beyond. -/
theorem fieldOf_end (y : Word) : (fieldOf y).1 + (fieldOf y).2 =
    Nat.min ((y.extractLsb' 0 6).toNat + (y.extractLsb' 6 6).toNat) 63 + 1 := by
  have low := fieldOf_low y
  have bound := (y.extractLsb' 0 6).isLt
  have width : (fieldOf y).2 = min ((y.extractLsb' 6 6).toNat + 1) (64 - (fieldOf y).1) := rfl
  change _ = min _ _ + 1
  omega

theorem getLsbD_bextW (x y : Word) (i : Nat) : (bextW x y).getLsbD i =
    (decide (i < (fieldOf y).2) && x.getLsbD ((fieldOf y).1 + i)) := by
  rw [bextW, BitVec.getLsbD_and, BitVec.getLsbD_ushiftRight, getLsbD_lowMask]
  by_cases h : i < 64
  · rw [decide_eq_true h, Bool.true_and, Bool.and_comm]
  · rw [x.getLsbD_of_ge _ (by omega), Bool.false_and, Bool.and_false]

/-- The mask of a field has ones at the places of the field. -/
theorem getLsbD_fieldMask (lo n i : Nat) (h : i < 64) :
    (lowMask n <<< lo).getLsbD i = (decide (lo ≤ i) && decide (i < lo + n)) := by
  rw [BitVec.getLsbD_shiftLeft, getLsbD_lowMask, decide_eq_true h, Bool.true_and, Bool.eq_iff_iff]
  simp only [Bool.and_eq_true, Bool.not_eq_true', decide_eq_true_eq, decide_eq_false_iff_not]
  omega

theorem getLsbD_binsW (old x y : Word) (i : Nat) (h : i < 64) : (binsW old x y).getLsbD i =
    if (fieldOf y).1 ≤ i ∧ i < (fieldOf y).1 + (fieldOf y).2 then x.getLsbD (i - (fieldOf y).1)
    else old.getLsbD i := by
  rw [binsW, BitVec.getLsbD_or, BitVec.getLsbD_and, BitVec.getLsbD_and, BitVec.getLsbD_not,
    getLsbD_fieldMask _ _ _ h, BitVec.getLsbD_shiftLeft, ← Bool.decide_and, decide_eq_true h, Bool.true_and,
    Bool.true_and]
  split
  next inside =>
    rw [decide_eq_true inside, decide_eq_false (Nat.not_lt.mpr inside.1)]
    simp
  next outside => simp [outside]

/-- Settles O2: each instruction writes the value of its function, which the lemmas above describe case by case. -/
theorem productsAndBitFields : Obligations.ProductsAndBitFields := by
  unfold Obligations.ProductsAndBitFields
  refine ⟨fun s d a b => ⟨?mul, ?mulh, ?mulhz, ?div, ?rem, ?divz, ?remz⟩,
    fun s d a b w => ⟨?clz, ?ctz, ?popc, fun hw => ?sext, fun hw => ?zext, ?bext, ?bins⟩⟩
  case mul => exact State.does_alu_eq (f := w32 1 (.mul d a b)) rfl (word_mul_eq_ofNat ..)
  case mulh => exact State.does_alu (f := w32 1 (.mulh d a b)) (x := mulhW (s.g a) (s.g b)) rfl
  case mulhz => exact State.does_alu (f := w32 1 (.mulhz d a b)) (x := mulhzW (s.g a) (s.g b)) rfl
  case div =>
    exact ⟨divW (s.g a) (s.g b), divW_zero, divW_overflow, toInt_divW, State.does_alu (f := w32 1 (.div d a b)) rfl⟩
  case rem =>
    exact ⟨remW (s.g a) (s.g b), remW_zero, remW_overflow, toInt_remW, State.does_alu (f := w32 1 (.rem d a b)) rfl⟩
  case divz =>
    exact ⟨divzW (s.g a) (s.g b), divzW_zero, toNat_divzW, State.does_alu (f := w32 1 (.divz d a b)) rfl⟩
  case remz =>
    exact ⟨remzW (s.g a) (s.g b), remzW_zero, toNat_remzW, State.does_alu (f := w32 1 (.remz d a b)) rfl⟩
  case clz => exact ⟨clzW (s.g a), clzW_zero, clzW_spec, State.does_alu (f := w32 0 (.clz d a)) rfl⟩
  case ctz => exact ⟨ctzW (s.g a), ctzW_zero, ctzW_spec, State.does_alu (f := w32 0 (.ctz d a)) rfl⟩
  case popc => exact State.does_alu_eq (f := w32 0 (.popc d a)) rfl (popcW_eq _)
  case sext =>
    exact State.does_alu (f := w32 0 (.sext d a w)) (x := sextW (extBits w) (s.g a)) (if_neg (Nat.not_lt.mpr hw))
  case zext =>
    exact State.does_alu_eq (f := w32 0 (.zext d a w)) (if_neg (Nat.not_lt.mpr hw)) (zextW_eq (extBits w) _)
  case bext =>
    refine ⟨bextW (s.g a) (s.g b), fun i _ => ?_, State.does_alu (f := w32 0 (.bext d a b)) rfl⟩
    have hend := fieldOf_end (s.g b)
    rw [getLsbD_bextW, ← fieldOf_low]
    rw [← fieldOf_low] at hend
    exact congrArg (· && _) (decide_eq_decide.mpr (by omega))
  case bins =>
    refine ⟨binsW (s.g d) (s.g a) (s.g b), fun i hi => ?_, State.does_alu (f := w32 0 (.bins d a b)) rfl⟩
    rw [getLsbD_binsW _ _ _ _ hi, fieldOf_end, fieldOf_low]
    simp only [Nat.lt_succ_iff]

end Sys2Proof.Machine
end

section
/-!
PROOFS. Floating-point selection, comparison, classification and signs (R148, R149).
-/

namespace Sys2Proof.Machine

/-! ## Order and equality of data -/

/-- A finite datum as an integer, counted in units of 2^e0 for an e0 not above its exponent. -/
def unitsAt (e0 : Int) (n : Bool) (m : Nat) (e : Int) : Int :=
  if n then -(m * 2 ^ (e - e0).toNat : Nat) else (m * 2 ^ (e - e0).toNat : Nat)

theorem unitsAt_zero (e0 : Int) (n : Bool) (e : Int) : unitsAt e0 n 0 e = 0 := by
  cases n <;> simp [unitsAt]

/-- The exact difference of two finite data. -/
theorem exactSum_sub (n n' : Bool) (m m' : Nat) (e e' : Int) :
    (exactSum [(n, m, e), (!n', m', e')]).1 = unitsAt (min e e') n m e - unitsAt (min e e') n' m' e' := by
  have least : (if e' < e then e' else e) = min e e' := by
    split <;> omega
  cases n <;> cases n' <;> simp [exactSum, unitsAt, least]

theorem Fl.lt_num_iff (n n' : Bool) (m m' : Nat) (e e' : Int) :
    (Fl.num n m e).lt (.num n' m' e') = true ↔ unitsAt (min e e') n m e < unitsAt (min e e') n' m' e' := by
  have sum := exactSum_sub n n' m m' e e'
  refine decide_eq_true_iff.trans ?_
  rw [sum]
  omega

theorem Fl.eq_num_iff (n n' : Bool) (m m' : Nat) (e e' : Int) :
    (Fl.num n m e).eq (.num n' m' e') = true ↔ unitsAt (min e e') n m e = unitsAt (min e e') n' m' e' := by
  have sum := exactSum_sub n n' m m' e e'
  refine decide_eq_true_iff.trans ?_
  rw [sum]
  omega

/-- Finite data are ordered as integers are; where an infinity or a NaN is among the two, the signs decide. -/
theorem Fl.lt_asymm {x y : Fl} (h : x.lt y = true) : y.lt x = false := by
  rcases x with _ | n | ⟨n, m, e⟩ <;> rcases y with _ | n' | ⟨n', m', e'⟩
  case num.num =>
    rw [Fl.lt_num_iff] at h
    rw [Bool.eq_false_iff, Ne, Fl.lt_num_iff, Int.min_comm]
    omega
  all_goals simp_all [Fl.lt]

theorem Fl.eq_false_of_lt {x y : Fl} (h : x.lt y = true ∨ y.lt x = true) : x.eq y = false := by
  rcases x with _ | n | ⟨n, m, e⟩ <;> rcases y with _ | n' | ⟨n', m', e'⟩
  case num.num =>
    rw [Fl.lt_num_iff, Fl.lt_num_iff, Int.min_comm e' e] at h
    rw [Bool.eq_false_iff, Ne, Fl.eq_num_iff]
    omega
  case inf.inf => cases n <;> cases n' <;> simp_all [Fl.lt, Fl.eq]
  all_goals rfl

theorem Fl.isZero_iff {x : Fl} : x.isZero = true ↔ ∃ n e, x = .num n 0 e := by
  rcases x with _ | _ | ⟨n, m, e⟩ <;> simp [Fl.isZero]

/-- Zeros are not ordered, whatever their signs. -/
theorem Fl.lt_eq_false_of_isZero {x y : Fl} (hx : x.isZero = true) (hy : y.isZero = true) : x.lt y = false := by
  obtain ⟨n, e, rfl⟩ := Fl.isZero_iff.mp hx
  obtain ⟨n', e', rfl⟩ := Fl.isZero_iff.mp hy
  rw [Bool.eq_false_iff, Ne, Fl.lt_num_iff, unitsAt_zero, unitsAt_zero]
  exact Int.lt_irrefl 0

theorem Fl.isSnan_eq_false {x : Fl} (h : x.isNan = false) : x.isSnan = false := by
  cases x with
  | nan => cases h
  | inf => rfl
  | num => rfl

/-! ## Selection (R148) -/

/-- The order of minimumNumber and maximumNumber: -0 stands below +0. -/
def Fl.below (x y : Fl) : Bool := x.lt y || (x.isZero && y.isZero && x.neg && !y.neg)

theorem Fl.below_iff {x y : Fl} : x.below y = true ↔
    x.lt y = true ∨ (x.isZero = true ∧ y.isZero = true ∧ x.neg = true ∧ y.neg = false) := by
  simp only [Fl.below, Bool.or_eq_true, Bool.and_eq_true, Bool.not_eq_true', and_assoc]

/-- The same order read from above. -/
theorem Fl.above_iff {x y : Fl} : y.below x = true ↔
    y.lt x = true ∨ (x.isZero = true ∧ y.isZero = true ∧ x.neg = false ∧ y.neg = true) := by
  rw [Fl.below_iff, and_left_comm, and_comm (a := y.neg = true)]

theorem Fl.below_asymm {x y : Fl} (h : x.below y = true) : y.below x = false := by
  rw [Bool.eq_false_iff, Ne, Fl.below_iff]
  rcases Fl.below_iff.mp h with hlt | ⟨hx, hy, hneg, hpos⟩
  · rintro (hgt | ⟨hy, hx, -, -⟩)
    · exact absurd (Fl.lt_asymm hlt) (by rw [hgt]; decide)
    · exact absurd (Fl.lt_eq_false_of_isZero hx hy) (by rw [hlt]; decide)
  · rintro (hgt | ⟨-, -, hyneg, -⟩)
    · exact absurd (Fl.lt_eq_false_of_isZero hy hx) (by rw [hgt]; decide)
    · exact absurd hpos (by rw [hyneg]; decide)

/-- Of two data of which one is below the other, value or sign differ. -/
theorem Fl.differ_of_below {x y : Fl} (h : x.below y = true ∨ y.below x = true) :
    (x.eq y && (x.neg == y.neg)) = false := by
  rw [Fl.below_iff, Fl.below_iff] at h
  rcases h with (hlt | ⟨-, -, hx, hy⟩) | (hlt | ⟨-, -, hy, hx⟩)
  · rw [Fl.eq_false_of_lt (.inl hlt), Bool.false_and]
  · rw [hx, hy]; exact Bool.and_false _
  · rw [Fl.eq_false_of_lt (.inr hlt), Bool.false_and]
  · rw [hx, hy]; exact Bool.and_false _

/-- r is the source that R148 selects of the patterns a and b, where `less x y` asks for x: a number where the other is
a NaN, the default NaN where both are. -/
def Fmt.Picks (k : Fmt) (a b r : Nat) (less : Fl → Fl → Prop) : Prop :=
  ((k.dec a).isNan = true → (k.dec b).isNan = true → r = k.defaultNan) ∧
  ((k.dec a).isNan = true → (k.dec b).isNan = false → r = b) ∧
  ((k.dec a).isNan = false → (k.dec b).isNan = true → r = a) ∧
  (((k.dec a).isNan || (k.dec b).isNan) = false →
    (r = a ∨ r = b) ∧ (less (k.dec a) (k.dec b) → r = a) ∧ (less (k.dec b) (k.dec a) → r = b))

theorem Fmt.Picks.mono {k : Fmt} {a b r : Nat} {less less' : Fl → Fl → Prop} (h : k.Picks a b r less)
    (imp : ∀ x y, less' x y → less x y) : k.Picks a b r less' := by
  obtain ⟨both, first, second, numbers⟩ := h
  refine ⟨both, first, second, fun hn => ?_⟩
  obtain ⟨one, left, right⟩ := numbers hn
  exact ⟨one, fun hl => left (imp _ _ hl), fun hl => right (imp _ _ hl)⟩

/-- The selection of two numbers. -/
theorem Fmt.bits_minmax_of_numbers (k : Fmt) (isMax : Bool) {a b : Nat} (ha : (k.dec a).isNan = false)
    (hb : (k.dec b).isNan = false) :
    (k.minmax isMax a b).bits =
      if ((k.dec a).below (k.dec b) != isMax) = true then a
      else if ((k.dec a).eq (k.dec b) && ((k.dec a).neg == (k.dec b).neg)) = true then a else b := by
  simp [Fmt.minmax, ha, hb, Fl.below]

theorem Fmt.picks_minmax (k : Fmt) (isMax : Bool) (a b : Nat) :
    k.Picks a b (k.minmax isMax a b).bits
      fun x y => (if isMax then y.below x else x.below y) = true := by
  refine ⟨fun ha hb => by simp [Fmt.minmax, ha, hb], fun ha hb => by simp [Fmt.minmax, ha, hb],
    fun ha hb => by simp [Fmt.minmax, ha, hb], fun hn => ?_⟩
  obtain ⟨ha, hb⟩ := Bool.or_eq_false_iff.mp hn
  rw [k.bits_minmax_of_numbers isMax ha hb]
  refine ⟨?_, ?_⟩
  · split
    · exact .inl rfl
    · split
      · exact .inl rfl
      · exact .inr rfl
  cases isMax with
  | false =>
    refine ⟨fun (hless : (k.dec a).below (k.dec b) = true) => ?_,
      fun (hless : (k.dec b).below (k.dec a) = true) => ?_⟩
    · rw [hless]; rfl
    · rw [Fl.below_asymm hless, Fl.differ_of_below (.inr hless)]; rfl
  | true =>
    refine ⟨fun (hless : (k.dec b).below (k.dec a) = true) => ?_,
      fun (hless : (k.dec a).below (k.dec b) = true) => ?_⟩
    · rw [Fl.below_asymm hless]; rfl
    · rw [hless, Fl.differ_of_below (.inl hless)]; rfl

theorem flagIf_or (p q : Bool) (f : BitVec 5) : flagIf (p || q) f = if p = true ∨ q = true then f else 0 := by
  simp only [flagIf, Bool.or_eq_true]

theorem Fmt.flags_minmax (k : Fmt) (isMax : Bool) (a b : Nat) : (k.minmax isMax a b).flags =
    if (k.dec a).isSnan = true ∨ (k.dec b).isSnan = true then flagNV else 0 := by
  rw [← flagIf_or]
  unfold Fmt.minmax
  dsimp only
  split
  · rfl
  split
  · rfl
  split <;> rfl

/-! ## Comparison (R148) -/

theorem cmpRes_if (c : Bool) (fl : BitVec 5) (r : Bool) :
    cmpRes (if c = true then (false, fl) else (r, 0)) = ⟨if c = true then 0 else r.toNat, if c = true then fl else 0⟩ := by
  cases c <;> cases r <;> rfl

theorem Fmt.cmpRes_cmpEq (k : Fmt) (a b : Nat) : cmpRes (k.cmpEq a b) =
    ⟨if ((k.dec a).isNan || (k.dec b).isNan) = true then 0 else ((k.dec a).eq (k.dec b)).toNat,
      if (k.dec a).isSnan = true ∨ (k.dec b).isSnan = true then flagNV else 0⟩ := by
  rw [Fmt.cmpEq, cmpRes_if, ← flagIf_or]
  congr 1
  split
  next => rfl
  next numbers =>
    obtain ⟨ha, hb⟩ := Bool.or_eq_false_iff.mp (Bool.eq_false_iff.mpr numbers)
    rw [Fl.isSnan_eq_false ha, Fl.isSnan_eq_false hb]
    rfl

theorem Fmt.cmpRes_cmpLt (k : Fmt) (a b : Nat) : cmpRes (k.cmpLt a b) =
    ⟨if ((k.dec a).isNan || (k.dec b).isNan) = true then 0 else ((k.dec a).lt (k.dec b)).toNat,
      if (k.dec a).isNan = true ∨ (k.dec b).isNan = true then flagNV else 0⟩ := by
  rw [Fmt.cmpLt, cmpRes_if, ← flagIf_or]
  rfl

theorem Fmt.cmpRes_cmpLe (k : Fmt) (a b : Nat) : cmpRes (k.cmpLe a b) =
    ⟨if ((k.dec a).isNan || (k.dec b).isNan) = true then 0
        else ((k.dec a).lt (k.dec b) || (k.dec a).eq (k.dec b)).toNat,
      if (k.dec a).isNan = true ∨ (k.dec b).isNan = true then flagNV else 0⟩ := by
  rw [Fmt.cmpLe, cmpRes_if, ← flagIf_or]
  rfl

/-! ## Classification (R148) -/

theorem Fmt.classBit_lt (k : Fmt) (a : Nat) : k.classBit a < 10 := by
  unfold Fmt.classBit
  split
  next => split <;> decide
  next => split <;> decide
  next =>
    repeat' split
    all_goals decide

theorem Fmt.classBit_of_isSnan {k : Fmt} {a : Nat} (h : (k.dec a).isSnan = true) : k.classBit a = 8 := by
  unfold Fmt.classBit
  generalize k.dec a = x at h
  cases x with
  | nan n s f => exact if_pos h
  | inf => cases h
  | num => cases h

theorem Fmt.classBit_of_quiet {k : Fmt} {a : Nat} (h : (k.dec a).isNan = true) (hs : (k.dec a).isSnan = false) :
    k.classBit a = 9 := by
  unfold Fmt.classBit
  generalize k.dec a = x at h hs
  cases x with
  | nan n s f => exact if_neg (Bool.eq_false_iff.mp hs)
  | inf => cases h
  | num => cases h

theorem Fmt.classBit_of_inf {k : Fmt} {a : Nat} {n : Bool} (h : k.dec a = .inf n) :
    k.classBit a = if n = true then 0 else 7 := by
  rw [Fmt.classBit, h]

theorem Fmt.classBit_of_num {k : Fmt} {a m : Nat} {n : Bool} {e : Int} (h : k.dec a = .num n m e) :
    k.classBit a =
      if m = 0 then (if n = true then 3 else 4)
      else if m < 2 ^ k.fbits then (if n = true then 2 else 5)
      else if n = true then 1 else 6 := by
  rw [Fmt.classBit, h]

/-! ## Signs (R149) -/

theorem Fmt.signBit_eq (k : Fmt) : k.signBit = 2 ^ (k.width - 1) := by
  rw [Fmt.signBit, Fmt.width, Nat.add_assoc, Nat.add_sub_cancel_left]

theorem Fmt.neg?_eq (k : Fmt) (a : Nat) : k.neg? a = a.testBit (k.width - 1) := by
  rw [Fmt.neg?, Fmt.width, Nat.add_assoc, Nat.add_sub_cancel_left]

theorem Fmt.withSign_eq (k : Fmt) (a : Nat) (n : Bool) :
    k.withSign a n = a % 2 ^ (k.width - 1) + if n = true then 2 ^ (k.width - 1) else 0 := by
  rw [Fmt.withSign, Fmt.sign, Fmt.signBit_eq]
  split
  · rw [Nat.add_comm]
  · rfl

theorem Fmt.withSign_not (k : Fmt) (a : Nat) (n : Bool) :
    k.withSign a (!n) = a % 2 ^ (k.width - 1) + if n = true then 0 else 2 ^ (k.width - 1) := by
  rw [Fmt.withSign_eq]
  cases n <;> rfl

theorem Fmt.withSign_bne (k : Fmt) (a : Nat) (n n' : Bool) :
    k.withSign a (n != n') = a % 2 ^ (k.width - 1) + if n = n' then 0 else 2 ^ (k.width - 1) := by
  rw [Fmt.withSign_eq]
  cases n <;> cases n' <;> rfl

/-- Settles O6: each instruction writes the result of its function of the patterns, which the lemmas above describe. -/
theorem floatChoices : Obligations.FloatChoices := by
  unfold Obligations.FloatChoices
  intro s w d a b
  refine ⟨?min, ?max, ?eq, ?lt, ?le, ?kind, ?sgn, ?sgnN, ?sgnX⟩
  case min =>
    exact ⟨_, ((fmtOf w).picks_minmax false _ _).mono fun _ _ => Fl.below_iff.mpr,
      State.does_fpu_eq (f := w32 1 (.fmin w d a b)) rfl (congrArg (FRes.mk _) (Fmt.flags_minmax ..))⟩
  case max =>
    exact ⟨_, ((fmtOf w).picks_minmax true _ _).mono fun _ _ => Fl.above_iff.mpr,
      State.does_fpu_eq (f := w32 1 (.fmax w d a b)) rfl (congrArg (FRes.mk _) (Fmt.flags_minmax ..))⟩
  case eq => exact State.does_fpu_eq (f := w32 1 (.fcmpEq w d a b)) rfl (Fmt.cmpRes_cmpEq ..)
  case lt => exact State.does_fpu_eq (f := w32 1 (.fcmpLt w d a b)) rfl (Fmt.cmpRes_cmpLt ..)
  case le => exact State.does_fpu_eq (f := w32 1 (.fcmpLe w d a b)) rfl (Fmt.cmpRes_cmpLe ..)
  case kind =>
    exact ⟨(fmtOf w).classBit (fsrc w (s.g a)), Fmt.classBit_lt .., Fmt.classBit_of_isSnan, Fmt.classBit_of_quiet,
      fun n => Fmt.classBit_of_inf, fun n e h => (Fmt.classBit_of_num h).trans (if_pos rfl),
      fun n m e h hm => (Fmt.classBit_of_num h).trans (if_neg hm),
      State.does_fpu_eq (f := w32 1 (.fclass w d a)) rfl rfl⟩
  case sgn =>
    refine State.does_fpu_eq (f := w32 1 (.fsgn w d a b)) rfl (congrArg (FRes.mk · 0) ?_)
    rw [Fmt.withSign_eq, Fmt.neg?_eq]
    rfl
  case sgnN =>
    refine State.does_fpu_eq (f := w32 1 (.fsgnN w d a b)) rfl (congrArg (FRes.mk · 0) ?_)
    rw [Fmt.withSign_not, Fmt.neg?_eq]
    rfl
  case sgnX =>
    refine State.does_fpu_eq (f := w32 1 (.fsgnX w d a b)) rfl (congrArg (FRes.mk · 0) ?_)
    rw [Fmt.withSign_bne, Fmt.neg?_eq, Fmt.neg?_eq]
    rfl

end Sys2Proof.Machine
end

section
/-!
PROOFS. Elements, lanes and widths of vectors (R107, R168, R169): what an element reads of packed and merged elements,
and which lanes a fold over elements sets.
-/

namespace Sys2Proof.Machine

/-! ## Elements -/

theorem elemAt_zero (n x : Nat) : elemAt n 0 x = x % 256 ^ n := by
  rw [elemAt, Nat.mul_zero, Nat.pow_zero, Nat.div_one]

theorem elemAt_succ (n i x : Nat) : elemAt n (i + 1) x = elemAt n i (x / 256 ^ n) := by
  rw [elemAt, elemAt, Nat.div_div_eq_div_mul, ← Nat.pow_add, Nat.mul_succ, Nat.add_comm]

theorem pow_256_pos (n : Nat) : 0 < 256 ^ n := Nat.pow_pos (by decide)

theorem elemAt_lt (n i x : Nat) : elemAt n i x < 256 ^ n := Nat.mod_lt _ (pow_256_pos n)

@[simp] theorem elemAt_mod_self (n i x : Nat) : elemAt n i x % 256 ^ n = elemAt n i x :=
  Nat.mod_eq_of_lt (elemAt_lt n i x)

theorem pow_256 (n : Nat) : 256 ^ n = 2 ^ (8 * n) := Nat.pow_mul 2 8 n ▸ rfl

theorem testBit_elemAt (n i x j : Nat) :
    (elemAt n i x).testBit j = (decide (j < 8 * n) && x.testBit (j + 8 * (n * i))) := by
  rw [elemAt, pow_256, pow_256, Nat.testBit_mod_two_pow, Nat.testBit_div_two_pow]

/-- An element that lies within the width of a register reads as it was before the register took it. -/
theorem elemAt_ofNat {n i w : Nat} (h : 8 * (n * i + n) ≤ w) (x : Nat) :
    elemAt n i (BitVec.ofNat w x).toNat = elemAt n i x := by
  refine Nat.eq_of_testBit_eq fun j => ?_
  rw [testBit_elemAt, testBit_elemAt, BitVec.toNat_ofNat, Nat.testBit_mod_two_pow]
  by_cases hj : j < 8 * n
  · rw [decide_eq_true (show j + 8 * (n * i) < w by omega), Bool.true_and]
  · rw [decide_eq_false hj, Bool.false_and, Bool.false_and]

@[simp] theorem length_elemsOf (n count x : Nat) : (elemsOf n count x).length = count := by
  induction count generalizing x with
  | zero => rfl
  | succ count ih => rw [elemsOf, List.length_cons, ih]

theorem getD_elemsOf {n count i : Nat} (h : i < count) (x d : Nat) : (elemsOf n count x).getD i d = elemAt n i x := by
  induction count generalizing i x with
  | zero => exact absurd h (Nat.not_lt_zero i)
  | succ count ih =>
    cases i with
    | zero => exact (elemAt_zero n x).symm
    | succ i => exact (ih (Nat.lt_of_succ_lt_succ h) _).trans (elemAt_succ n i x).symm

theorem length_map_range {α : Type} (count : Nat) (g : Nat → α) : ((List.range count).map g).length = count := by
  rw [List.length_map, List.length_range]

theorem getD_map_range {α : Type} {count i : Nat} (h : i < count) (g : Nat → α) (d : α) :
    ((List.range count).map g).getD i d = g i := by
  simp [h]

theorem getD_replicate {count i : Nat} (h : i < count) (x d : Nat) : (List.replicate count x).getD i d = x := by
  rw [List.getD_eq_getElem?_getD, List.getElem?_replicate, if_pos h]
  rfl

theorem length_map_elemsOf (n count x : Nat) (g : Nat → Nat) : ((elemsOf n count x).map g).length = count := by
  rw [List.length_map, length_elemsOf]

theorem getD_map_elemsOf {n count i : Nat} (h : i < count) (x : Nat) (g : Nat → Nat) :
    ((elemsOf n count x).map g).getD i 0 = g (elemAt n i x) := by
  have hi : i < (elemsOf n count x).length := by rwa [length_elemsOf]
  rw [← getD_elemsOf h x 0, List.getD_eq_getElem?_getD, List.getD_eq_getElem?_getD, List.getElem?_map,
    List.getElem?_eq_getElem hi]
  rfl

theorem packElems_lt (n : Nat) (l : List Nat) : packElems n l < 256 ^ (n * l.length) := by
  induction l with
  | nil => exact Nat.one_pos
  | cons e r ih =>
    rw [packElems, List.length_cons, Nat.mul_succ, Nat.add_comm (n * _), Nat.pow_add]
    have := Nat.mod_lt e (pow_256_pos n)
    calc e % 256 ^ n + 256 ^ n * packElems n r < 256 ^ n * (packElems n r + 1) := by rw [Nat.mul_succ]; omega
      _ ≤ 256 ^ n * 256 ^ (n * r.length) := Nat.mul_le_mul_left _ ih

/-- Packed elements, with whatever lies above them, read back as they were given. -/
theorem elemAt_packElems {n i : Nat} {l : List Nat} (h : i < l.length) (top : Nat) :
    elemAt n i (packElems n l + 256 ^ (n * l.length) * top) = l.getD i 0 % 256 ^ n := by
  induction l generalizing i with
  | nil => exact absurd h (Nat.not_lt_zero i)
  | cons e r ih =>
    have shape : packElems n (e :: r) + 256 ^ (n * (e :: r).length) * top =
        e % 256 ^ n + 256 ^ n * (packElems n r + 256 ^ (n * r.length) * top) := by
      rw [packElems, List.length_cons, Nat.mul_succ, Nat.pow_add, Nat.mul_add, Nat.add_assoc, ← Nat.mul_assoc (256 ^ n),
        Nat.mul_comm (256 ^ (n * r.length))]
    rw [shape]
    cases i with
    | zero => rw [elemAt_zero, Nat.add_mul_mod_self_left, Nat.mod_mod]; rfl
    | succ i =>
      rw [elemAt_succ, Nat.add_mul_div_left _ _ (pow_256_pos n), Nat.div_eq_of_lt (Nat.mod_lt _ (pow_256_pos n)),
        Nat.zero_add, ih (Nat.lt_of_succ_lt_succ h)]
      rfl

theorem testBit_packElems_above {n j : Nat} {l : List Nat} (h : 8 * n * l.length ≤ j) (x : Nat) :
    (packElems n l + 256 ^ (n * l.length) * (x / 256 ^ (n * l.length))).testBit j = x.testBit j := by
  have low := packElems_lt n l
  rw [pow_256] at low ⊢
  rw [← Nat.mul_assoc] at low ⊢
  rw [Nat.add_comm, Nat.testBit_two_pow_mul_add _ low, if_neg (Nat.not_lt.mpr h), Nat.testBit_div_two_pow,
    Nat.sub_add_cancel h]

/-! ## Merging (R169) -/

/-- The elements that a merge writes, before they are packed. -/
def merged (n : Nat) (p : Pred) (old : VReg) (new : List Nat) : List Nat :=
  (List.range new.length).map fun i =>
    if active p n i then new.getD i 0 else (elemsOf n new.length old.toNat).getD i 0

@[simp] theorem length_merged (n : Nat) (p : Pred) (old : VReg) (new : List Nat) :
    (merged n p old new).length = new.length := by
  rw [merged, List.length_map, List.length_range]

theorem getD_merged {n i : Nat} {new : List Nat} (h : i < new.length) (p : Pred) (old : VReg) :
    (merged n p old new).getD i 0 = if active p n i then new.getD i 0 else elemAt n i old.toNat := by
  rw [← getD_elemsOf h old.toNat 0]
  simp [merged, h]

theorem merge_eq (n : Nat) (p : Pred) (old : VReg) (new : List Nat) :
    merge n p old new = BitVec.ofNat 8192 (packElems n (merged n p old new) +
      256 ^ (n * (merged n p old new).length) * (old.toNat / 256 ^ (n * (merged n p old new).length))) := by
  rw [length_merged]
  rfl

theorem elemAt_merge {n i : Nat} {new : List Nat} (fits : n * new.length ≤ 1024) (h : i < new.length) (p : Pred)
    (old : VReg) : elemAt n i (merge n p old new).toNat =
      if active p n i then new.getD i 0 % 256 ^ n else elemAt n i old.toNat := by
  have inside : n * i + n ≤ n * new.length := Nat.mul_le_mul_left n h
  have bits : 8 * (n * i + n) ≤ 8192 := by omega
  have hm : i < (merged n p old new).length := by rwa [length_merged]
  rw [merge_eq, elemAt_ofNat bits, elemAt_packElems hm, getD_merged h]
  split
  · rfl
  · exact elemAt_mod_self ..

theorem getLsbD_merge_above {n j : Nat} {new : List Nat} (h : 8 * n * new.length ≤ j) (p : Pred) (old : VReg) :
    (merge n p old new).getLsbD j = old.getLsbD j := by
  have above : 8 * n * (merged n p old new).length ≤ j := by rwa [length_merged]
  rw [merge_eq, BitVec.getLsbD_ofNat, testBit_packElems_above above, BitVec.testBit_toNat]
  by_cases hj : j < 8192
  · rw [decide_eq_true hj, Bool.true_and]
  · rw [decide_eq_false hj, Bool.false_and, old.getLsbD_of_ge j (Nat.not_lt.mp hj)]

theorem active_allOnes {n i : Nat} (h : n * i < 1024) : active (BitVec.allOnes 1024) n i = true := by
  rw [active, BitVec.getLsbD_allOnes, decide_eq_true h]

/-- A merge of one element under a predicate of ones writes element 0. -/
theorem elemAt_merge_singleton {n : Nat} (h : n ≤ 1024) (old : VReg) (e : Nat) :
    elemAt n 0 (merge n (BitVec.allOnes 1024) old [e]).toNat = e % 256 ^ n := by
  have fits : n * [e].length ≤ 1024 := by rwa [List.length_singleton, Nat.mul_one]
  rw [elemAt_merge fits Nat.one_pos, active_allOnes (Nat.mul_zero n ▸ Nat.zero_lt_succ _), if_pos rfl]
  rfl

/-! ## Widths (R107, R168) -/

theorem State.vbytes_eq_two_pow (s : State) : ∃ e, 6 ≤ e ∧ e ≤ 10 ∧ s.vbytes = 2 ^ e := by
  have core : s.k = 1 ∨ ∃ c, s.k = shapeK c := by
    unfold State.k
    split
    · exact .inr ⟨_, rfl⟩
    · exact .inl rfl
  rcases core with h | ⟨c, h⟩
  · exact ⟨6, by decide, by decide, (congrArg (64 * ·) h).trans rfl⟩
  · have := c.isLt
    exact ⟨c.toNat + 1 + 6, by omega, by omega, by rw [State.vbytes, h, shapeK, Nat.pow_add _ _ 6, Nat.mul_comm]⟩

theorem State.vbytes_le (s : State) : s.vbytes ≤ 1024 := by
  obtain ⟨e, -, he, h⟩ := s.vbytes_eq_two_pow
  rw [h]
  exact Nat.pow_le_pow_right (by decide) he

theorem State.dvd_vbytes (s : State) {n : Nat} (hn : n ∣ 8) : n ∣ s.vbytes :=
  Nat.dvd_trans hn (Nat.dvd_trans (by decide) (Nat.dvd_mul_right 64 s.k))

/-- The elements of a size of R107 fill the width. -/
theorem State.size_mul_count (s : State) {n : Nat} (hn : n ∣ 8) : n * (s.vbytes / n) = s.vbytes :=
  Nat.mul_div_cancel' (s.dvd_vbytes hn)

/-- The sizes of R107. -/
theorem eq_two_pow_of_dvd : ∀ {n : Nat}, n ∣ 8 → ∃ t, t < 4 ∧ n = 2 ^ t := by
  have sizes : ∀ n, n < 9 → n ∣ 8 → ∃ t, t < 4 ∧ n = 2 ^ t := by decide
  exact fun {n} hn => sizes n (Nat.lt_succ_of_le (Nat.le_of_dvd (by decide) hn)) hn

theorem State.count_eq_two_pow (s : State) {n : Nat} (hn : n ∣ 8) : s.vbytes / n = 2 ^ (s.vbytes / n).log2 := by
  obtain ⟨e, he, -, h⟩ := s.vbytes_eq_two_pow
  obtain ⟨t, ht, rfl⟩ := eq_two_pow_of_dvd hn
  rw [h, Nat.pow_div (by omega) (by decide), Nat.log2_two_pow]

theorem intSize_dvd (ty : BitVec 2) : intSize ty ∣ 8 := by revert ty; decide

theorem fpSize_dvd (ty : BitVec 2) : fpSize ty ∣ 8 := by revert ty; decide

theorem width_vfmt_div (ty : BitVec 2) : (vfmt ty).width / 8 = fpSize ty := by revert ty; decide

/-- An active element's lowest lane is below the width (R168). -/
theorem State.lane_lt (s : State) {n i : Nat} (hn : n ∣ 8) (h : i < s.vbytes / n) : n * i < s.vbytes := by
  have pos := Nat.pos_of_dvd_of_pos hn (by decide)
  exact Nat.lt_of_lt_of_eq (Nat.mul_lt_mul_of_pos_left h pos) (s.size_mul_count hn)

/-- Byte lane j of the width belongs to element j / n. -/
theorem State.lane_div_lt_iff (s : State) {n j : Nat} (hn : n ∣ 8) : j / n < s.vbytes / n ↔ j < s.vbytes := by
  have pos := Nat.pos_of_dvd_of_pos hn (by decide)
  rw [Nat.div_lt_iff_lt_mul pos, Nat.mul_comm, s.size_mul_count hn]

/-! ## Second sources (R170) -/

/-- A source that gives bits gives them to every form of an instruction: the form only names what a trap reports. -/
theorem State.vbOf_bits {s w : State} {fm : Form} {v : VForm} {b : Nat} (h : s.vbOf fm v = (.bits b, w)) (fm' : Form) :
    s.vbOf fm' v = (.bits b, w) := by
  revert h
  unfold State.vbOf
  by_cases hc : v.c = 0
  · rw [if_pos hc, if_pos hc]; exact id
  rw [if_neg hc, if_neg hc]
  dsimp only
  by_cases hv : v.vb.getLsbD 2 = true
  · rw [if_pos hv, if_pos hv]
    by_cases hb : s.bench.isSome = true
    · rw [if_pos hb, if_pos hb]; exact id
    · rw [if_neg hb, if_neg hb]
      generalize take _ _ _ _ _ _ = got
      cases got with
      | none => exact fun h => Source.noConfusion (congrArg Prod.fst h)
      | some got => exact id
  · rw [if_neg hv, if_neg hv]
    generalize take _ _ _ _ _ _ = got
    cases got with
    | none => exact fun h => Source.noConfusion (congrArg Prod.fst h)
    | some got => exact id

/-! ## Folds that set bits -/

/-- One bit of a fold that ors in what its condition accepts. -/
theorem foldl_or_if {α ι : Type} (bit : α → Bool) (or : α → α → α) (hor : ∀ x y, bit (or x y) = (bit x || bit y))
    (c : ι → Bool) (f : ι → α) (l : List ι) (m : α) :
    bit (l.foldl (fun m i => if c i then or m (f i) else m) m) = (bit m || l.any fun i => c i && bit (f i)) := by
  induction l generalizing m with
  | nil => exact (Bool.or_false _).symm
  | cons i l ih =>
    rw [List.foldl_cons, ih, List.any_cons, ← Bool.or_assoc]
    cases h : c i
    · rw [if_neg Bool.false_ne_true, Bool.false_and, Bool.or_false]
    · rw [if_pos rfl, hor, Bool.true_and]

theorem testBit_laneOnes {n : Nat} (h : 0 < n) (i j : Nat) : (laneOnes n i).testBit j = decide (j / n = i) := by
  rw [laneOnes, Nat.testBit_mul_two_pow, Nat.testBit_two_pow_sub_one, ← Bool.decide_and, decide_eq_decide,
    Nat.div_eq_iff h, Nat.mul_comm i]
  omega

/-- A fold that sets the lanes of the elements that its condition accepts. -/
theorem testBit_lanes {n : Nat} (h : 0 < n) (c : Nat → Bool) (count j : Nat) :
    ((List.range count).foldl (fun m i => if c i then m ||| laneOnes n i else m) 0).testBit j =
      (decide (j / n < count) && c (j / n)) := by
  rw [foldl_or_if (Nat.testBit · j) (· ||| ·) (Nat.testBit_or · · j), Nat.zero_testBit, Bool.false_or,
    Bool.eq_iff_iff, List.any_eq_true, Bool.and_eq_true, decide_eq_true_eq]
  simp only [List.mem_range, Bool.and_eq_true, testBit_laneOnes h, decide_eq_true_eq]
  constructor
  · rintro ⟨i, hi, hc, rfl⟩
    exact ⟨hi, hc⟩
  · rintro ⟨hi, hc⟩
    exact ⟨_, hi, hc, rfl⟩

/-- The flags of the active elements together (R174). -/
theorem getLsbD_flagsOf (n : Nat) (p : Pred) (rs : List FRes) (b : Nat) : (flagsOf n p rs).getLsbD b = true ↔
    ∃ i < rs.length, p.getLsbD (n * i) = true ∧ (rs.getD i ⟨0, 0⟩).flags.getLsbD b = true := by
  rw [flagsOf, foldl_or_if (BitVec.getLsbD · b) (· ||| ·) (fun x y => BitVec.getLsbD_or),
    show BitVec.getLsbD (0 : BitVec 5) b = false from BitVec.getLsbD_zero, Bool.false_or, List.any_eq_true]
  simp only [List.mem_range, Bool.and_eq_true, active]

end Sys2Proof.Machine
end

section
/-!
PROOFS. Reductions, permutes and merging (R169, R173, R177): the tree of a reduction as a function of level and place,
and what the nodes of a tree hold of the leaves below them.
-/

namespace Sys2Proof.Machine

/-! ## The tree of a reduction (R177) -/

/-- Two neighbours of a level combined; an absent one leaves the other as it is. -/
def joined (op : Nat → Nat → FRes) : Option FRes → Option FRes → Option FRes
  | some x, some y => some ⟨(op x.bits y.bits).bits, x.flags ||| y.flags ||| (op x.bits y.bits).flags⟩
  | some x, none => some x
  | none, y => y

@[simp] theorem joined_none_left (op : Nat → Nat → FRes) (y : Option FRes) : joined op none y = y := rfl

@[simp] theorem joined_none_right (op : Nat → Nat → FRes) (x : Option FRes) : joined op x none = x := by
  cases x <;> rfl

theorem pairUp_cons_cons (op : Nat → Nat → FRes) (x y : Option FRes) (r : List (Option FRes)) :
    pairUp op (x :: y :: r) = joined op x y :: pairUp op r := by
  cases x with
  | none => rfl
  | some x => cases y <;> rfl

theorem pairUp_singleton (op : Nat → Nat → FRes) (x : Option FRes) : pairUp op [x] = [x] := by
  cases x <;> rfl

theorem getD_pairUp (op : Nat → Nat → FRes) (l : List (Option FRes)) (j : Nat) :
    (pairUp op l).getD j none = joined op (l.getD (2 * j) none) (l.getD (2 * j + 1) none) := by
  induction j generalizing l with
  | zero =>
    rcases l with _ | ⟨x, _ | ⟨y, r⟩⟩
    · rfl
    · rw [pairUp_singleton]; exact (joined_none_right op x).symm
    · rw [pairUp_cons_cons]; rfl
  | succ j ih =>
    rcases l with _ | ⟨x, _ | ⟨y, r⟩⟩
    · rfl
    · rw [pairUp_singleton]; rfl
    · rw [pairUp_cons_cons]; exact ih r

/-- The node at a level and a place of the tree over the leaves. -/
def node (op : Nat → Nat → FRes) (leaf : Nat → Option FRes) : Nat → Nat → Option FRes
  | 0, j => leaf j
  | l + 1, j => joined op (node op leaf l (2 * j)) (node op leaf l (2 * j + 1))

/-- The tree over the first level's nodes is the rest of the tree. -/
theorem node_of_joined (op : Nat → Nat → FRes) (leaf : Nat → Option FRes) (l j : Nat) :
    node op (fun j => joined op (leaf (2 * j)) (leaf (2 * j + 1))) l j = node op leaf (l + 1) j := by
  induction l generalizing j with
  | zero => rfl
  | succ l ih => rw [node, ih, ih]; rfl

theorem getD_treeOf (op : Nat → Nat → FRes) (l : Nat) (ts : List (Option FRes)) (j : Nat) :
    (treeOf op l ts).getD j none = node op (fun j => ts.getD j none) l j := by
  induction l generalizing ts with
  | zero => rfl
  | succ l ih => rw [treeOf, ih, ← node_of_joined]; simp only [getD_pairUp]

/-! ## What a node holds of its leaves -/

/-- The data of the leaves that are present below a node, in order. -/
def leavesOf (leaf : Nat → Option FRes) (l j : Nat) : List Nat :=
  (List.range' (2 ^ l * j) (2 ^ l)).filterMap fun i => (leaf i).map FRes.bits

theorem leavesOf_succ (leaf : Nat → Option FRes) (l j : Nat) :
    leavesOf leaf (l + 1) j = leavesOf leaf l (2 * j) ++ leavesOf leaf l (2 * j + 1) := by
  have halves : List.range' (2 ^ (l + 1) * j) (2 ^ (l + 1)) =
      List.range' (2 ^ l * (2 * j)) (2 ^ l) ++ List.range' (2 ^ l * (2 * j + 1)) (2 ^ l) := by
    rw [Nat.mul_succ, List.range'_append_1, ← Nat.two_mul, ← Nat.mul_assoc, Nat.pow_succ, Nat.mul_comm (2 ^ l) 2]
  rw [leavesOf, halves, List.filterMap_append]
  rfl

/-- A node stands in relation R to the data below it, and is absent where there is none. -/
def Folds (R : List Nat → FRes → Prop) (xs : List Nat) : Option FRes → Prop
  | none => xs = []
  | some r => R xs r

/-- A relation that holds at the leaves and survives every combination holds at every node. -/
theorem folds_node {op : Nat → Nat → FRes} {R : List Nat → FRes → Prop} {leaf : Nat → Option FRes}
    (hleaf : ∀ i r, leaf i = some r → R [r.bits] r)
    (hop : ∀ xs ys x y, R xs x → R ys y →
      R (xs ++ ys) ⟨(op x.bits y.bits).bits, x.flags ||| y.flags ||| (op x.bits y.bits).flags⟩) (l j : Nat) :
    Folds R (leavesOf leaf l j) (node op leaf l j) := by
  induction l generalizing j with
  | zero =>
    rw [leavesOf, node, Nat.pow_zero, Nat.one_mul, List.range'_one, List.filterMap_cons, List.filterMap_nil]
    cases h : leaf j with
    | none => rfl
    | some r => exact hleaf j r h
  | succ l ih =>
    have left := ih (2 * j)
    have right := ih (2 * j + 1)
    rw [leavesOf_succ, node]
    generalize node op leaf l (2 * j) = x at left
    generalize node op leaf l (2 * j + 1) = y at right
    cases x with
    | none => rw [show leavesOf leaf l (2 * j) = [] from left]; exact right
    | some x =>
      cases y with
      | none => rw [show leavesOf leaf l (2 * j + 1) = [] from right, List.append_nil]; exact left
      | some y => exact hop _ _ _ _ left right

/-- Operations that raise no flag leave none. -/
theorem no_flags : (0 : BitVec 5) ||| 0 ||| 0 = 0 := by decide

theorem getLsbD_no_flags (b : Nat) : ¬(0 : BitVec 5).getLsbD b = true := by
  rw [show (0 : BitVec 5).getLsbD b = false from BitVec.getLsbD_zero]
  exact Bool.false_ne_true

/-- The relation of a sum modulo m. -/
def IsSum (m : Nat) (xs : List Nat) (r : FRes) : Prop := r.bits = xs.sum % m ∧ r.flags = 0

theorem IsSum.append {m : Nat} {xs ys : List Nat} {x y : FRes} (hx : IsSum m xs x) (hy : IsSum m ys y) :
    IsSum m (xs ++ ys) ⟨(plain ((x.bits + y.bits) % m)).bits,
      x.flags ||| y.flags ||| (plain ((x.bits + y.bits) % m)).flags⟩ := by
  obtain ⟨hxb, hxf⟩ := hx
  obtain ⟨hyb, hyf⟩ := hy
  refine ⟨?_, by rw [hxf, hyf]; exact no_flags⟩
  calc (x.bits + y.bits) % m = (xs.sum % m + ys.sum % m) % m := by rw [hxb, hyb]
    _ = (xs ++ ys).sum % m := by rw [← Nat.add_mod, List.sum_append]

/-- The relation of a greatest element in an order. -/
def IsTop (le : Nat → Nat → Prop) (xs : List Nat) (r : FRes) : Prop :=
  r.flags = 0 ∧ r.bits ∈ xs ∧ ∀ y ∈ xs, le y r.bits

/-- An operation that selects the greater of two data in an order. -/
def Selects (le : Nat → Nat → Prop) (op : Nat → Nat → FRes) : Prop :=
  ∀ x y, (op x y = plain x ∧ le y x) ∨ (op x y = plain y ∧ le x y)

theorem Selects.refl {le : Nat → Nat → Prop} {op : Nat → Nat → FRes} (h : Selects le op) (x : Nat) : le x x :=
  (h x x).elim And.right And.right

theorem IsTop.append {le : Nat → Nat → Prop} {op : Nat → Nat → FRes} (trans : ∀ x y z, le x y → le y z → le x z)
    (sel : Selects le op) {xs ys : List Nat} {x y : FRes} (hx : IsTop le xs x) (hy : IsTop le ys y) :
    IsTop le (xs ++ ys) ⟨(op x.bits y.bits).bits, x.flags ||| y.flags ||| (op x.bits y.bits).flags⟩ := by
  obtain ⟨hxf, hxm, hxle⟩ := hx
  obtain ⟨hyf, hym, hyle⟩ := hy
  rcases sel x.bits y.bits with ⟨e, below⟩ | ⟨e, below⟩ <;> rw [e, hxf, hyf]
  · refine ⟨no_flags, List.mem_append_left _ hxm, fun z hz => ?_⟩
    exact (List.mem_append.mp hz).elim (hxle z) fun hz => trans _ _ _ (hyle z hz) below
  · refine ⟨no_flags, List.mem_append_right _ hym, fun z hz => ?_⟩
    exact (List.mem_append.mp hz).elim (fun hz => trans _ _ _ (hxle z hz) below) (hyle z)

theorem selects_max (n : Nat) : Selects (fun x y => signedOf n x ≤ signedOf n y)
    fun x y => plain (if signedOf n y ≤ signedOf n x then x else y) := by
  intro x y
  dsimp only
  split
  next h => exact .inl ⟨rfl, h⟩
  next h => exact .inr ⟨rfl, by omega⟩

theorem selects_min (n : Nat) : Selects (fun x y => signedOf n y ≤ signedOf n x)
    fun x y => plain (if signedOf n x ≤ signedOf n y then x else y) := by
  intro x y
  dsimp only
  split
  next h => exact .inl ⟨rfl, h⟩
  next h => exact .inr ⟨rfl, by omega⟩

/-! ## Which nodes are present, and what they raise -/

/-- A node that is present stands above a leaf that is. -/
theorem lt_of_node_eq_some {op : Nat → Nat → FRes} {leaf : Nat → Option FRes} {count : Nat}
    (hleaf : ∀ i r, leaf i = some r → i < count) {l j : Nat} {r : FRes} (h : node op leaf l j = some r) :
    2 ^ l * j < count := by
  induction l generalizing j r with
  | zero => rw [Nat.pow_zero, Nat.one_mul]; exact hleaf j r h
  | succ l ih =>
    rw [Nat.pow_succ, Nat.mul_assoc]
    rw [node] at h
    cases hx : node op leaf l (2 * j) with
    | some x => exact ih hx
    | none =>
      rw [hx] at h
      exact Nat.lt_of_le_of_lt (Nat.mul_le_mul_left _ (Nat.le_succ _)) (ih h)

/-- The combination of two neighbours at a level raises flag b. -/
def RaisesAt (op : Nat → Nat → FRes) (leaf : Nat → Option FRes) (b l j : Nat) : Prop :=
  ∃ x y, node op leaf l (2 * j) = some x ∧ node op leaf l (2 * j + 1) = some y ∧
    (op x.bits y.bits).flags.getLsbD b = true

theorem getLsbD_flags_joined {op : Nat → Nat → FRes} {u v : Option FRes} {b : Nat} :
    (∃ r, joined op u v = some r ∧ r.flags.getLsbD b = true) ↔
      (∃ x, u = some x ∧ x.flags.getLsbD b = true) ∨ (∃ y, v = some y ∧ y.flags.getLsbD b = true) ∨
        ∃ x y, u = some x ∧ v = some y ∧ (op x.bits y.bits).flags.getLsbD b = true := by
  cases u with
  | none => simp
  | some x =>
    cases v with
    | none => simp
    | some y => simp [joined, or_assoc]

/-- The nodes of a level hold the flags that the combinations below it raised, whichever node holds them. -/
theorem getLsbD_flags_node {op : Nat → Nat → FRes} {leaf : Nat → Option FRes}
    (hleaf : ∀ i r, leaf i = some r → r.flags = 0) (b l : Nat) :
    (∃ j r, node op leaf l j = some r ∧ r.flags.getLsbD b = true) ↔ ∃ l' < l, ∃ j, RaisesAt op leaf b l' j := by
  induction l with
  | zero =>
    refine ⟨fun ⟨j, r, hr, hb⟩ => ?_, fun ⟨l', hl', _⟩ => absurd hl' (Nat.not_lt_zero l')⟩
    rw [hleaf j r hr] at hb
    exact absurd hb (getLsbD_no_flags b)
  | succ l ih =>
    simp only [node, getLsbD_flags_joined]
    constructor
    · rintro ⟨j, ⟨x, hx, hb⟩ | ⟨y, hy, hb⟩ | raises⟩
      · obtain ⟨l', hl', below⟩ := ih.mp ⟨_, x, hx, hb⟩
        exact ⟨l', Nat.lt_succ_of_lt hl', below⟩
      · obtain ⟨l', hl', below⟩ := ih.mp ⟨_, y, hy, hb⟩
        exact ⟨l', Nat.lt_succ_of_lt hl', below⟩
      · exact ⟨l, Nat.lt_succ_self l, j, raises⟩
    · rintro ⟨l', hl', below⟩
      rcases Nat.lt_succ_iff_lt_or_eq.mp hl' with lower | rfl
      · obtain ⟨j, r, hr, hb⟩ := ih.mpr ⟨l', lower, below⟩
        refine ⟨j / 2, ?_⟩
        rcases Nat.mod_two_eq_zero_or_one j with even | odd
        · exact .inl ⟨r, by rwa [show 2 * (j / 2) = j by omega], hb⟩
        · exact .inr (.inl ⟨r, by rwa [show 2 * (j / 2) + 1 = j by omega], hb⟩)
      · obtain ⟨j, raises⟩ := below
        exact ⟨j, .inr (.inr raises)⟩

/-- The second of two neighbours is present only where both have a whole tree of leaves below them. -/
theorem pow_mul_succ_le {l j L : Nat} (h : 2 ^ l * (2 * j + 1) < 2 ^ L) : 2 ^ (l + 1) * (j + 1) ≤ 2 ^ L := by
  have low : 2 ^ l < 2 ^ L := Nat.lt_of_le_of_lt (Nat.le_mul_of_pos_right _ (Nat.succ_pos _)) h
  obtain ⟨d, rfl⟩ := Nat.exists_eq_add_of_lt ((Nat.pow_lt_pow_iff_right (by decide)).mp low)
  rw [Nat.add_assoc, Nat.pow_add] at h
  have inside : 2 * j + 1 < 2 * 2 ^ d := Nat.pow_succ' ▸ Nat.lt_of_mul_lt_mul_left h
  calc 2 ^ (l + 1) * (j + 1) ≤ 2 ^ (l + 1) * 2 ^ d := Nat.mul_le_mul_left _ (by omega)
    _ = 2 ^ (l + d + 1) := by rw [← Nat.pow_add, Nat.add_right_comm]

/-- The root's flags are those that the combinations of the tree raise together (R177). -/
theorem getLsbD_flags_root {op : Nat → Nat → FRes} {leaf : Nat → Option FRes} {L : Nat}
    (hflags : ∀ i r, leaf i = some r → r.flags = 0) (hcount : ∀ i r, leaf i = some r → i < 2 ^ L) (b identity : Nat) :
    (((node op leaf L 0).getD (plain identity)).flags.getLsbD b = true) ↔
      ∃ l j, 2 ^ (l + 1) * (j + 1) ≤ 2 ^ L ∧ RaisesAt op leaf b l j := by
  have root : ((node op leaf L 0).getD (plain identity)).flags.getLsbD b = true ↔
      ∃ j r, node op leaf L j = some r ∧ r.flags.getLsbD b = true := by
    constructor
    · intro h
      cases hr : node op leaf L 0 with
      | some r => rw [hr] at h; exact ⟨0, r, hr, h⟩
      | none =>
        rw [hr] at h
        exact absurd h (getLsbD_no_flags b)
    · rintro ⟨j, r, hr, hb⟩
      have top : j = 0 := by
        have := lt_of_node_eq_some hcount hr
        exact Nat.lt_one_iff.mp (Nat.lt_of_mul_lt_mul_left (Nat.lt_of_lt_of_eq this (Nat.mul_one _).symm))
      subst top
      rw [hr]
      exact hb
  rw [root, getLsbD_flags_node hflags]
  constructor
  · rintro ⟨l, -, j, raises⟩
    have ⟨_, _, _, hy, _⟩ := raises
    exact ⟨l, j, pow_mul_succ_le (lt_of_node_eq_some hcount hy), raises⟩
  · rintro ⟨l, j, fits, raises⟩
    have : 2 ^ (l + 1) ≤ 2 ^ L := Nat.le_trans (Nat.le_mul_of_pos_right _ (Nat.succ_pos j)) fits
    exact ⟨l, (Nat.pow_le_pow_iff_right (by decide)).mp this, j, raises⟩

/-! ## Reductions of the active elements of va (R177) -/

/-- The active elements of va, as leaves. -/
def State.leaf (s : State) (v : VForm) (n j : Nat) : Option FRes :=
  if j < s.vbytes / n ∧ (s.pr v.p).getLsbD (n * j) = true then some (plain (elemAt n j (s.vr v.va).toNat)) else none

theorem State.leaf_eq_some {s : State} {v : VForm} {n j : Nat} {r : FRes} (h : s.leaf v n j = some r) :
    j < s.vbytes / n ∧ r = plain (elemAt n j (s.vr v.va).toNat) := by
  unfold State.leaf at h
  split at h
  next on => exact ⟨on.1, (Option.some.inj h).symm⟩
  next => cases h

/-- The root of the tree over the active elements of va. -/
def State.root (s : State) (v : VForm) (n : Nat) (op : Nat → Nat → FRes) : Option FRes :=
  node op (s.leaf v n) (s.vbytes / n).log2 0

/-- The active elements of va, in order. -/
def State.actives (s : State) (v : VForm) (n : Nat) : List Nat :=
  ((List.range (s.vbytes / n)).filter fun i => (s.pr v.p).getLsbD (n * i)).map fun i => elemAt n i (s.vr v.va).toNat

theorem map_filter_eq_filterMap {f : Nat → Option Nat} {c : Nat → Bool} {g : Nat → Nat} {l : List Nat}
    (h : ∀ i ∈ l, f i = if c i then some (g i) else none) : (l.filter c).map g = l.filterMap f := by
  induction l with
  | nil => rfl
  | cons i l ih =>
    have first := h i List.mem_cons_self
    have rest := ih fun j hj => h j (List.mem_cons_of_mem i hj)
    cases hc : c i
    · rw [hc, if_neg Bool.false_ne_true] at first
      rw [List.filter_cons_of_neg (by rw [hc]; decide), List.filterMap_cons_none first, rest]
    · rw [hc, if_pos rfl] at first
      rw [List.filter_cons_of_pos hc, List.filterMap_cons_some first, List.map_cons, rest]

theorem State.actives_eq {s : State} {n : Nat} (hn : n ∣ 8) (v : VForm) :
    s.actives v n = leavesOf (s.leaf v n) (s.vbytes / n).log2 0 := by
  rw [leavesOf, ← s.count_eq_two_pow hn, Nat.mul_zero, ← List.range_eq_range']
  refine map_filter_eq_filterMap fun i hi => ?_
  by_cases h : (s.pr v.p).getLsbD (n * i) = true <;> simp [State.leaf, h, List.mem_range.mp hi, plain]

/-- The tree that a reduction builds of its list of elements has that root. -/
theorem State.headD_treeOf (s : State) (v : VForm) (n : Nat) (op : Nat → Nat → FRes) :
    (treeOf op (s.vbytes / n).log2 ((List.range (s.vbytes / n)).map fun i =>
      if active (s.pr v.p) n i then some (plain ((elemsOf n (s.vbytes / n) (s.vr v.va).toNat).getD i 0))
      else none)).headD none = s.root v n op := by
  rw [List.headD_eq_head?_getD, List.head?_eq_getElem?, ← List.getD_eq_getElem?_getD, getD_treeOf, State.root]
  congr 1
  funext j
  by_cases hj : j < s.vbytes / n
  · simp [State.leaf, hj, ← getD_elemsOf hj (s.vr v.va).toNat 0, active]
  · simp [State.leaf, hj]

/-- What a reduction leaves: the root's bits in element 0 of vd, and its flags. -/
theorem State.does_vreduce {s : State} {i : Instr} {f : Form} {v : VForm} {n identity : Nat} {op : Nat → Nat → FRes}
    (hn : n ∣ 8) (he : exec i s = s.vreduce f v n op identity) :
    ∃ x : VReg, elemAt n 0 x.toNat = ((s.root v n op).getD (plain identity)).bits % 256 ^ n ∧
      (∀ j, 8 * n ≤ j → x.getLsbD j = (s.vr v.vd).getLsbD j) ∧
      s.Does i ((s.setV v.vd x).setFlags ((s.root v n op).getD (plain identity)).flags) f.len (debit f.energy) 6 := by
  have small : n ≤ 1024 := Nat.le_trans (Nat.le_of_dvd (by decide) hn) (by decide)
  refine ⟨merge n (BitVec.allOnes 1024) (s.vr v.vd) [((s.root v n op).getD (plain identity)).bits],
    elemAt_merge_singleton small .., fun j hj => getLsbD_merge_above (by rwa [List.length_singleton, Nat.mul_one]) ..,
    State.does_of_complete (he.trans ?_)⟩
  rw [← s.headD_treeOf]
  rfl

/-- An instruction completes as a reduction: it leaves a datum in element 0 of vd, and raises flags, that stand in
relation P to the active elements of va. -/
def State.Reduces (s : State) (i : Instr) (f : Form) (v : VForm) (n : Nat) (P : List Nat → Nat → BitVec 5 → Prop) :
    Prop :=
  ∃ (r : Nat) (x : VReg) (fl : BitVec 5), P (s.actives v n) r fl ∧ elemAt n 0 x.toNat = r ∧
    (∀ j, 8 * n ≤ j → x.getLsbD j = (s.vr v.vd).getLsbD j) ∧
    s.Does i ((s.setV v.vd x).setFlags fl) f.len (debit f.energy) 6

/-- A reduction whose combinations keep a relation to the data that they combine. -/
theorem State.reduces_of_folds {s : State} {i : Instr} {f : Form} {v : VForm} {n identity : Nat}
    {op : Nat → Nat → FRes} (hn : n ∣ 8) (he : exec i s = s.vreduce f v n op identity)
    {R : List Nat → FRes → Prop} (hone : ∀ x < 256 ^ n, R [x] (plain x))
    (hop : ∀ xs ys x y, R xs x → R ys y →
      R (xs ++ ys) ⟨(op x.bits y.bits).bits, x.flags ||| y.flags ||| (op x.bits y.bits).flags⟩)
    {P : List Nat → Nat → BitVec 5 → Prop} (hnone : P [] (identity % 256 ^ n) 0)
    (hsome : ∀ xs r, R xs r → P xs (r.bits % 256 ^ n) r.flags) :
    s.Reduces i f v n P := by
  have folds : Folds R (s.actives v n) (s.root v n op) := by
    rw [State.actives_eq hn]
    refine folds_node (fun j r h => ?_) hop ..
    rw [(State.leaf_eq_some h).2]
    exact hone _ (elemAt_lt ..)
  obtain ⟨x, hx, above, does⟩ := State.does_vreduce hn he
  refine ⟨_, x, _, ?_, hx, above, does⟩
  generalize s.root v n op = root at folds
  cases root with
  | none => rw [show s.actives v n = [] from folds]; exact hnone
  | some r => exact hsome _ _ folds

/-- A reduction to the sum of the active elements. -/
theorem State.reduces_sum {s : State} {i : Instr} {f : Form} {v : VForm} {n : Nat} (hn : n ∣ 8)
    (he : exec i s = s.vreduce f v n (fun x y => plain ((x + y) % 256 ^ n)) 0) :
    s.Reduces i f v n fun xs r fl => r = xs.sum % 256 ^ n ∧ fl = 0 := by
  refine State.reduces_of_folds hn he (R := IsSum (256 ^ n))
    (fun x hx => ⟨?one, rfl⟩) (fun _ _ _ _ hx hy => hx.append hy) ⟨rfl, rfl⟩ fun xs r hr => ?_
  case one => rw [List.sum_singleton, Nat.mod_eq_of_lt hx]; rfl
  obtain ⟨bits, flags⟩ := hr
  exact ⟨by rw [bits, Nat.mod_mod], flags⟩

/-- A reduction to the greatest active element in an order. -/
theorem State.reduces_of_selects {s : State} {i : Instr} {f : Form} {v : VForm} {n identity : Nat}
    {op : Nat → Nat → FRes} (hn : n ∣ 8) (he : exec i s = s.vreduce f v n op identity) (hid : identity < 256 ^ n)
    {le : Nat → Nat → Prop} (sel : Selects le op) (trans : ∀ x y z, le x y → le y z → le x z) :
    s.Reduces i f v n fun xs r fl =>
      fl = 0 ∧ (xs = [] → r = identity) ∧ (xs ≠ [] → r ∈ xs ∧ ∀ y ∈ xs, le y r) := by
  refine State.reduces_of_folds hn he (R := fun xs r => IsTop le xs r ∧ r.bits < 256 ^ n)
    (fun x hx => ⟨⟨rfl, List.mem_singleton_self x, fun y hy => ?single⟩, hx⟩)
    (fun xs ys x y hx hy => ⟨hx.1.append trans sel hy.1, ?bound⟩)
    ⟨rfl, fun _ => Nat.mod_eq_of_lt hid, fun h => absurd rfl h⟩ (fun xs r hr => ?_)
  case single => exact List.mem_singleton.mp hy ▸ sel.refl y
  case bound => exact (sel x.bits y.bits).elim (fun h => h.1 ▸ hx.2) fun h => h.1 ▸ hy.2
  obtain ⟨⟨flags, mem, top⟩, bound⟩ := hr
  rw [Nat.mod_eq_of_lt bound]
  exact ⟨flags, fun h => absurd (h ▸ mem) List.not_mem_nil, fun _ => ⟨mem, top⟩⟩

/-- Two neighbours' data combined; an absent one leaves the other as it is. -/
def bitsJoined (op : Nat → Nat → FRes) : Option Nat → Option Nat → Option Nat
  | some y, some z => some (op y z).bits
  | some y, none => some y
  | none, z => z

theorem map_bits_joined (op : Nat → Nat → FRes) (x y : Option FRes) :
    (joined op x y).map FRes.bits = bitsJoined op (x.map FRes.bits) (y.map FRes.bits) := by
  cases x with
  | none => rfl
  | some x => cases y <;> rfl

/-- The datum of a node of the tree over the active elements of va. -/
def State.bitsAt (s : State) (v : VForm) (n : Nat) (op : Nat → Nat → FRes) (l j : Nat) : Option Nat :=
  (node op (s.leaf v n) l j).map FRes.bits

theorem State.bitsAt_zero {s : State} {v : VForm} {n j : Nat} (op : Nat → Nat → FRes) (h : j < s.vbytes / n) :
    s.bitsAt v n op 0 j =
      if (s.pr v.p).getLsbD (n * j) then some (elemAt n j (s.vr v.va).toNat) else none := by
  by_cases on : (s.pr v.p).getLsbD (n * j) = true <;> simp [State.bitsAt, node, State.leaf, h, on, plain]

theorem State.bitsAt_succ (s : State) (v : VForm) (n : Nat) (op : Nat → Nat → FRes) (l j : Nat) :
    s.bitsAt v n op (l + 1) j = bitsJoined op (s.bitsAt v n op l (2 * j)) (s.bitsAt v n op l (2 * j + 1)) :=
  map_bits_joined ..

theorem State.raisesAt_iff {s : State} {v : VForm} {n : Nat} {op : Nat → Nat → FRes} {b l j : Nat} :
    RaisesAt op (s.leaf v n) b l j ↔ ∃ y z, s.bitsAt v n op l (2 * j) = some y ∧
      s.bitsAt v n op l (2 * j + 1) = some z ∧ (op y z).flags.getLsbD b = true := by
  simp only [State.bitsAt, Option.map_eq_some_iff]
  constructor
  · rintro ⟨x, y, hx, hy, raised⟩
    exact ⟨_, _, ⟨x, hx, rfl⟩, ⟨y, hy, rfl⟩, raised⟩
  · rintro ⟨_, _, ⟨x, hx, rfl⟩, ⟨y, hy, rfl⟩, raised⟩
    exact ⟨x, y, hx, hy, raised⟩

/-- A floating-point reduction: the tree, its root and its flags. -/
theorem State.reduces_tree {s : State} {i : Instr} {f : Form} {v : VForm} {n identity : Nat}
    {op : Nat → Nat → FRes} (hn : n ∣ 8) (he : exec i s = s.vreduce f v n op identity) :
    ∃ (t : Nat → Nat → Option Nat) (x : VReg) (fl : BitVec 5),
      (∀ j < s.vbytes / n, t 0 j =
        if (s.pr v.p).getLsbD (n * j) then some (elemAt n j (s.vr v.va).toNat) else none) ∧
      (∀ l j, 2 ^ (l + 1) * (j + 1) ≤ s.vbytes / n → t (l + 1) j = bitsJoined op (t l (2 * j)) (t l (2 * j + 1))) ∧
      elemAt n 0 x.toNat = ((t (s.vbytes / n).log2 0).getD identity) % 256 ^ n ∧
      (∀ j, 8 * n ≤ j → x.getLsbD j = (s.vr v.vd).getLsbD j) ∧
      (∀ b < 5, fl.getLsbD b = true ↔ ∃ l j y z, 2 ^ (l + 1) * (j + 1) ≤ s.vbytes / n ∧ t l (2 * j) = some y ∧
        t l (2 * j + 1) = some z ∧ (op y z).flags.getLsbD b = true) ∧
      s.Does i ((s.setV v.vd x).setFlags fl) f.len (debit f.energy) 6 := by
  obtain ⟨x, hx, above, does⟩ := State.does_vreduce hn he
  refine ⟨s.bitsAt v n op, x, _, fun j => State.bitsAt_zero op, fun l j _ => s.bitsAt_succ v n op l j, ?_, above,
    fun b _ => ?_, does⟩
  · rw [hx, ← Option.getD_map FRes.bits]
    rfl
  · have hflags : ∀ j r, s.leaf v n j = some r → r.flags = 0 := fun j r h => by rw [(State.leaf_eq_some h).2]; rfl
    have hcount : ∀ j r, s.leaf v n j = some r → j < 2 ^ (s.vbytes / n).log2 := fun j r h =>
      Nat.lt_of_lt_of_eq (State.leaf_eq_some h).1 (s.count_eq_two_pow hn)
    rw [State.root, getLsbD_flags_root hflags hcount, ← s.count_eq_two_pow hn]
    simp only [State.raisesAt_iff, exists_and_left]

/-! ## Permutes (R173) -/

theorem State.size_mul_length (s : State) {n : Nat} (hn : n ∣ 8) {new : List Nat} (h : new.length = s.vbytes / n) :
    n * new.length = s.vbytes := h ▸ s.size_mul_count hn

/-- A vd that is merged from one element for each of the width's, under a predicate or, with `all`, under none. -/
theorem State.merges_lanes (s : State) {v : VForm} {n : Nat} (hn : n ∣ 8) {p : Pred} {new : List Nat} {all : Bool}
    {g : Nat → Nat} (hlen : new.length = s.vbytes / n)
    (hp : p = if all then BitVec.allOnes 1024 else s.pr v.p) (hg : ∀ i < s.vbytes / n, new.getD i 0 = g i)
    (hlt : ∀ i < s.vbytes / n, g i < 256 ^ n) :
    (∀ i < s.vbytes / n, elemAt n i (merge n p (s.vr v.vd) new).toNat =
      if all || (s.pr v.p).getLsbD (n * i) then g i else elemAt n i (s.vr v.vd).toNat) ∧
    ∀ j, 8 * s.vbytes ≤ j → (merge n p (s.vr v.vd) new).getLsbD j = (s.vr v.vd).getLsbD j := by
  have total := s.size_mul_length hn hlen
  refine ⟨fun i hi => ?_, fun j hj => getLsbD_merge_above (by rwa [Nat.mul_assoc, total]) ..⟩
  rw [elemAt_merge (total ▸ s.vbytes_le) (Nat.lt_of_lt_of_eq hi hlen.symm), hg i hi, Nat.mod_eq_of_lt (hlt i hi), hp]
  cases all
  · rfl
  · rw [if_pos rfl, active_allOnes (Nat.lt_of_lt_of_le (s.lane_lt hn hi) s.vbytes_le)]
    rfl

theorem exec_vsel {s w : State} {v : VForm} {b : Nat} (h : s.vbOf (w32 1 (.vsel v)) v = (.bits b, w)) :
    exec (.vsel v) s = .next (((w.consume v).setV v.vd (merge (intSize v.ty) (BitVec.allOnes 1024) (w.vr v.vd)
      ((List.range (w.vbytes / intSize v.ty)).map fun i => if active (w.pr v.p) (intSize v.ty) i
        then (elemsOf (intSize v.ty) (w.vbytes / intSize v.ty) (w.vr v.va).toNat).getD i 0
        else (elemsOf (intSize v.ty) (w.vbytes / intSize v.ty) b).getD i 0))).complete (w32 1 (.vsel v)) 1 .seq) := by
  change execVsel v s = _
  simp only [execVsel, h]

theorem exec_vperm {s w : State} {v : VForm} {b : Nat} (h : s.vbOf (w32 1 (.vperm v)) v = (.bits b, w)) :
    exec (.vperm v) s = .next (((w.consume v).setV v.vd (merge (intSize v.ty) (w.pr v.p) (w.vr v.vd)
      ((elemsOf (intSize v.ty) (w.vbytes / intSize v.ty) b).map fun y =>
        (elemsOf (intSize v.ty) (w.vbytes / intSize v.ty) (w.vr v.va).toNat).getD (y % (w.vbytes / intSize v.ty))
          0))).complete (w32 1 (.vperm v)) 1 .seq) := by
  change execVperm v s = _
  simp only [execVperm, h]

theorem signedOf_eq (n x : Nat) :
    signedOf n x = if 256 ^ n ≤ 2 * x then (x : Int) - (256 ^ n : Nat) else x := by
  rw [signedOf, Int.natCast_pow]
  rfl

theorem half_256_lt (n : Nat) : 256 ^ n / 2 < 256 ^ n := Nat.div_lt_self (pow_256_pos n) (by decide)

/-- Settles O29: every reduction is its tree, whose nodes stand in the relation of the operation to the active elements
below them; the permutes merge one element for each of the width's. -/
theorem vectorLanes : Obligations.VectorLanes := by
  unfold Obligations.VectorLanes
  refine ⟨fun s v => ?reductions, fun s v => ?permutes,
    fun n hn p old new fits => ⟨fun i hi => ?on, fun j hj => ?above⟩⟩
  case reductions =>
    have hi := intSize_dvd v.ty
    have hf : (vfmt v.ty).width / 8 ∣ 8 := width_vfmt_div v.ty ▸ fpSize_dvd v.ty
    refine ⟨?sum, ?max, ?min, ?sumFp, ?maxFp, ?minFp⟩
    case sum => exact State.reduces_sum (f := w32 2 (.vredAdd v)) hi rfl
    case max =>
      have greatest := State.reduces_of_selects (s := s) (i := .vredMax v) (v := v) (f := w32 2 (.vredMax v)) hi rfl
        (half_256_lt _) (selects_max (intSize v.ty)) fun _ _ _ => Int.le_trans
      simp only [signedOf_eq] at greatest
      exact greatest
    case min =>
      have least := State.reduces_of_selects (s := s) (i := .vredMin v) (v := v) (f := w32 2 (.vredMin v)) hi rfl
        (Nat.lt_of_le_of_lt (Nat.sub_le _ 1) (half_256_lt _)) (selects_min (intSize v.ty))
        fun _ _ _ hxy hyz => Int.le_trans hyz hxy
      simp only [signedOf_eq] at least
      exact least
    case sumFp => exact State.reduces_tree (f := w32 2 (.vredAddFp v)) hf (by rw [width_vfmt_div]; rfl)
    case maxFp => exact State.reduces_tree (f := w32 2 (.vredMaxFp v)) hf (by rw [width_vfmt_div]; rfl)
    case minFp => exact State.reduces_tree (f := w32 2 (.vredMinFp v)) hf (by rw [width_vfmt_div]; rfl)
  case permutes =>
    have hn := intSize_dvd v.ty
    refine ⟨?bcast, ?shift, fun w b fm h => ⟨?sel, ?perm⟩⟩
    case bcast =>
      refine ⟨_, ?_, State.does_of_complete (f := w32 1 (.vbcast v)) rfl⟩
      exact s.merges_lanes hn List.length_replicate rfl (fun i hi => getD_replicate hi ..)
        fun _ _ => Nat.mod_lt _ (pow_256_pos _)
    case shift =>
      refine ⟨_, ?_, State.does_of_complete (f := w32 1 (.vshift v)) rfl⟩
      refine s.merges_lanes hn (length_map_range ..) rfl (fun i hi => (getD_map_range hi ..).trans ?elements)
        (fun i _ => ?bound)
      case elements =>
        refine ite_congr rfl (fun inside => getD_elemsOf ?_ ..) fun _ => rfl
        exact (Int.toNat_lt inside.1).mpr inside.2
      case bound =>
        dsimp only
        split
        · exact elemAt_lt ..
        · exact pow_256_pos _
    case sel =>
      refine ⟨_, ?_, State.does_of_complete (f := w32 1 (.vsel v)) (exec_vsel (State.vbOf_bits h _))⟩
      refine w.merges_lanes (all := true) hn (length_map_range ..) rfl
        (fun i hi => (getD_map_range hi ..).trans ?elements) (fun i _ => ?bound)
      case elements => rw [getD_elemsOf hi, getD_elemsOf hi]; rfl
      case bound =>
        dsimp only
        split <;> exact elemAt_lt ..
    case perm =>
      refine ⟨_, ?_, State.does_of_complete (f := w32 1 (.vperm v)) (exec_vperm (State.vbOf_bits h _))⟩
      refine w.merges_lanes hn (length_map_elemsOf ..) rfl (fun i hi => (getD_map_elemsOf hi ..).trans ?elements)
        (fun i _ => ?bound)
      case elements => exact getD_elemsOf (Nat.mod_lt _ (Nat.zero_lt_of_lt hi)) ..
      case bound => exact elemAt_lt ..
  case on => exact elemAt_merge fits hi p old
  case above => exact getLsbD_merge_above hj p old

end Sys2Proof.Machine
end

section
/-!
PROOFS. Comparisons of vectors into predicates and the predicate instructions (R176, R183, R184).
-/

namespace Sys2Proof.Machine

/-! ## Comparisons (R176) -/

/-- A lane of a merged predicate: its element's result where that is active, and the old lane elsewhere. -/
theorem getLsbD_mergePred {n j : Nat} (hn : 0 < n) (hj : j < 1024) (p old : Pred) (new : List Bool) :
    (mergePred n p old new).getLsbD j =
      if j / n < new.length ∧ p.getLsbD (n * (j / n)) = true then new.getD (j / n) false else old.getLsbD j := by
  rw [mergePred, BitVec.getLsbD_or, BitVec.getLsbD_and, BitVec.getLsbD_not, BitVec.getLsbD_ofNat, BitVec.getLsbD_ofNat,
    testBit_lanes hn, testBit_lanes hn fun i => active p n i && new.getD i false]
  by_cases touched : j / n < new.length ∧ p.getLsbD (n * (j / n)) = true
  · obtain ⟨inside, on⟩ := touched
    simp [hj, inside, on, active]
  · have out : (decide (j / n < new.length) && active p n (j / n)) = false := by
      rwa [active, Bool.eq_false_iff, Ne, Bool.and_eq_true, decide_eq_true_eq]
    rw [if_neg touched, ← Bool.and_assoc (decide (j / n < new.length)), out]
    simp [hj]

/-- The result and the flags of a comparison of each element of va with its element of the second source. -/
def State.compared (w : State) (v : VForm) (n b : Nat) (g : Nat → Nat → Bool × BitVec 5) : List (Bool × BitVec 5) :=
  (List.range (w.vbytes / n)).map fun i =>
    g ((elemsOf n (w.vbytes / n) (w.vr v.va).toNat).getD i 0) ((elemsOf n (w.vbytes / n) b).getD i 0)

theorem State.length_compared (w : State) (v : VForm) (n b : Nat) (g : Nat → Nat → Bool × BitVec 5) :
    (w.compared v n b g).length = w.vbytes / n := length_map_range ..

/-- An element of what is read off the comparisons. -/
theorem State.getD_map_compared {α : Type} {w : State} {v : VForm} {n i : Nat} (h : i < w.vbytes / n) (b : Nat)
    (g : Nat → Nat → Bool × BitVec 5) (k : Bool × BitVec 5 → α) (d : α) :
    ((w.compared v n b g).map k).getD i d = k (g (elemAt n i (w.vr v.va).toNat) (elemAt n i b)) := by
  rw [State.compared, List.map_map, getD_map_range h, Function.comp_apply, getD_elemsOf h, getD_elemsOf h]

theorem State.vcompare_of_bits {s w : State} {f : Form} {v : VForm} {b : Nat} (h : s.vbOf f v = (.bits b, w))
    (n cost : Nat) (g : Nat → Nat → Bool × BitVec 5) :
    s.vcompare f v n cost g = .next ((((w.consume v).setP (predName v.vd) (mergePred n (w.pr v.p)
      (w.pr (predName v.vd)) ((w.compared v n b g).map (·.1)))).setFlags
        (flagsOf n (w.pr v.p) ((w.compared v n b g).map fun r => ⟨0, r.2⟩))).complete f cost .seq) := by
  simp only [State.vcompare, h]
  rfl

/-- What a comparison leaves, given its condition and its flags as functions of the two elements. -/
theorem State.does_vcompare {s w : State} {i : Instr} {f fm : Form} {v : VForm} {b n cost : Nat}
    {g : Nat → Nat → Bool × BitVec 5} (hs : s.vbOf fm v = (.bits b, w)) (hn : n ∣ 8)
    (he : exec i s = s.vcompare f v n cost g) {c : Nat → Nat → Bool} {fl : Nat → Nat → BitVec 5}
    (hg : ∀ x y, g x y = (c x y, fl x y)) :
    ∃ (r : Pred) (fs : BitVec 5),
      (∀ j < 1024, r.getLsbD j =
        if j / n < w.vbytes / n ∧ (w.pr v.p).getLsbD (n * (j / n)) = true
        then c (elemAt n (j / n) (w.vr v.va).toNat) (elemAt n (j / n) b)
        else (w.pr (predName v.vd)).getLsbD j) ∧
      (∀ j < 5, fs.getLsbD j = true ↔ ∃ i < w.vbytes / n, (w.pr v.p).getLsbD (n * i) = true ∧
        (fl (elemAt n i (w.vr v.va).toNat) (elemAt n i b)).getLsbD j = true) ∧
      s.Does i (((w.consume v).setP (predName v.vd) r).setFlags fs) f.len (debit f.energy) cost := by
  have pos := Nat.pos_of_dvd_of_pos hn (by decide)
  refine ⟨_, _, fun j hj => ?lanes, fun j _ => ?flags,
    State.does_of_complete (he.trans (State.vcompare_of_bits (State.vbOf_bits hs f) n cost g))⟩
  case lanes =>
    rw [getLsbD_mergePred pos hj, List.length_map, State.length_compared]
    refine ite_congr rfl (fun inside => ?_) fun _ => rfl
    rw [State.getD_map_compared inside.1, hg]
  case flags =>
    rw [getLsbD_flagsOf, List.length_map, State.length_compared]
    refine exists_congr fun i => and_congr_right fun hi => ?_
    rw [State.getD_map_compared hi, hg]

/-- The four conditions of a comparison. -/
theorem cond_cases (c : BitVec 2) : c = 0 ∨ c = 1 ∨ c = 2 ∨ c = 3 := by revert c; decide

/-- Whether two elements of n bytes meet a condition, by its number. -/
def intHolds (n cond x y : Nat) : Bool :=
  match cond with
  | 0 => decide (signedOf n x = signedOf n y)
  | 1 => decide (signedOf n x ≠ signedOf n y)
  | 2 => decide (signedOf n x < signedOf n y)
  | _ => decide (signedOf n x ≤ signedOf n y)

theorem icmp_eq (n : Nat) (cond : BitVec 2) (x y : Nat) : icmp n cond x y = (intHolds n cond.toNat x y, 0) := by
  rcases cond_cases cond with rfl | rfl | rfl | rfl <;> rfl

/-- A NaN is equal to no datum, and a signalling one is invalid (R148). -/
theorem Fmt.cmpEq_eq (k : Fmt) (a b : Nat) :
    k.cmpEq a b = (!(k.dec a).isNan && !(k.dec b).isNan && (k.dec a).eq (k.dec b),
      if (k.dec a).isSnan = true ∨ (k.dec b).isSnan = true then flagNV else 0) := by
  rw [← flagIf_or]
  unfold Fmt.cmpEq
  dsimp only
  split
  next nan => rcases (Bool.or_eq_true ..).mp nan with h | h <;> simp [h, flagIf]
  next numbers =>
    obtain ⟨ha, hb⟩ := Bool.or_eq_false_iff.mp (Bool.eq_false_iff.mpr numbers)
    rw [ha, hb, Fl.isSnan_eq_false ha, Fl.isSnan_eq_false hb]
    rfl

/-- An ordered comparison with a NaN is false and invalid (R148). -/
theorem ordered_eq (a b r : Bool) : (if (a || b) = true then (false, flagNV) else (r, 0)) =
    (!a && !b && r, if a = true ∨ b = true then flagNV else 0) := by
  cases a <;> cases b <;> rfl

theorem Fmt.cmpLt_eq (k : Fmt) (a b : Nat) :
    k.cmpLt a b = (!(k.dec a).isNan && !(k.dec b).isNan && (k.dec a).lt (k.dec b),
      if (k.dec a).isNan = true ∨ (k.dec b).isNan = true then flagNV else 0) := ordered_eq ..

theorem Fmt.cmpLe_eq (k : Fmt) (a b : Nat) :
    k.cmpLe a b = (!(k.dec a).isNan && !(k.dec b).isNan && (k.dec a).lt (k.dec b) ||
      !(k.dec a).isNan && !(k.dec b).isNan && (k.dec a).eq (k.dec b),
      if (k.dec a).isNan = true ∨ (k.dec b).isNan = true then flagNV else 0) :=
  (ordered_eq ..).trans (by rw [Bool.and_or_distrib_left])

/-- Whether two data meet a condition, by its number: a NaN is equal to no datum and below none. -/
def floatHolds (k : Fmt) (cond x y : Nat) : Bool :=
  let eq := !(k.dec x).isNan && !(k.dec y).isNan && (k.dec x).eq (k.dec y)
  let lt := !(k.dec x).isNan && !(k.dec y).isNan && (k.dec x).lt (k.dec y)
  match cond with
  | 0 => eq
  | 1 => !eq
  | 2 => lt
  | _ => lt || eq

/-- The flags of a comparison: an ordered condition is invalid for any NaN, the others for a signalling one. -/
def floatFlags (k : Fmt) (cond x y : Nat) : BitVec 5 :=
  if cond ≤ 1 then (if (k.dec x).isSnan ∨ (k.dec y).isSnan then flagNV else 0)
  else if (k.dec x).isNan ∨ (k.dec y).isNan then flagNV else 0

theorem fcmp_eq (k : Fmt) (cond : BitVec 2) (x y : Nat) :
    fcmp k cond x y = (floatHolds k cond.toNat x y, floatFlags k cond.toNat x y) := by
  simp only [fcmp, Fmt.cmpEq_eq, Fmt.cmpLt_eq, Fmt.cmpLe_eq]
  rcases cond_cases cond with rfl | rfl | rfl | rfl <;> rfl

/-! ## Predicates and widths (R125, R183, R184) -/

/-- What an instruction that writes a predicate leaves. -/
theorem State.does_pwrite {s : State} {i : Instr} {f : Form} {d : BitVec 5} {x : Pred}
    (he : exec i s = s.pwrite f d x) : s.Does i (s.setP (predName d) x) f.len (debit f.energy) 1 :=
  State.does_of_complete he

theorem State.setP_zero (s : State) (x : Pred) : s.setP 0 x = s := if_pos rfl

theorem State.pr_setP_self (s : State) {q : BitVec 3} (h : q ≠ 0) (x : Pred) : (s.setP q x).pr q = x := by
  rw [State.pr, if_neg h, State.setP, if_neg h, State.me_modMe]
  exact Vector.getElem_set_self ..

/-- p0 reads all true over the width (R125). -/
theorem State.getLsbD_pr_zero (s : State) {j : Nat} (h : j < 1024) : (s.pr 0).getLsbD j = decide (j < s.vbytes) := by
  rw [State.pr, if_pos rfl, BitVec.getLsbD_ofNat, Nat.testBit_two_pow_sub_one, decide_eq_true h, Bool.true_and]

/-- The first that a condition accepts, or their number where it accepts none. -/
theorem findIdx_range_eq_headD (p : Nat → Bool) (count : Nat) :
    (List.range count).findIdx p = ((List.range count).filter p).headD count := by
  rw [List.headD_eq_head?_getD, List.head?_filter]
  by_cases found : (List.range count).findIdx p < (List.range count).length
  · have first : (List.range count).find? p = some ((List.range count).findIdx p) := by
      rw [List.find?_range_eq_some]
      have holds := List.findIdx_getElem (w := found)
      rw [List.getElem_range] at holds
      refine ⟨holds, List.mem_range.mpr (by rwa [List.length_range] at found), fun j hj => ?_⟩
      have := List.not_of_lt_findIdx hj
      rw [List.getElem_range] at this
      rw [this]
      rfl
    rw [first]
    rfl
  · have none : (List.range count).find? p = none :=
      List.find?_eq_none.mpr fun i hi hp => found (List.findIdx_lt_length_of_exists ⟨i, hi, hp⟩)
    have all := Nat.le_antisymm List.findIdx_le_length (Nat.not_lt.mp found)
    rw [none, all, List.length_range]
    rfl

/-- Settles O32: a comparison merges what `icmp` and `fcmp` find of each element into the predicate that it names, and
the predicate instructions write what the rules above say of each lane or count of lanes. -/
theorem vectorComparisons : Obligations.VectorComparisons := by
  unfold Obligations.VectorComparisons
  refine ⟨fun s w v b fm h => ⟨?ints, ?floats⟩, fun s v =>
    ⟨?and, ?or, ?xor, ?not, ?count, ?first, ?bound, ?width, s.setP_zero, fun j => s.getLsbD_pr_zero,
      fun q x hq => s.pr_setP_self hq x⟩⟩
  case ints =>
    exact State.does_vcompare (f := w32 1 (.vcmp v)) (c := intHolds (intSize v.ty) (v.vd.extractLsb' 3 2).toNat)
      (fl := fun _ _ => 0) h (intSize_dvd v.ty) rfl (icmp_eq _ _)
  case floats =>
    have hn : (vfmt v.ty).width / 8 ∣ 8 := width_vfmt_div v.ty ▸ fpSize_dvd v.ty
    exact State.does_vcompare (f := w32 2 (.vcmpFp v)) (c := floatHolds (vfmt v.ty) (v.vd.extractLsb' 3 2).toNat)
      (fl := floatFlags (vfmt v.ty) (v.vd.extractLsb' 3 2).toNat) h hn (by rw [width_vfmt_div]; rfl) (fcmp_eq _ _)
  case and => exact State.does_pwrite (f := w32 0 (.pand v)) rfl
  case or => exact State.does_pwrite (f := w32 0 (.por v)) rfl
  case xor => exact State.does_pwrite (f := w32 0 (.pxor v)) rfl
  case not =>
    refine ⟨_, fun j hj => ?_, State.does_pwrite (f := w32 0 (.pnot v)) rfl⟩
    rw [BitVec.getLsbD_and, BitVec.getLsbD_not, State.allLanes, s.getLsbD_pr_zero hj, decide_eq_true hj, Bool.true_and,
      Bool.and_comm]
    rfl
  case count => exact State.does_alu (f := w32 0 (.pcount v)) rfl
  case first =>
    exact State.does_alu_eq (f := w32 0 (.pfirst v)) rfl (congrArg (BitVec.ofNat 64) (findIdx_range_eq_headD ..))
  case bound =>
    have hn := intSize_dvd v.ty
    refine ⟨_, fun j hj => ?_, State.does_pwrite (f := w32 0 (.vbound v)) rfl⟩
    have lanes := testBit_lanes (Nat.pos_of_dvd_of_pos hn (by decide))
      (fun i => decide ((s.g v.va).toNat + i < (s.g v.vb).toNat)) (s.vbytes / intSize v.ty) j
    simp only [decide_eq_true_eq] at lanes
    rw [BitVec.getLsbD_ofNat, decide_eq_true hj, Bool.true_and, lanes, decide_eq_decide.mpr (s.lane_div_lt_iff hn)]
    rfl
  case width => exact State.does_alu (f := w32 0 (.vwidth v)) rfl

end Sys2Proof.Machine
end
